-- ==== Sys2Proof/Word.lean ====
section
/-! DEFINITION. The plain types every file speaks in: bytes, station, client and lease numbers, and
the nine-bit cell of the station line (00_scope.md conventions, R87, R90). -/

namespace Sys2Proof

/-- A byte, most significant bit first on the line and on the port (R189). -/
abbrev Byte := BitVec 8

/-- A station number 0 to 15 (R2). -/
abbrev Station := Fin 16

/-- A client number 0 to 7 (R2). -/
abbrev Client := Fin 8

/-- A lease index 0 to 63 (R1). -/
abbrev Lease := Fin 64

/-- The mode of a holder or of a request (R3, R4). -/
inductive Mode
  | exclusive
  | shared
  deriving DecidableEq, Repr

/-- One cell as this station reads it: whether the mark bit read dominant (a recessive mark is a
mark error), and the eight data bits, most significant first, dominant 0 and recessive 1 (R86, R87). -/
structure LineCell where
  markDominant : Bool
  data : Byte
  deriving DecidableEq, Repr

end Sys2Proof
end

