-- ==== Sys2Proof/Config.lean ====
section
/-! DEFINITION. What the part fixes once for all: the counts and limits of the table "Principal
parameters" (00_scope.md). The manual leaves no value of a command open, so there is no free value here. -/

namespace Sys2Proof.Config

/-- Fence count given at a removal (R22). -/
def fenceCount : Nat := 4

/-- Holders of one lease at most (R3). -/
def holderLimit : Nat := 4

/-- Waiters of one lease at most (R4). -/
def waiterLimit : Nat := 8

/-- Counted attempts after which a slot is discarded (R119). -/
def attemptLimit : Nat := 16

/-- Entries of one RENEW frame at most (R121). -/
def renewEntryLimit : Nat := 8

/-- Bytes of a frame payload at most (R90). -/
def payloadLimit : Nat := 64

/-- Records of the notification queue at most (R184). -/
def noticeLimit : Nat := 32

/-- The OVERFLOW count stays here once it has come here (R187). -/
def overflowLimit : Nat := 255

/-- Timer lengths in tick periods (R73). -/
def tickPeriods : Nat := 1
def silencePeriods : Nat := 3
def foundingPeriods : Nat := 6
def pacingPeriods : Nat := 1
def holdOffPeriods : Nat := 8

/-- CLKIN cycles of one millisecond (R74). -/
def cyclesPerMs : Nat := 16000

/-- CLKIN cycles of the TICKOUT pulse of 1 µs (R79). -/
def tickoutCycles : Nat := 16

/-- CLKIN cycles from one claim sample to the next (R149). -/
def sampleCycles : Nat := 32

/-- Recessive bits of the quiet gap and of the courtesy gap (R88, R89). -/
def quietGapBits : Nat := 11
def courtesyGapBits : Nat := 22

/-- Recessive bits after which an edge is a start bit (R88). -/
def startGapBits : Nat := 10

/-- Bits of a cell: a mark and eight data bits (R87). -/
def cellBits : Nat := 9

/-- Cells of a frame beside its payload that its sender drives data bits in (R90). -/
def drivenCells : Nat := 5

/-- Term of the LINE bindings of an auto-started station (R131). -/
def autoStartTerm : Nat := 16

end Sys2Proof.Config
end

