-- ==== Sys2Proof/Syntax.lean ====
section
/-! DEFINITION. The commands: one constructor of `Instr` per row of spec/opcode_table.json, in the
table's order. The table gives its rows no operands; an operand here is what the row's rule says comes
with the event (argument bytes R191, strap pins R194, cells of a frame R90, opportunity R114). -/

namespace Sys2Proof

/-- The strap pins as read at the release of RESETn, an open pin reading 1 (R130, R194). -/
structure StrapPins where
  stn : BitVec 4
  nsz : BitVec 4
  tpr : BitVec 3
  brt : BitVec 2
  auto : BitVec 1
  deriving DecidableEq, Repr

/-- Which arbitration opportunity of R114 the line engine offers: the completion of the quiet gap, a
change of the slots while the line is idle, or the twenty-second recessive bit. -/
inductive Opportunity
  | quietGap
  | lineIdle
  | courtesyGap
  deriving DecidableEq, Repr

/-- The commands of the block: port requests with their argument bytes, and events. -/
inductive Instr
  /-- RESETn driven low (R132). -/
  | pinReset
  /-- RESETn released, the strap pins reading `pins` (R132, R130). -/
  | pinResetRelease (pins : StrapPins)
  /-- LSEL deasserted before the request was taken; `clocked` are the whole bytes clocked in (R165). -/
  | exchangeDiscarded (clocked : List Byte)
  | status
  | configureClient (client binding lease term : Byte)
  | configureWatch (mask : BitVec 64)
  | configureOptions (autoRejoin : Byte)
  | start
  | acquire (lease clientMode term patience : Byte)
  | release (lease client : Byte)
  | renew (lease client : Byte)
  | readLease (index : Byte)
  | readRoster
  | takeNotice
  | leave
  | rejoin
  | reset
  /-- A code that names no request (R166). -/
  | unknownRequest (code : Byte)
  /-- The deassertion of LSEL that ends a RESET exchange (R181). -/
  | softReset
  | attemptStart (opportunity : Opportunity)
  /-- The verdict has been read: `cells` are the cells from the header to the verdict as this station
  read them (R90, R103). -/
  | frameEnd (cells : List LineCell)
  | tickTimerExpiry
  | silenceTimerExpiry
  | foundingTimerExpiry
  | pacingTimerExpiry
  | holdOffTimerExpiry
  /-- The recognised claim of a client changes (R149). -/
  | claimAsserted (client : Client)
  | claimReleased (client : Client)
  /-- A recessive-to-dominant edge of the line with no frame in progress: another station's start edge when the gap
  has come to 10 recessive bits, else no start bit (R87, R88). -/
  | frameStartBit
  | quietGapComplete
  | tickoutPulseEnd
  deriving DecidableEq, Repr

end Sys2Proof
end

