-- ==== Sys2Proof/Decode.lean ====
section
/-! DEFINITION. Reading commands from bits. No row of the opcode table gives bits, so
`decodeTableWord` reads none. The bytes of a local-port exchange do spell the port's commands (R163,
R191): `requestOfBytes` reads them and `bytesOfRequest` writes them. -/

namespace Sys2Proof

/-- The command a table word spells: no row of spec/opcode_table.json gives bits. -/
def decodeTableWord (_nbits _w : Nat) : Option Instr := none

/-- Argument bytes of a request code: the tables of R163 and R191; `none` for an unassigned code. -/
def requestArgumentCount (code : Byte) : Option Nat :=
  match code.toNat with
  | 0x01 => some 0
  | 0x10 => some 4
  | 0x11 => some 8
  | 0x12 => some 1
  | 0x13 => some 0
  | 0x20 => some 4
  | 0x21 => some 2
  | 0x22 => some 2
  | 0x30 => some 1
  | 0x31 => some 0
  | 0x32 => some 0
  | 0x40 => some 0
  | 0x41 => some 0
  | 0x4F => some 0
  | _ => none

/-- Bytes after which an exchange that begins with `code` has its request taken (R164, R166). -/
def bytesToTake (code : Byte) : Nat := 1 + (requestArgumentCount code).getD 0

/-- The watch mask of the eight argument bytes, first byte bit 7 lease 63 (R191). -/
def maskOfBytes (b7 b6 b5 b4 b3 b2 b1 b0 : Byte) : BitVec 64 :=
  b7 ++ b6 ++ b5 ++ b4 ++ b3 ++ b2 ++ b1 ++ b0

/-- The command spelled by the bytes of one exchange up to its take (R163, R191); `none` when the
bytes are not those of exactly one taken request. -/
def requestOfBytes (bytes : List Byte) : Option Instr :=
  match bytes with
  | [] => none
  | code :: args =>
    match code.toNat, args with
    | 0x01, [] => some .status
    | 0x10, [c, b, l, t] => some (.configureClient c b l t)
    | 0x11, [b7, b6, b5, b4, b3, b2, b1, b0] =>
        some (.configureWatch (maskOfBytes b7 b6 b5 b4 b3 b2 b1 b0))
    | 0x12, [a] => some (.configureOptions a)
    | 0x13, [] => some .start
    | 0x20, [l, cm, t, p] => some (.acquire l cm t p)
    | 0x21, [l, c] => some (.release l c)
    | 0x22, [l, c] => some (.renew l c)
    | 0x30, [i] => some (.readLease i)
    | 0x31, [] => some .readRoster
    | 0x32, [] => some .takeNotice
    | 0x40, [] => some .leave
    | 0x41, [] => some .rejoin
    | 0x4F, [] => some .reset
    | _, [] => if requestArgumentCount code = none then some (.unknownRequest code) else none
    | _, _ => none

/-- The bytes the controller clocks in for a port request, code first (R191); `none` for an event. -/
def bytesOfRequest (i : Instr) : Option (List Byte) :=
  match i with
  | .status => some [0x01]
  | .configureClient c b l t => some [0x10, c, b, l, t]
  | .configureWatch m =>
      some [0x11, m.extractLsb' 56 8, m.extractLsb' 48 8, m.extractLsb' 40 8, m.extractLsb' 32 8,
        m.extractLsb' 24 8, m.extractLsb' 16 8, m.extractLsb' 8 8, m.extractLsb' 0 8]
  | .configureOptions a => some [0x12, a]
  | .start => some [0x13]
  | .acquire l cm t p => some [0x20, l, cm, t, p]
  | .release l c => some [0x21, l, c]
  | .renew l c => some [0x22, l, c]
  | .readLease i => some [0x30, i]
  | .readRoster => some [0x31]
  | .takeNotice => some [0x32]
  | .leave => some [0x40]
  | .rejoin => some [0x41]
  | .reset => some [0x4F]
  | .unknownRequest code => some [code]
  | .pinReset => none
  | .pinResetRelease _ => none
  | .exchangeDiscarded _ => none
  | .softReset => none
  | .attemptStart _ => none
  | .frameEnd _ => none
  | .tickTimerExpiry => none
  | .silenceTimerExpiry => none
  | .foundingTimerExpiry => none
  | .pacingTimerExpiry => none
  | .holdOffTimerExpiry => none
  | .claimAsserted _ => none
  | .claimReleased _ => none
  | .frameStartBit => none
  | .quietGapComplete => none
  | .tickoutPulseEnd => none

end Sys2Proof
end

