-- ==== Sys2Proof/Machine/State.lean ====
section
/-! DEFINITION. The state of one LC6416 station as plain data: every register, table, queue, counter,
mode and pin the spec gives it, and the queue of waiting commands. `State.reset` is the station right
after the release of a pin reset. -/

namespace Sys2Proof.Machine

/-! ### Station control (R129 to R131) -/

/-- The local state (R129). -/
inductive LocalState
  | standby
  | seeking
  | joining
  | member
  | leaving
  | detached
  deriving DecidableEq, Repr

/-- A client's binding; a LINE binding always asks with patience UNLIMITED (R147). -/
inductive Binding
  | port
  | line (lease : Lease) (mode : Mode) (term : Nat)
  deriving DecidableEq, Repr

/-- The configuration and its lock (R131). -/
structure Configuration where
  bindings : Vector Binding 8
  watch : BitVec 64
  autoRejoin : Bool
  locked : Bool
  deriving DecidableEq, Repr

/-! ### The lease table (R1 to R6) -/

/-- A tag names a holder or a waiter (R2). -/
structure Tag where
  station : Station
  client : Client
  deriving DecidableEq, Repr

/-- LIVE counts its term, FENCED its fence (R3). -/
inductive HolderStatus
  | live
  | fenced
  deriving DecidableEq, Repr

/-- A holder record (R3). -/
structure Holder where
  tag : Tag
  mode : Mode
  status : HolderStatus
  term : Nat
  remaining : Nat
  grant : BitVec 16
  deriving DecidableEq, Repr

/-- Patience left, or UNLIMITED (R4). -/
inductive Patience
  | ticks (n : Nat)
  | unlimited
  deriving DecidableEq, Repr

/-- A waiter record (R4). -/
structure Waiter where
  tag : Tag
  mode : Mode
  term : Nat
  patience : Patience
  deriving DecidableEq, Repr

/-- The content of a known lease entry: holders in grant order, waiters oldest first (R1). -/
structure LeaseEntry where
  counter : BitVec 16
  holders : List Holder
  waiters : List Waiter
  deriving DecidableEq, Repr

/-- The lease table: `none` is an unknown entry, which holds no content (R1, R57). -/
abbrev LeaseTable := Vector (Option LeaseEntry) 64

/-- What the lease table hands over, in its order (R10, R20): a result of one tag, a holder-set change
with the count of holders just after it (R186), or both. -/
inductive TableEvent
  | granted (lease : Lease) (tag : Tag) (grant : BitVec 16) (count : Nat)
  | queued (lease : Lease) (tag : Tag) (position : Nat)
  | deniedDuplicate (lease : Lease) (tag : Tag)
  | deniedBusy (lease : Lease) (tag : Tag)
  | deniedQueueFull (lease : Lease) (tag : Tag)
  | released (lease : Lease) (tag : Tag) (grant : BitVec 16) (count : Nat)
  | withdrawn (lease : Lease) (tag : Tag)
  | expired (lease : Lease) (tag : Tag) (grant : BitVec 16) (count : Nat)
  | fenceEnded (lease : Lease) (tag : Tag) (grant : BitVec 16) (count : Nat)
  | timedOut (lease : Lease) (tag : Tag)
  | leftWithStation (lease : Lease) (tag : Tag) (grant : BitVec 16) (count : Nat)
  deriving DecidableEq, Repr

/-! ### The roster (R31 to R33) -/

/-- The state of a station record (R31). -/
inductive RecordState
  | absent
  | joining
  | member
  deriving DecidableEq, Repr

/-- The progress of a JOINING record (R31). -/
inductive Progress
  | awaitingRoster
  | remaining (r : Nat)
  deriving DecidableEq, Repr

/-- A station record (R31). -/
structure StationRecord where
  state : RecordState
  miss : Fin 4
  progress : Option Progress
  deriving DecidableEq, Repr

/-- A known roster: header and sixteen records (R31, R33). -/
structure Roster where
  expected : Nat
  commits : BitVec 32
  ticks : BitVec 32
  cursor : Fin 65
  records : Vector StationRecord 16
  deriving DecidableEq, Repr

/-! ### Timers (R73) -/

/-- A timer; `left` is in CLKIN cycles (R73, R74). -/
inductive Timer
  | stopped
  | running (left : Nat)
  | expired
  deriving DecidableEq, Repr

/-- The five timers of the time unit (R73). -/
structure Timers where
  tick : Timer
  silence : Timer
  founding : Timer
  pacing : Timer
  holdOff : Timer
  deriving DecidableEq, Repr

/-! ### Frames and the line engine (R87 to R107) -/

/-- The assigned frame kinds (R93). -/
inductive FrameKind
  | tick
  | found
  | join
  | leave
  | snap
  | release
  | renew
  | acquire
  deriving DecidableEq, Repr

/-- A snapshot item (R55). -/
inductive SnapItem
  | roster (expected : Nat) (commits ticks : BitVec 32) (records : Vector StationRecord 16)
  | lease (index : Lease) (entry : LeaseEntry)
  deriving DecidableEq, Repr

/-- The decoded payload of a frame of each kind (R94, R190). -/
inductive FrameBody
  | tick
  | found (expected : Nat)
  | join
  | leave
  | snap (item : SnapItem)
  | release (lease : Lease) (client : Client)
  | renew (entries : List (Lease × Client))
  | acquire (lease : Lease) (client : Client) (mode : Mode) (term : Nat) (patience : Nat)
  deriving DecidableEq, Repr

/-- What a station reads at a verdict (R102). -/
inductive Verdict
  | commit
  | refuse
  | void
  | abandoned
  | unreadable
  deriving DecidableEq, Repr

/-- The outcome of an own attempt (R107). -/
inductive AttemptOutcome
  | lost
  | aborted
  | voided
  | committed
  | refused
  deriving DecidableEq, Repr

/-- What is fixed for a station at a frame's start bit (R87): its local state, the required set and the
commit count of its roster if known (R36, R96), and its source duty (R99). -/
structure Role where
  localState : LocalState
  required : Option (List Station)
  commits : Option (BitVec 32)
  duty : Bool
  deriving DecidableEq, Repr

/-- The frame this station is sending: its slot, and the bytes of the header to the second CRC cell as
driven (R90, R115). -/
structure Transmission where
  slot : Fin 8
  bytes : List Byte
  deriving DecidableEq, Repr

/-- The role of the line engine (section 5.10). A sender's loss or abort during the frame is read from
its cells at the frame end (R91, R92). -/
inductive LinePhase
  | counting
  | idle
  | receiving (role : Role)
  | sending (role : Role) (tx : Transmission)
  deriving DecidableEq, Repr

/-- The frame-end report (R103). -/
structure FrameReport where
  kindCode : BitVec 4
  sender : Station
  payload : Option FrameBody
  whole : Bool
  divergence : Bool
  acknowledged : Bool
  selfRequired : Bool
  ackMap : BitVec 16
  verdict : Verdict
  required : Option (List Station)
  verdictDriven : Option Byte
  attempt : Option AttemptOutcome
  deriving DecidableEq, Repr

/-- The line engine's own state (section 5.10). `markBits` are the bits from the frame end to the end of the extent of
the length an aborted sender sent: it drives a mark in each ninth of them (R90, R92). -/
structure LineEngine where
  phase : LinePhase
  gapBits : Nat
  bitCycles : Nat
  courtesyPending : Bool
  markBits : Nat
  report : Option FrameReport
  deriving DecidableEq, Repr

/-! ### The outbound queue (R111, R125) -/

/-- Kind and parameters of an occupied slot (R111). -/
inductive SlotContent
  | acquire (lease : Lease) (client : Client) (mode : Mode) (term : Nat) (patience : Nat)
  | release (lease : Lease) (client : Client)
  | renew (entries : List (Lease × Client))
  | tick
  | found
  | join
  | leave
  | snap
  deriving DecidableEq, Repr

/-- An occupied slot (R111); a smaller `age` was placed earlier. -/
structure Slot where
  content : SlotContent
  age : Nat
  attempts : Nat
  inAttempt : Bool
  opened : Bool
  deriving DecidableEq, Repr

/-- A waiting need of a line client (R125). -/
inductive NeedKind
  | acquire
  | release
  deriving DecidableEq, Repr

/-- The outbound queue: slots 0 to 5 general, 6 tick, 7 membership; the need list by client (R111, R125). -/
structure OutboundQueue where
  slots : Vector (Option Slot) 8
  nextAge : Nat
  needs : Vector (Option NeedKind) 8
  deriving DecidableEq, Repr

/-- The queue's answer to a placing request (R120 to R122). -/
inductive QueueAnswer
  | queued (slot : Fin 8)
  | cancelled
  | duplicate
  | slotsFull
  | notPresent
  | renewFull
  deriving DecidableEq, Repr

/-! ### The client unit (R148) -/

/-- The seven line-client states (R150). -/
inductive ClientState
  | idle
  | asking
  | waiting
  | holding
  | releasing
  | revoked
  | refused
  deriving DecidableEq, Repr

/-- A line-client record; `recognised` is true for ASSERTED (R148). -/
structure LineClient where
  recognised : Bool
  deglitch : Fin 8
  state : ClientState
  reclaim : Bool
  deriving DecidableEq, Repr

/-! ### The local port and the notification queue (R163, R183) -/

/-- The exchange whose request has been taken: its code and the response built at the take (R164). -/
structure Exchange where
  code : Byte
  response : List Byte
  deriving DecidableEq, Repr

/-- The serial side of the port: whether LSEL selects it, the bits of the byte in progress, the bytes clocked in before
the take, the bytes shifted out since it, and the level of LDO, `none` while it is not driven (R162, R163). -/
structure SerialPort where
  selected : Bool
  bits : List Bool
  bytes : List Byte
  shifted : Nat
  ldo : Option Bool
  deriving DecidableEq, Repr

/-- LSEL deasserted, LDO not driven (R162, R163). -/
def SerialPort.free : SerialPort where
  selected := false
  bits := []
  bytes := []
  shifted := 0
  ldo := none

/-- LSEL asserted, and no bit clocked since: at the assertion, and at the take, after which the response is counted.
LDO reads 1 (R162, R163). -/
def SerialPort.begun : SerialPort where
  selected := true
  bits := []
  bytes := []
  shifted := 0
  ldo := some true

/-- The phases of an exchange (R163). -/
inductive PortPhase
  | free
  | code
  | arguments (due : Nat)
  | taken
  | response
  | filler
  deriving DecidableEq, Repr

/-- What the controller does on the wires of the port: a level of LSEL, an edge of LCLK with LDI at the rising one, or
nothing in one cycle of CLKIN (R162). -/
inductive PortInput
  | lselHigh
  | lselLow
  | lclkRise (ldi : Bool)
  | lclkFall
  | pause
  deriving DecidableEq, Repr

/-- Reasons of DENIED (R193). -/
inductive DenyReason
  | busy
  | queueFull
  | duplicate
  deriving DecidableEq, Repr

/-- Reasons of WITHDRAWN (R193). -/
inductive WithdrawReason
  | localRequest
  | committed
  | notPresent
  deriving DecidableEq, Repr

/-- Reasons of REVOKED (R193). -/
inductive RevokeReason
  | isolated
  | removed
  | diverged
  | tailError
  | foreign
  | leaving
  deriving DecidableEq, Repr

/-- Reasons of ROSTER (R193). -/
inductive RosterReason
  | joined
  | member
  | left
  | removed
  | deniedFull
  deriving DecidableEq, Repr

/-- The kind and fields of a notice (R183). -/
inductive NoticeBody
  | granted (lease : Lease) (client : Client) (grant : BitVec 16)
  | queued (lease : Lease) (client : Client) (position : Nat)
  | denied (lease : Lease) (client : Client) (reason : DenyReason)
  | timedOut (lease : Lease) (client : Client)
  | released (lease : Lease) (client : Client) (grant : BitVec 16)
  | withdrawn (lease : Lease) (client : Client) (reason : WithdrawReason)
  | expired (lease : Lease) (client : Client) (grant : BitVec 16)
  | revoked (lease : Lease) (client : Client) (grant : BitVec 16) (reason : RevokeReason)
  | sendFailedAcquire (lease : Lease) (client : Client)
  | sendFailedRelease (lease : Lease) (client : Client)
  | sendFailedRenew
  | sendFailedJoin
  | sendFailedLeave
  | watch (lease : Lease) (tag : Tag) (grant : BitVec 16) (added : Bool) (count : Nat)
  | roster (station : Station) (reason : RosterReason)
  | state (value : LocalState)
  | overflow (count : Nat)
  deriving DecidableEq, Repr

/-- A notice record (R183). -/
structure Notice where
  stamp : BitVec 16
  body : NoticeBody
  deriving DecidableEq, Repr

/-! ### Self-ejection (R143) -/

/-- The self-ejection triggers (R143). -/
inductive Trigger
  | tailError
  | diverged
  | foreign
  | removed
  | isolated
  deriving DecidableEq, Repr

/-- Why a teardown is made (R144). -/
inductive TeardownCause
  | trigger (t : Trigger)
  | leaveCompleted
  deriving DecidableEq, Repr

/-- What the application of one frame end reports to the other blocks (R39, R104): ROSTER notices, the
lease table's hand-over, and what station control and the time unit are told. -/
structure FrameEffect where
  rosterNotices : List NoticeBody := []
  events : List TableEvent := []
  tickApplied : Bool := false
  membersRemoved : Bool := false
  admitted : Bool := false
  leaveCompleted : Bool := false
  trigger : Option Trigger := none
  deriving DecidableEq, Repr

/-! ### The state -/

/-- The whole station. Pins are held at their asserted meaning: true is asserted for CLAIM and GRANT,
high for SYNC and NOTICE; `tickout` is the CLKIN cycles left of the pulse while TICKOUT is high. `lineInput` is the input
LRX between frames: whether the other stations drive dominant in each coming bit time, the one that runs first; past
its end nobody drives (R86, R88) (DESIGN CHOICE, log entry 25). `claimInput` is the levels the equipment puts on the
claim pins in each coming cycle of CLKIN, the one that runs first; past its end the pins keep their levels (R149)
(DESIGN CHOICE, log entry 35). `portInput` is what the controller does next on the
wires of the local port (R162) (DESIGN CHOICE, log entry 34). -/
structure State where
  pending : List Instr
  resetLow : Bool
  straps : StrapPins
  config : Configuration
  localState : LocalState
  joinEvidence : Bool
  leases : LeaseTable
  roster : Option Roster
  sourceDuty : Bool
  timers : Timers
  line : LineEngine
  queue : OutboundQueue
  clients : Vector LineClient 8
  claimPins : Vector Bool 8
  claimInput : List (Vector Bool 8)
  lineInput : List Bool
  sampleCycles : Nat
  exchange : Option Exchange
  serial : SerialPort
  portInput : List PortInput
  notices : List Notice
  grant : Vector Bool 8
  sync : Bool
  notice : Bool
  tickout : Option Nat
  deriving DecidableEq, Repr

/-- The spec describes no condition that stops the station: no fault is ever raised. -/
inductive Fault
  deriving DecidableEq, Repr

/-- Why a command has no meaning here. -/
inductive Refusal
  /-- Raised by `exec`'s arm of a command without a meaning, naming its mnemonic; safe. No arm raises it. -/
  | notModelled (mnemonic : String)
  deriving DecidableEq, Repr

/-- The configuration after a reset with the auto-start strap off (R131). -/
def Configuration.portOnly : Configuration where
  bindings := Vector.replicate 8 .port
  watch := 0
  autoRejoin := false
  locked := false

/-- The configuration after a reset with the auto-start strap on: client c LINE-bound to lease c, EXCLUSIVE,
term 16 (R131). -/
def Configuration.lineBound : Configuration where
  bindings := Vector.ofFn fun c : Client => .line (c.castLE (by omega)) .exclusive Config.autoStartTerm
  watch := 0
  autoRejoin := true
  locked := false

/-- All five timers STOPPED (R73). -/
def Timers.allStopped : Timers where
  tick := .stopped
  silence := .stopped
  founding := .stopped
  pacing := .stopped
  holdOff := .stopped

/-- The line engine after any reset: the gap is counted from the next recessive bit, no report, no
courtesy gap pending (R109, section 5.10). -/
def LineEngine.afterReset : LineEngine where
  phase := .counting
  gapBits := 0
  bitCycles := 0
  courtesyPending := false
  markBits := 0
  report := none

/-- All slots empty, no need waiting (R128). -/
def OutboundQueue.empty : OutboundQueue where
  slots := Vector.replicate 8 none
  nextAge := 0
  needs := Vector.replicate 8 none

/-- A line-client record after a reset (R148). -/
def LineClient.afterReset : LineClient where
  recognised := false
  deglitch := 0
  state := .idle
  reclaim := false

/-- The station right after the release of a pin reset with every strap pin left open: each reads 1 (R194), so
station 15, expected size 15, 200 ms, 1000 kbit/s, and auto-start, which has taken START (R132, R133). That the
pins are open is DESIGN CHOICE, log entry 1; the values the spec does not state are in log entry 2. -/
def State.reset : State where
  pending := []
  resetLow := false
  straps := { stn := 0xF, nsz := 0xF, tpr := 7, brt := 3, auto := 1 }
  config := { Configuration.lineBound with locked := true }
  localState := .seeking
  joinEvidence := false
  leases := Vector.replicate 64 none
  roster := none
  sourceDuty := false
  timers := { Timers.allStopped with founding := .running (Config.cyclesPerMs * Config.foundingPeriods * 200) }
  line := LineEngine.afterReset
  queue := OutboundQueue.empty
  clients := Vector.replicate 8 LineClient.afterReset
  claimPins := Vector.replicate 8 false
  claimInput := []
  lineInput := []
  sampleCycles := 0
  exchange := none
  serial := SerialPort.free
  portInput := []
  notices := [{ stamp := 0, body := .state .seeking }]
  grant := Vector.replicate 8 false
  sync := false
  notice := true
  tickout := none

end Sys2Proof.Machine
end

