-- ==== Sys2Proof/Machine/Operands.lean ====
section
/-! DEFINITION. Reading the operands of the commands: strap pins (R194), argument bytes of the local port
(R191, R192) and the cells of a frame (R90). -/

namespace Sys2Proof.Machine

/-! ### Straps (R130, R194) -/

/-- The station's own number (R130). -/
def stationNumber (s : State) : Station := ⟨s.straps.stn.toNat, s.straps.stn.isLt⟩

/-- The strapped expected size, strap value 0 standing for 16 (R130, R194). -/
def expectedSize (s : State) : Nat :=
  if s.straps.nsz = 0 then 16 else s.straps.nsz.toNat

/-- The tick period in milliseconds (R74, R194). -/
def tickPeriodMs (s : State) : Nat :=
  match s.straps.tpr.toNat with
  | 0 => 1
  | 1 => 2
  | 2 => 5
  | 3 => 10
  | 4 => 20
  | 5 => 50
  | 6 => 100
  | _ => 200

/-- CLKIN cycles of one bit time: 8, 4, 2 or 1 µs at 16 MHz (R86, R194). -/
def cyclesPerBit (s : State) : Nat :=
  match s.straps.brt.toNat with
  | 0 => 128
  | 1 => 64
  | 2 => 32
  | _ => 16

/-- The auto-start strap (R130). -/
def autoStart (s : State) : Bool := s.straps.auto = 1

/-! ### Argument bytes (R192) -/

/-- A whole-byte lease or index field, in range only as a whole byte (R192). -/
def leaseOfByte (b : Byte) : Option Lease :=
  if h : b.toNat < 64 then some ⟨b.toNat, h⟩ else none

/-- A whole-byte client field (R192). -/
def clientOfByte (b : Byte) : Option Client :=
  if h : b.toNat < 8 then some ⟨b.toNat, h⟩ else none

/-- The client in bits 2 to 0 (R190). -/
def clientOfLowBits (b : Byte) : Client := ⟨(b.extractLsb' 0 3).toNat, (b.extractLsb' 0 3).isLt⟩

/-- The station in bits 7 to 4 (R190). -/
def stationOfHighBits (b : Byte) : Station := ⟨(b.extractLsb' 4 4).toNat, (b.extractLsb' 4 4).isLt⟩

/-- The station in bits 3 to 0 of a frame header (R90). -/
def stationOfLowBits (b : Byte) : Station := ⟨(b.extractLsb' 0 4).toNat, (b.extractLsb' 0 4).isLt⟩

/-- A mode bit: 0 EXCLUSIVE, 1 SHARED (R190). -/
def modeOfBit (shared : Bool) : Mode := if shared then .shared else .exclusive

/-- The binding of CONFIGURE_CLIENT's bytes; the lease and term of a PORT binding are don't care (R169, R192). -/
def bindingOfBytes (binding lease term : Byte) : Option Binding :=
  if binding = 0x00 then some .port
  else if binding = 0x01 ∨ binding = 0x02 then
    match leaseOfByte lease with
    | none => none
    | some l =>
      if term = 0 then none
      else some (.line l (modeOfBit (binding = 0x02)) term.toNat)
  else none

/-! ### Cells of a frame (R90) -/

/-- The undriven line reads recessive in every bit (R86). -/
def undrivenCell : LineCell := { markDominant := false, data := 0xFF }

/-- Cell `i` of a frame as read (DEDUCED, log entry 5). -/
def readCell (cells : List LineCell) (i : Nat) : LineCell := cells.getD i undrivenCell

/-- Payload cells, placed from the length cell as read; over 64 counts as none (R90). -/
def payloadCells (cells : List LineCell) : Nat :=
  let n := (readCell cells 2).data.toNat
  if n ≤ Config.payloadLimit then n else 0

/-- The data bytes of cells `first` to `first + n - 1`. -/
def readBytes (cells : List LineCell) (first n : Nat) : List Byte :=
  (List.range n).map fun i => (readCell cells (first + i)).data

/-- No mark error in cells `first` to `first + n - 1` (R87). -/
def marksDominant (cells : List LineCell) (first n : Nat) : Bool :=
  (List.range n).all fun i => (readCell cells (first + i)).markDominant

/-- The ack map as read: bit s is station s, 0 dominant (R97). -/
def ackMapRead (cells : List LineCell) : BitVec 16 :=
  let p := payloadCells cells
  (readCell cells (5 + p)).data ++ (readCell cells (6 + p)).data

/-- Station `s` drove its acknowledgement bit dominant (R97). -/
def acked (ackMap : BitVec 16) (s : Station) : Bool := !ackMap.getLsbD s.val

/-- The verdict cell as read (R90). -/
def verdictCell (cells : List LineCell) : LineCell := readCell cells (7 + payloadCells cells)

end Sys2Proof.Machine
end

