-- ==== Sys2Proof/Machine/Ops.lean ====
section
/-! DEFINITION. Operations every block uses: the counts and stamps of the roster header, the arrival of
a notice, starting a timer, reading the lease table, reading and writing the small tables. -/

namespace Sys2Proof.Machine

/-! ### Numbered tables -/

/-- All stations, clients and leases in ascending order. -/
def allStations : List Station := List.finRange 16
def allClients : List Client := List.finRange 8
def allLeases : List Lease := List.finRange 64

/-! ### Header values (R33, R34) -/

/-- The commit count, 0 while the roster is unknown (R33). -/
def commitCount (s : State) : BitVec 32 :=
  match s.roster with
  | none => 0
  | some r => r.commits

/-- The low 16 bits of the commit count: the commit stamp (R183). -/
def commitStamp (s : State) : BitVec 16 := (commitCount s).setWidth 16

/-! ### Arrival of a notice (R187) -/

/-- An OVERFLOW record. -/
def Notice.isOverflow (n : Notice) : Bool :=
  match n.body with
  | .overflow _ => true
  | _ => false

/-- One more notice counted into an OVERFLOW record; the stamp stays (R187). -/
def Notice.countOne (n : Notice) : Notice :=
  match n.body with
  | .overflow c => { n with body := .overflow (min (c + 1) Config.overflowLimit) }
  | _ => n

/-- The queue after a notice arrives, by the table of R187. -/
def arrive (n : Notice) (q : List Notice) : List Notice :=
  if q.any Notice.isOverflow then q.map Notice.countOne
  else if q.length + 1 < Config.noticeLimit then q ++ [n]
  else q ++ [{ stamp := n.stamp, body := .overflow 1 }]

/-- A notice with a given stamp is produced. -/
def notifyStamped (stamp : BitVec 16) (b : NoticeBody) (s : State) : State :=
  { s with notices := arrive { stamp := stamp, body := b } s.notices }

/-- A notice is produced now: its stamp is the commit count as it stands (R183). -/
def notify (b : NoticeBody) (s : State) : State := notifyStamped (commitStamp s) b s

/-- Several notices of one event, in order (R185). -/
def notifyAll (bs : List NoticeBody) (s : State) : State := bs.foldl (fun s b => notify b s) s

/-! ### Timers (R73, R74) -/

/-- A timer started with a length of `periods` tick periods (R74). -/
def startTimer (s : State) (periods : Nat) : Timer :=
  .running (Config.cyclesPerMs * periods * tickPeriodMs s)

/-- The timer is RUNNING. -/
def Timer.isRunning (t : Timer) : Bool :=
  match t with
  | .running _ => true
  | _ => false

/-! ### The line (section 5.10) -/

/-- A frame is in progress at the station (R81). -/
def frameInProgress (s : State) : Bool :=
  match s.line.phase with
  | .counting | .idle => false
  | .receiving _ | .sending _ _ => true

/-! ### Reading the lease table (R28) -/

/-- The tag of this station with client `c`. -/
def ownTag (s : State) (c : Client) : Tag := { station := stationNumber s, client := c }

/-- The tag is present in the entry as a holder, LIVE or FENCED, or as a waiter. -/
def LeaseEntry.hasTag (e : LeaseEntry) (t : Tag) : Bool :=
  e.holders.any (fun h => h.tag = t) || e.waiters.any (fun w => w.tag = t)

/-- The record is a LIVE holder record of the tag. -/
def Holder.isLiveOf (t : Tag) (h : Holder) : Bool := h.tag = t && h.status = .live

/-- The LIVE holder record of the tag in the entry. -/
def LeaseEntry.liveHolder (e : LeaseEntry) (t : Tag) : Option Holder :=
  e.holders.find? (Holder.isLiveOf t)

/-- The tag is present in the replica's entry of lease `l`. -/
def tagPresent (s : State) (l : Lease) (t : Tag) : Bool :=
  match s.leases[l] with
  | none => false
  | some e => e.hasTag t

/-- The LIVE holder record of the tag in the replica's entry of lease `l`. -/
def liveHolderOf (s : State) (l : Lease) (t : Tag) : Option Holder :=
  match s.leases[l] with
  | none => none
  | some e => e.liveHolder t

/-- The LIVE holder records of this station's tags, by ascending lease and in the order of the holder
list (R139, R144). -/
def ownLiveHolds (s : State) : List (Lease × Holder) :=
  allLeases.flatMap fun l =>
    match s.leases[l] with
    | none => []
    | some e =>
      (e.holders.filter fun h => h.tag.station = stationNumber s && h.status = .live).map fun h => (l, h)

/-! ### Line clients -/

/-- Lease, mode and term of a LINE binding (R147). -/
def lineBinding (s : State) (c : Client) : Option (Lease × Mode × Nat) :=
  match s.config.bindings[c] with
  | .port => none
  | .line l m t => some (l, m, t)

/-- The state of client `c` becomes `x`. -/
def setClientState (c : Client) (x : ClientState) (s : State) : State :=
  { s with clients := s.clients.set c { s.clients[c] with state := x } }

/-- The reclaim flag of client `c` becomes `b` (R155). -/
def setReclaim (c : Client) (b : Bool) (s : State) : State :=
  { s with clients := s.clients.set c { s.clients[c] with reclaim := b } }

end Sys2Proof.Machine
end

