-- ==== Sys2Proof/Machine/LeaseTable.lean ====
section
/-! DEFINITION. The lease table (01_the_lease_table.md): the advance procedure, the effects of committed
ACQUIRE, RELEASE, RENEW and TICK frames on one entry, the purges and founding, and their use over the
whole table. -/

namespace Sys2Proof.Machine

/-- The derived state of an entry (R5). -/
inductive DerivedState
  | free
  | exclusive
  | shared
  deriving DecidableEq, Repr

/-- The derived state, from the holder records of both statuses (R5). -/
def derivedState (holders : List Holder) : DerivedState :=
  if holders = [] then .free
  else if holders.any (fun h => h.mode = .exclusive) then .exclusive
  else .shared

/-- A request of mode `m` is compatible with the holders (R5). -/
def compatible (holders : List Holder) (m : Mode) : Bool :=
  match derivedState holders with
  | .free => true
  | .exclusive => false
  | .shared => m = .shared && holders.length < Config.holderLimit

/-- The grant number after `c`; never 0 (R6). -/
def nextGrant (c : BitVec 16) : BitVec 16 := if c = 0xFFFF then 1 else c + 1

/-- The holder record of a grant made now (R7, R12). -/
def grantedHolder (tag : Tag) (mode : Mode) (term : Nat) (grant : BitVec 16) : Holder :=
  { tag := tag, mode := mode, status := .live, term := term, remaining := term, grant := grant }

/-- A grant: the record joins at the end with the next grant number, and the counter advances (R6, R7). -/
def grantTo (tag : Tag) (mode : Mode) (term : Nat) (e : LeaseEntry) : LeaseEntry :=
  { e with
    counter := nextGrant e.counter
    holders := e.holders ++ [grantedHolder tag mode term (nextGrant e.counter)] }

/-- The grant reported, with the count of holders after it (R10, R186). -/
def grantEvent (l : Lease) (tag : Tag) (e : LeaseEntry) : TableEvent :=
  .granted l tag (nextGrant e.counter) (e.holders.length + 1)

/-- The advance procedure with the waiter queue `ws` (R7): grant heads while the entry admits them. -/
def advanceQueue (l : Lease) (ws : List Waiter) (e : LeaseEntry) : LeaseEntry × List TableEvent :=
  match ws with
  | [] => ({ e with waiters := [] }, [])
  | w :: rest =>
    if compatible e.holders w.mode then
      let next := advanceQueue l rest (grantTo w.tag w.mode w.term e)
      (next.1, grantEvent l w.tag e :: next.2)
    else ({ e with waiters := w :: rest }, [])

/-- The advance procedure on one entry (R7). -/
def advance (l : Lease) (e : LeaseEntry) : LeaseEntry × List TableEvent :=
  advanceQueue l e.waiters e

/-! ### ACQUIRE, RELEASE, RENEW (R11 to R17) -/

/-- The patience of a waiter made from a request's patience byte (R12). -/
def patienceOf (p : Nat) : Patience := if p = 255 then .unlimited else .ticks p

/-- A committed ACQUIRE against its entry: the checks of R11 in their order. -/
def acquireEntry (l : Lease) (tag : Tag) (mode : Mode) (term patience : Nat) (e : LeaseEntry) :
    LeaseEntry × List TableEvent :=
  if e.hasTag tag then (e, [.deniedDuplicate l tag])
  else if e.waiters = [] ∧ compatible e.holders mode then
    (grantTo tag mode term e, [grantEvent l tag e])
  else if patience = 0 then (e, [.deniedBusy l tag])
  else if Config.waiterLimit ≤ e.waiters.length then (e, [.deniedQueueFull l tag])
  else
    ({ e with waiters := e.waiters ++ [{ tag := tag, mode := mode, term := term, patience := patienceOf patience }] },
      [.queued l tag (e.waiters.length + 1)])

/-- A committed RELEASE against its entry: a LIVE holder (R14), a waiter (R15), neither (R16). -/
def releaseEntry (l : Lease) (tag : Tag) (e : LeaseEntry) : LeaseEntry × List TableEvent :=
  match e.liveHolder tag with
  | some h =>
    let out := advance l { e with holders := e.holders.eraseP (Holder.isLiveOf tag) }
    (out.1, .released l tag h.grant (e.holders.length - 1) :: out.2)
  | none =>
    if e.waiters.any (fun w => w.tag = tag) then
      let out := advance l { e with waiters := e.waiters.eraseP fun w => w.tag = tag }
      (out.1, .withdrawn l tag :: out.2)
    else (e, [])

/-- A committed RENEW entry: a LIVE holder's remaining is set to its term (R17). -/
def renewEntry (tag : Tag) (e : LeaseEntry) : LeaseEntry :=
  { e with holders := e.holders.map fun h => if Holder.isLiveOf tag h then { h with remaining := h.term } else h }

/-! ### TICK (R18 to R20) -/

/-- The count-down of one waiter (R18). -/
def countDownWaiter (w : Waiter) : Waiter :=
  match w.patience with
  | .unlimited => w
  | .ticks n => { w with patience := .ticks (n - 1) }

/-- A waiter whose patience has run out (R19). -/
def outOfPatience (w : Waiter) : Bool := w.patience = .ticks 0

/-- First part of the TICK event: every record counts down (R18). -/
def countDown (e : LeaseEntry) : LeaseEntry :=
  { e with
    holders := e.holders.map fun h => { h with remaining := h.remaining - 1 }
    waiters := e.waiters.map countDownWaiter }

/-- The expiries and ends of fences of one entry that held `n` holders, in list order (R19, R20). -/
def expiryEvents (l : Lease) (n : Nat) (gone : List Holder) : List TableEvent :=
  match gone with
  | [] => []
  | h :: rest =>
    (match h.status with
     | .live => .expired l h.tag h.grant (n - 1)
     | .fenced => .fenceEnded l h.tag h.grant (n - 1)) :: expiryEvents l (n - 1) rest

/-- A committed TICK on one entry: count-down, removals, advance (R18 to R20). -/
def tickEntry (l : Lease) (e : LeaseEntry) : LeaseEntry × List TableEvent :=
  let counted := countDown e
  let gone := counted.holders.filter fun h => h.remaining = 0
  let late := counted.waiters.filter outOfPatience
  if gone = [] ∧ late = [] then (counted, [])
  else
    let out := advance l
      { counted with
        holders := counted.holders.filter fun h => h.remaining ≠ 0
        waiters := counted.waiters.filter fun w => !outOfPatience w }
    (out.1, expiryEvents l counted.holders.length gone ++ late.map (fun w => .timedOut l w.tag) ++ out.2)

/-! ### Purges (R22, R23, R26) -/

/-- The holder is a LIVE holder of one of the stations. -/
def liveHolderIn (stations : List Station) (h : Holder) : Bool :=
  h.status = .live && stations.contains h.tag.station

/-- The waiter is one of a station of the list. -/
def waiterIn (stations : List Station) (w : Waiter) : Bool := stations.contains w.tag.station

/-- The removal purge of several stations together on one entry (R22, R23). -/
def removalPurge (stations : List Station) (l : Lease) (e : LeaseEntry) : LeaseEntry × List TableEvent :=
  if e.holders.any (liveHolderIn stations) || e.waiters.any (waiterIn stations) then
    advance l
      { e with
        holders := e.holders.map fun h =>
          if liveHolderIn stations h then { h with status := .fenced, remaining := Config.fenceCount } else h
        waiters := e.waiters.filter fun w => !waiterIn stations w }
  else (e, [])

/-- The holder-set changes of a leave purge on an entry that held `n` holders (R26). -/
def leftEvents (l : Lease) (n : Nat) (gone : List Holder) : List TableEvent :=
  match gone with
  | [] => []
  | h :: rest => .leftWithStation l h.tag h.grant (n - 1) :: leftEvents l (n - 1) rest

/-- The leave purge of a station on one entry (R26) (DESIGN CHOICE, log entry 14). -/
def leavePurge (station : Station) (l : Lease) (e : LeaseEntry) : LeaseEntry × List TableEvent :=
  if e.holders.any (liveHolderIn [station]) || e.waiters.any (waiterIn [station]) then
    let out := advance l
      { e with
        holders := e.holders.filter fun h => !liveHolderIn [station] h
        waiters := e.waiters.filter fun w => !waiterIn [station] w }
    (out.1, leftEvents l e.holders.length (e.holders.filter (liveHolderIn [station])) ++ out.2)
  else (e, [])

/-! ### The whole table -/

/-- The operation on one entry; an unknown entry is left as it is (R1, R9). -/
def updateLease (l : Lease) (f : LeaseEntry → LeaseEntry × List TableEvent) (t : LeaseTable) :
    LeaseTable × List TableEvent :=
  match t[l] with
  | none => (t, [])
  | some e => (t.set l (some (f e).1), (f e).2)

/-- The operation on every known entry; results in ascending lease index (R8, R20). -/
def updateAllLeases (f : Lease → LeaseEntry → LeaseEntry × List TableEvent) (t : LeaseTable) :
    LeaseTable × List TableEvent :=
  (Vector.ofFn fun l : Lease => (t[l]).map fun e => (f l e).1,
    allLeases.flatMap fun l =>
      match t[l] with
      | none => []
      | some e => (f l e).2)

/-- A committed RENEW, entry by entry in the order of the payload (R17). -/
def renewLeases (station : Station) (entries : List (Lease × Client)) (t : LeaseTable) : LeaseTable :=
  entries.foldl
    (fun t lc => (updateLease lc.1 (fun e => (renewEntry { station := station, client := lc.2 } e, [])) t).1) t

/-- All 64 entries unknown (R1). -/
def unknownLeases : LeaseTable := Vector.replicate 64 none

/-- All 64 entries known and FREE, grant counters 0 (R27). -/
def foundedLeases : LeaseTable :=
  Vector.replicate 64 (some { counter := 0, holders := [], waiters := [] })

end Sys2Proof.Machine
end

