-- ==== Sys2Proof/Machine/Formats.lean ====
section
/-! DEFINITION. The byte layouts (11_formats_straps_and_pins.md): frame headers and payloads with their
range checks (R93, R94, R56, R190), the CRC (R95), the notice record (R193) and the state codes (R192). -/

namespace Sys2Proof.Machine

/-! ### Multi-byte values (R189) -/

def bytesOf16 (x : BitVec 16) : List Byte := [x.extractLsb' 8 8, x.extractLsb' 0 8]

def bytesOf32 (x : BitVec 32) : List Byte :=
  [x.extractLsb' 24 8, x.extractLsb' 16 8, x.extractLsb' 8 8, x.extractLsb' 0 8]

def word16 (hi lo : Byte) : BitVec 16 := hi ++ lo

def word32 (a b c d : Byte) : BitVec 32 := a ++ b ++ c ++ d

/-- A count as one byte. -/
def byteOf (n : Nat) : Byte := BitVec.ofNat 8 n

/-! ### Kinds (R90, R93) -/

/-- The kind code (R93). -/
def kindCode (k : FrameKind) : BitVec 4 :=
  match k with
  | .tick => 0x1
  | .found => 0x2
  | .join => 0x3
  | .leave => 0x4
  | .snap => 0x5
  | .release => 0x6
  | .renew => 0x7
  | .acquire => 0x8

/-- The kind of an assigned code (R93). -/
def kindOfCode (c : BitVec 4) : Option FrameKind :=
  match c.toNat with
  | 1 => some .tick
  | 2 => some .found
  | 3 => some .join
  | 4 => some .leave
  | 5 => some .snap
  | 6 => some .release
  | 7 => some .renew
  | 8 => some .acquire
  | _ => none

/-- The kind of a payload. -/
def bodyKind (b : FrameBody) : FrameKind :=
  match b with
  | .tick => .tick
  | .found _ => .found
  | .join => .join
  | .leave => .leave
  | .snap _ => .snap
  | .release _ _ => .release
  | .renew _ => .renew
  | .acquire _ _ _ _ _ => .acquire

/-- The kind a slot sends (R111). -/
def slotKind (c : SlotContent) : FrameKind :=
  match c with
  | .acquire _ _ _ _ _ => .acquire
  | .release _ _ => .release
  | .renew _ => .renew
  | .tick => .tick
  | .found => .found
  | .join => .join
  | .leave => .leave
  | .snap => .snap

/-- RELEASE, RENEW and ACQUIRE are the ordinary frames (R89). -/
def isOrdinary (k : FrameKind) : Bool :=
  match k with
  | .release | .renew | .acquire => true
  | .tick | .found | .join | .leave | .snap => false

/-! ### Payload records (R190) -/

def modeBit (m : Mode) : BitVec 1 :=
  match m with
  | .exclusive => 0
  | .shared => 1

/-- The tag byte: station, mode, client (R190). -/
def tagByte (t : Tag) (m : Mode) : Byte :=
  BitVec.ofNat 4 t.station.val ++ modeBit m ++ BitVec.ofNat 3 t.client.val

/-- The tag and mode of a tag byte (R190). -/
def tagOfByte (b : Byte) : Tag := { station := stationOfHighBits b, client := clientOfLowBits b }
def modeOfTagByte (b : Byte) : Mode := modeOfBit (b.getLsbD 3)

def statusByte (x : HolderStatus) : Byte :=
  match x with
  | .live => 0x00
  | .fenced => 0x01

def patienceByte (p : Patience) : Byte :=
  match p with
  | .ticks n => byteOf n
  | .unlimited => 0xFF

/-- A holder record of a lease item, six bytes (R190). -/
def holderBytes (h : Holder) : List Byte :=
  [tagByte h.tag h.mode, statusByte h.status, byteOf h.term, byteOf h.remaining] ++ bytesOf16 h.grant

/-- A waiter record of a lease item, three bytes (R190). -/
def waiterBytes (w : Waiter) : List Byte := [tagByte w.tag w.mode, byteOf w.term, patienceByte w.patience]

/-- Bytes 1 onwards of a lease item (R190, R192). -/
def entryBytes (e : LeaseEntry) : List Byte :=
  bytesOf16 e.counter ++
    [BitVec.ofNat 4 e.holders.length ++ BitVec.ofNat 4 e.waiters.length] ++
    e.holders.flatMap holderBytes ++ e.waiters.flatMap waiterBytes

def recordStateBits (x : RecordState) : BitVec 2 :=
  match x with
  | .absent => 0
  | .joining => 1
  | .member => 2

def progressByte (p : Option Progress) : Byte :=
  match p with
  | none => 0x00
  | some (.remaining r) => byteOf r
  | some .awaitingRoster => 0x80

/-- A station record, two bytes (R190). -/
def recordBytes (x : StationRecord) : List Byte :=
  [recordStateBits x.state ++ (0 : BitVec 4) ++ BitVec.ofNat 2 x.miss.val, progressByte x.progress]

/-- The sixteen records, station 0 first (R190). -/
def allRecordBytes (records : Vector StationRecord 16) : List Byte :=
  (List.finRange 16).flatMap fun i => recordBytes records[i]

/-- The item number (R55). -/
def itemNumber (x : SnapItem) : Fin 65 :=
  match x with
  | .roster _ _ _ _ => 0
  | .lease l _ => l.succ

/-- The payload of a frame (R190). -/
def payloadBytes (b : FrameBody) : List Byte :=
  match b with
  | .tick | .join | .leave => []
  | .found n => [byteOf n]
  | .snap (.roster n commits ticks records) =>
      [0x00, byteOf n] ++ bytesOf32 commits ++ bytesOf32 ticks ++ allRecordBytes records
  | .snap (.lease l e) => byteOf (l.val + 1) :: entryBytes e
  | .release l c => [byteOf l.val, byteOf c.val]
  | .renew entries => entries.flatMap fun lc => [byteOf lc.1.val, byteOf lc.2.val]
  | .acquire l c m t p =>
      [byteOf l.val, modeBit m ++ (0 : BitVec 4) ++ BitVec.ofNat 3 c.val, byteOf t, byteOf p]

/-! ### Reading payloads, with the length and range checks (R93, R94, R56) -/

/-- Entries of a RENEW payload (R190). -/
def readEntries (bytes : List Byte) : Option (List (Lease × Client)) :=
  match bytes with
  | [] => some []
  | [_] => none
  | l :: c :: rest =>
    match leaseOfByte l, clientOfByte c, readEntries rest with
    | some l, some c, some rest => some ((l, c) :: rest)
    | _, _, _ => none

def recordStateOfBits (b : BitVec 2) : Option RecordState :=
  match b.toNat with
  | 0 => some .absent
  | 1 => some .joining
  | 2 => some .member
  | _ => none

/-- The progress byte; unassigned values fail (R190). -/
def progressOfByte (b : Byte) : Option (Option Progress) :=
  if b = 0x00 then some none
  else if b = 0x80 then some (some .awaitingRoster)
  else if b.toNat ≤ 64 then some (some (.remaining b.toNat))
  else none

/-- The fields of a record agree with its state (R56). -/
def recordInRange (x : StationRecord) : Bool :=
  match x.state with
  | .absent => x.miss = 0 && x.progress = none
  | .member => x.progress = none
  | .joining =>
    match x.progress with
    | none => false
    | some .awaitingRoster => true
    | some (.remaining r) => 1 ≤ r && r ≤ 64

/-- A station record of two bytes, in range (R56, R190). -/
def readRecord (b0 b1 : Byte) : Option StationRecord :=
  match recordStateOfBits (b0.extractLsb' 6 2), progressOfByte b1 with
  | some st, some pr =>
    let x : StationRecord :=
      { state := st, miss := ⟨(b0.extractLsb' 0 2).toNat, (b0.extractLsb' 0 2).isLt⟩, progress := pr }
    if recordInRange x then some x else none
  | _, _ => none

/-- The record of station `i` in a roster item (R190). -/
def readItemRecord (bytes : List Byte) (i : Station) : Option StationRecord :=
  readRecord (bytes.getD (10 + 2 * i.val) 0) (bytes.getD (11 + 2 * i.val) 0)

/-- Stations recorded MEMBER or JOINING in a list of records (R56). -/
def presentCount (records : Vector StationRecord 16) : Nat :=
  ((List.finRange 16).filter fun i : Fin 16 => records[i].state ≠ .absent).length

/-- The roster item (R55, R56, R190). -/
def readRosterItem (bytes : List Byte) : Option SnapItem :=
  match bytes with
  | 0x00 :: n :: c3 :: c2 :: c1 :: c0 :: t3 :: t2 :: t1 :: t0 :: rest =>
    if bytes.length = 42 ∧ rest.length = 32 ∧ 1 ≤ n.toNat ∧ n.toNat ≤ 16
        ∧ (List.finRange 16).all (fun i => (readItemRecord bytes i).isSome) then
      let records : Vector StationRecord 16 :=
        Vector.ofFn fun i : Fin 16 => (readItemRecord bytes i).getD { state := .absent, miss := 0, progress := none }
      if presentCount records ≤ n.toNat then
        some (.roster n.toNat (word32 c3 c2 c1 c0) (word32 t3 t2 t1 t0) records)
      else none
    else none
  | _ => none

/-- A holder's fields are in range (R56). -/
def holderInRange (h : Holder) : Bool :=
  1 ≤ h.term && h.term ≤ 255 && h.grant ≠ 0 && 1 ≤ h.remaining &&
    (match h.status with
     | .live => h.remaining ≤ h.term
     | .fenced => h.remaining ≤ Config.fenceCount)

/-- A waiter's fields are in range (R56). -/
def waiterInRange (w : Waiter) : Bool :=
  1 ≤ w.term && w.term ≤ 255 &&
    (match w.patience with
     | .unlimited => true
     | .ticks n => 1 ≤ n && n ≤ 254)

/-- All tags of an entry, holders first. -/
def entryTags (e : LeaseEntry) : List Tag := e.holders.map (·.tag) ++ e.waiters.map (·.tag)

/-- An entry obeys the limits a lease item is checked for (R56). -/
def entryInRange (e : LeaseEntry) : Bool :=
  e.holders.length ≤ Config.holderLimit && e.waiters.length ≤ Config.waiterLimit &&
    e.holders.all holderInRange && e.waiters.all waiterInRange &&
    (e.holders.length ≤ 1 || e.holders.all (fun h => h.mode = .shared)) &&
    (entryTags e).Nodup

/-- `n` holder records and the bytes after them (R190). -/
def readHolders (n : Nat) (bytes : List Byte) : Option (List Holder × List Byte) :=
  match n, bytes with
  | 0, rest => some ([], rest)
  | n + 1, tag :: status :: term :: left :: g1 :: g0 :: rest =>
    match readHolders n rest with
    | none => none
    | some (hs, rest) =>
      some
        ({ tag := tagOfByte tag
           mode := modeOfTagByte tag
           status := if status.getLsbD 0 then .fenced else .live
           term := term.toNat
           remaining := left.toNat
           grant := word16 g1 g0 } :: hs, rest)
  | _ + 1, _ => none

/-- The patience of a waiter record (R190). -/
def patienceOfByte (b : Byte) : Patience := if b = 0xFF then .unlimited else .ticks b.toNat

/-- `n` waiter records, which end the bytes (R190). -/
def readWaiters (n : Nat) (bytes : List Byte) : Option (List Waiter) :=
  match n, bytes with
  | 0, [] => some []
  | n + 1, tag :: term :: patience :: rest =>
    match readWaiters n rest with
    | none => none
    | some ws =>
      some
        ({ tag := tagOfByte tag
           mode := modeOfTagByte tag
           term := term.toNat
           patience := patienceOfByte patience } :: ws)
  | _, _ => none

/-- The entry of bytes 1 onwards of a lease item, of exactly the length its counts give (R56, R93). -/
def readEntry (bytes : List Byte) : Option LeaseEntry :=
  match bytes with
  | c1 :: c0 :: counts :: rest =>
    match readHolders (counts.extractLsb' 4 4).toNat rest with
    | none => none
    | some (hs, rest) =>
      match readWaiters (counts.extractLsb' 0 4).toNat rest with
      | none => none
      | some ws =>
        let e : LeaseEntry := { counter := word16 c1 c0, holders := hs, waiters := ws }
        if entryInRange e then some e else none
  | _ => none

/-- A lease item (R55, R56). -/
def readLeaseItem (bytes : List Byte) : Option SnapItem :=
  match bytes with
  | [] => none
  | k :: rest =>
    if h : 1 ≤ k.toNat ∧ k.toNat ≤ 64 then
      match readEntry rest with
      | none => none
      | some e => some (.lease ⟨k.toNat - 1, by omega⟩ e)
    else none

/-- The payload of a frame of a kind, if its length is that of the kind and every field is in range
(checks 3 and 5 of R93). -/
def readPayload (k : FrameKind) (bytes : List Byte) : Option FrameBody :=
  match k with
  | .tick => if bytes = [] then some .tick else none
  | .join => if bytes = [] then some .join else none
  | .leave => if bytes = [] then some .leave else none
  | .found =>
    match bytes with
    | [n] => if 1 ≤ n.toNat ∧ n.toNat ≤ 16 then some (.found n.toNat) else none
    | _ => none
  | .snap =>
    match readRosterItem bytes with
    | some x => some (.snap x)
    | none => (readLeaseItem bytes).map .snap
  | .release =>
    match bytes with
    | [l, c] =>
      match leaseOfByte l, clientOfByte c with
      | some l, some c => some (.release l c)
      | _, _ => none
    | _ => none
  | .renew =>
    if bytes = [] ∨ 2 * Config.renewEntryLimit < bytes.length then none
    else (readEntries bytes).map .renew
  | .acquire =>
    match bytes with
    | [l, cm, t, p] =>
      match leaseOfByte l with
      | none => none
      | some l =>
        if t = 0 then none
        else some (.acquire l (clientOfLowBits cm) (modeOfBit (cm.getLsbD 7)) t.toNat p.toNat)
    | _ => none

/-! ### Header, CRC and the whole frame (R90, R95) -/

/-- The header byte (R90). -/
def headerByte (k : FrameKind) (station : Station) : Byte := kindCode k ++ BitVec.ofNat 4 station.val

/-- One data bit into the CRC register (R95). -/
def crcBit (crc : BitVec 16) (b : Bool) : BitVec 16 :=
  if crc.getLsbD 15 ^^ b then (crc <<< 1) ^^^ 0x1021 else crc <<< 1

/-- The bits of a byte in the order they are sent (R189). -/
def bitsOf (b : Byte) : List Bool := [7, 6, 5, 4, 3, 2, 1, 0].map fun i => b.getLsbD i

/-- The CRC of a sequence of bytes (R95). -/
def crc16 (bytes : List Byte) : BitVec 16 := (bytes.flatMap bitsOf).foldl crcBit 0xFFFF

/-- The bytes from the header to the second CRC cell as the sender drives them (R90). -/
def frameBytes (station : Station) (check : Byte) (b : FrameBody) : List Byte :=
  let data := [headerByte (bodyKind b) station, check, byteOf (payloadBytes b).length] ++ payloadBytes b
  data ++ bytesOf16 (crc16 data)

/-! ### Verdict bytes (R90, R102) -/

def commitByte : Byte := 0x00
def refuseByte : Byte := 0x33
def voidByte : Byte := 0x0F
def undrivenByte : Byte := 0xFF

/-! ### State codes and the notice record (R192, R193) -/

/-- The local state code (R192). -/
def localStateCode (x : LocalState) : Byte :=
  match x with
  | .standby => 0x00
  | .seeking => 0x01
  | .joining => 0x02
  | .member => 0x03
  | .leaving => 0x04
  | .detached => 0x05

def denyCode (x : DenyReason) : Byte :=
  match x with
  | .busy => 0x01
  | .queueFull => 0x02
  | .duplicate => 0x03

def withdrawCode (x : WithdrawReason) : Byte :=
  match x with
  | .localRequest => 0x01
  | .committed => 0x02
  | .notPresent => 0x03

def revokeCode (x : RevokeReason) : Byte :=
  match x with
  | .isolated => 0x01
  | .removed => 0x02
  | .diverged => 0x03
  | .tailError => 0x04
  | .foreign => 0x05
  | .leaving => 0x06

def rosterCode (x : RosterReason) : Byte :=
  match x with
  | .joined => 0x01
  | .member => 0x02
  | .left => 0x03
  | .removed => 0x04
  | .deniedFull => 0x05

/-- The ten bytes of a record from its fields; an absent field is given as 0xFF, an absent grant number
as 0 (R193). -/
def recordOf (kind : Byte) (stamp : BitVec 16) (lease station client reason : Byte) (grant : BitVec 16)
    (last : Byte) : List Byte :=
  [kind] ++ bytesOf16 stamp ++ [lease, station, client, reason] ++ bytesOf16 grant ++ [last]

/-- A notice record as TAKE_NOTICE shifts it out (R193). -/
def noticeBytes (n : Notice) : List Byte :=
  match n.body with
  | .granted l c g => recordOf 0x01 n.stamp (byteOf l.val) 0xFF (byteOf c.val) 0xFF g 0xFF
  | .queued l c p => recordOf 0x02 n.stamp (byteOf l.val) 0xFF (byteOf c.val) 0xFF 0 (byteOf p)
  | .denied l c x => recordOf 0x03 n.stamp (byteOf l.val) 0xFF (byteOf c.val) (denyCode x) 0 0xFF
  | .timedOut l c => recordOf 0x04 n.stamp (byteOf l.val) 0xFF (byteOf c.val) 0xFF 0 0xFF
  | .released l c g => recordOf 0x05 n.stamp (byteOf l.val) 0xFF (byteOf c.val) 0xFF g 0xFF
  | .withdrawn l c x => recordOf 0x06 n.stamp (byteOf l.val) 0xFF (byteOf c.val) (withdrawCode x) 0 0xFF
  | .expired l c g => recordOf 0x07 n.stamp (byteOf l.val) 0xFF (byteOf c.val) 0xFF g 0xFF
  | .revoked l c g x => recordOf 0x08 n.stamp (byteOf l.val) 0xFF (byteOf c.val) (revokeCode x) g 0xFF
  | .sendFailedAcquire l c => recordOf 0x09 n.stamp (byteOf l.val) 0xFF (byteOf c.val) 0x08 0 0xFF
  | .sendFailedRelease l c => recordOf 0x09 n.stamp (byteOf l.val) 0xFF (byteOf c.val) 0x06 0 0xFF
  | .sendFailedRenew => recordOf 0x09 n.stamp 0xFF 0xFF 0xFF 0x07 0 0xFF
  | .sendFailedJoin => recordOf 0x09 n.stamp 0xFF 0xFF 0xFF 0x03 0 0xFF
  | .sendFailedLeave => recordOf 0x09 n.stamp 0xFF 0xFF 0xFF 0x04 0 0xFF
  | .watch l t g added count =>
      recordOf 0x0A n.stamp (byteOf l.val) (byteOf t.station.val) (byteOf t.client.val)
        (if added then 0x01 else 0x02) g (byteOf count)
  | .roster st x => recordOf 0x0B n.stamp 0xFF (byteOf st.val) 0xFF (rosterCode x) 0 0xFF
  | .state x => recordOf 0x0C n.stamp 0xFF 0xFF 0xFF (localStateCode x) 0 0xFF
  | .overflow c => recordOf 0x0D n.stamp 0xFF 0xFF 0xFF 0xFF 0 (byteOf c)

end Sys2Proof.Machine
end

