-- ==== Sys2Proof/Machine/RosterUnit.lean ====
section
/-! DEFINITION. The roster (02_roster_and_quorum.md): derivations, miss accounting and the record changes
of membership frames. -/

namespace Sys2Proof.Machine

/-- An ABSENT record (R31). -/
def absentRecord : StationRecord := { state := .absent, miss := 0, progress := none }

/-- A record just admitted by a JOIN commit (R48). -/
def awaitingRecord : StationRecord := { state := .joining, miss := 0, progress := some .awaitingRoster }

/-- A MEMBER record with no misses (R46, R53). -/
def memberRecord : StationRecord := { state := .member, miss := 0, progress := none }

/-! ### Derived values (R35 to R38) -/

/-- The stations recorded MEMBER, ascending. -/
def memberStations (r : Roster) : List Station := allStations.filter fun i => r.records[i].state = .member

/-- The stations recorded JOINING, ascending. -/
def joiningStations (r : Roster) : List Station := allStations.filter fun i => r.records[i].state = .joining

/-- The member count (R35). -/
def memberCount (r : Roster) : Nat := (memberStations r).length

/-- The quorum of an expected size: floor(N/2) + 1 (R35). -/
def quorum (n : Nat) : Nat := n / 2 + 1

/-- The required set: the stations recorded MEMBER or JOINING (R36). -/
def requiredSet (r : Roster) : List Station := allStations.filter fun i => r.records[i].state ≠ .absent

/-- The room test for a JOIN from station `j` (R37). -/
def roomFor (r : Roster) (j : Station) : Bool := ((requiredSet r).filter fun i => i ≠ j).length < r.expected

/-- The source station: the lowest station recorded MEMBER (R38). -/
def sourceStation (r : Roster) : Option Station := (memberStations r).head?

/-- Some record is JOINING. -/
def anyJoining (r : Roster) : Bool := joiningStations r ≠ []

/-! ### Record changes -/

/-- Every record of station `i` becomes `f i record`. -/
def mapRecords (f : Station → StationRecord → StationRecord) (r : Roster) : Roster :=
  { r with records := Vector.ofFn fun i : Station => f i r.records[i] }

/-- The record of one station is replaced. -/
def setRecord (j : Station) (x : StationRecord) (r : Roster) : Roster :=
  { r with records := r.records.set j x }

/-- At a commit the miss counts of the required set are set to 0 (R40). -/
def resetMisses (required : List Station) (r : Roster) : Roster :=
  mapRecords (fun i x => if required.contains i then { x with miss := 0 } else x) r

/-- One more miss; 3 stays 3 (R41). -/
def oneMiss (m : Fin 4) : Fin 4 := if m = 3 then 3 else m + 1

/-- At a VOID the miss counts of the required set follow the ack map (R41). -/
def accountMisses (required : List Station) (ackMap : BitVec 16) (r : Roster) : Roster :=
  mapRecords
    (fun i x =>
      if required.contains i then { x with miss := if acked ackMap i then 0 else oneMiss x.miss } else x) r

/-- JOINING records at miss count 3 (R42). -/
def joiningToRemove (r : Roster) : List Station :=
  (joiningStations r).filter fun i => r.records[i].miss = 3

/-- MEMBER records at miss count 3 (R43). -/
def membersAtLimit (r : Roster) : List Station :=
  (memberStations r).filter fun i => r.records[i].miss = 3

/-- All of them if at least the quorum of members is left, else none (R43). -/
def membersToRemove (r : Roster) : List Station :=
  if quorum r.expected + (membersAtLimit r).length ≤ memberCount r then membersAtLimit r else []

/-- The records of the stations become ABSENT with miss count 0 (R42, R44). -/
def removeStations (stations : List Station) (r : Roster) : Roster :=
  mapRecords (fun i x => if stations.contains i then absentRecord else x) r

/-! ### JOIN and SNAP (R48, R52) -/

/-- The record change and cursor of a JOIN commit from station `j` (R48). -/
def joinRecord (j : Station) (r : Roster) : Roster :=
  let cursor := if (joiningStations r).any (fun i => i ≠ j) then r.cursor else 0
  { setRecord j awaitingRecord r with cursor := cursor }

/-- The progress of one record at the commit of item `i` (R52, R53). -/
def progressRecord (item : Fin 65) (x : StationRecord) : StationRecord :=
  if x.state = .joining then
    match x.progress with
    | some .awaitingRoster => if item = 0 then { x with progress := some (.remaining 64) } else x
    | some (.remaining r) =>
      if item = 0 then x
      else if r ≤ 1 then memberRecord
      else { x with progress := some (.remaining (r - 1)) }
    | none => x
  else x

/-- The cursor and progress values at the commit of item `i` (R52). -/
def snapProgress (item : Fin 65) (r : Roster) : Roster :=
  { mapRecords (fun _ x => progressRecord item x) r with cursor := item + 1 }

/-- The stations that were JOINING in `before` and are MEMBER in `after`, ascending (R53). -/
def admittedBetween (before after : Roster) : List Station :=
  (joiningStations before).filter fun i => after.records[i].state = .member

/-! ### Founding (R46) -/

/-- The founders of a committed FOUND with expected size `n` (R46). -/
def founders (n : Nat) (ackMap : BitVec 16) : List Station := (allStations.filter (acked ackMap)).take n

/-- The founded roster (R46). -/
def foundedRoster (n : Nat) (members : List Station) : Roster where
  expected := n
  commits := 0
  ticks := 0
  cursor := 0
  records := Vector.ofFn fun i : Station => if members.contains i then memberRecord else absentRecord

end Sys2Proof.Machine
end

