-- ==== Sys2Proof/Machine/Queue.lean ====
section
/-! DEFINITION. The outbound queue (06_the_outbound_queue.md): slots, placing, head selection and the
assembling of a frame at attempt start. -/

namespace Sys2Proof.Machine

/-- The general slots in ascending number (R111). -/
def generalSlots : List (Fin 8) := [0, 1, 2, 3, 4, 5]

/-- The tick slot and the membership slot (R111). -/
def tickSlot : Fin 8 := 6
def membershipSlot : Fin 8 := 7

/-- The slot is empty. -/
def slotFree (q : OutboundQueue) (k : Fin 8) : Bool := q.slots[k].isNone

/-- The lowest-numbered free general slot (R120). -/
def freeGeneralSlot (q : OutboundQueue) : Option (Fin 8) := generalSlots.find? (slotFree q)

/-- The number of free general slots (R111). -/
def freeGeneralCount (q : OutboundQueue) : Nat := (generalSlots.filter (slotFree q)).length

/-- The general slots whose content satisfies `p`, ascending. -/
def generalSlotsWith (p : SlotContent → Bool) (q : OutboundQueue) : List (Fin 8) :=
  generalSlots.filter fun k =>
    match q.slots[k] with
    | none => false
    | some x => p x.content

def SlotContent.isAcquireFor (l : Lease) (c : Client) (x : SlotContent) : Bool :=
  match x with
  | .acquire l' c' _ _ _ => l' = l && c' = c
  | _ => false

def SlotContent.isReleaseFor (l : Lease) (c : Client) (x : SlotContent) : Bool :=
  match x with
  | .release l' c' => l' = l && c' = c
  | _ => false

def SlotContent.isAcquire (x : SlotContent) : Bool :=
  match x with
  | .acquire _ _ _ _ _ => true
  | _ => false

def SlotContent.isRelease (x : SlotContent) : Bool :=
  match x with
  | .release _ _ => true
  | _ => false

def SlotContent.isRenew (x : SlotContent) : Bool :=
  match x with
  | .renew _ => true
  | _ => false

/-- The slot of the ACQUIRE, and of the RELEASE, for a pair of lease and client (R112). -/
def acquireSlot (l : Lease) (c : Client) (q : OutboundQueue) : Option (Fin 8) :=
  (generalSlotsWith (SlotContent.isAcquireFor l c) q).head?
def releaseSlot (l : Lease) (c : Client) (q : OutboundQueue) : Option (Fin 8) :=
  (generalSlotsWith (SlotContent.isReleaseFor l c) q).head?

/-- The slot is in attempt (R111). -/
def slotInAttempt (q : OutboundQueue) (k : Fin 8) : Bool :=
  match q.slots[k] with
  | none => false
  | some x => x.inAttempt

/-- A placement: the youngest slot, attempt count 0; a RENEW is opened (R111, R120, R121) (DESIGN CHOICE, log entry 18). -/
def placeSlot (k : Fin 8) (c : SlotContent) (q : OutboundQueue) : OutboundQueue :=
  { q with
    slots := q.slots.set k
      (some { content := c, age := q.nextAge, attempts := 0, inAttempt := false, opened := c.isRenew })
    nextAge := q.nextAge + 1 }

/-- The slot is emptied. -/
def removeSlot (k : Fin 8) (q : OutboundQueue) : OutboundQueue := { q with slots := q.slots.set k none }

/-- The slot record is changed in place. -/
def updateSlot (k : Fin 8) (f : Slot → Slot) (q : OutboundQueue) : OutboundQueue :=
  { q with slots := q.slots.set k (q.slots[k].map f) }

/-! ### Placing requests (R120 to R122) -/

/-- Into the lowest free general slot, or SLOTS_FULL (R120). -/
def placeGeneral (c : SlotContent) (q : OutboundQueue) : QueueAnswer × OutboundQueue :=
  match freeGeneralSlot q with
  | none => (.slotsFull, q)
  | some k => (.queued k, placeSlot k c q)

/-- An ACQUIRE request (R120). -/
def placeAcquire (l : Lease) (c : Client) (m : Mode) (term patience : Nat) (q : OutboundQueue) :
    QueueAnswer × OutboundQueue :=
  if (acquireSlot l c q).isSome || (releaseSlot l c q).isSome then (.duplicate, q)
  else placeGeneral (.acquire l c m term patience) q

/-- The opened RENEW slot with its entries (R121). -/
def openedRenew (q : OutboundQueue) : Option (Fin 8 × List (Lease × Client)) :=
  generalSlots.findSome? fun k =>
    match q.slots[k] with
    | none => none
    | some x =>
      match x.content with
      | .renew entries => if x.opened then some (k, entries) else none
      | _ => none

/-- A RENEW request (R121). -/
def placeRenew (l : Lease) (c : Client) (q : OutboundQueue) : QueueAnswer × OutboundQueue :=
  match openedRenew q with
  | some (k, entries) =>
    if entries.contains (l, c) then (.queued k, q)
    else if entries.length < Config.renewEntryLimit then
      (.queued k, updateSlot k (fun x => { x with content := .renew (entries ++ [(l, c)]) }) q)
    else (.renewFull, q)
  | none => placeGeneral (.renew [(l, c)]) q

/-- A RELEASE request; `present` says whether the tag is in the replica's entry (R122). -/
def placeRelease (l : Lease) (c : Client) (present : Bool) (q : OutboundQueue) :
    QueueAnswer × OutboundQueue :=
  if (releaseSlot l c q).isSome then (.duplicate, q)
  else
    match acquireSlot l c q with
    | some k =>
      if slotInAttempt q k then placeGeneral (.release l c) q
      else (.cancelled, removeSlot k q)
    | none => if present then placeGeneral (.release l c) q else (.notPresent, q)

/-- A RELEASE request of this station, with the WITHDRAWN notice of a cancellation (R122). -/
def requestRelease (l : Lease) (c : Client) (s : State) : QueueAnswer × State :=
  let out := placeRelease l c (tagPresent s l (ownTag s c)) s.queue
  let t := { s with queue := out.2 }
  (out.1, if out.1 = .cancelled then notify (.withdrawn l c .localRequest) t else t)

/-! ### Kinds permitted and the head (R113, R114) -/

/-- The kinds a local state permits (R113). -/
def kindPermitted (x : LocalState) (k : FrameKind) : Bool :=
  match x with
  | .standby | .joining | .detached => false
  | .seeking =>
    match k with
    | .found | .join => true
    | _ => false
  | .member =>
    match k with
    | .tick | .snap | .release | .renew | .acquire => true
    | _ => false
  | .leaving =>
    match k with
    | .tick | .snap | .leave | .release | .renew => true
    | _ => false

/-- All slots in ascending number. -/
def allSlots : List (Fin 8) := List.finRange 8

/-- The occupied slots of a permitted kind. -/
def offeredSlots (x : LocalState) (q : OutboundQueue) : List (Fin 8 × Slot) :=
  allSlots.filterMap fun k =>
    match q.slots[k] with
    | none => none
    | some y => if kindPermitted x (slotKind y.content) then some (k, y) else none

/-- Slot `a` goes before slot `b`: the lower kind code, and among equal codes the older (R114). -/
def goesBefore (a b : Slot) : Bool :=
  let ka := (kindCode (slotKind a.content)).toNat
  let kb := (kindCode (slotKind b.content)).toNat
  ka < kb || (ka = kb && a.age < b.age)

/-- The head of a list of offered slots (R114). -/
def headOf (xs : List (Fin 8 × Slot)) : Option (Fin 8 × Slot) :=
  match xs with
  | [] => none
  | x :: rest =>
    match headOf rest with
    | none => some x
    | some y => if goesBefore y.2 x.2 then some y else some x

/-- The head slot (R114). -/
def headSlot (s : State) : Option (Fin 8 × Slot) := headOf (offeredSlots s.localState s.queue)

/-- The head is an ordinary frame and the courtesy gap is pending: the line engine does not start (R89, R114). -/
def heldByCourtesy (s : State) (x : Slot) : Bool :=
  s.line.courtesyPending && isOrdinary (slotKind x.content)

/-! ### Assembling (R115 to R117, R59) -/

/-- The entry of a RENEW slot is a LIVE holder of this station (R117). -/
def renewEntryLive (s : State) (lc : Lease × Client) : Bool := (liveHolderOf s lc.1 (ownTag s lc.2)).isSome

/-- The snapshot item the cursor names, read from the replica (R59). -/
def assembleItem (s : State) (r : Roster) : Option SnapItem :=
  if h : r.cursor.val = 0 then some (.roster r.expected r.commits r.ticks r.records)
  else
    match s.leases[r.cursor.val - 1] with
    | none => none
    | some e => some (.lease ⟨r.cursor.val - 1, by omega⟩ e)

/-- The payload of a slot at attempt start, or `none` when the slot is dropped (R115 to R117, R59). -/
def assemble (s : State) (c : SlotContent) : Option FrameBody :=
  match c with
  | .tick => some .tick
  | .found => some (.found (expectedSize s))
  | .join => some .join
  | .leave => some .leave
  | .snap =>
    match s.roster with
    | none => none
    | some r => if anyJoining r then (assembleItem s r).map .snap else none
  | .release l c => if tagPresent s l (ownTag s c) then some (.release l c) else none
  | .renew entries =>
    match entries.filter (renewEntryLive s) with
    | [] => none
    | kept => some (.renew kept)
  | .acquire l c m t p => some (.acquire l c m t p)

/-- The slot's parameters after assembling: a RENEW keeps its surviving entries only (R117). -/
def assembledContent (c : SlotContent) (b : FrameBody) : SlotContent :=
  match c, b with
  | .renew _, .renew kept => .renew kept
  | c, _ => c

/-- The check field: 0 in JOIN and FOUND (R115). -/
def checkField (s : State) (k : FrameKind) : Byte :=
  match k with
  | .join | .found => 0
  | _ => (commitCount s).setWidth 8

/-- The notice of a slot dropped at attempt start (R116). -/
def dropNotices (c : SlotContent) : List NoticeBody :=
  match c with
  | .release l c => [.withdrawn l c .notPresent]
  | _ => []

end Sys2Proof.Machine
end

