-- ==== Sys2Proof/Machine/ClientUnit.lean ====
section
/-! DEFINITION. The client unit (08_local_clients_and_claim_lines.md): needs, the line-client machine,
results, auto-renew and the level of each GRANT line; and the need list of the outbound queue (R125). -/

namespace Sys2Proof.Machine

/-! ### Needs (R125) -/

def setNeed (c : Client) (n : Option NeedKind) (s : State) : State :=
  { s with queue := { s.queue with needs := s.queue.needs.set c n } }

/-- A line client raises an ACQUIRE need, patience UNLIMITED: placed, or waiting for a slot (R120, R125). -/
def raiseAcquire (c : Client) (s : State) : State :=
  match lineBinding s c with
  | none => s
  | some (l, m, t) =>
    let out := placeAcquire l c m t 255 s.queue
    if out.1 = .slotsFull then setNeed c (some .acquire) s else { s with queue := out.2 }

/-- A line client raises a RELEASE need: taken by R122, or waiting for a slot (R125). -/
def raiseRelease (c : Client) (s : State) : State :=
  match lineBinding s c with
  | none => s
  | some (l, _, _) =>
    let out := requestRelease l c s
    if out.1 = .slotsFull then setNeed c (some .release) s else out.2

/-- The waiting need of one client is served if a general slot is free (R125). -/
def serveNeed (s : State) (c : Client) : State :=
  match freeGeneralSlot s.queue, s.queue.needs[c] with
  | some _, some .acquire => raiseAcquire c (setNeed c none s)
  | some _, some .release => raiseRelease c (setNeed c none s)
  | _, _ => s

/-- The waiting needs are served in ascending client number (R125). -/
def serveNeeds (s : State) : State := allClients.foldl serveNeed s

/-! ### Conclusion of RELEASING (R155) -/

/-- The queue holds no ACQUIRE slot, no RELEASE slot and no waiting need for the client (R155). -/
def queueHoldsNothing (s : State) (l : Lease) (c : Client) : Bool :=
  (acquireSlot l c s.queue).isNone && (releaseSlot l c s.queue).isNone && s.queue.needs[c].isNone

/-- A RELEASING client for which the queue holds nothing is concluded (R155). -/
def concludeClient (s : State) (c : Client) : State :=
  match lineBinding s c with
  | none => s
  | some (l, _, _) =>
    if s.clients[c].state = .releasing ∧ queueHoldsNothing s l c then
      if s.clients[c].reclaim then raiseAcquire c (setReclaim c false (setClientState c .asking s))
      else setClientState c .idle s
    else s

/-- The clients concluded at one event conclude in ascending number (R155) (DESIGN CHOICE, log entry 30). -/
def concludeClients (s : State) : State := allClients.foldl concludeClient s

/-- What follows the freeing of a general slot or the end of a client's request: waiting needs are
served, then RELEASING clients are concluded, so a waiting need takes the slot before a reclaim ACQUIRE of the same
event (R125, R155) (DESIGN CHOICE, log entry 33). -/
def settleQueue (s : State) : State := concludeClients (serveNeeds s)

/-! ### Claim events (R151, R153, R154, R156) -/

/-- What a claim-asserted event does to the line-client machine (R151, R155). -/
def takeClaimAsserted (c : Client) (s : State) : State :=
  match lineBinding s c with
  | none => s
  | some _ =>
    match s.clients[c].state with
    | .idle => if s.localState = .member then raiseAcquire c (setClientState c .asking s) else s
    | .releasing => setReclaim c true s
    | .asking | .waiting | .holding | .revoked | .refused => s

/-- A claim-released event in ASKING, by what the queue holds (R153). -/
def releaseAsking (l : Lease) (c : Client) (s : State) : State :=
  match acquireSlot l c s.queue with
  | none => setClientState c .idle (setNeed c none s)
  | some k =>
    if slotInAttempt s.queue k then raiseRelease c (setClientState c .releasing s)
    else settleQueue (raiseRelease c (setClientState c .idle s))

/-- What a claim-released event does to the line-client machine (R153 to R156). -/
def takeClaimReleased (c : Client) (s : State) : State :=
  match lineBinding s c with
  | none => s
  | some (l, _, _) =>
    match s.clients[c].state with
    | .idle => s
    | .asking => releaseAsking l c s
    | .waiting | .holding => concludeClients (raiseRelease c (setClientState c .releasing s))
    | .releasing => setReclaim c false s
    | .revoked | .refused => setClientState c .idle s

/-! ### Results of the lease table (R150, R152, R154) -/

/-- Lease and tag of a hand-over of the lease table. -/
def TableEvent.lease (ev : TableEvent) : Lease :=
  match ev with
  | .granted l _ _ _ | .queued l _ _ | .deniedDuplicate l _ | .deniedBusy l _ | .deniedQueueFull l _
  | .released l _ _ _ | .withdrawn l _ | .expired l _ _ _ | .fenceEnded l _ _ _ | .timedOut l _
  | .leftWithStation l _ _ _ => l
def TableEvent.tag (ev : TableEvent) : Tag :=
  match ev with
  | .granted _ t _ _ | .queued _ t _ | .deniedDuplicate _ t | .deniedBusy _ t | .deniedQueueFull _ t
  | .released _ t _ _ | .withdrawn _ t | .expired _ t _ _ | .fenceEnded _ t _ _ | .timedOut _ t
  | .leftWithStation _ t _ _ => t

/-- The next state of a line client on a result for it (R152, R154, table of section 8.3). -/
def resultState (x : ClientState) (ev : TableEvent) : ClientState :=
  match x, ev with
  | .asking, .granted _ _ _ _ => .holding
  | .asking, .queued _ _ _ => .waiting
  | .asking, .deniedDuplicate _ _ => .refused
  | .asking, .deniedQueueFull _ _ => .refused
  | .waiting, .granted _ _ _ _ => .holding
  | .holding, .expired _ _ _ _ => .revoked
  | x, _ => x

/-- The client unit takes one result of this station's tag on the client's bound lease (R150). -/
def takeResult (ev : TableEvent) (s : State) : State :=
  if ev.tag.station = stationNumber s then
    match lineBinding s ev.tag.client with
    | none => s
    | some (l, _, _) =>
      if l = ev.lease then setClientState ev.tag.client (resultState s.clients[ev.tag.client].state ev) s
      else s
  else s

/-- A SEND_FAILED for a line client's ACQUIRE or RELEASE: a fresh need at the same event (R152, R155). -/
def takeSendFailed (x : SlotContent) (s : State) : State :=
  match x with
  | .acquire _ c _ _ _ => if s.clients[c].state = .asking then raiseAcquire c s else s
  | .release _ c => if s.clients[c].state = .releasing then raiseRelease c s else s
  | _ => s

/-! ### Entry into MEMBER, LEAVING and teardown (R151, R159, R160) -/

/-- At entry into MEMBER each IDLE line client with its claim ASSERTED asks (R151). -/
def askAtEntry (s : State) (c : Client) : State :=
  match lineBinding s c with
  | none => s
  | some _ =>
    if s.clients[c].state = .idle ∧ s.clients[c].recognised then raiseAcquire c (setClientState c .asking s) else s

def askAllAtEntry (s : State) : State := allClients.foldl askAtEntry s

/-- The record of a client after entry into LEAVING or a teardown: REVOKED while its claim is ASSERTED,
else IDLE (R159, R160); a PORT client's record holds no state (R148). -/
def revokedRecord (b : Binding) (x : LineClient) : LineClient :=
  match b with
  | .port => x
  | .line _ _ _ => { x with state := if x.recognised then .revoked else .idle, reclaim := false }

/-- Every line client is moved by its recognised claim (R159, R160). -/
def revokeClients (s : State) : State :=
  { s with clients := Vector.ofFn fun c : Client => revokedRecord s.config.bindings[c] s.clients[c] }

/-! ### Auto-renew (R158) -/

/-- The queue holds a RENEW slot, opened or in attempt, with the entry (R158) (DEDUCED, log entry 28). -/
def renewAsked (q : OutboundQueue) (lc : Lease × Client) : Bool :=
  generalSlots.any fun k =>
    match q.slots[k] with
    | none => false
    | some x =>
      match x.content with
      | .renew entries => (x.opened || x.inAttempt) && entries.contains lc
      | _ => false

/-- Remaining is at most half the term, rounded up (R158). -/
def renewDue (h : Holder) : Bool := h.remaining ≤ (h.term + 1) / 2

/-- Auto-renew for one client (R158). -/
def renewClient (s : State) (c : Client) : State :=
  match lineBinding s c with
  | none => s
  | some (l, _, _) =>
    match liveHolderOf s l (ownTag s c) with
    | none => s
    | some h =>
      if s.clients[c].state = .holding ∧ renewDue h ∧ ¬ renewAsked s.queue (l, c) then
        { s with queue := (placeRenew l c s.queue).2 }
      else s

/-- Auto-renew at the frame end of a committed TICK, in MEMBER (R158). -/
def autoRenew (s : State) : State :=
  if s.localState = .member then allClients.foldl renewClient s else s

end Sys2Proof.Machine
end

