-- ==== Sys2Proof/Machine/Flags.lean ====
section
/-! DEFINITION. Every flag and output pin that is computed from other state: the known map (R57), the
GRANT lines (R157), SYNC (R129) and NOTICE (R184). -/

namespace Sys2Proof.Machine

/-- The known map: item 0 the roster, item k lease k−1 (R57). -/
def itemKnown (s : State) (item : Fin 65) : Bool :=
  if h : item.val = 0 then s.roster.isSome else (s.leases[item.val - 1]'(by omega)).isSome

/-- The level of GRANTc: MEMBER, LINE-bound, HOLDING and a LIVE holder of the bound lease (R157). -/
def grantLevel (s : State) (c : Client) : Bool :=
  match lineBinding s c with
  | none => false
  | some (l, _, _) =>
    s.localState = .member && s.clients[c].state = .holding && (liveHolderOf s l (ownTag s c)).isSome

/-- SYNC is high in MEMBER and LEAVING (R129). -/
def syncLevel (s : State) : Bool := s.localState = .member || s.localState = .leaving

/-- NOTICE is high while the queue holds a record (R184). -/
def noticeLevel (s : State) : Bool := !s.notices.isEmpty

/-- The output pins follow the event (R157, R129, R184) (DEDUCED, log entry 24). -/
def driveOutputs (s : State) : State :=
  { s with
    grant := Vector.ofFn fun c : Client => grantLevel s c
    sync := syncLevel s
    notice := noticeLevel s }

end Sys2Proof.Machine
end

