-- ==== Sys2Proof/Machine/StationControl.lean ====
section
/-! DEFINITION. Station control (07_station_life.md) with the parts of the time unit and the transfer unit
that act on local state and on the membership slot: resets, START, FOUND and JOIN placing, entry into
JOINING, MEMBER and LEAVING, the leave handshake, SNAP placing and teardown. -/

namespace Sys2Proof.Machine

/-! ### The membership slot -/

/-- The membership slot is empty, or holds `c` without an attempt in progress. -/
def membershipYields (q : OutboundQueue) (c : SlotContent) : Bool :=
  match q.slots[membershipSlot] with
  | none => true
  | some x => x.content = c && !x.inAttempt

/-- The membership slot holds `c`. -/
def membershipHolds (q : OutboundQueue) (c : SlotContent) : Bool :=
  match q.slots[membershipSlot] with
  | none => false
  | some x => x.content = c

/-- What the slot held is removed without a notice and `c` is placed. -/
def placeMembership (c : SlotContent) (s : State) : State :=
  { s with queue := placeSlot membershipSlot c s.queue }

/-- Any `c` in the membership slot is removed without a notice. -/
def dropMembership (c : SlotContent) (s : State) : State :=
  if membershipHolds s.queue c then { s with queue := removeSlot membershipSlot s.queue } else s

/-! ### Seeking (R82, R133, R134) -/

/-- A SEEKING station wants founding (R82). -/
def wantsFounding (s : State) : Bool :=
  s.localState = .seeking && s.timers.founding = .expired && !s.timers.pacing.isRunning

/-- The founding test (R82). -/
def foundingTest (s : State) : State :=
  if wantsFounding s && membershipYields s.queue .join then placeMembership .found s else s

/-- The conditions under which station control places a JOIN (R134). -/
def joinConditions (s : State) : Bool :=
  s.localState = .seeking && s.joinEvidence && s.timers.founding.isRunning &&
    !s.timers.holdOff.isRunning && membershipYields s.queue .found

/-- The join test (R134). -/
def joinTest (s : State) : State := if joinConditions s then placeMembership .join s else s

/-- Entry into SEEKING, but for its STATE notice (R133, R73). -/
def beginSeeking (s : State) : State :=
  { s with
    localState := .seeking
    joinEvidence := false
    timers :=
      { s.timers with
        founding := startTimer s Config.foundingPeriods
        pacing := .stopped
        holdOff := .stopped } }

/-- Entry into SEEKING by START or REJOIN (R133, R145). -/
def enterSeeking (s : State) : State := notify (.state .seeking) (beginSeeking s)

/-- START: the lock is set and the station seeks (R133). -/
def startStation (s : State) : State :=
  enterSeeking { s with config := { s.config with locked := true } }

/-! ### Resets (R132) -/

/-- The configuration after a reset (R131). -/
def configurationAfterReset (auto : Bool) : Configuration :=
  if auto then Configuration.lineBound else Configuration.portOnly

/-- Every block takes its reset values; straps, configuration, pins from outside and the waiting commands
are left (R132, R109, R128, R148, R184) (DEDUCED, log entry 11). -/
def resetBlocks (s : State) : State :=
  { s with
    localState := .standby
    joinEvidence := false
    leases := unknownLeases
    roster := none
    sourceDuty := false
    timers := Timers.allStopped
    line := LineEngine.afterReset
    queue := OutboundQueue.empty
    clients := Vector.replicate 8 LineClient.afterReset
    sampleCycles := 0
    exchange := none
    serial := SerialPort.free
    notices := []
    tickout := none }

/-- What the release of a pin reset and a soft reset do in every block, then auto-start (R132, R133). -/
def takeReset (s : State) : State :=
  let t := { resetBlocks s with config := configurationAfterReset (autoStart s) }
  if autoStart s then startStation t else t

/-! ### The transfer unit's placing (R57, R58, R61) -/

/-- The source duty as derived from the roster (R57). -/
def dutyNow (s : State) : Bool :=
  match s.roster with
  | none => false
  | some r =>
    sourceStation r = some (stationNumber s) && (s.localState = .member || s.localState = .leaving)

/-- The roster is known and has a JOINING record. -/
def transferRunning (s : State) : Bool :=
  match s.roster with
  | none => false
  | some r => anyJoining r

/-- The source duty is derived afresh, and the SNAP placed or dropped (R57, R58, R61). -/
def transferUnit (s : State) : State :=
  let t := { s with sourceDuty := dutyNow s }
  if t.sourceDuty then
    if transferRunning t && slotFree t.queue membershipSlot then placeMembership .snap t else t
  else dropMembership .snap t

/-! ### Entry into JOINING and MEMBER (R137, R138) -/

/-- Entry into JOINING (R137, R73). -/
def enterJoining (s : State) : State :=
  notify (.state .joining)
    { s with
      localState := .joining
      timers :=
        { s.timers with
          silence := startTimer s Config.silencePeriods
          founding := .stopped
          pacing := .stopped
          holdOff := .stopped } }

/-- The timers at entry into MEMBER: by founding from SEEKING, by a transfer from JOINING (R73). -/
def memberTimers (s : State) : Timers :=
  match s.localState with
  | .seeking =>
    { tick := startTimer s Config.tickPeriods
      silence := startTimer s Config.silencePeriods
      founding := .stopped
      pacing := .stopped
      holdOff := .stopped }
  | _ => { s.timers with tick := startTimer s Config.tickPeriods }

/-- Entry into MEMBER (R138, R151). -/
def enterMember (s : State) : State :=
  let t := askAllAtEntry { s with timers := memberTimers s, localState := .member }
  notify (.state .member) t

/-! ### Leaving (R127, R139 to R141) -/

/-- The tag is a LIVE holder or a waiter of the entry (R140). -/
def LeaseEntry.liveOrWaiting (e : LeaseEntry) (t : Tag) : Bool :=
  (e.liveHolder t).isSome || e.waiters.any (fun w => w.tag = t)

/-- The pairs the handshake examines: this station's LIVE or waiting tags, by ascending lease and client (R140). -/
def handshakePairs (s : State) : List (Lease × Client) :=
  allLeases.flatMap fun l =>
    match s.leases[l] with
    | none => []
    | some e => (allClients.filter fun c => e.liveOrWaiting (ownTag s c)).map fun c => (l, c)

/-- One RELEASE of the handshake, if the queue holds none for the pair (R140). -/
def handshakeRelease (s : State) (lc : Lease × Client) : State :=
  if (releaseSlot lc.1 lc.2 s.queue).isSome then s
  else
    match freeGeneralSlot s.queue with
    | none => s
    | some _ => (requestRelease lc.1 lc.2 s).2

/-- The entry holds a record of the station, LIVE, FENCED or waiting (R141). -/
def LeaseEntry.hasStation (e : LeaseEntry) (i : Station) : Bool :=
  e.holders.any (fun h => h.tag.station = i) || e.waiters.any (fun w => w.tag.station = i)

/-- The replica holds a record of this station (R141). -/
def replicaHoldsOwn (s : State) : Bool :=
  allLeases.any fun l =>
    match s.leases[l] with
    | none => false
    | some e => e.hasStation (stationNumber s)

/-- The conditions under which LEAVE is placed (R141). -/
def leaveConditions (s : State) : Bool :=
  !replicaHoldsOwn s &&
    (generalSlotsWith (fun x => x.isAcquire || x.isRelease) s.queue).isEmpty &&
    allClients.all (fun c => s.queue.needs[c].isNone) &&
    membershipYields s.queue .snap

/-- One evaluation of the leave handshake (R140, R141). -/
def leaveHandshake (s : State) : State :=
  if s.localState = .leaving then
    let t := (handshakePairs s).foldl handshakeRelease s
    if leaveConditions t then placeMembership .leave t else t
  else s

/-- A general slot has freed: waiting needs first, then the handshake (R125, R140, R155). -/
def slotFreed (s : State) : State := leaveHandshake (settleQueue s)

/-- On entering LEAVING: one ACQUIRE slot not in attempt is removed with WITHDRAWN, LOCAL (R127). -/
def withdrawAcquire (s : State) (k : Fin 8) : State :=
  match s.queue.slots[k] with
  | none => s
  | some x =>
    match x.content with
    | .acquire l c _ _ _ =>
      if x.inAttempt then s
      else notify (.withdrawn l c .localRequest) { s with queue := removeSlot k s.queue }
    | _ => s

/-- Waiting ACQUIRE needs are removed without a notice (R127). -/
def dropAcquireNeeds (s : State) : State :=
  { s with
    queue :=
      { s.queue with
        needs := Vector.ofFn fun c : Client =>
          if s.queue.needs[c] = some .acquire then none else s.queue.needs[c] } }

/-- The REVOKED notices of this station's LIVE holds (R139, R144). -/
def revokedNotices (s : State) (reason : RevokeReason) : List NoticeBody :=
  (ownLiveHolds s).map fun lh => .revoked lh.1 lh.2.tag.client lh.2.grant reason

/-- Entry into LEAVING, in the order of R139. -/
def enterLeaving (s : State) : State :=
  let s1 := revokeClients { s with localState := .leaving }
  let s2 := notifyAll (revokedNotices s1 .leaving) s1
  let s3 := dropAcquireNeeds (generalSlots.foldl withdrawAcquire s2)
  let s4 := slotFreed s3
  notify (.state .leaving) s4

/-! ### Teardown (R144, R145) -/

/-- The reason a trigger gives to REVOKED (R144). -/
def reasonOf (t : Trigger) : RevokeReason :=
  match t with
  | .tailError => .tailError
  | .diverged => .diverged
  | .foreign => .foreign
  | .removed => .removed
  | .isolated => .isolated

def causeReason (x : TeardownCause) : RevokeReason :=
  match x with
  | .trigger t => reasonOf t
  | .leaveCompleted => .leaving

/-- Whether a teardown ends in SEEKING, else in DETACHED (R145). -/
def seeksAfterTeardown (s : State) (cause : TeardownCause) : Bool :=
  match cause with
  | .leaveCompleted => false
  | .trigger _ => s.config.autoRejoin && s.localState ≠ .leaving

/-- Queue, replica, duty and timers of a teardown (R144, steps 3 to 5). -/
def clearParticipation (s : State) : State :=
  { s with
    queue := OutboundQueue.empty
    leases := unknownLeases
    roster := none
    sourceDuty := false
    timers := Timers.allStopped }

/-- A teardown, in the order of R144; its notices carry the count as it stood before it (R183). -/
def teardown (cause : TeardownCause) (s : State) : State :=
  let stamp := commitStamp s
  let s1 := if s.localState = .member then notifyAll (revokedNotices s (causeReason cause)) s else s
  let s2 := clearParticipation (revokeClients s1)
  if seeksAfterTeardown s cause then notifyStamped stamp (.state .seeking) (beginSeeking s2)
  else notifyStamped stamp (.state .detached) { s2 with localState := .detached }

/-- Station control takes triggers in JOINING, MEMBER and LEAVING (R143). -/
def takesTriggers (x : LocalState) : Bool :=
  match x with
  | .joining | .member | .leaving => true
  | .standby | .seeking | .detached => false

end Sys2Proof.Machine
end

