-- ==== Sys2Proof/Machine/Claims.lean ====
section
/-! DEFINITION. The recognised claim events (R149): the claim pin has settled, the recognised claim changes, the
deglitch count returns to 0, and the line-client machine takes the event. The raw pins and their samples are in
Machine/Clock.lean. -/

namespace Sys2Proof.Machine

/-- The claim pin of client `c` is at `level`. -/
def settlePin (c : Client) (level : Bool) (s : State) : State := { s with claimPins := s.claimPins.set c level }

/-- The pin of client `c` has settled at `level`, and the recognised claim becomes it (R149). -/
def recogniseClaim (c : Client) (level : Bool) (s : State) : State :=
  let t := settlePin c level s
  { t with clients := t.clients.set c { t.clients[c] with recognised := level, deglitch := 0 } }

/-- A claim-asserted event; the recognised claim alternates, so it happens to a RELEASED claim only, and of an ASSERTED
one it says where the pin is (R149, R151) (DESIGN CHOICE, log entry 35). -/
def claimAsserted (c : Client) (s : State) : State :=
  if s.clients[c].recognised then settlePin c true s else takeClaimAsserted c (recogniseClaim c true s)

/-- A claim-released event, to an ASSERTED claim only; of a RELEASED one it says where the pin is (R149, R153)
(DESIGN CHOICE, log entry 35). -/
def claimReleased (c : Client) (s : State) : State :=
  if s.clients[c].recognised then takeClaimReleased c (recogniseClaim c false s) else settlePin c false s

/-- CLAIM_ASSERTED (R151). -/
def execClaimAsserted (c : Client) (s : State) : Host.Outcome State Fault Refusal :=
  .next (driveOutputs (if s.resetLow then s else claimAsserted c s))

/-- CLAIM_RELEASED (R153). -/
def execClaimReleased (c : Client) (s : State) : Host.Outcome State Fault Refusal :=
  .next (driveOutputs (if s.resetLow then s else claimReleased c s))

end Sys2Proof.Machine
end

