-- ==== Sys2Proof/Machine/LineUnit.lean ====
section
/-! DEFINITION. The line engine (05_the_station_line.md): the role fixed at a start bit, and the frame-end
report made from the cells as read: reception checks, acknowledgement, verdict and outcome. -/

namespace Sys2Proof.Machine

/-! ### The role (R87) -/

/-- What is fixed at a frame's start bit (R87, R36, R96, R99). -/
def roleNow (s : State) : Role where
  localState := s.localState
  required := s.roster.map requiredSet
  commits := s.roster.map (·.commits)
  duty := s.sourceDuty

/-- A station in STANDBY or DETACHED listens; in any other state it is engaged (R87). -/
def Role.engaged (r : Role) : Bool :=
  match r.localState with
  | .standby | .detached => false
  | .seeking | .joining | .member | .leaving => true

/-! ### The sender's own bits (R91, R92) -/

/-- What became of the sender's own frame before the ack map. -/
inductive SenderCourse
  | lost
  | aborted
  | sent
  deriving DecidableEq, Repr

/-- The sender lost arbitration: it read every header bit as driven up to one that it drove recessive
and read dominant. That is a header read below the header driven (R91). -/
def headerLost (driven read : Byte) : Bool := read.toNat < driven.toNat

/-- The cells from the header to the second CRC cell read as driven, marks included (R92). -/
def readsAsDriven (driven : List Byte) (cells : List LineCell) : Bool :=
  marksDominant cells 0 driven.length && readBytes cells 0 driven.length = driven

/-- The course of an attempt, in the order of the bits: the header's mark, its data bits, then the cells
after it (R91, R92) (DESIGN CHOICE, log entry 6; DEDUCED, log entry 7). -/
def senderCourse (driven : List Byte) (cells : List LineCell) : SenderCourse :=
  if !(readCell cells 0).markDominant then .aborted
  else if headerLost (driven.getD 0 0) (readCell cells 0).data then .lost
  else if readsAsDriven driven cells then .sent
  else .aborted

/-- Bits from this station's frame end to the end of the extent of the length it sent, to which an aborted sender
drives marks; none where the length was read as long or longer (R90, R92). One that aborted before its length cell
keeps to the length of the frame it had assembled (DESIGN CHOICE, log entry 32). -/
def bitsToSentExtent (tx : Option Transmission) (cells : List LineCell) : Nat :=
  match tx with
  | none => 0
  | some t =>
    if senderCourse t.bytes cells = .aborted then
      Config.cellBits * (t.bytes.length - Config.drivenCells - payloadCells cells)
    else 0

/-! ### Reception checks and compare (R93, R96) -/

/-- The data bytes the CRC covers: header, check, length and payload (R95). -/
def coveredBytes (cells : List LineCell) : List Byte := readBytes cells 0 (3 + payloadCells cells)

/-- The CRC read in the two CRC cells (R90). -/
def crcRead (cells : List LineCell) : BitVec 16 :=
  word16 (readCell cells (3 + payloadCells cells)).data (readCell cells (4 + payloadCells cells)).data

/-- The kind code and the sender's number of the header as read (R90). -/
def kindCodeRead (cells : List LineCell) : BitVec 4 := (readCell cells 0).data.extractLsb' 4 4
def senderRead (cells : List LineCell) : Station := stationOfLowBits (readCell cells 0).data

/-- The payload as read, if its kind is assigned, its length fits and its fields are in range (R93). -/
def payloadRead (cells : List LineCell) : Option FrameBody :=
  match kindOfCode (kindCodeRead cells) with
  | none => none
  | some k => readPayload k (readBytes cells 3 (payloadCells cells))

/-- The reception checks of R93. -/
def receptionWhole (cells : List LineCell) : Bool :=
  marksDominant cells 0 (5 + payloadCells cells) &&
    (readCell cells 2).data.toNat ≤ Config.payloadLimit &&
    crcRead cells = crc16 (coveredBytes cells) &&
    (payloadRead cells).isSome

/-- The frame's kind as read is FOUND, or JOIN. -/
def isFoundCode (c : BitVec 4) : Bool := c = kindCode .found
def isJoinCode (c : BitVec 4) : Bool := c = kindCode .join

/-- The divergence indication of a receiver (R96). -/
def divergenceRead (role : Role) (cells : List LineCell) : Bool :=
  match role.commits with
  | none => false
  | some n =>
    !isFoundCode (kindCodeRead cells) && !isJoinCode (kindCodeRead cells) &&
      (readCell cells 1).data ≠ n.setWidth 8

/-- A receiver acknowledges, by the table of R97. -/
def receiverAcknowledges (own : Station) (role : Role) (cells : List LineCell) : Bool :=
  receptionWhole cells &&
    (match role.localState with
     | .standby | .detached => false
     | .seeking => isFoundCode (kindCodeRead cells)
     | .joining | .member | .leaving =>
       !isFoundCode (kindCodeRead cells) &&
         (match role.required with
          | none => role.localState = .joining
          | some req => req.contains own))

/-- This station's own record was MEMBER or JOINING at the start bit, or it is a joiner with unknown
roster and the kind is not FOUND (R103, R67). -/
def selfRequired (own : Station) (role : Role) (cells : List LineCell) : Bool :=
  match role.required with
  | some req => req.contains own
  | none => role.localState = .joining && !isFoundCode (kindCodeRead cells)

/-! ### The verdict (R99 to R102) -/

/-- COMMIT or VOID of a frame other than FOUND and JOIN (R100). -/
def decideRequired (required : List Station) (ackMap : BitVec 16) : Byte :=
  if required.all (acked ackMap) then commitByte else voidByte

/-- The verdict of a JOIN from station `j` at the source (R100). -/
def decideJoin (required : List Station) (room : Bool) (ackMap : BitVec 16) : Byte :=
  if required.all (acked ackMap) then (if room then commitByte else refuseByte) else voidByte

/-- The verdict of a FOUND at its sender, by the quorum of its strapped expected size (R101). -/
def decideFound (expected : Nat) (ackMap : BitVec 16) : Byte :=
  if quorum expected ≤ (allStations.filter (acked ackMap)).length then commitByte else voidByte

/-- There is room for a JOIN from station `j` in this station's roster (R37). -/
def hasRoom (s : State) (j : Station) : Bool :=
  match s.roster with
  | none => false
  | some r => roomFor r j

/-- The verdict this station drives, if it is the verdict driver (R99); an aborted sender drives none (R92). `course`
is `none` at a receiver. -/
def verdictDriven (s : State) (role : Role) (course : Option SenderCourse) (cells : List LineCell) :
    Option Byte :=
  let code := kindCodeRead cells
  let acks := ackMapRead cells
  if course = some .aborted then none
  else if isJoinCode code then
    if (role.localState = .member || role.localState = .leaving) && role.duty then
      some (decideJoin (role.required.getD []) (hasRoom s (senderRead cells)) acks)
    else none
  else if course = some .sent then
    if isFoundCode code then some (decideFound (expectedSize s) acks)
    else some (decideRequired (role.required.getD []) acks)
  else none

/-- The verdict of a value read in the verdict cell (R102). -/
def classifyVerdict (code : BitVec 4) (value : Byte) : Verdict :=
  if value = commitByte then .commit
  else if value = refuseByte then (if isJoinCode code then .refuse else .unreadable)
  else if value = voidByte then .void
  else if value = undrivenByte then .abandoned
  else .unreadable

/-- The verdict read: a mark error in the tail, or a value that differs from the one driven, makes the
tail unreadable (R102). -/
def verdictRead (driven : Option Byte) (cells : List LineCell) : Verdict :=
  let value := (verdictCell cells).data
  if !marksDominant cells (5 + payloadCells cells) 3 then .unreadable
  else
    match driven with
    | none => classifyVerdict (kindCodeRead cells) value
    | some v => if v = value then classifyVerdict (kindCodeRead cells) value else .unreadable

/-! ### The outcome and the report (R103, R107) -/

/-- The outcome of an attempt (R107). An aborted JOIN goes by the verdict read; that this holds after an abort in its
own header too is the model's choice (log entry 36). -/
def attemptOutcome (isJoin : Bool) (course : SenderCourse) (v : Verdict) : AttemptOutcome :=
  match course with
  | .lost => .lost
  | .aborted =>
    if isJoin then
      match v with
      | .commit => .committed
      | .refuse => .refused
      | _ => .aborted
    else .aborted
  | .sent =>
    match v with
    | .commit => .committed
    | .refuse => if isJoin then .refused else .voided
    | _ => .voided

/-- The slot sends a JOIN. -/
def slotSendsJoin (s : State) (k : Fin 8) : Bool :=
  match s.queue.slots[k] with
  | none => false
  | some x => x.content = .join

/-- The frame-end report of a frame in which this station had `role` and, as a sender, drove `tx` (R103). -/
def frameReport (s : State) (role : Role) (tx : Option Transmission) (cells : List LineCell) :
    FrameReport :=
  let own := stationNumber s
  let course := tx.map fun t => senderCourse t.bytes cells
  let receiver := course = none || course = some .lost
  let whole := if receiver then role.engaged && receptionWhole cells else course = some .sent
  let driven := verdictDriven s role course cells
  let verdict := verdictRead driven cells
  { kindCode := kindCodeRead cells
    sender := senderRead cells
    payload := if whole then payloadRead cells else none
    whole := whole
    divergence := receiver && divergenceRead role cells
    acknowledged := if receiver then receiverAcknowledges own role cells else course = some .sent
    selfRequired := selfRequired own role cells
    ackMap := ackMapRead cells
    verdict := verdict
    required := role.required
    verdictDriven := driven
    attempt :=
      match tx, course with
      | some t, some c => some (attemptOutcome (slotSendsJoin s t.slot) c verdict)
      | _, _ => none }

end Sys2Proof.Machine
end

