-- ==== Sys2Proof/Machine/LineStart.lean ====
section
/-! DEFINITION. The start of frames: attempt start with head choice, assembling and drops (R114 to R117),
another station's start bit (R87), and the completion of the quiet gap (R88). -/

namespace Sys2Proof.Machine

/-- The line between frames after a start bit: where the bit that begins is listed dominant, it was that start bit
(R88, R91) (DESIGN CHOICE, log entry 25). -/
def inputAfterStart (levels : List Bool) : List Bool :=
  match levels with
  | true :: rest => rest
  | _ => levels

/-- The line between frames at an edge: the bit that begins is dominant (R86, R88) (DEDUCED, log entry 31). -/
def inputAtEdge (levels : List Bool) : List Bool :=
  match levels with
  | true :: _ => levels
  | _ => true :: levels

/-- A start bit: the role is fixed, the report is cleared, the courtesy gap is spent, and no mark of an earlier frame is
left (R87, 5.10 notes 2, 4). -/
def beginFrame (phase : LinePhase) (s : State) : State :=
  { s with
    line := { phase := phase, gapBits := 0, bitCycles := 0, courtesyPending := false, markBits := 0, report := none }
    lineInput := inputAfterStart s.lineInput }

/-- The line engine of this station in its idle line. -/
def waitIdle (s : State) : State := { s with line := { s.line with phase := .idle } }

/-- The slot as its attempt starts (R115, R117, R121). -/
def markAttempt (k : Fin 8) (b : FrameBody) (s : State) : State :=
  { s with
    queue :=
      updateSlot k (fun x => { x with content := assembledContent x.content b, inAttempt := true, opened := false })
        s.queue }

/-- The frame of slot `k` goes onto the line (R115). -/
def sendFrame (k : Fin 8) (b : FrameBody) (s : State) : State :=
  let bytes := frameBytes (stationNumber s) (checkField s (bodyKind b)) b
  beginFrame (.sending (roleNow s) { slot := k, bytes := bytes }) (markAttempt k b s)

/-- A stale slot is dropped with its notice, and its general slot frees (R116, R117, R59). -/
def dropSlot (k : Fin 8) (c : SlotContent) (s : State) : State :=
  slotFreed (notifyAll (dropNotices c) { s with queue := removeSlot k s.queue })

/-- One opportunity: the head is chosen; a stale head is dropped and the choice made again (R114, R115).
`fuel` bounds the drops; each drop takes a slot that was stale before the opportunity (DEDUCED, log entry 17). -/
def tryHead (fuel : Nat) (s : State) : State :=
  match fuel with
  | 0 => waitIdle s
  | fuel + 1 =>
    match headSlot s with
    | none => waitIdle s
    | some (k, x) =>
      if heldByCourtesy s x then waitIdle s
      else
        match assemble s x.content with
        | some b => sendFrame k b s
        | none => tryHead fuel (dropSlot k x.content s)

/-- The recessive bits an opportunity stands for (R114). -/
def opportunityBits (o : Opportunity) : Nat :=
  match o with
  | .quietGap | .lineIdle => Config.quietGapBits
  | .courtesyGap => Config.courtesyGapBits

/-- The opportunity can come as the line stands: the completion of a gap that is being counted, a change of the slots
while the line is idle, the twenty-second bit of an idle line while the courtesy gap is pending (R114)
(DEDUCED, log entries 9, 17). -/
def offersOpportunity (o : Opportunity) (s : State) : Bool :=
  match o with
  | .quietGap => s.line.phase = .counting
  | .lineIdle => s.line.phase = .idle
  | .courtesyGap => s.line.phase = .idle && s.line.courtesyPending

/-- The line is idle by the opportunity; at the twenty-second bit the courtesy gap is spent (R89). -/
def takeOpportunity (o : Opportunity) (s : State) : State :=
  { s with
    line :=
      { s.line with
        phase := .idle
        gapBits := max s.line.gapBits (opportunityBits o)
        courtesyPending := if o = .courtesyGap then false else s.line.courtesyPending
        markBits := 0 } }

/-- An arbitration opportunity, if the line offers it (R114). -/
def startAttempt (o : Opportunity) (s : State) : State :=
  if offersOpportunity o s then tryHead 16 (takeOpportunity o s) else s

/-- The completion of the quiet gap makes the line idle and is an opportunity (R88, R114) (DEDUCED, log entry 16). -/
def completeQuietGap (s : State) : State := startAttempt .quietGap s

/-- An edge that is no start bit: the bit that it begins is dominant, and the gap is counted again from the next
recessive one (R88) (DEDUCED, log entry 31). -/
def restartGap (s : State) : State :=
  { s with
    line := { s.line with gapBits := 0, bitCycles := 0 }
    lineInput := inputAtEdge s.lineInput }

/-- An edge of the line: a start bit after at least 10 recessive bits, else it starts the gap again; neither while a
frame is in progress (R87, R88) (DEDUCED, log entries 9, 31). -/
def receiveStartBit (s : State) : State :=
  if frameInProgress s then s
  else if Config.startGapBits ≤ s.line.gapBits then beginFrame (.receiving (roleNow s)) s
  else restartGap s

/-- ATTEMPT_START (R115). -/
def execAttemptStart (o : Opportunity) (s : State) : Host.Outcome State Fault Refusal :=
  .next (driveOutputs (if s.resetLow then s else startAttempt o s))

/-- FRAME_START_BIT (R87, R88). -/
def execFrameStartBit (s : State) : Host.Outcome State Fault Refusal :=
  .next (driveOutputs (if s.resetLow then s else receiveStartBit s))

/-- QUIET_GAP_COMPLETE (R88). -/
def execQuietGapComplete (s : State) : Host.Outcome State Fault Refusal :=
  .next (driveOutputs (if s.resetLow then s else completeQuietGap s))

end Sys2Proof.Machine
end

