-- ==== Sys2Proof/Machine/Clock.lean ====
section
/-! DEFINITION. The station's own clock, which acts on an empty command queue (log entry 3): the timed event
that has come due, and one cycle of CLKIN (R74, R79, R86, R88, R89, R149). -/

namespace Sys2Proof.Machine

/-- The timer's time has run out (R73). -/
def Timer.due (t : Timer) : Bool :=
  match t with
  | .running 0 => true
  | _ => false

/-- One cycle of a timer (R74). -/
def Timer.cycle (t : Timer) : Timer :=
  match t with
  | .running n => .running (n - 1)
  | t => t

/-- The first expiry that is due, in the order of the table of R73. -/
def dueExpiry (t : Timers) : Option Instr :=
  if t.tick.due then some .tickTimerExpiry
  else if t.silence.due then some .silenceTimerExpiry
  else if t.founding.due then some .foundingTimerExpiry
  else if t.pacing.due then some .pacingTimerExpiry
  else if t.holdOff.due then some .holdOffTimerExpiry
  else none

/-- The levels of the claim pins in the cycle that runs: those listed, else those the pins keep (R149) (DESIGN CHOICE,
log entry 35). -/
def claimLevels (s : State) : Vector Bool 8 := s.claimInput.head?.getD s.claimPins

/-- The sample of this cycle is the eighth in a row that differs from the recognised claim (R149). -/
def claimSettled (s : State) (c : Client) : Bool :=
  s.sampleCycles + 1 = Config.sampleCycles && s.clients[c].deglitch = 7 && (claimLevels s)[c] ≠ s.clients[c].recognised

/-- The first claim event that is due, by ascending client. -/
def dueClaim (s : State) : Option Instr :=
  match allClients.find? (claimSettled s) with
  | none => none
  | some c => some (if (claimLevels s)[c] then .claimAsserted c else .claimReleased c)

/-- Another station drives dominant in the bit time that runs (R86) (DESIGN CHOICE, log entry 25). -/
def othersDominant (s : State) : Bool := s.lineInput.head? = some true

/-- The start bit of another station: a dominant level after at least 10 recessive bits (R88). -/
def dueEdge (s : State) : Option Instr :=
  if othersDominant s && Config.startGapBits ≤ s.line.gapBits then some .frameStartBit else none

/-- The event of the line engine that is due; at one moment an own start comes before the edge of another station, as
stations whose gaps end together start together (R88, R89, R91, R114). -/
def dueLine (s : State) : Option Instr :=
  match s.line.phase with
  | .receiving _ | .sending _ _ => none
  | .counting => if Config.quietGapBits ≤ s.line.gapBits then some .quietGapComplete else dueEdge s
  | .idle =>
    if s.line.courtesyPending ∧ Config.courtesyGapBits ≤ s.line.gapBits then some (.attemptStart .courtesyGap)
    else
      match headSlot s with
      | none => dueEdge s
      | some x => if heldByCourtesy s x.2 then dueEdge s else some (.attemptStart .lineIdle)

/-- The end of the TICKOUT pulse, if due (R79). -/
def duePulse (s : State) : Option Instr := if s.tickout = some 0 then some .tickoutPulseEnd else none

/-- The timed event that is due, in a fixed order; none while RESETn is low (DESIGN CHOICE, log entry 3). -/
def dueEvent (s : State) : Option Instr :=
  if s.resetLow then none
  else (((dueExpiry s.timers).orElse fun _ => dueClaim s).orElse fun _ => dueLine s).orElse fun _ => duePulse s

/-- The claim pins take their levels of the cycle that runs (R149) (DESIGN CHOICE, log entry 35). -/
def movePins (s : State) : State := { s with claimPins := claimLevels s, claimInput := s.claimInput.tail }

/-- One sample of a claim pin (R149). -/
def sampleClaim (pin : Bool) (x : LineClient) : LineClient :=
  { x with deglitch := if pin = x.recognised then 0 else x.deglitch + 1 }

/-- The claim pins are sampled at each thirty-second cycle (R149) (DESIGN CHOICE, log entry 4). -/
def cycleClaims (s : State) : State :=
  if s.sampleCycles + 1 < Config.sampleCycles then { s with sampleCycles := s.sampleCycles + 1 }
  else
    { s with
      sampleCycles := 0
      clients := Vector.ofFn fun c : Client => sampleClaim s.claimPins[c] s.clients[c] }

/-- This station drives a mark of its aborted frame in the bit that passes: the first bit of each cell up to the end
of the extent it sent (R92). -/
def drivesMark (s : State) : Bool := s.line.markBits ≠ 0 && s.line.markBits % Config.cellBits = 0

/-- The bit time that runs is dominant: this station or another drives it (R86). -/
def lineDominant (s : State) : Bool := drivesMark s || othersDominant s

/-- One bit time passes: a dominant bit starts the gap count again, a recessive one counts, up to the courtesy gap
(R86, R88, R89, R92) (DESIGN CHOICE, log entry 25). -/
def passBit (s : State) : State :=
  { s with
    line :=
      { s.line with
        bitCycles := 0
        gapBits := if lineDominant s then 0 else min (s.line.gapBits + 1) Config.courtesyGapBits
        markBits := s.line.markBits - 1 }
    lineInput := s.lineInput.tail }

/-- The gap is counted in bit times while no frame is in progress (R88). -/
def cycleGap (s : State) : State :=
  if frameInProgress s then s
  else if s.line.bitCycles + 1 < cyclesPerBit s then
    { s with line := { s.line with bitCycles := s.line.bitCycles + 1 } }
  else passBit s

/-- One cycle of the five timers (R74). -/
def Timers.cycle (t : Timers) : Timers where
  tick := t.tick.cycle
  silence := t.silence.cycle
  founding := t.founding.cycle
  pacing := t.pacing.cycle
  holdOff := t.holdOff.cycle

/-- One cycle of CLKIN in which no event is due; nothing is counted while RESETn is low. -/
def clockCycle (s : State) : State :=
  if s.resetLow then s
  else cycleGap (cycleClaims (movePins { s with timers := s.timers.cycle, tickout := s.tickout.map fun n => n - 1 }))

end Sys2Proof.Machine
end

