-- ==== Sys2Proof/Machine/FrameEnd.lean ====
section
/-! DEFINITION. The frame end: the outcome of the station's own attempt (R118, R119, R123, R126, R127), the
application of the frame in the steps of R104, the hand-over of results (R10, R185, R186), and what the time
unit, the client unit, the transfer unit and station control do at it. -/

namespace Sys2Proof.Machine

/-! ### The outcome of the own attempt -/

/-- What taking an outcome leaves for later steps of the frame end. -/
structure OwnOutcome where
  notices : List NoticeBody := []
  discarded : Option SlotContent := none
  joined : Bool := false
  deriving DecidableEq, Repr

/-- ABORTED and VOIDED attempts count, except for TICK and SNAP (R118, R119). -/
def attemptCounts (o : AttemptOutcome) (c : SlotContent) : Bool :=
  (o = .aborted || o = .voided) && c ≠ .tick && c ≠ .snap

/-- The notice of a discard at the attempt limit; `none` for a kind that is exempt (R119). -/
def discardNotice (c : SlotContent) : Option NoticeBody :=
  match c with
  | .acquire l c _ _ _ => some (.sendFailedAcquire l c)
  | .release l c => some (.sendFailedRelease l c)
  | .renew _ => some .sendFailedRenew
  | .join => some .sendFailedJoin
  | .leave => some .sendFailedLeave
  | .tick | .found | .snap => none

/-- Slot `k` is emptied. -/
def emptySlot (k : Fin 8) (s : State) : State := { s with queue := removeSlot k s.queue }

/-- A discard at the attempt limit; that of a JOIN clears the join evidence (R119, R135). -/
def discardSlot (k : Fin 8) (c : SlotContent) (n : NoticeBody) (s : State) : State × OwnOutcome :=
  let t := emptySlot k s
  ({ t with joinEvidence := if c = .join then false else t.joinEvidence }, { notices := [n], discarded := some c })

/-- The slot stays, out of its attempt, with its attempt count (R118). -/
def keepSlot (k : Fin 8) (attempts : Nat) (s : State) : State :=
  { s with queue := updateSlot k (fun x => { x with attempts := attempts, inAttempt := false }) s.queue }

/-- A slot after an attempt that did not commit: discarded at the limit, else it stays (R118, R119). -/
def countAttempt (k : Fin 8) (x : Slot) (o : AttemptOutcome) (s : State) : State × OwnOutcome :=
  let attempts := if attemptCounts o x.content then min (x.attempts + 1) Config.attemptLimit else x.attempts
  if attempts = Config.attemptLimit then
    match discardNotice x.content with
    | some n => discardSlot k x.content n s
    | none => (keepSlot k attempts s, {})
  else (keepSlot k attempts s, {})

/-- The client's RELEASE need for lease `l` waits (R125). -/
def releaseNeedWaits (s : State) (l : Lease) (c : Client) : Bool :=
  s.queue.needs[c] = some .release && (lineBinding s c).any fun b => b.1 = l

/-- An ACQUIRE after an attempt that did not commit: with a RELEASE beside it both go (R123); in LEAVING it
goes (R127), at its sixteenth counted attempt too, where R119 has SEND_FAILED (the model's choice, log entry 37);
else it is counted, and if it stays a waiting RELEASE need cancels it (R126). -/
def failAcquire (k : Fin 8) (x : Slot) (l : Lease) (c : Client) (o : AttemptOutcome) (s : State) :
    State × OwnOutcome :=
  match releaseSlot l c s.queue with
  | some j => (emptySlot j (emptySlot k s), { notices := [.withdrawn l c .localRequest] })
  | none =>
    if s.localState = .leaving then (emptySlot k s, { notices := [.withdrawn l c .localRequest] })
    else
      let out := countAttempt k x o s
      if out.2.discarded = none ∧ releaseNeedWaits s l c then
        (setNeed c none (emptySlot k out.1), { notices := [.withdrawn l c .localRequest] })
      else out

/-- The pacing timer of a seeker starts with one period (R84). -/
def startPacing (s : State) : State :=
  { s with
    timers :=
      if s.localState = .seeking then { s.timers with pacing := startTimer s Config.pacingPeriods } else s.timers }

/-- A FOUND after an attempt that did not commit: LOST, it stays; else it is a failed FOUND, whatever kind its header
read as, so it goes without a notice and a seeker paces (R84, R118, R119). -/
def failFound (k : Fin 8) (x : Slot) (o : AttemptOutcome) (s : State) : State × OwnOutcome :=
  if o = .lost then countAttempt k x o s else (startPacing (emptySlot k s), {})

/-- An attempt that ended LOST, ABORTED or VOIDED (R118). -/
def failAttempt (k : Fin 8) (x : Slot) (o : AttemptOutcome) (s : State) : State × OwnOutcome :=
  match x.content with
  | .acquire l c _ _ _ => failAcquire k x l c o s
  | .found => failFound k x o s
  | _ => countAttempt k x o s

/-- An attempt that committed: the slot is removed, and after an ordinary frame the courtesy gap is pending
(R118, R89). -/
def commitAttempt (k : Fin 8) (x : Slot) (s : State) : State × OwnOutcome :=
  let t := emptySlot k s
  ({ t with line := { t.line with courtesyPending := t.line.courtesyPending || isOrdinary (slotKind x.content) } },
    { joined := x.content = .join })

/-- A JOIN that was refused: the slot is removed, the hold-off starts, and the station reports its own
DENIED_FULL (R118, R85, R135). -/
def refuseAttempt (k : Fin 8) (s : State) : State × OwnOutcome :=
  let t := emptySlot k s
  ({ t with timers := { t.timers with holdOff := startTimer t Config.holdOffPeriods } },
    { notices := [.roster (stationNumber s) .deniedFull] })

/-- The outbound queue takes the outcome of the attempt of slot `k` (R118). -/
def takeOutcome (k : Fin 8) (o : AttemptOutcome) (s : State) : State × OwnOutcome :=
  match s.queue.slots[k] with
  | none => (s, {})
  | some x =>
    match o with
    | .committed => commitAttempt k x s
    | .refused => refuseAttempt k s
    | .lost | .aborted | .voided => failAttempt k x o s

/-- The outcome of the frame that ends, if this station made an attempt in it. -/
def ownOutcome (slot : Option (Fin 8)) (rep : FrameReport) (s : State) : State × OwnOutcome :=
  match slot, rep.attempt with
  | some k, some o => takeOutcome k o s
  | _, _ => (s, {})

/-! ### The verdict at the time unit and as join evidence (R80, R83, R84, R134) -/

/-- A committed verdict has been read. -/
def committedVerdict (v : Verdict) : Bool := v = .commit || v = .refuse

/-- A seeker reads a committed verdict (R83, R134). -/
def seekerReadsCommit (s : State) : State :=
  dropMembership .found
    { s with
      joinEvidence := true
      timers := { s.timers with founding := startTimer s Config.foundingPeriods, pacing := .stopped } }

/-- A seeker reads a FOUND that failed (R84). -/
def seekerReadsFailedFound (s : State) : State :=
  dropMembership .found { s with timers := { s.timers with pacing := startTimer s Config.pacingPeriods } }

/-- The silence timer starts afresh (R80). -/
def restartSilence (s : State) : State :=
  { s with timers := { s.timers with silence := startTimer s Config.silencePeriods } }

/-- What the verdict of a frame does to the timers. -/
def takeVerdict (rep : FrameReport) (s : State) : State :=
  match s.localState with
  | .seeking =>
    if committedVerdict rep.verdict then seekerReadsCommit s
    else if isFoundCode rep.kindCode then seekerReadsFailedFound s
    else s
  | .joining | .member | .leaving => if committedVerdict rep.verdict then restartSilence s else s
  | .standby | .detached => s

/-! ### Effects of a committed frame on a known roster (R39, R9) -/

/-- The replica after the effect of the frame's kind, and what is reported. -/
structure Applied where
  roster : Roster
  leases : LeaseTable
  effect : FrameEffect := {}
  deriving DecidableEq, Repr

/-- The record of the station is MEMBER. -/
def isMember (r : Roster) (j : Station) : Bool := r.records[j].state = .member

/-- A ROSTER notice about another station; none about this one (R39). -/
def rosterNotice (own j : Station) (x : RosterReason) : List NoticeBody := if j = own then [] else [.roster j x]

/-- TICK: the tick count and the known entries, whatever the sender (R9, R79). -/
def applyTick (r : Roster) (t : LeaseTable) : Applied :=
  let out := updateAllLeases tickEntry t
  { roster := { r with ticks := r.ticks + 1 }
    leases := out.1
    effect := { events := out.2, tickApplied := true } }

/-- ACQUIRE of a MEMBER (R9, R11). -/
def applyAcquire (j : Station) (l : Lease) (c : Client) (m : Mode) (term patience : Nat) (r : Roster)
    (t : LeaseTable) : Applied :=
  if isMember r j then
    let out := updateLease l (acquireEntry l { station := j, client := c } m term patience) t
    { roster := r, leases := out.1, effect := { events := out.2 } }
  else { roster := r, leases := t }

/-- RELEASE of a MEMBER (R9, R14 to R16). -/
def applyRelease (j : Station) (l : Lease) (c : Client) (r : Roster) (t : LeaseTable) : Applied :=
  if isMember r j then
    let out := updateLease l (releaseEntry l { station := j, client := c }) t
    { roster := r, leases := out.1, effect := { events := out.2 } }
  else { roster := r, leases := t }

/-- RENEW of a MEMBER (R9, R17). -/
def applyRenew (j : Station) (entries : List (Lease × Client)) (r : Roster) (t : LeaseTable) : Applied :=
  if isMember r j then { roster := r, leases := renewLeases j entries t } else { roster := r, leases := t }

/-- JOIN from station `j`: a MEMBER record is purged first (R48). -/
def applyJoin (own j : Station) (r : Roster) (t : LeaseTable) : Applied :=
  if isMember r j then
    let out := updateAllLeases (removalPurge [j]) t
    { roster := joinRecord j r
      leases := out.1
      effect := { rosterNotices := rosterNotice own j .removed ++ rosterNotice own j .joined, events := out.2 } }
  else { roster := joinRecord j r, leases := t, effect := { rosterNotices := rosterNotice own j .joined } }

/-- A JOIN refused to station `j` (R49). -/
def applyRefusal (own j : Station) (r : Roster) (t : LeaseTable) : Applied :=
  { roster := r, leases := t, effect := { rosterNotices := rosterNotice own j .deniedFull } }

/-- LEAVE from station `j` (R51). -/
def applyLeave (own j : Station) (r : Roster) (t : LeaseTable) : Applied :=
  if isMember r j then
    let out := updateAllLeases (leavePurge j) t
    { roster := setRecord j absentRecord r
      leases := out.1
      effect :=
        { rosterNotices := rosterNotice own j .left
          events := out.2
          leaveCompleted := j = own } }
  else { roster := r, leases := t }

/-- A joiner loads a lease item into its entry (R70). -/
def loadItem (x : SnapItem) (t : LeaseTable) : LeaseTable :=
  match x with
  | .roster _ _ _ _ => t
  | .lease l e => t.set l (some e)

/-- SNAP from a MEMBER: cursor and progress, and at a joiner the item (R52, R53, R70). -/
def applySnap (own j : Station) (x : LocalState) (item : SnapItem) (r : Roster) (t : LeaseTable) : Applied :=
  if isMember r j then
    let after := snapProgress (itemNumber item) r
    let admitted := admittedBetween r after
    { roster := after
      leases := if x = .joining then loadItem item t else t
      effect :=
        { rosterNotices := admitted.flatMap fun i => rosterNotice own i .member
          admitted := x = .joining && admitted.contains own } }
  else { roster := r, leases := t }

/-- The effect of the frame's kind (R39). A FOUND is not applied (R47). -/
def applyKind (own : Station) (x : LocalState) (rep : FrameReport) (b : FrameBody) (r : Roster) (t : LeaseTable) :
    Applied :=
  match b with
  | .tick => applyTick r t
  | .found _ => { roster := r, leases := t }
  | .join => if rep.verdict = .refuse then applyRefusal own rep.sender r t else applyJoin own rep.sender r t
  | .leave => applyLeave own rep.sender r t
  | .snap item => applySnap own rep.sender x item r t
  | .release l c => applyRelease rep.sender l c r t
  | .renew entries => applyRenew rep.sender entries r t
  | .acquire l c m term patience => applyAcquire rep.sender l c m term patience r t

/-- The commit count advances, then the misses of the required set are reset (R34, R39, R40). -/
def finishCommit (required : List Station) (r : Roster) : Roster :=
  resetMisses required { r with commits := r.commits + 1 }

/-- The trigger a committed frame brings after it has been applied: steps 6 and 7 of R104, R54. -/
def commitTrigger (rep : FrameReport) (b : FrameBody) (before : Roster) : Option Trigger :=
  if rep.acknowledged && rep.divergence && rep.verdict = .commit then some .diverged
  else if b ≠ .join && !isMember before rep.sender then some .foreign
  else none

/-- A committed frame applied to a known roster (R39, R104). -/
def applyKnown (rep : FrameReport) (b : FrameBody) (r : Roster) (s : State) : State × FrameEffect :=
  match b with
  | .found _ => (s, { trigger := some .foreign })
  | _ =>
    let a := applyKind (stationNumber s) s.localState rep b r s.leases
    ({ s with roster := some (finishCommit (rep.required.getD []) a.roster), leases := a.leases },
      { a.effect with trigger := commitTrigger rep b r })

/-! ### Committed frames at a station with an unknown roster (R46, R66, R68) -/

/-- A committed FOUND at a seeker that acknowledged it: a founder founds its roster and its table (R46, R27). -/
def found (n : Nat) (ackMap : BitVec 16) (s : State) : State × FrameEffect :=
  let members := founders n ackMap
  if members.contains (stationNumber s) then
    ({ s with roster := some (foundedRoster n members), leases := foundedLeases }, { admitted := true })
  else (s, {})

/-- The roster item at a joiner, by its own record in it (R68) (DEDUCED, log entry 12). -/
def loadRoster (loaded : Roster) (s : State) : State × FrameEffect :=
  let own := loaded.records[stationNumber s]
  if own.state = .absent then (s, { trigger := some .removed })
  else if own.state = .joining ∧ own.progress = some .awaitingRoster then
    ({ s with roster := some (finishCommit (requiredSet loaded) (snapProgress 0 loaded)) }, {})
  else (s, { trigger := some .diverged })

/-- A committed frame at a station whose roster is unknown (R39, R66). -/
def applyUnknown (rep : FrameReport) (b : FrameBody) (s : State) : State × FrameEffect :=
  match b with
  | .found n =>
    if takesTriggers s.localState then (s, { trigger := some .foreign })
    else if s.localState = .seeking ∧ rep.acknowledged then found n rep.ackMap s
    else (s, {})
  | .snap (.roster n commits ticks records) =>
    if s.localState = .joining then
      loadRoster { expected := n, commits := commits, ticks := ticks, cursor := 0, records := records } s
    else (s, {})
  | _ => (s, {})

/-- A committed whole frame is passed to its owners (step 3 of R104). -/
def applyCommitted (rep : FrameReport) (b : FrameBody) (s : State) : State × FrameEffect :=
  match s.roster with
  | none => applyUnknown rep b s
  | some r => applyKnown rep b r s

/-! ### Miss accounting (R41 to R45) -/

/-- The removals decided on the updated counts: JOINING records, then MEMBER records (R42, R43) (DEDUCED, log entry 20). -/
def removalsOf (r : Roster) : List Station := joiningToRemove r ++ membersToRemove r

/-- A VOID at a station with roster `r` (R41 to R45). -/
def accountVoid (rep : FrameReport) (r : Roster) (s : State) : State × FrameEffect :=
  let own := stationNumber s
  let counted := accountMisses (rep.required.getD []) rep.ackMap r
  let members := membersToRemove counted
  let after := removeStations (removalsOf counted) counted
  let notices := (removalsOf counted).flatMap fun i => rosterNotice own i .removed
  if (removalsOf counted).contains own then
    ({ s with roster := some after }, { rosterNotices := notices, trigger := some .removed })
  else if members = [] then ({ s with roster := some after }, { rosterNotices := notices })
  else
    let out := updateAllLeases (removalPurge members) s.leases
    ({ s with roster := some after, leases := out.1 },
      { rosterNotices := notices, events := out.2, membersRemoved := true })

/-! ### The steps of R104 -/

/-- A VOID is accounted on a known roster, for any kind but FOUND (step 4 of R104). -/
def applyVoid (rep : FrameReport) (s : State) : State × FrameEffect :=
  match s.roster with
  | none => (s, {})
  | some r => if isFoundCode rep.kindCode then (s, {}) else accountVoid rep r s

/-- A COMMIT or REFUSE: step 2 of R104, else step 3 for a whole frame. -/
def applyCommit (rep : FrameReport) (s : State) : State × FrameEffect :=
  if !isFoundCode rep.kindCode && rep.selfRequired && !rep.acknowledged then (s, { trigger := some .diverged })
  else
    match rep.payload with
    | none => (s, {})
    | some b => applyCommitted rep b s

/-- What the line engine passes to the owners (R104) (DEDUCED, log entry 21). -/
def applyFrame (rep : FrameReport) (s : State) : State × FrameEffect :=
  match rep.verdict with
  | .unreadable => (s, { trigger := if rep.selfRequired then some .tailError else none })
  | .commit | .refuse => applyCommit rep s
  | .void => applyVoid rep s
  | .abandoned => (s, {})

/-! ### Hand-over of results and holder-set changes (R10, R186) -/

/-- The WATCH notice of a holder-set change; other hand-overs have none (R10, R186). -/
def watchOf (ev : TableEvent) : Option NoticeBody :=
  match ev with
  | .granted l t g n => some (.watch l t g true n)
  | .released l t g n => some (.watch l t g false n)
  | .expired l t g n => some (.watch l t g false n)
  | .fenceEnded l t g n => some (.watch l t g false n)
  | .leftWithStation l t g n => some (.watch l t g false n)
  | .queued _ _ _ | .deniedDuplicate _ _ | .deniedBusy _ _ | .deniedQueueFull _ _ | .withdrawn _ _
  | .timedOut _ _ => none

/-- The WATCH notice if the lease is watched, in MEMBER and LEAVING (R186). -/
def watchNotices (s : State) (ev : TableEvent) : List NoticeBody :=
  if s.config.watch.getLsbD ev.lease.val ∧ (s.localState = .member ∨ s.localState = .leaving) then
    (watchOf ev).toList
  else []

/-- The notices of a hand-over that names this station (R10, R139, R186). -/
def ownEventNotices (s : State) (ev : TableEvent) : List NoticeBody :=
  match ev with
  | .granted l t g _ =>
    .granted l t.client g :: (if s.localState = .leaving then [.revoked l t.client g .leaving] else [])
  | .queued l t p => [.queued l t.client p]
  | .deniedDuplicate l t => [.denied l t.client .duplicate]
  | .deniedBusy l t => [.denied l t.client .busy]
  | .deniedQueueFull l t => [.denied l t.client .queueFull]
  | .released l t g _ => [.released l t.client g]
  | .withdrawn l t => [.withdrawn l t.client .committed]
  | .expired l t g _ => [.expired l t.client g]
  | .timedOut l t => [.timedOut l t.client]
  | .fenceEnded _ _ _ _ => watchNotices s ev
  | .leftWithStation _ _ _ _ => []

/-- The notices of one hand-over at this station (R10, R186). -/
def eventNotices (s : State) (ev : TableEvent) : List NoticeBody :=
  if ev.tag.station = stationNumber s then ownEventNotices s ev else watchNotices s ev

/-- One hand-over: to the notification queue and to the client unit (R10). -/
def handOver (s : State) (ev : TableEvent) : State := takeResult ev (notifyAll (eventNotices s ev) s)

/-! ### The rest of the frame end -/

/-- At an applied TICK, the tick timer and slot in MEMBER and LEAVING, and TICKOUT (R76, R79). -/
def afterTick (s : State) : State :=
  let t := { s with tickout := some Config.tickoutCycles }
  if t.localState = .member ∨ t.localState = .leaving then
    { t with
      queue := removeSlot tickSlot t.queue
      timers := { t.timers with tick := startTimer t Config.tickPeriods } }
  else t

/-- After a removal of MEMBER records, the tick timer and slot in MEMBER and LEAVING (R77). -/
def afterRemoval (s : State) : State :=
  if s.localState = .member ∨ s.localState = .leaving then
    { s with
      queue := removeSlot tickSlot s.queue
      timers := { s.timers with tick := startTimer s Config.tickPeriods } }
  else s

/-- What the time unit does with the application of the frame (R76, R77, R79). -/
def timeUnitEffect (fx : FrameEffect) (s : State) : State :=
  if fx.tickApplied then afterTick s else if fx.membersRemoved then afterRemoval s else s

/-- A fresh need after a discard (R152, R155). -/
def freshNeed (d : Option SlotContent) (s : State) : State :=
  match d with
  | none => s
  | some c => takeSendFailed c s

/-- The local requests at a frame end: waiting needs, fresh needs, conclusions, auto-renew. -/
def serveClients (fx : FrameEffect) (own : OwnOutcome) (s : State) : State :=
  let t := concludeClients (freshNeed own.discarded (serveNeeds s))
  if fx.tickApplied then autoRenew t else t

/-- The teardown a frame end brings, if any (R143, R81, R51) (DEDUCED, log entries 13, 27). -/
def teardownDue (fx : FrameEffect) (s : State) : Option TeardownCause :=
  if fx.leaveCompleted then some .leaveCompleted
  else if takesTriggers s.localState then
    match fx.trigger with
    | some t => some (.trigger t)
    | none => if s.timers.silence = .expired then some (.trigger .isolated) else none
  else none

/-- Entry into JOINING or MEMBER at a frame end (R137, R138). -/
def applyAdmission (fx : FrameEffect) (own : OwnOutcome) (s : State) : State :=
  if own.joined ∧ s.localState = .seeking then enterJoining s
  else if fx.admitted then enterMember s
  else s

/-- The transfer unit, the tests of a seeker and the leave handshake at a frame end (R58, R61, R82, R134,
R140). -/
def placeAtFrameEnd (s : State) : State := leaveHandshake (joinTest (foundingTest (transferUnit s)))

/-- The placing at a frame end; one that has discarded a LEAVE leaves the slot to the next frame end (R61, R141)
(DEDUCED, log entry 29). -/
def placeUnlessDiscarded (own : OwnOutcome) (s : State) : State :=
  if own.discarded = some .leave then { s with sourceDuty := dutyNow s } else placeAtFrameEnd s

/-- The last step: a teardown, or admission and placing. -/
def settleFrameEnd (fx : FrameEffect) (own : OwnOutcome) (s : State) : State :=
  match teardownDue fx s with
  | some cause => teardown cause s
  | none => placeUnlessDiscarded own (applyAdmission fx own s)

/-- Every block's part in a frame end of a station engaged in the frame (R104, R118, R185) (DEDUCED, log entry 13). -/
def frameEndSteps (slot : Option (Fin 8)) (rep : FrameReport) (s : State) : State :=
  let out := ownOutcome slot rep s
  let app := applyFrame rep (takeVerdict rep out.1)
  let reported := app.2.events.foldl handOver (notifyAll (out.2.notices ++ app.2.rosterNotices) app.1)
  settleFrameEnd app.2 out.2 (serveClients app.2 out.2 (timeUnitEffect app.2 reported))

/-- The frame leaves the line engine: the report is kept, and the gap is counted, while an aborted sender has
`marks` more bits to drive its marks in (R88, R92, R103). -/
def closeFrame (marks : Nat) (rep : FrameReport) (s : State) : State :=
  { s with
    line := { s.line with phase := .counting, gapBits := 0, bitCycles := 0, markBits := marks, report := some rep } }

/-- A frame end with the cells as read; without a frame in progress there is none (R103) (DEDUCED, log entries 5, 9). -/
def endFrame (cells : List LineCell) (s : State) : State :=
  match s.line.phase with
  | .counting | .idle => s
  | .receiving role =>
    let rep := frameReport s role none cells
    if role.engaged then frameEndSteps none rep (closeFrame 0 rep s) else closeFrame 0 rep s
  | .sending role tx =>
    let rep := frameReport s role (some tx) cells
    frameEndSteps (some tx.slot) rep (closeFrame (bitsToSentExtent (some tx) cells) rep s)

/-- FRAME_END (R104). -/
def execFrameEnd (cells : List LineCell) (s : State) : Host.Outcome State Fault Refusal :=
  .next (driveOutputs (if s.resetLow then s else endFrame cells s))

end Sys2Proof.Machine
end

