-- ==== Sys2Proof/Machine/Port.lean ====
section
/-! DEFINITION. The local port (09_the_local_port.md): the take of each request with its checks and response
(R164, R167 to R181), and the discarded exchange (R165). Port requests come one exchange each: the take of a
request stands for its whole exchange up to the take, so an exchange still open has ended by then. -/

namespace Sys2Proof.Machine

/-! ### Status codes (R192) -/

def okCode : Byte := 0x00
def queuedCode : Byte := 0x01
def cancelledCode : Byte := 0x02
def wrongStateCode : Byte := 0x80
def badArgumentCode : Byte := 0x81
def lineClientCode : Byte := 0x82
def duplicateCode : Byte := 0x83
def slotsFullCode : Byte := 0x84
def notPresentCode : Byte := 0x85
def renewFullCode : Byte := 0x86
def leavingCode : Byte := 0x87
def unknownRequestCode : Byte := 0x8F

/-- The request code of RESET (R191). -/
def resetRequest : Byte := 0x4F

/-! ### Exchanges (R163, R164) -/

/-- The exchange in progress ends, and a RESET acts; the wires are those of the exchange that follows (R163, R181)
(DEDUCED, log entry 8). -/
def endExchange (s : State) : State :=
  match s.exchange with
  | none => s
  | some x => if x.code = resetRequest then takeReset s else { s with exchange := none }

/-- A request is taken: `act` makes its checks, acts and gives the response (R164). -/
def takeRequest (code : Byte) (act : State → List Byte × State) (s : State) : State :=
  let out := act (endExchange s)
  { out.2 with exchange := some { code := code, response := out.1 }, serial := SerialPort.begun }

/-- Byte `k` clocked out after the take; 0xFF once the response is spent (R163, R165). -/
def responseByte (x : Exchange) (k : Nat) : Byte := x.response.getD k 0xFF

/-- The meaning of a port request; the port takes no exchange while RESETn is low (R162) (DEDUCED, log entry 26). -/
def portRequest (code : Byte) (act : State → List Byte × State) (s : State) : State :=
  driveOutputs (if s.resetLow then s else takeRequest code act s)

/-! ### STATUS, configuration (R168 to R171) -/

/-- The member count reported: 0 while the roster is unknown (R168). -/
def memberCountNow (s : State) : Nat :=
  match s.roster with
  | none => 0
  | some r => memberCount r

/-- STATUS (R168). -/
def takeStatus (s : State) : List Byte × State :=
  ([okCode, localStateCode s.localState, byteOf (memberCountNow s), byteOf (freeGeneralCount s.queue),
      byteOf s.notices.length] ++ bytesOf16 (commitStamp s), s)

/-- The configuration may be written (R131). -/
def configurationOpen (s : State) : Bool := s.localState = .standby && !s.config.locked

/-- CONFIGURE_CLIENT (R169). -/
def takeConfigureClient (client binding lease term : Byte) (s : State) : List Byte × State :=
  if !configurationOpen s then ([wrongStateCode], s)
  else
    match clientOfByte client, bindingOfBytes binding lease term with
    | some c, some b => ([okCode], { s with config := { s.config with bindings := s.config.bindings.set c b } })
    | _, _ => ([badArgumentCode], s)

/-- CONFIGURE_WATCH (R170). -/
def takeConfigureWatch (mask : BitVec 64) (s : State) : List Byte × State :=
  if !configurationOpen s then ([wrongStateCode], s)
  else ([okCode], { s with config := { s.config with watch := mask } })

/-- CONFIGURE_OPTIONS (R171). -/
def takeConfigureOptions (autoRejoin : Byte) (s : State) : List Byte × State :=
  if !configurationOpen s then ([wrongStateCode], s)
  else if autoRejoin = 0x00 then ([okCode], { s with config := { s.config with autoRejoin := false } })
  else if autoRejoin = 0x01 then ([okCode], { s with config := { s.config with autoRejoin := true } })
  else ([badArgumentCode], s)

/-! ### Station control (R172, R179 to R181) -/

/-- START (R172). -/
def takeStart (s : State) : List Byte × State :=
  if s.localState = .standby then ([okCode], startStation s) else ([wrongStateCode], s)

/-- LEAVE (R179). -/
def takeLeave (s : State) : List Byte × State :=
  match s.localState with
  | .member => ([okCode], enterLeaving s)
  | .leaving => ([leavingCode], s)
  | .standby | .seeking | .joining | .detached => ([wrongStateCode], s)

/-- REJOIN (R180). -/
def takeRejoin (s : State) : List Byte × State :=
  if s.localState = .detached then ([okCode], enterSeeking s) else ([wrongStateCode], s)

/-- RESET: it acts at the end of the exchange (R181). -/
def takeResetRequest (s : State) : List Byte × State := ([okCode], s)

/-! ### Lease requests (R173 to R175) -/

/-- The response to an answer of the outbound queue (R192). -/
def queueResponse (a : QueueAnswer) : List Byte :=
  match a with
  | .queued k => [queuedCode, byteOf k.val]
  | .cancelled => [cancelledCode]
  | .duplicate => [duplicateCode]
  | .slotsFull => [slotsFullCode]
  | .notPresent => [notPresentCode]
  | .renewFull => [renewFullCode]

/-- The client is PORT-bound. -/
def isPortClient (s : State) (c : Client) : Bool := s.config.bindings[c] = .port

/-- The refusal of ACQUIRE and RENEW by the local state (R173, R175). -/
def memberRefusal (x : LocalState) : Option Byte :=
  match x with
  | .member => none
  | .leaving => some leavingCode
  | .standby | .seeking | .joining | .detached => some wrongStateCode

/-- Checks 3 to 5 of ACQUIRE (R173). -/
def placeAcquireRequest (l : Lease) (c : Client) (m : Mode) (term patience : Nat) (s : State) :
    List Byte × State :=
  if !isPortClient s c then ([lineClientCode], s)
  else if tagPresent s l (ownTag s c) then ([duplicateCode], s)
  else
    let out := placeAcquire l c m term patience s.queue
    (queueResponse out.1, { s with queue := out.2 })

/-- ACQUIRE (R173). -/
def takeAcquire (lease clientMode term patience : Byte) (s : State) : List Byte × State :=
  match memberRefusal s.localState with
  | some code => ([code], s)
  | none =>
    match leaseOfByte lease with
    | none => ([badArgumentCode], s)
    | some l =>
      if term = 0 then ([badArgumentCode], s)
      else
        placeAcquireRequest l (clientOfLowBits clientMode) (modeOfBit (clientMode.getLsbD 7)) term.toNat
          patience.toNat s

/-- RELEASE is taken in MEMBER and LEAVING (R174). -/
def admitsRelease (x : LocalState) : Bool := x = .member || x = .leaving

/-- Checks 3 and 4 of RELEASE; a cancellation frees its general slot (R174, R122, R125). -/
def placeReleaseRequest (l : Lease) (c : Client) (s : State) : List Byte × State :=
  if !isPortClient s c then ([lineClientCode], s)
  else
    let out := requestRelease l c s
    (queueResponse out.1, if out.1 = .cancelled then slotFreed out.2 else out.2)

/-- RELEASE (R174). -/
def takeRelease (lease client : Byte) (s : State) : List Byte × State :=
  if !admitsRelease s.localState then ([wrongStateCode], s)
  else
    match leaseOfByte lease, clientOfByte client with
    | some l, some c => placeReleaseRequest l c s
    | _, _ => ([badArgumentCode], s)

/-- Checks 3 to 5 of RENEW (R175). -/
def placeRenewRequest (l : Lease) (c : Client) (s : State) : List Byte × State :=
  if !isPortClient s c then ([lineClientCode], s)
  else if (liveHolderOf s l (ownTag s c)).isNone then ([notPresentCode], s)
  else
    let out := placeRenew l c s.queue
    (queueResponse out.1, { s with queue := out.2 })

/-- RENEW (R175). -/
def takeRenew (lease client : Byte) (s : State) : List Byte × State :=
  match memberRefusal s.localState with
  | some code => ([code], s)
  | none =>
    match leaseOfByte lease, clientOfByte client with
    | some l, some c => placeRenewRequest l c s
    | _, _ => ([badArgumentCode], s)

/-! ### Reads and notices (R176 to R178) -/

/-- READ_LEASE (R177). -/
def takeReadLease (index : Byte) (s : State) : List Byte × State :=
  match leaseOfByte index with
  | none => ([badArgumentCode], s)
  | some l =>
    match s.leases[l] with
    | none => ([okCode, 0x00], s)
    | some e => ([okCode, 0x01] ++ entryBytes e, s)

/-- The data of READ_ROSTER for a known roster (R178, R192). -/
def rosterBytes (r : Roster) : List Byte :=
  [byteOf r.expected] ++ bytesOf32 r.commits ++ bytesOf32 r.ticks ++ [byteOf r.cursor.val] ++
    allRecordBytes r.records

/-- READ_ROSTER (R178). -/
def takeReadRoster (s : State) : List Byte × State :=
  match s.roster with
  | none => ([okCode, 0x00], s)
  | some r => ([okCode, 0x01] ++ rosterBytes r, s)

/-- TAKE_NOTICE (R176, R188). -/
def takeTakeNotice (s : State) : List Byte × State :=
  match s.notices with
  | [] => ([okCode, 0x00], s)
  | n :: rest => ([okCode] ++ noticeBytes n, { s with notices := rest })

/-- A code that names no request (R166). -/
def takeUnknownRequest (s : State) : List Byte × State := ([unknownRequestCode], s)

/-! ### The commands -/

/-- STATUS (R168). -/
def execStatus (s : State) : Host.Outcome State Fault Refusal := .next (portRequest 0x01 takeStatus s)

/-- CONFIGURE_CLIENT (R169). -/
def execConfigureClient (client binding lease term : Byte) (s : State) : Host.Outcome State Fault Refusal :=
  .next (portRequest 0x10 (takeConfigureClient client binding lease term) s)

/-- CONFIGURE_WATCH (R170). -/
def execConfigureWatch (mask : BitVec 64) (s : State) : Host.Outcome State Fault Refusal :=
  .next (portRequest 0x11 (takeConfigureWatch mask) s)

/-- CONFIGURE_OPTIONS (R171). -/
def execConfigureOptions (autoRejoin : Byte) (s : State) : Host.Outcome State Fault Refusal :=
  .next (portRequest 0x12 (takeConfigureOptions autoRejoin) s)

/-- START (R172). -/
def execStart (s : State) : Host.Outcome State Fault Refusal := .next (portRequest 0x13 takeStart s)

/-- ACQUIRE (R173). -/
def execAcquire (lease clientMode term patience : Byte) (s : State) : Host.Outcome State Fault Refusal :=
  .next (portRequest 0x20 (takeAcquire lease clientMode term patience) s)

/-- RELEASE (R174). -/
def execRelease (lease client : Byte) (s : State) : Host.Outcome State Fault Refusal :=
  .next (portRequest 0x21 (takeRelease lease client) s)

/-- RENEW (R175). -/
def execRenew (lease client : Byte) (s : State) : Host.Outcome State Fault Refusal :=
  .next (portRequest 0x22 (takeRenew lease client) s)

/-- READ_LEASE (R177). -/
def execReadLease (index : Byte) (s : State) : Host.Outcome State Fault Refusal :=
  .next (portRequest 0x30 (takeReadLease index) s)

/-- READ_ROSTER (R178). -/
def execReadRoster (s : State) : Host.Outcome State Fault Refusal := .next (portRequest 0x31 takeReadRoster s)

/-- TAKE_NOTICE (R176). -/
def execTakeNotice (s : State) : Host.Outcome State Fault Refusal := .next (portRequest 0x32 takeTakeNotice s)

/-- LEAVE (R179). -/
def execLeave (s : State) : Host.Outcome State Fault Refusal := .next (portRequest 0x40 takeLeave s)

/-- REJOIN (R180). -/
def execRejoin (s : State) : Host.Outcome State Fault Refusal := .next (portRequest 0x41 takeRejoin s)

/-- RESET (R181). -/
def execReset (s : State) : Host.Outcome State Fault Refusal :=
  .next (portRequest resetRequest takeResetRequest s)

/-- UNKNOWN_REQUEST (R166). -/
def execUnknownRequest (code : Byte) (s : State) : Host.Outcome State Fault Refusal :=
  .next (portRequest code takeUnknownRequest s)

/-- An exchange ends before its take: nothing but the end of the exchange before it, and the port is FREE (R165). -/
def discardExchange (s : State) : State := { endExchange s with exchange := none, serial := SerialPort.free }

/-- EXCHANGE_DISCARDED: nothing but the end of the exchange before it; the bytes clocked in have no effect (R165). -/
def execExchangeDiscarded (_clocked : List Byte) (s : State) : Host.Outcome State Fault Refusal :=
  .next (driveOutputs (if s.resetLow then s else discardExchange s))

end Sys2Proof.Machine
end

