-- ==== Sys2Proof/Machine/Reset.lean ====
section
/-! DEFINITION. The resets as commands (R132, R181). -/

namespace Sys2Proof.Machine

/-- PIN_RESET: RESETn goes low; every block takes its reset values, the outputs are low or deasserted (R132). -/
def execPinReset (s : State) : Host.Outcome State Fault Refusal :=
  .next (driveOutputs { resetBlocks s with resetLow := true })

/-- PIN_RESET_RELEASE: the straps are sampled, then the reset is taken with them (R130, R132) (DESIGN CHOICE, log
entry 10). -/
def execPinResetRelease (pins : StrapPins) (s : State) : Host.Outcome State Fault Refusal :=
  .next (driveOutputs (takeReset { s with straps := pins, resetLow := false }))

/-- SOFT_RESET: the end of the RESET exchange (R132, R181); not while RESETn is low (DESIGN CHOICE, log entry 10). -/
def execSoftReset (s : State) : Host.Outcome State Fault Refusal :=
  .next (driveOutputs (if s.resetLow then s else takeReset s))

end Sys2Proof.Machine
end

