-- ==== Sys2Proof/Machine/TimeUnit.lean ====
section
/-! DEFINITION. The expiries of the five timers and the end of the TICKOUT pulse (04_shared_time.md). An
expiry happens to a timer that is RUNNING only (R73). -/

namespace Sys2Proof.Machine

/-- The tick timer expires: a TICK is placed if the tick slot is empty (R75) (DEDUCED, log entry 9). -/
def expireTick (s : State) : State :=
  if s.timers.tick.isRunning then
    { s with
      timers := { s.timers with tick := .expired }
      queue := if slotFree s.queue tickSlot then placeSlot tickSlot .tick s.queue else s.queue }
  else s

/-- The silence timer expires: ISOLATED, or held while a frame is in progress (R81) (DEDUCED, log entries 9, 27). -/
def expireSilence (s : State) : State :=
  if s.timers.silence.isRunning then
    let t := { s with timers := { s.timers with silence := .expired } }
    if !frameInProgress t && takesTriggers t.localState then teardown (.trigger .isolated) t else t
  else s

/-- The founding timer expires, and the founding test is made (R82). -/
def expireFounding (s : State) : State :=
  if s.timers.founding.isRunning then
    foundingTest { s with timers := { s.timers with founding := .expired } }
  else s

/-- The pacing timer expires, and the founding test is made (R82, R84). -/
def expirePacing (s : State) : State :=
  if s.timers.pacing.isRunning then
    foundingTest { s with timers := { s.timers with pacing := .expired } }
  else s

/-- The hold-off timer expires, and the join test is made (R85, R134). -/
def expireHoldOff (s : State) : State :=
  if s.timers.holdOff.isRunning then
    joinTest { s with timers := { s.timers with holdOff := .expired } }
  else s

/-- TICK_TIMER_EXPIRY (R75). -/
def execTickTimerExpiry (s : State) : Host.Outcome State Fault Refusal :=
  .next (driveOutputs (if s.resetLow then s else expireTick s))

/-- SILENCE_TIMER_EXPIRY (R81). -/
def execSilenceTimerExpiry (s : State) : Host.Outcome State Fault Refusal :=
  .next (driveOutputs (if s.resetLow then s else expireSilence s))

/-- FOUNDING_TIMER_EXPIRY (R82). -/
def execFoundingTimerExpiry (s : State) : Host.Outcome State Fault Refusal :=
  .next (driveOutputs (if s.resetLow then s else expireFounding s))

/-- PACING_TIMER_EXPIRY (R84). -/
def execPacingTimerExpiry (s : State) : Host.Outcome State Fault Refusal :=
  .next (driveOutputs (if s.resetLow then s else expirePacing s))

/-- HOLD_OFF_TIMER_EXPIRY (R85). -/
def execHoldOffTimerExpiry (s : State) : Host.Outcome State Fault Refusal :=
  .next (driveOutputs (if s.resetLow then s else expireHoldOff s))

/-- TICKOUT_PULSE_END: TICKOUT goes low (R79). -/
def execTickoutPulseEnd (s : State) : Host.Outcome State Fault Refusal :=
  .next (driveOutputs (if s.resetLow then s else { s with tickout := none }))

end Sys2Proof.Machine
end

