-- ==== Sys2Proof/Machine/Dispatch.lean ====
section
/-! DEFINITION. One arm per command: the call of its meaning. -/

namespace Sys2Proof.Machine

def exec (i : Instr) (s : State) : Host.Outcome State Fault Refusal :=
  match i with
  | .pinReset => Sys2Proof.Machine.execPinReset s
  | .pinResetRelease pins => Sys2Proof.Machine.execPinResetRelease pins s
  | .exchangeDiscarded clocked => Sys2Proof.Machine.execExchangeDiscarded clocked s
  | .status => Sys2Proof.Machine.execStatus s
  | .configureClient client binding lease term => Sys2Proof.Machine.execConfigureClient client binding lease term s
  | .configureWatch mask => Sys2Proof.Machine.execConfigureWatch mask s
  | .configureOptions autoRejoin => Sys2Proof.Machine.execConfigureOptions autoRejoin s
  | .start => Sys2Proof.Machine.execStart s
  | .acquire lease clientMode term patience => Sys2Proof.Machine.execAcquire lease clientMode term patience s
  | .release lease client => Sys2Proof.Machine.execRelease lease client s
  | .renew lease client => Sys2Proof.Machine.execRenew lease client s
  | .readLease index => Sys2Proof.Machine.execReadLease index s
  | .readRoster => Sys2Proof.Machine.execReadRoster s
  | .takeNotice => Sys2Proof.Machine.execTakeNotice s
  | .leave => Sys2Proof.Machine.execLeave s
  | .rejoin => Sys2Proof.Machine.execRejoin s
  | .reset => Sys2Proof.Machine.execReset s
  | .unknownRequest code => Sys2Proof.Machine.execUnknownRequest code s
  | .softReset => Sys2Proof.Machine.execSoftReset s
  | .attemptStart opportunity => Sys2Proof.Machine.execAttemptStart opportunity s
  | .frameEnd cells => Sys2Proof.Machine.execFrameEnd cells s
  | .tickTimerExpiry => Sys2Proof.Machine.execTickTimerExpiry s
  | .silenceTimerExpiry => Sys2Proof.Machine.execSilenceTimerExpiry s
  | .foundingTimerExpiry => Sys2Proof.Machine.execFoundingTimerExpiry s
  | .pacingTimerExpiry => Sys2Proof.Machine.execPacingTimerExpiry s
  | .holdOffTimerExpiry => Sys2Proof.Machine.execHoldOffTimerExpiry s
  | .claimAsserted client => Sys2Proof.Machine.execClaimAsserted client s
  | .claimReleased client => Sys2Proof.Machine.execClaimReleased client s
  | .frameStartBit => Sys2Proof.Machine.execFrameStartBit s
  | .quietGapComplete => Sys2Proof.Machine.execQuietGapComplete s
  | .tickoutPulseEnd => Sys2Proof.Machine.execTickoutPulseEnd s

end Sys2Proof.Machine
end

