-- ==== Sys2Proof/Machine/PortWires.lean ====
section
/-! DEFINITION. The wires of the local port (R162, R163): what each edge does, the command that an edge completes, and
what a step does on an empty queue when no timed event is due (log entries 3 and 34). -/

namespace Sys2Proof.Machine

/-- The byte of eight bits, the first the most significant (R162). -/
def byteOfBits (bits : List Bool) : Byte := bits.foldl (fun b x => b <<< 1 ||| (if x then 1 else 0)) 0

/-- The phase of the exchange (R163). -/
def portPhase (s : State) : PortPhase :=
  match s.serial.selected, s.exchange, s.serial.bytes with
  | false, _, _ => .free
  | true, none, [] => .code
  | true, none, code :: args => .arguments (bytesToTake code - (1 + args.length))
  | true, some x, _ =>
    if s.serial.shifted = 0 then .taken else if s.serial.shifted < x.response.length then .response else .filler

/-- The bit that LDO presents next: 1 before the take, then the response, most significant bit first, then 0xFF
(R162, R163). -/
def nextLdo (s : State) : Bool :=
  match s.exchange with
  | none => true
  | some x => (responseByte x s.serial.shifted).getLsbD (7 - s.serial.bits.length)

/-- A rising edge of LCLK: the eighth completes a byte, of the request before the take and of the response after it
(R162, R163). -/
def shiftIn (ldi : Bool) (p : SerialPort) (taken : Bool) : SerialPort :=
  let bits := p.bits ++ [ldi]
  if bits.length < 8 then { p with bits := bits }
  else if taken then { p with bits := [], shifted := p.shifted + 1 }
  else { p with bits := [], bytes := p.bytes ++ [byteOfBits bits] }

/-- What an edge does to the port where it completes no command (R162, R163). -/
def portEdge (e : PortInput) (s : State) : State :=
  match portPhase s, e with
  | .free, .lselHigh => { s with exchange := none, serial := SerialPort.begun }
  | .free, _ | _, .lselHigh | _, .pause => s
  | _, .lselLow => { s with exchange := none, serial := SerialPort.free }
  | _, .lclkRise ldi => { s with serial := shiftIn ldi s.serial s.exchange.isSome }
  | _, .lclkFall => { s with serial := { s.serial with ldo := some (nextLdo s) } }

/-- The command that an edge completes: the request at its take, the discard of an exchange before its take, and the
soft reset at the end of a RESET exchange (R163, R164, R165, R181). -/
def portCommand (e : PortInput) (s : State) : Option Instr :=
  match portPhase s, e with
  | .code, .lclkRise ldi | .arguments _, .lclkRise ldi =>
    let p := shiftIn ldi s.serial false
    if p.bits = [] then requestOfBytes p.bytes else none
  | .code, .lselLow | .arguments _, .lselLow => some (.exchangeDiscarded s.serial.bytes)
  | .taken, .lselLow | .response, .lselLow | .filler, .lselLow =>
    if s.exchange.any fun x => x.code = resetRequest then some .softReset else none
  | _, _ => none

/-- What the controller does next on the wires; none while RESETn is low, and none in a cycle that it lets pass. -/
def nextEdge (s : State) : Option PortInput :=
  if s.resetLow then none
  else
    match s.portInput with
    | [] | .pause :: _ => none
    | e :: _ => some e

/-- The controller's next act on the wires is over. -/
def dropInput (s : State) : State := { s with portInput := s.portInput.tail }

/-- The command that an empty queue brings, with the state it acts on: the timed event that is due, else the command
that the next edge completes (DESIGN CHOICE, log entries 3, 34). -/
def idleCommand (s : State) : Option (Instr × State) :=
  match dueEvent s with
  | some c => some (c, s)
  | none =>
    match nextEdge s with
    | none => none
    | some e => (portCommand e s).map fun c => (c, dropInput s)

/-- What an empty queue does where it brings no command: the next edge, else one cycle of CLKIN (DESIGN CHOICE, log
entries 3, 34). -/
def idleChange (s : State) : State :=
  if s.resetLow then s
  else
    match nextEdge s with
    | none => clockCycle (dropInput s)
    | some e => portEdge e (dropInput s)

end Sys2Proof.Machine
end

