-- ==== Sys2Proof/Machine/Step.lean ====
section
/-! DEFINITION. One step: the command at the front of the queue, or on an empty queue the station's own
clock (log entry 3). -/

namespace Sys2Proof.Machine

/-- What happens on an empty queue: the command that comes due, else an edge of the port or one cycle of CLKIN. -/
def idleStep (s : State) : Host.Outcome State Fault Refusal :=
  match idleCommand s with
  | some (c, t) => exec c t
  | none => .next (idleChange s)

/-- One step. -/
def step (s : State) : Host.Outcome State Fault Refusal :=
  match s.pending with
  | [] => idleStep s
  | c :: rest => exec c { s with pending := rest }

/-- The command a table word spells, put at the front of the queue; no row of the table has bits, so
every word leaves the state as it is. -/
def State.withFetchWord (s : State) (nbits w : Nat) : State :=
  match Sys2Proof.decodeTableWord nbits w with
  | none => s
  | some c => { s with pending := c :: s.pending }

end Sys2Proof.Machine
end

