-- ==== Sys2Proof/WellFormed.lean ====
section
/-! DEFINITION. Which commands are events that can happen as the rules describe them. The meanings do
not rely on it: they are total. -/

namespace Sys2Proof

/-- Cells of a whole frame whose length cell reads `len`: 8 and the payload, none when over 64 (R90). -/
def frameCellCount (len : Byte) : Nat :=
  8 + (if len.toNat ≤ Config.payloadLimit then len.toNat else 0)

/-- Three checks: a discarded exchange has not reached its take (R165); an unknown request carries an
unassigned code (R166); a frame end carries all cells of the frame that its length cell announces (R90). -/
def Instr.wellFormed (i : Instr) : Bool :=
  match i with
  | .exchangeDiscarded [] => true
  | .exchangeDiscarded (code :: args) => 1 + args.length < bytesToTake code
  | .unknownRequest code => requestArgumentCount code = none
  | .frameEnd (_ :: _ :: len :: rest) => 3 + rest.length = frameCellCount len.data
  | .frameEnd _ => false
  | .pinReset | .pinResetRelease _ | .status | .configureClient _ _ _ _ | .configureWatch _
  | .configureOptions _ | .start | .acquire _ _ _ _ | .release _ _ | .renew _ _ | .readLease _
  | .readRoster | .takeNotice | .leave | .rejoin | .reset | .softReset | .attemptStart _
  | .tickTimerExpiry | .silenceTimerExpiry | .foundingTimerExpiry | .pacingTimerExpiry
  | .holdOffTimerExpiry | .claimAsserted _ | .claimReleased _ | .frameStartBit | .quietGapComplete
  | .tickoutPulseEnd => true

end Sys2Proof
end

