-- ==== Sys2Proof/Safety.lean ====
section
/-! DEFINITION. What it means for a state to be in order: the laws the spec gives the lease entries, the
notification queue, the output pins and the frame in progress; and when a port request meets no reset. -/

namespace Sys2Proof.Machine

/-- RESETn is high, and no RESET exchange is open (R162, R181). -/
def PortReady (s : State) : Prop := s.resetLow = false ∧ ∀ x, s.exchange = some x → x.code ≠ resetRequest

/-- Every known lease entry has its fields in range and obeys the limits of R3 and R4 (R56). -/
def EntriesLegal (s : State) : Prop :=
  ∀ (l : Lease) (e : LeaseEntry), s.leases[l] = some e → entryInRange e = true

/-- A request of mode `m` fits beside the holders (R5). -/
def Fits (holders : List Holder) (m : Mode) : Prop :=
  holders = [] ∨ m = .shared ∧ (∀ h ∈ holders, h.mode = .shared) ∧ holders.length < 4

/-- Waiters stand in an entry only while its head waiter does not fit beside the holders (R4). -/
def HeadBlocked (e : LeaseEntry) : Prop :=
  ∀ (w : Waiter) (rest : List Waiter), e.waiters = w :: rest → ¬ Fits e.holders w.mode

/-- The waiter law of R4 in every known entry. -/
def HeadsBlocked (s : State) : Prop := ∀ (l : Lease) (e : LeaseEntry), s.leases[l] = some e → HeadBlocked e

/-- The record is an OVERFLOW record with a count of 1 to 255 (R187). -/
def IsOverflowRecord (n : Notice) : Prop := ∃ c, n.body = .overflow c ∧ 1 ≤ c ∧ c ≤ 255

/-- At most 32 records, an OVERFLOW record only as the newest, and without one at most 31 (R187). -/
def NoticesLegal (q : List Notice) : Prop :=
  (∃ front n, q = front ++ [n] ∧ IsOverflowRecord n ∧ front.length ≤ 31 ∧ ∀ m ∈ front, m.isOverflow = false) ∨
    (q.length ≤ 31 ∧ ∀ m ∈ q, m.isOverflow = false)

/-- GRANT, SYNC and NOTICE have the levels of R157, R129 and R184. -/
def OutputsSettled (s : State) : Prop :=
  (∀ c : Client, s.grant[c] = grantLevel s c) ∧ s.sync = syncLevel s ∧ s.notice = noticeLevel s

/-- What the role of a frame in progress fixed of the roster is what the roster still gives (R36, R96). -/
def RoleOfRoster (s : State) (role : Role) : Prop :=
  role.required = s.roster.map requiredSet ∧ role.commits = s.roster.map (·.commits)

/-- The frame in progress, if any, agrees with the roster (R36, R96). -/
def FrameAgrees (s : State) : Prop :=
  match s.line.phase with
  | .counting | .idle => True
  | .receiving role => RoleOfRoster s role
  | .sending role _ => RoleOfRoster s role

/-- A station record has only the fields its state allows (R31). -/
def RecordsLegal (s : State) : Prop :=
  ∀ (r : Roster) (i : Station), s.roster = some r → recordInRange r.records[i] = true

/-- The state after the take of a request: the response stands for the exchange, no bit of it is clocked out yet, and
the output pins follow (R164, R157, R129, R184). -/
def answered (code : Byte) (response : List Byte) (t : State) : State :=
  driveOutputs { t with exchange := some { code := code, response := response }, serial := SerialPort.begun }

/-- The notification queue after notices with one stamp arrive in their order (R185, R187). -/
def arriveInOrder (stamp : BitVec 16) (bs : List NoticeBody) (q : List Notice) : List Notice :=
  bs.foldl (fun q b => arrive { stamp := stamp, body := b } q) q

/-- The queue holds no ACQUIRE and no RELEASE for the pair of lease and client (R120). -/
def PairAbsent (q : OutboundQueue) (l : Lease) (c : Client) : Prop :=
  ∀ (k : Fin 8) (x : Slot), k.val < 6 → q.slots[k] = some x →
    x.content.isAcquireFor l c = false ∧ x.content.isReleaseFor l c = false

/-- Slot `k` is the lowest-numbered free general slot (R120). -/
def LowestFree (q : OutboundQueue) (k : Fin 8) : Prop :=
  k.val < 6 ∧ q.slots[k] = none ∧ ∀ j : Fin 8, j.val < k.val → q.slots[j] ≠ none

/-- No general slot is free (R124). -/
def NoneFree (q : OutboundQueue) : Prop := ∀ k : Fin 8, k.val < 6 → q.slots[k] ≠ none

/-- No RENEW slot is opened (R121). -/
def NoneOpened (q : OutboundQueue) : Prop :=
  ∀ (k : Fin 8) (x : Slot) (entries : List (Lease × Client)),
    k.val < 6 → q.slots[k] = some x → x.content = .renew entries → x.opened = false

/-- The membership slot is empty, or holds `c` and its attempt has not started (R82, R134). -/
def MembershipOpen (q : OutboundQueue) (c : SlotContent) : Prop :=
  q.slots[(7 : Fin 8)] = none ∨ ∃ x, q.slots[(7 : Fin 8)] = some x ∧ x.content = c ∧ x.inAttempt = false

/-- The opportunity comes as the line stands: the end of a gap that is being counted, a change of the slots while the
line is idle, the twenty-second bit of an idle line with the courtesy gap pending (R114; log entry 17). -/
def OpportunityComes (s : State) (o : Opportunity) : Prop :=
  (o = .quietGap → s.line.phase = .counting) ∧ (o ≠ .quietGap → s.line.phase = .idle) ∧
    (o = .courtesyGap → s.line.courtesyPending = true)

/-- A slot of a permitted kind stands at `k` (R113). -/
def Offered (s : State) (k : Fin 8) (x : Slot) : Prop :=
  s.queue.slots[k] = some x ∧ kindPermitted s.localState (slotKind x.content) = true

/-- Slot `k` is the head: the lowest kind code, and among equal codes the oldest (R114). -/
def IsHead (s : State) (k : Fin 8) (x : Slot) : Prop :=
  Offered s k x ∧ ∀ (j : Fin 8) (y : Slot), Offered s j y → j ≠ k →
    (kindCode (slotKind x.content)).toNat < (kindCode (slotKind y.content)).toNat ∨
      kindCode (slotKind x.content) = kindCode (slotKind y.content) ∧ x.age < y.age

/-- No frame is in progress at the station (R81). -/
def LineQuiet (s : State) : Prop := s.line.phase = .counting ∨ s.line.phase = .idle

/-- Nothing waits on a slot of the queue: no need, and no RELEASING client (R125, R155). -/
def NothingWaits (s : State) : Prop :=
  (∀ c : Client, s.queue.needs[c] = none) ∧ ∀ c : Client, s.clients[c].state ≠ .releasing

/-- The tag is a LIVE or FENCED holder or a waiter of the entry (R116). -/
def TagIn (s : State) (l : Lease) (t : Tag) : Prop :=
  ∃ e, s.leases[l] = some e ∧ ((∃ h ∈ e.holders, h.tag = t) ∨ ∃ w ∈ e.waiters, w.tag = t)

/-- The law of the outbound queue: at most one ACQUIRE and one RELEASE of a pair, both only while that ACQUIRE is in
attempt, and each slot of its own kinds (R111, R112). -/
def QueueLegal (q : OutboundQueue) : Prop :=
  (∀ (j k : Fin 8) (x y : Slot) (l : Lease) (c : Client), q.slots[j] = some x → q.slots[k] = some y →
    (x.content.isAcquireFor l c = true → y.content.isAcquireFor l c = true → j = k) ∧
      (x.content.isReleaseFor l c = true → y.content.isReleaseFor l c = true → j = k) ∧
      (x.content.isAcquireFor l c = true → y.content.isReleaseFor l c = true → x.inAttempt = true)) ∧
    ∀ (k : Fin 8) (x : Slot), q.slots[k] = some x →
      (k.val < 6 → slotKind x.content = .acquire ∨ slotKind x.content = .release ∨ slotKind x.content = .renew) ∧
        (k = 6 → slotKind x.content = .tick) ∧
        (k = 7 → slotKind x.content = .found ∨ slotKind x.content = .join ∨ slotKind x.content = .leave ∨
          slotKind x.content = .snap)

/-- In STANDBY, SEEKING and DETACHED the roster and every lease entry are unknown; in MEMBER and LEAVING the
roster and all 64 entries are known (R1, R32). -/
def ReplicaPlaced (s : State) : Prop :=
  (s.localState = .standby ∨ s.localState = .seeking ∨ s.localState = .detached →
    s.roster = none ∧ ∀ l : Lease, s.leases[l] = none) ∧
    (s.localState = .member ∨ s.localState = .leaving →
      s.roster.isSome = true ∧ ∀ l : Lease, (s.leases[l]).isSome = true)

/-- In JOINING, the own record's progress covers the lease items still to come: at most that many entries are
unknown (R52, R53, R70). -/
def TransferCovers (s : State) : Prop :=
  ∀ (r : Roster) (n : Nat), s.localState = .joining → s.roster = some r →
    r.records[stationNumber s].state = .joining → r.records[stationNumber s].progress = some (.remaining n) →
    ((List.finRange 64).filter fun l : Fin 64 => (s.leases[l]).isNone).length ≤ n

/-- A lease item that waits to be read in JOINING is one this station does not know yet, from an entry that keeps the
waiter law: the source sends items 1 to 64 once each after item 0 (R52, R57, R58, R70). -/
def NextItemIsNew (s : State) : Prop :=
  ∀ (cells : List LineCell) (rest : List Instr) (l : Lease) (e : LeaseEntry), s.localState = .joining →
    s.pending = .frameEnd cells :: rest → payloadRead cells = some (.snap (.lease l e)) →
    s.leases[l] = none ∧ HeadBlocked e

/-- A station in MEMBER with roster `r`: every client PORT-bound, no need waiting and the membership slot empty. -/
def MemberAtRest (s : State) (r : Roster) : Prop :=
  s.resetLow = false ∧ s.localState = .member ∧ s.roster = some r ∧ (∀ c : Client, s.config.bindings[c] = .port) ∧
    (∀ c : Client, s.queue.needs[c] = none) ∧ s.queue.slots[(7 : Fin 8)] = none

/-- Also with no record JOINING, so that a frame end brings nothing but what the frame itself does. -/
def PlainMember (s : State) (r : Roster) : Prop :=
  MemberAtRest s r ∧ ∀ i : Station, r.records[i].state ≠ .joining

/-- The roster after any committed frame but for what the frame's kind does to it: the commit count one higher, the
misses of the required set cleared (R34, R40). -/
def afterCommit (req : List Station) (r : Roster) : Roster :=
  { r with
    commits := r.commits + 1
    records := Vector.ofFn fun i : Fin 16 => if req.contains i then { r.records[i] with miss := 0 } else r.records[i] }

/-- The lowest-numbered MEMBER: the source station (R38). -/
def firstMember (r : Roster) : Option Station := (List.finRange 16).find? fun i : Fin 16 => r.records[i].state = .member

/-- What an ACQUIRE, RELEASE or RENEW of a MEMBER does to the lease table, with the hand-overs: one known entry by R11 to
R16, or for each entry named in a RENEW the LIVE holder of that tag starts its term afresh (R17). -/
def ordinaryEffect (sender : Station) (b : FrameBody) (t : LeaseTable) : LeaseTable × List TableEvent :=
  let onEntry := fun (l : Lease) (f : LeaseEntry → LeaseEntry × List TableEvent) =>
    match t[l] with
    | none => (t, [])
    | some e => (t.set l (some (f e).1), (f e).2)
  match b with
  | .acquire l c m term p => onEntry l (acquireEntry l { station := sender, client := c } m term p)
  | .release l c => onEntry l (releaseEntry l { station := sender, client := c })
  | .renew entries =>
    (Vector.ofFn fun l : Fin 64 => (t[l]).map fun e =>
        { e with
          holders := e.holders.map fun h =>
            if h.tag.station = sender ∧ h.status = .live ∧ (l, h.tag.client) ∈ entries then { h with remaining := h.term }
            else h },
      [])
  | _ => (t, [])

/-- An operation on every known entry, and its hand-overs by ascending lease (R8, R20). -/
def onEveryEntry (f : Lease → LeaseEntry → LeaseEntry × List TableEvent) (t : LeaseTable) :
    LeaseTable × List TableEvent :=
  (Vector.ofFn fun l : Fin 64 => (t[l]).map fun e => (f l e).1,
    (List.finRange 64).flatMap fun l : Fin 64 => (t[l]).toList.flatMap fun e => (f l e).2)

/-- The removal of stations from an entry: their LIVE holders are FENCED with count 4 in their places, their waiters go,
and the advance runs; an entry with neither stays (R8, R22, R23). -/
def purgeRemoved (stations : List Station) (l : Lease) (e : LeaseEntry) : LeaseEntry × List TableEvent :=
  let holders := e.holders.map fun h =>
    if h.status = .live ∧ h.tag.station ∈ stations then { h with status := .fenced, remaining := 4 } else h
  let waiters := e.waiters.filter fun w => w.tag.station ∉ stations
  if holders = e.holders ∧ waiters = e.waiters then (e, []) else advance l { e with holders := holders, waiters := waiters }

/-- The leaving of a station from an entry: its LIVE holders and its waiters go, FENCED records stay, and the advance
runs; each holder-set change counts the holders left just after it; an entry with neither stays (R8, R26). -/
def purgeLeft (j : Station) (l : Lease) (e : LeaseEntry) : LeaseEntry × List TableEvent :=
  let gone := e.holders.filter fun h => h.status = .live ∧ h.tag.station = j
  let waiters := e.waiters.filter fun w => w.tag.station ≠ j
  let out := advance l
    { e with
      holders := e.holders.filter fun h => ¬ (h.status = .live ∧ h.tag.station = j)
      waiters := waiters }
  let left := gone.mapIdx fun i h => TableEvent.leftWithStation l h.tag h.grant (e.holders.length - (i + 1))
  if gone = [] ∧ waiters = e.waiters then (e, []) else (out.1, left ++ out.2)

/-- The fields of a station record in a roster item fit its state (R56). -/
def RecordFits (x : StationRecord) : Prop :=
  match x.state with
  | .absent => x.miss = 0 ∧ x.progress = none
  | .joining => x.progress = some .awaitingRoster ∨ ∃ r, x.progress = some (.remaining r) ∧ 1 ≤ r ∧ r ≤ 64
  | .member => x.progress = none

/-- The fields of a lease item are in range, an EXCLUSIVE holder is the only one, and no tag stands in it twice (R56). -/
def EntryFits (e : LeaseEntry) : Prop :=
  e.holders.length ≤ 4 ∧ e.waiters.length ≤ 8 ∧
    (∀ h ∈ e.holders, 1 ≤ h.term ∧ h.term ≤ 255 ∧ h.grant ≠ 0 ∧ 1 ≤ h.remaining ∧
      (h.status = .live → h.remaining ≤ h.term) ∧ (h.status = .fenced → h.remaining ≤ 4)) ∧
    (∀ w ∈ e.waiters, 1 ≤ w.term ∧ w.term ≤ 255 ∧ ∀ n, w.patience = .ticks n → 1 ≤ n ∧ n ≤ 254) ∧
    (∀ h ∈ e.holders, h.mode = .exclusive → e.holders.length = 1) ∧
    (e.holders.map (·.tag) ++ e.waiters.map (·.tag)).Nodup

/-- A payload with every field in range (R94, R56). -/
def BodyInRange (b : FrameBody) : Prop :=
  match b with
  | .found n => 1 ≤ n ∧ n ≤ 16
  | .snap (.roster n _ _ records) =>
    1 ≤ n ∧ n ≤ 16 ∧ (∀ i : Station, RecordFits records[i]) ∧
      ((List.finRange 16).filter fun i : Fin 16 => records[i].state ≠ .absent).length ≤ n
  | .snap (.lease _ e) => EntryFits e
  | .renew entries => entries ≠ [] ∧ entries.length ≤ 8
  | .acquire _ _ _ term patience => 1 ≤ term ∧ term ≤ 255 ∧ patience ≤ 255
  | .tick | .join | .leave | .release _ _ => True

/-- The bits of a payload that a receiver examines, byte by byte: a don't-care bit is clear (R189, R190). -/
def examinedBits (b : FrameBody) : List Byte :=
  match b with
  | .acquire _ _ _ _ _ => [0xFF, 0x87, 0xFF, 0xFF]
  | .snap (.roster _ _ _ _) => List.replicate 10 0xFF ++ (List.replicate 16 [0xC3, 0xFF]).flatten
  | .snap (.lease _ e) =>
    List.replicate 4 0xFF ++ (e.holders.flatMap fun _ => [0xFF, 0x01, 0xFF, 0xFF, 0xFF, 0xFF]) ++
      List.replicate (3 * e.waiters.length) 0xFF
  | .renew entries => List.replicate (2 * entries.length) 0xFF
  | .release _ _ => [0xFF, 0xFF]
  | .found _ => [0xFF]
  | .tick | .join | .leave => []

/-- Bits from the frame end at an aborted sender to the end of the extent of the length it sent: nine for each payload
cell it sent beyond the length it read (R90, R92); one that aborted before its length cell is taken to have sent the
length it had assembled (DESIGN CHOICE, log entry 32). -/
def marksLeft (tx : Transmission) (cells : List LineCell) : Nat :=
  if senderCourse tx.bytes cells = .aborted then 9 * (tx.bytes.length - 5 - payloadCells cells) else 0

/-- The line engine as a frame leaves it, `marks` bits of its own marks still to drive (R88, R92, R103). -/
def lineAfter (s : State) (marks : Nat) (rep : FrameReport) : LineEngine :=
  { s.line with phase := .counting, gapBits := 0, bitCycles := 0, markBits := marks, report := some rep }

/-- A timer started with a length in tick periods (R74). -/
def ticking (s : State) (periods : Nat) : Timer := .running (16000 * periods * tickPeriodMs s)

/-- A receiver reads a committed frame of a MEMBER with payload `b`, whole, acknowledged and without divergence
(R103). -/
def ReadsCommitted (rep : FrameReport) (r : Roster) (req : List Station) (b : FrameBody) : Prop :=
  rep.verdict = .commit ∧ rep.payload = some b ∧ rep.acknowledged = true ∧ rep.divergence = false ∧
    rep.required = some req ∧ r.records[rep.sender].state = .member

end Sys2Proof.Machine
end

