-- ==== Sys2Proof/Certificates/Slice0/Obligations.lean ====
section
/-! DEFINITION. The statements for the provers. Statements about one command give the whole next state, so
they say its frame too: what a record update does not name is unchanged. -/

open Sys2Proof Sys2Proof.Machine

/-! ### The step -/

/-- The command at the front of the queue is executed on the state with the queue's rest. -/
def Obligations.StepRunsTheFrontCommand : Prop :=
  ∀ (c : Instr) (rest : List Instr) (s : Machine.State),
    s.pending = c :: rest → step s = exec c { s with pending := rest }

/-- The model's choice, log entries 3, 4, 25, 34 and 35: on an empty queue a step takes the timed event that is due,
in a fixed order: timer expiries, the claim whose eighth sample in a row differs, the quiet gap at 11 recessive bits,
the courtesy gap at 22, a head that the idle line may start, the start bit of another station after 10, the end of the
TICKOUT pulse. With none due, and no edge next on the wires of the port, one cycle of CLKIN passes: running timers and
TICKOUT count down, the claim pins take the levels listed for the cycle, or keep theirs past the list, every
thirty-second cycle samples them, and with no frame in progress each bit time takes the next level listed of the line,
recessive past the list: a recessive bit counts, and a dominant one, or an own mark of an aborted frame, starts the
gap again. While RESETn is low nothing happens. -/
def Obligations.EmptyQueueRunsTheClock : Prop :=
  (∀ s : Machine.State, s.pending = [] → s.resetLow = true → step s = .next s) ∧
  ∀ s : Machine.State, s.pending = [] → s.resetLow = false →
    let noExpiry := s.timers.tick ≠ .running 0 ∧ s.timers.silence ≠ .running 0 ∧ s.timers.founding ≠ .running 0 ∧
      s.timers.pacing ≠ .running 0 ∧ s.timers.holdOff ≠ .running 0
    let pins := s.claimInput.head?.getD s.claimPins
    let settled := fun c : Client =>
      s.sampleCycles = 31 ∧ s.clients[c].deglitch = 7 ∧ pins[c] ≠ s.clients[c].recognised
    let held := fun x : Slot => 6 ≤ (kindCode (slotKind x.content)).toNat ∧ s.line.courtesyPending = true
    let courtesyOver := s.line.courtesyPending = true ∧ 22 ≤ s.line.gapBits
    let edge := s.lineInput.head? = some true ∧ 10 ≤ s.line.gapBits
    let inFrame := s.line.phase ≠ .counting ∧ s.line.phase ≠ .idle
    let bitPasses := ¬ inFrame ∧ ¬ s.line.bitCycles + 1 < cyclesPerBit s
    let dominant := s.line.markBits ≠ 0 ∧ s.line.markBits % 9 = 0 ∨ s.lineInput.head? = some true
    let count := fun t : Timer =>
      match t with
      | .running n => .running (n - 1)
      | .stopped => .stopped
      | .expired => .expired
    (s.timers.tick = .running 0 → step s = exec .tickTimerExpiry s) ∧
    (s.timers.tick ≠ .running 0 → s.timers.silence = .running 0 → step s = exec .silenceTimerExpiry s) ∧
    (s.timers.tick ≠ .running 0 → s.timers.silence ≠ .running 0 → s.timers.founding = .running 0 →
      step s = exec .foundingTimerExpiry s) ∧
    (s.timers.tick ≠ .running 0 → s.timers.silence ≠ .running 0 → s.timers.founding ≠ .running 0 →
      s.timers.pacing = .running 0 → step s = exec .pacingTimerExpiry s) ∧
    (s.timers.tick ≠ .running 0 → s.timers.silence ≠ .running 0 → s.timers.founding ≠ .running 0 →
      s.timers.pacing ≠ .running 0 → s.timers.holdOff = .running 0 → step s = exec .holdOffTimerExpiry s) ∧
    (noExpiry → ∀ c : Client, settled c → (∀ d : Client, d.val < c.val → ¬ settled d) →
      step s = exec (if pins[c] then .claimAsserted c else .claimReleased c) s) ∧
    (noExpiry → (∀ c : Client, ¬ settled c) →
      (s.line.phase = .counting → 11 ≤ s.line.gapBits → step s = exec .quietGapComplete s) ∧
      (s.line.phase = .idle → courtesyOver → step s = exec (.attemptStart .courtesyGap) s) ∧
      (∀ k x, s.line.phase = .idle → ¬ courtesyOver → IsHead s k x → ¬ held x →
        step s = exec (.attemptStart .lineIdle) s) ∧
      ((s.line.phase = .counting → s.line.gapBits < 11) →
        (s.line.phase = .idle → ¬ courtesyOver ∧ ((∀ k x, ¬ Offered s k x) ∨ ∃ k x, IsHead s k x ∧ held x)) →
        (LineQuiet s → edge → step s = exec .frameStartBit s) ∧
        ((LineQuiet s → ¬ edge) →
          (s.tickout = some 0 → step s = exec .tickoutPulseEnd s) ∧
          (s.tickout ≠ some 0 → s.portInput = [] ∨ s.portInput.head? = some .pause → step s = .next
            { s with
              portInput := s.portInput.tail
              timers :=
                { tick := count s.timers.tick
                  silence := count s.timers.silence
                  founding := count s.timers.founding
                  pacing := count s.timers.pacing
                  holdOff := count s.timers.holdOff }
              tickout := s.tickout.map fun n => n - 1
              sampleCycles := if s.sampleCycles < 31 then s.sampleCycles + 1 else 0
              clients := if s.sampleCycles < 31 then s.clients
                else Vector.ofFn fun c : Fin 8 =>
                  { s.clients[c] with
                    deglitch := if pins[c] = s.clients[c].recognised then 0 else s.clients[c].deglitch + 1 }
              claimPins := pins
              claimInput := s.claimInput.tail
              lineInput := if bitPasses then s.lineInput.tail else s.lineInput
              line :=
                if inFrame then s.line
                else if s.line.bitCycles + 1 < cyclesPerBit s then { s.line with bitCycles := s.line.bitCycles + 1 }
                else
                  { s.line with
                    bitCycles := 0
                    gapBits := if dominant then 0 else min (s.line.gapBits + 1) 22
                    markBits := s.line.markBits - 1 } }))))

/-- Every command answers a next state in every state, leaves the waiting commands as they are, and leaves the output
pins at the levels of R157, R129 and R184, spelled out. That every command has a next state in every state is the
model's choice of log entry 9, and that no reset empties the waiting commands that of log entry 22. -/
def Obligations.OutputsAfterEveryCommand : Prop :=
  ∀ (c : Instr) (s : Machine.State), ∃ t, exec c s = .next t ∧ t.pending = s.pending ∧
    (∀ d : Client, t.grant[d] = true ↔
      t.localState = .member ∧ t.clients[d].state = .holding ∧
        ∃ (l : Lease) (m : Mode) (term : Nat) (e : LeaseEntry) (h : Holder),
          t.config.bindings[d] = .line l m term ∧ t.leases[l] = some e ∧ h ∈ e.holders ∧
            h.tag = { station := stationNumber t, client := d } ∧ h.status = .live) ∧
    (t.sync = true ↔ t.localState = .member ∨ t.localState = .leaving) ∧
    (t.notice = true ↔ t.notices ≠ [])

/-! ### Resets -/

/-- The straps select the station number, the expected size, the tick period, the bit rate and auto-start (R130,
R194). The state after reset is that of a release of RESETn with every strap pin left open: auto-start has taken
START. That the pins are open is the model's choice, log entry 1; the values the spec does not state are log entry 2. -/
def Obligations.StrapsAndResetState : Prop :=
  (∀ s : Machine.State, (stationNumber s).val = s.straps.stn.toNat ∧
     expectedSize s = (if s.straps.nsz.toNat = 0 then 16 else s.straps.nsz.toNat) ∧
     some (tickPeriodMs s) = [1, 2, 5, 10, 20, 50, 100, 200][s.straps.tpr.toNat]? ∧
     some (cyclesPerBit s) = [128, 64, 32, 16][s.straps.brt.toNat]? ∧
     (autoStart s = true ↔ s.straps.auto = 1)) ∧
  (exec (.pinResetRelease { stn := 15, nsz := 15, tpr := 7, brt := 3, auto := 1 }) State.reset = .next State.reset ∧
     State.reset.localState = .seeking ∧ State.reset.config.locked = true ∧ State.reset.config.watch = 0 ∧
     State.reset.config.autoRejoin = true ∧
     (∀ c : Client, State.reset.config.bindings[c] = .line (c.castLE (by omega)) .exclusive 16) ∧
     (∀ l : Lease, State.reset.leases[l] = none) ∧ State.reset.roster = none ∧
     State.reset.timers =
       { tick := .stopped
         silence := .stopped
         founding := .running (16000 * 6 * 200)
         pacing := .stopped
         holdOff := .stopped } ∧
     (∀ k : Fin 8, State.reset.queue.slots[k] = none) ∧ (∀ c : Client, State.reset.queue.needs[c] = none) ∧
     State.reset.notices = [{ stamp := 0, body := .state .seeking }] ∧ State.reset.line.phase = .counting ∧
     State.reset.line.gapBits = 0 ∧ State.reset.line.courtesyPending = false ∧ State.reset.lineInput = [] ∧
     (∀ c : Client, State.reset.clients[c] =
       { recognised := false, deglitch := 0, state := .idle, reclaim := false }) ∧
     (∀ c : Client, State.reset.grant[c] = false) ∧ State.reset.sync = false ∧ State.reset.notice = true ∧
     State.reset.tickout = none ∧ State.reset.exchange = none ∧
     State.reset.serial = { selected := false, bits := [], bytes := [], shifted := 0, ldo := none } ∧
     State.reset.portInput = [] ∧ State.reset.claimInput = [] ∧
     State.reset.claimPins = Vector.replicate 8 false ∧ State.reset.pending = [])

/-- RESETn low: every block takes its reset values, the port is FREE, and every output is low, deasserted or not
driven, in every state. RESETn released: the straps are sampled and every block has its reset values. With the
auto-start strap off the station is in STANDBY with the configuration of R131; with it on it has that of auto-start
and has taken START: the lock is set, the station seeks, the founding timer runs six periods and one STATE notice
waits. A soft reset is such a release with the straps as they stand, in every local state. The model's choice: that
the blocks take their values at the fall of RESETn, and TICKOUT low at a soft reset (log entry 11); that a release and
a soft reset act without the command that should come before them (log entry 10); joinEvidence and bitCycles (log
entry 2) and sampleCycles (log entry 4) take values the spec does not state; what the controller does next and what
the equipment puts on the claim pins are the world's and stay (log entries 34 and 35). -/
def Obligations.ResetsGiveTheResetValues : Prop :=
  (∀ s : Machine.State, exec .pinReset s = .next
      { s with
        resetLow := true
        localState := .standby
        joinEvidence := false
        leases := Vector.replicate 64 none
        roster := none
        sourceDuty := false
        timers := { tick := .stopped, silence := .stopped, founding := .stopped, pacing := .stopped, holdOff := .stopped }
        line :=
          { phase := .counting, gapBits := 0, bitCycles := 0, courtesyPending := false, markBits := 0, report := none }
        queue := { slots := Vector.replicate 8 none, nextAge := 0, needs := Vector.replicate 8 none }
        clients := Vector.replicate 8 { recognised := false, deglitch := 0, state := .idle, reclaim := false }
        sampleCycles := 0
        exchange := none
        serial := { selected := false, bits := [], bytes := [], shifted := 0, ldo := none }
        notices := []
        grant := Vector.replicate 8 false
        sync := false
        notice := false
        tickout := none }) ∧
  ((∀ (pins : StrapPins) (s : Machine.State), pins.auto = 0 → exec (.pinResetRelease pins) s = .next
     { s with
       resetLow := false
       straps := pins
       config := { bindings := Vector.replicate 8 .port, watch := 0, autoRejoin := false, locked := false }
       localState := .standby
       joinEvidence := false
       leases := Vector.replicate 64 none
       roster := none
       sourceDuty := false
       timers := { tick := .stopped, silence := .stopped, founding := .stopped, pacing := .stopped, holdOff := .stopped }
       line := { phase := .counting, gapBits := 0, bitCycles := 0, courtesyPending := false, markBits := 0, report := none }
       queue := { slots := Vector.replicate 8 none, nextAge := 0, needs := Vector.replicate 8 none }
       clients := Vector.replicate 8 { recognised := false, deglitch := 0, state := .idle, reclaim := false }
       sampleCycles := 0
       exchange := none
       serial := { selected := false, bits := [], bytes := [], shifted := 0, ldo := none }
       notices := []
       grant := Vector.replicate 8 false
       sync := false
       notice := false
       tickout := none }) ∧
   ∀ (pins : StrapPins) (s : Machine.State), pins.auto = 1 → exec (.pinResetRelease pins) s = .next
     { s with
       resetLow := false
       straps := pins
       config :=
         { bindings := Vector.ofFn fun c : Fin 8 => .line (c.castLE (by omega)) .exclusive 16
           watch := 0
           autoRejoin := true
           locked := true }
       localState := .seeking
       joinEvidence := false
       leases := Vector.replicate 64 none
       roster := none
       sourceDuty := false
       timers :=
         { tick := .stopped
           silence := .stopped
           founding := .running (16000 * 6 * tickPeriodMs { s with straps := pins })
           pacing := .stopped
           holdOff := .stopped }
       line := { phase := .counting, gapBits := 0, bitCycles := 0, courtesyPending := false, markBits := 0, report := none }
       queue := { slots := Vector.replicate 8 none, nextAge := 0, needs := Vector.replicate 8 none }
       clients := Vector.replicate 8 { recognised := false, deglitch := 0, state := .idle, reclaim := false }
       sampleCycles := 0
       exchange := none
       serial := { selected := false, bits := [], bytes := [], shifted := 0, ldo := none }
       notices := [{ stamp := 0, body := .state .seeking }]
       grant := Vector.replicate 8 false
       sync := false
       notice := true
       tickout := none }) ∧
  (∀ s : Machine.State, s.resetLow = false →
     ∃ t, exec .softReset s = .next t ∧ exec (.pinResetRelease s.straps) s = .next t ∧
       t.straps = s.straps ∧ t.localState = (if s.straps.auto = 1 then .seeking else .standby))

/-- The model's choice: while RESETn is low no command but the two of the pin has an effect (log entry 26), and an
event that cannot occur as the state stands has none (log entry 9), an opportunity that the line does not offer among
them (log entry 17). A claim event at the level that is recognised already is none, and says only that its pin stands
there (log entries 9 and 35). -/
def Obligations.CommandsWithoutEffect : Prop :=
  (∀ (c : Instr) (s : Machine.State), s.resetLow = true → c ≠ .pinReset →
     (∀ pins, c ≠ .pinResetRelease pins) → exec c s = .next (driveOutputs s)) ∧
  (∀ s : Machine.State,
     let idle := fun i => exec i s = .next (driveOutputs s)
     ((∀ n, s.timers.tick ≠ .running n) → idle .tickTimerExpiry) ∧
     ((∀ n, s.timers.silence ≠ .running n) → idle .silenceTimerExpiry) ∧
     ((∀ n, s.timers.founding ≠ .running n) → idle .foundingTimerExpiry) ∧
     ((∀ n, s.timers.pacing ≠ .running n) → idle .pacingTimerExpiry) ∧
     ((∀ n, s.timers.holdOff ≠ .running n) → idle .holdOffTimerExpiry) ∧
     (∀ c : Client, s.resetLow = false →
       (s.clients[c].recognised = true → exec (.claimAsserted c) s = .next (driveOutputs
         { s with claimPins := s.claimPins.set c true })) ∧
       (s.clients[c].recognised = false → exec (.claimReleased c) s = .next (driveOutputs
         { s with claimPins := s.claimPins.set c false }))) ∧
     (¬ LineQuiet s → idle .frameStartBit) ∧
     (∀ o : Opportunity, ¬ OpportunityComes s o → idle (.attemptStart o)) ∧
     (s.line.phase ≠ .counting → idle .quietGapComplete) ∧
     (LineQuiet s → ∀ cells, idle (.frameEnd cells)))

/-! ### The local port: reads and notices -/

/-- STATUS reports the state, the counts and the low half of the commit count; READ_LEASE answers an entry as the
latest frame end left it and READ_ROSTER the header and the sixteen records, by the layouts of R190 and R192; none has
an effect. -/
def Obligations.ReadsAnswer : Prop :=
  (∀ s : Machine.State, PortReady s →
     exec .status s = .next (answered 0x01
       [0x00,
         (match s.localState with
          | .standby => 0x00
          | .seeking => 0x01
          | .joining => 0x02
          | .member => 0x03
          | .leaving => 0x04
          | .detached => 0x05),
         BitVec.ofNat 8
           (match s.roster with
            | none => 0
            | some r => ((List.finRange 16).filter fun i : Fin 16 => r.records[i].state = .member).length),
         BitVec.ofNat 8 (([0, 1, 2, 3, 4, 5] : List (Fin 8)).filter fun k => s.queue.slots[k].isNone).length,
         BitVec.ofNat 8 s.notices.length,
         (match s.roster with
          | none => 0
          | some r => r.commits.extractLsb' 8 8),
         (match s.roster with
          | none => 0
          | some r => r.commits.extractLsb' 0 8)] s)) ∧
  (∀ s : Machine.State, PortReady s →
     (∀ index : Byte, 64 ≤ index.toNat → exec (.readLease index) s = .next (answered 0x30 [0x81] s)) ∧
       ∀ l : Lease,
         (s.leases[l] = none →
           exec (.readLease (BitVec.ofNat 8 l.val)) s = .next (answered 0x30 [0x00, 0x00] s)) ∧
         ∀ e : LeaseEntry, s.leases[l] = some e →
           exec (.readLease (BitVec.ofNat 8 l.val)) s = .next (answered 0x30
             ([0x00, 0x01, e.counter.extractLsb' 8 8, e.counter.extractLsb' 0 8,
                 BitVec.ofNat 4 e.holders.length ++ BitVec.ofNat 4 e.waiters.length] ++
               (e.holders.flatMap fun h =>
                 [BitVec.ofNat 4 h.tag.station.val ++ (if h.mode = .shared then 1#1 else 0#1) ++
                     BitVec.ofNat 3 h.tag.client.val,
                   if h.status = .fenced then 0x01 else 0x00,
                   BitVec.ofNat 8 h.term, BitVec.ofNat 8 h.remaining,
                   h.grant.extractLsb' 8 8, h.grant.extractLsb' 0 8]) ++
               (e.waiters.flatMap fun w =>
                 [BitVec.ofNat 4 w.tag.station.val ++ (if w.mode = .shared then 1#1 else 0#1) ++
                     BitVec.ofNat 3 w.tag.client.val,
                   BitVec.ofNat 8 w.term,
                   (match w.patience with
                    | .ticks n => BitVec.ofNat 8 n
                    | .unlimited => 0xFF)])) s)) ∧
  (∀ s : Machine.State, PortReady s →
     (s.roster = none → exec .readRoster s = .next (answered 0x31 [0x00, 0x00] s)) ∧
       ∀ r : Roster, s.roster = some r →
         exec .readRoster s = .next (answered 0x31
           ([0x00, 0x01, BitVec.ofNat 8 r.expected] ++
             [r.commits.extractLsb' 24 8, r.commits.extractLsb' 16 8, r.commits.extractLsb' 8 8,
               r.commits.extractLsb' 0 8] ++
             [r.ticks.extractLsb' 24 8, r.ticks.extractLsb' 16 8, r.ticks.extractLsb' 8 8, r.ticks.extractLsb' 0 8] ++
             [BitVec.ofNat 8 r.cursor.val] ++
             ((List.finRange 16).flatMap fun i : Fin 16 =>
               [(match r.records[i].state with
                 | .absent => 0b00#2
                 | .joining => 0b01#2
                 | .member => 0b10#2) ++ 0#4 ++ BitVec.ofNat 2 r.records[i].miss.val,
                 (match r.records[i].progress with
                  | none => 0x00
                  | some .awaitingRoster => 0x80
                  | some (.remaining n) => BitVec.ofNat 8 n)])) s))

/-- TAKE_NOTICE answers and removes the head record; an empty queue is answered with kind NONE and left empty. -/
def Obligations.TakeNoticeTakesTheHead : Prop :=
  ∀ s : Machine.State, PortReady s →
    (s.notices = [] → exec .takeNotice s = .next (answered 0x32 [0x00, 0x00] s)) ∧
      ∀ (n : Notice) (rest : List Notice), s.notices = n :: rest →
        exec .takeNotice s = .next (answered 0x32 (0x00 :: noticeBytes n) { s with notices := rest })

/-- The ten bytes of a notice record, kind by kind, by the tables of R193. -/
def Obligations.NoticeRecordBytes : Prop :=
  ∀ (stamp g : BitVec 16) (l : Lease) (c : Client) (i : Station) (p : Nat),
    let record := fun b => noticeBytes { stamp := stamp, body := b }
    let x := stamp.extractLsb' 8 8
    let y := stamp.extractLsb' 0 8
    let g1 := g.extractLsb' 8 8
    let g0 := g.extractLsb' 0 8
    let lb : Byte := BitVec.ofNat 8 l.val
    let cb : Byte := BitVec.ofNat 8 c.val
    let ib : Byte := BitVec.ofNat 8 i.val
    record (.granted l c g) = [0x01, x, y, lb, 0xFF, cb, 0xFF, g1, g0, 0xFF] ∧
    record (.queued l c p) = [0x02, x, y, lb, 0xFF, cb, 0xFF, 0, 0, BitVec.ofNat 8 p] ∧
    record (.denied l c .busy) = [0x03, x, y, lb, 0xFF, cb, 0x01, 0, 0, 0xFF] ∧
    record (.denied l c .queueFull) = [0x03, x, y, lb, 0xFF, cb, 0x02, 0, 0, 0xFF] ∧
    record (.denied l c .duplicate) = [0x03, x, y, lb, 0xFF, cb, 0x03, 0, 0, 0xFF] ∧
    record (.timedOut l c) = [0x04, x, y, lb, 0xFF, cb, 0xFF, 0, 0, 0xFF] ∧
    record (.released l c g) = [0x05, x, y, lb, 0xFF, cb, 0xFF, g1, g0, 0xFF] ∧
    record (.withdrawn l c .localRequest) = [0x06, x, y, lb, 0xFF, cb, 0x01, 0, 0, 0xFF] ∧
    record (.withdrawn l c .committed) = [0x06, x, y, lb, 0xFF, cb, 0x02, 0, 0, 0xFF] ∧
    record (.withdrawn l c .notPresent) = [0x06, x, y, lb, 0xFF, cb, 0x03, 0, 0, 0xFF] ∧
    record (.expired l c g) = [0x07, x, y, lb, 0xFF, cb, 0xFF, g1, g0, 0xFF] ∧
    record (.revoked l c g .isolated) = [0x08, x, y, lb, 0xFF, cb, 0x01, g1, g0, 0xFF] ∧
    record (.revoked l c g .removed) = [0x08, x, y, lb, 0xFF, cb, 0x02, g1, g0, 0xFF] ∧
    record (.revoked l c g .diverged) = [0x08, x, y, lb, 0xFF, cb, 0x03, g1, g0, 0xFF] ∧
    record (.revoked l c g .tailError) = [0x08, x, y, lb, 0xFF, cb, 0x04, g1, g0, 0xFF] ∧
    record (.revoked l c g .foreign) = [0x08, x, y, lb, 0xFF, cb, 0x05, g1, g0, 0xFF] ∧
    record (.revoked l c g .leaving) = [0x08, x, y, lb, 0xFF, cb, 0x06, g1, g0, 0xFF] ∧
    record (.sendFailedAcquire l c) = [0x09, x, y, lb, 0xFF, cb, 0x08, 0, 0, 0xFF] ∧
    record (.sendFailedRelease l c) = [0x09, x, y, lb, 0xFF, cb, 0x06, 0, 0, 0xFF] ∧
    record .sendFailedRenew = [0x09, x, y, 0xFF, 0xFF, 0xFF, 0x07, 0, 0, 0xFF] ∧
    record .sendFailedJoin = [0x09, x, y, 0xFF, 0xFF, 0xFF, 0x03, 0, 0, 0xFF] ∧
    record .sendFailedLeave = [0x09, x, y, 0xFF, 0xFF, 0xFF, 0x04, 0, 0, 0xFF] ∧
    record (.watch l { station := i, client := c } g true p) =
      [0x0A, x, y, lb, ib, cb, 0x01, g1, g0, BitVec.ofNat 8 p] ∧
    record (.watch l { station := i, client := c } g false p) =
      [0x0A, x, y, lb, ib, cb, 0x02, g1, g0, BitVec.ofNat 8 p] ∧
    record (.roster i .joined) = [0x0B, x, y, 0xFF, ib, 0xFF, 0x01, 0, 0, 0xFF] ∧
    record (.roster i .member) = [0x0B, x, y, 0xFF, ib, 0xFF, 0x02, 0, 0, 0xFF] ∧
    record (.roster i .left) = [0x0B, x, y, 0xFF, ib, 0xFF, 0x03, 0, 0, 0xFF] ∧
    record (.roster i .removed) = [0x0B, x, y, 0xFF, ib, 0xFF, 0x04, 0, 0, 0xFF] ∧
    record (.roster i .deniedFull) = [0x0B, x, y, 0xFF, ib, 0xFF, 0x05, 0, 0, 0xFF] ∧
    record (.state .seeking) = [0x0C, x, y, 0xFF, 0xFF, 0xFF, 0x01, 0, 0, 0xFF] ∧
    record (.state .joining) = [0x0C, x, y, 0xFF, 0xFF, 0xFF, 0x02, 0, 0, 0xFF] ∧
    record (.state .member) = [0x0C, x, y, 0xFF, 0xFF, 0xFF, 0x03, 0, 0, 0xFF] ∧
    record (.state .leaving) = [0x0C, x, y, 0xFF, 0xFF, 0xFF, 0x04, 0, 0, 0xFF] ∧
    record (.state .detached) = [0x0C, x, y, 0xFF, 0xFF, 0xFF, 0x05, 0, 0, 0xFF] ∧
    record (.overflow p) = [0x0D, x, y, 0xFF, 0xFF, 0xFF, 0xFF, 0, 0, BitVec.ofNat 8 p]

/-! ### The local port: configuration and station control -/

/-- The configuration requests in STANDBY with the lock clear: CONFIGURE_CLIENT replaces the binding of one client,
CONFIGURE_WATCH the whole watch mask, CONFIGURE_OPTIONS auto-rejoin, and an argument out of range changes nothing; in
every other state WRONG_STATE. -/
def Obligations.ConfigurationRequests : Prop :=
  (∀ s : Machine.State, PortReady s →
    (s.localState = .standby → s.config.locked = false →
      (∀ (c : Client) (l t : Byte), exec (.configureClient (BitVec.ofNat 8 c.val) 0x00 l t) s =
        .next (answered 0x10 [0x00] { s with config := { s.config with bindings := s.config.bindings.set c .port } })) ∧
      (∀ (c : Client) (l : Lease) (t : Byte), t ≠ 0 →
        exec (.configureClient (BitVec.ofNat 8 c.val) 0x01 (BitVec.ofNat 8 l.val) t) s =
          .next (answered 0x10 [0x00]
            { s with config := { s.config with bindings := s.config.bindings.set c (.line l .exclusive t.toNat) } }) ∧
        exec (.configureClient (BitVec.ofNat 8 c.val) 0x02 (BitVec.ofNat 8 l.val) t) s =
          .next (answered 0x10 [0x00]
            { s with config := { s.config with bindings := s.config.bindings.set c (.line l .shared t.toNat) } })) ∧
      (∀ c b l t : Byte, 8 ≤ c.toNat ∨ 3 ≤ b.toNat ∨ (b = 1 ∨ b = 2) ∧ (64 ≤ l.toNat ∨ t = 0) →
        exec (.configureClient c b l t) s = .next (answered 0x10 [0x81] s))) ∧
    (s.localState ≠ .standby ∨ s.config.locked = true →
      ∀ c b l t : Byte, exec (.configureClient c b l t) s = .next (answered 0x10 [0x80] s))) ∧
  (∀ (s : Machine.State) (mask : BitVec 64), PortReady s →
    (s.localState = .standby → s.config.locked = false →
      exec (.configureWatch mask) s =
        .next (answered 0x11 [0x00] { s with config := { s.config with watch := mask } })) ∧
    (s.localState ≠ .standby ∨ s.config.locked = true →
      exec (.configureWatch mask) s = .next (answered 0x11 [0x80] s))) ∧
  ∀ s : Machine.State, PortReady s →
    (s.localState = .standby → s.config.locked = false →
      exec (.configureOptions 0x00) s =
        .next (answered 0x12 [0x00] { s with config := { s.config with autoRejoin := false } }) ∧
      exec (.configureOptions 0x01) s =
        .next (answered 0x12 [0x00] { s with config := { s.config with autoRejoin := true } }) ∧
      ∀ a : Byte, 2 ≤ a.toNat → exec (.configureOptions a) s = .next (answered 0x12 [0x81] s)) ∧
    (s.localState ≠ .standby ∨ s.config.locked = true →
      ∀ a : Byte, exec (.configureOptions a) s = .next (answered 0x12 [0x80] s))

/-- START in STANDBY sets the lock and seeks, REJOIN in DETACHED seeks and leaves the lock: SEEKING, the founding
timer runs six periods, pacing and hold-off stop, the join evidence is cleared and a STATE notice arrives; in every
other state each answers WRONG_STATE and changes nothing. -/
def Obligations.StartAndRejoinSeek : Prop :=
  (∀ s : Machine.State, PortReady s →
    (s.localState = .standby →
      exec .start s = .next (answered 0x13 [0x00]
        { s with
          config := { s.config with locked := true }
          localState := .seeking
          joinEvidence := false
          timers :=
            { s.timers with
              founding := .running (16000 * 6 * tickPeriodMs s)
              pacing := .stopped
              holdOff := .stopped }
          notices := arrive { stamp := commitStamp s, body := .state .seeking } s.notices })) ∧
    (s.localState ≠ .standby → exec .start s = .next (answered 0x13 [0x80] s))) ∧
  ∀ s : Machine.State, PortReady s →
    (s.localState = .detached →
      exec .rejoin s = .next (answered 0x41 [0x00]
        { s with
          localState := .seeking
          joinEvidence := false
          timers :=
            { s.timers with
              founding := .running (16000 * 6 * tickPeriodMs s)
              pacing := .stopped
              holdOff := .stopped }
          notices := arrive { stamp := commitStamp s, body := .state .seeking } s.notices })) ∧
    (s.localState ≠ .detached → exec .rejoin s = .next (answered 0x41 [0x80] s))

/-- LEAVE in MEMBER enters LEAVING: line clients are moved by their claims, ACQUIRE slots not in attempt and ACQUIRE
needs go, then waiting RELEASE needs are served and the handshake places what it can; the notices are REVOKED for each
LIVE hold, WITHDRAWN for each slot that went, ascending, then STATE; the rest stands as before. Every other slot below
7 stays, and what is new in the queue is a RELEASE in a general slot that was free, or LEAVE in the membership slot.
LEAVING and WRONG_STATE refusals change nothing. -/
def Obligations.LeaveEntersLeaving : Prop :=
  ∀ s : Machine.State, PortReady s →
    (s.localState = .member →
      let kept : Vector (Option Slot) 8 := Vector.ofFn fun k : Fin 8 =>
        match s.queue.slots[k] with
        | none => none
        | some x => if k.val < 6 ∧ x.content.isAcquire = true ∧ x.inAttempt = false then none else some x
      let withdrawn : List NoticeBody := ([0, 1, 2, 3, 4, 5] : List (Fin 8)).flatMap fun k =>
        match s.queue.slots[k] with
        | some { content := .acquire l c _ _ _, inAttempt := false, .. } => [NoticeBody.withdrawn l c .localRequest]
        | _ => []
      let revoked : List NoticeBody := (List.finRange 64).flatMap fun l : Lease =>
        match s.leases[l] with
        | none => []
        | some e =>
          (e.holders.filter fun h => h.tag.station = stationNumber s && h.status = .live).map fun h =>
            NoticeBody.revoked l h.tag.client h.grant .leaving
      let entered : Machine.State :=
        { s with
          localState := .leaving
          clients := Vector.ofFn fun c : Client =>
            match s.config.bindings[c] with
            | .port => s.clients[c]
            | .line _ _ _ =>
              { s.clients[c] with
                state := if s.clients[c].recognised then .revoked else .idle
                reclaim := false }
          queue :=
            { s.queue with
              slots := kept
              needs := Vector.ofFn fun c : Client =>
                if s.queue.needs[c] = some .acquire then none else s.queue.needs[c] } }
      let after := (leaveHandshake (serveNeeds entered)).queue
      exec .leave s = .next (answered 0x40 [0x00]
        { entered with
          queue := after
          notices := arriveInOrder (commitStamp s) (revoked ++ withdrawn ++ [.state .leaving]) s.notices }) ∧
      ((∀ c : Client, s.queue.needs[c] ≠ some .release) → after = (leaveHandshake entered).queue) ∧
      (∀ (k : Fin 8) (x : Slot), k.val < 7 → kept[k] = some x → after.slots[k] = some x) ∧
      ∀ (k : Fin 8) (x : Slot), after.slots[k] = some x → kept[k] = some x ∨
        (k.val < 6 ∧ kept[k] = none ∧ x.inAttempt = false ∧ x.attempts = 0 ∧ ∃ l c, x.content = .release l c) ∨
        (k = 7 ∧ x.inAttempt = false ∧ x.attempts = 0 ∧ x.content = .leave)) ∧
    (s.localState = .leaving → exec .leave s = .next (answered 0x40 [0x87] s)) ∧
    (s.localState ≠ .member → s.localState ≠ .leaving → exec .leave s = .next (answered 0x40 [0x80] s))

/-- RESET is taken in every local state, answered OK, and does not act at the take; a RESET exchange that is open acts
when it ends, which a request or a discarded exchange that is a whole command brings before it acts itself (R181, log
entry 8). A discarded exchange has no effect: no exchange is open after it, the port is FREE and LDO is not driven. -/
def Obligations.ExchangeEnds : Prop :=
  (∀ s : Machine.State, PortReady s → exec .reset s = .next (answered 0x4F [0x00] s)) ∧
  (∀ (c : Instr) (s : Machine.State) (x : Exchange), s.resetLow = false → s.exchange = some x → x.code = 0x4F →
    ((∃ bytes, bytesOfRequest c = some bytes) ∨ ∃ bytes, c = .exchangeDiscarded bytes) →
    exec .softReset s = .next (driveOutputs (takeReset s)) ∧ exec c s = exec c (takeReset s)) ∧
  ∀ (clocked : List Byte) (s : Machine.State), PortReady s →
    exec (.exchangeDiscarded clocked) s = .next (driveOutputs
      { s with
        exchange := none
        serial := { selected := false, bits := [], bytes := [], shifted := 0, ldo := none } })

/-- The edges on the wires of the port, one at a step of an empty queue where no timed event is due (that edges come
so is the model's choice, log entries 3 and 34). LSEL high begins an exchange, with LDO at 1. A rising LCLK takes a
bit of LDI, the most significant first; the eighth completes a byte: before the take it is the code or an argument,
and the byte that completes a request executes it; after the take it is one byte of the response, or of filler,
shifted out. A falling LCLK presents the next bit on LDO: 1 before the take, then the response, then ones. LSEL low
before the take is a discarded exchange; after it a RESET acts, and of any other request the exchange ends. With LSEL
low the other edges do nothing. The phase follows from the exchange, the bytes clocked in and the bytes shifted out. -/
def Obligations.PortEdges : Prop :=
  (∀ s : Machine.State, s.pending = [] → s.resetLow = false → dueEvent s = none →
     let p := s.serial
     let next := fun e => s.portInput.head? = some e
     let after := { s with portInput := s.portInput.tail }
     let port := fun (x : Option Exchange) (q : SerialPort) => step s = .next { after with exchange := x, serial := q }
     (p.selected = false →
       (next .lselHigh →
         port none { selected := true, bits := [], bytes := [], shifted := 0, ldo := some true }) ∧
       ∀ e, next e → e ≠ .lselHigh → e ≠ .pause → port s.exchange p) ∧
     (p.selected = true →
       (next .lselHigh → port s.exchange p) ∧
       (next .lselLow →
         (s.exchange = none → step s = exec (.exchangeDiscarded p.bytes) after) ∧
         ∀ x, s.exchange = some x →
           (x.code = 0x4F → step s = exec .softReset after) ∧
           (x.code ≠ 0x4F → port none { selected := false, bits := [], bytes := [], shifted := 0, ldo := none })) ∧
       (next .lclkFall →
         (s.exchange = none → port none { p with ldo := some true }) ∧
         ∀ x, s.exchange = some x → port (some x)
           { p with ldo := some ((x.response.getD p.shifted 0xFF).getLsbD (7 - p.bits.length)) }) ∧
       ∀ ldi, next (.lclkRise ldi) →
         let bytes := p.bytes ++ [byteOfBits (p.bits ++ [ldi])]
         (p.bits.length < 7 → port s.exchange { p with bits := p.bits ++ [ldi] }) ∧
         (7 ≤ p.bits.length →
           (∀ x, s.exchange = some x → port (some x) { p with bits := [], shifted := p.shifted + 1 }) ∧
           (s.exchange = none →
             (∀ c, requestOfBytes bytes = some c → step s = exec c after) ∧
             (requestOfBytes bytes = none → port none { p with bits := [], bytes := bytes }))))) ∧
  (∀ b : Byte, byteOfBits [b.getLsbD 7, b.getLsbD 6, b.getLsbD 5, b.getLsbD 4, b.getLsbD 3, b.getLsbD 2, b.getLsbD 1,
     b.getLsbD 0] = b) ∧
  ∀ s : Machine.State,
    (s.serial.selected = false → portPhase s = .free) ∧
    (s.serial.selected = true →
      (s.exchange = none →
        (s.serial.bytes = [] → portPhase s = .code) ∧
        ∀ code args, s.serial.bytes = code :: args →
          portPhase s = .arguments ((requestArgumentCount code).getD 0 - args.length)) ∧
      ∀ x, s.exchange = some x →
        (s.serial.shifted = 0 → portPhase s = .taken) ∧
        (0 < s.serial.shifted → s.serial.shifted < x.response.length → portPhase s = .response) ∧
        (0 < s.serial.shifted → x.response.length ≤ s.serial.shifted → portPhase s = .filler))

/-- An unassigned code is taken with no argument bytes, answered UNKNOWN_REQUEST, and has no effect. -/
def Obligations.UnknownRequestHasNoEffect : Prop :=
  ∀ (code : Byte) (s : Machine.State), requestArgumentCount code = none → PortReady s →
    requestOfBytes [code] = some (.unknownRequest code) ∧
      exec (.unknownRequest code) s = .next (answered code [0x8F] s)

/-! ### The local port: lease requests -/

/-- ACQUIRE that passes its checks in MEMBER: the ACQUIRE is placed in the lowest-numbered free general slot, as the
youngest, and answered QUEUED with that slot. The refusals come in the order of the checks; each leaves everything as
it is. -/
def Obligations.AcquireRequests : Prop :=
  (∀ (s : Machine.State) (l : Lease) (cm term patience : Byte) (k : Fin 8), PortReady s →
     s.localState = .member → term ≠ 0 → s.config.bindings[clientOfLowBits cm] = .port →
     (∀ e, s.leases[l] = some e →
       (∀ h ∈ e.holders, h.tag ≠ ownTag s (clientOfLowBits cm)) ∧
         ∀ w ∈ e.waiters, w.tag ≠ ownTag s (clientOfLowBits cm)) →
     PairAbsent s.queue l (clientOfLowBits cm) → LowestFree s.queue k →
     exec (.acquire (BitVec.ofNat 8 l.val) cm term patience) s = .next (answered 0x20 [0x01, BitVec.ofNat 8 k.val]
       { s with
         queue :=
           { s.queue with
             slots := s.queue.slots.set k (some
               { content := .acquire l (clientOfLowBits cm) (if cm.getLsbD 7 then .shared else .exclusive) term.toNat
                   patience.toNat
                 age := s.queue.nextAge
                 attempts := 0
                 inAttempt := false
                 opened := false })
             nextAge := s.queue.nextAge + 1 } })) ∧
  (∀ (s : Machine.State) (lb cm term patience : Byte), PortReady s →
     let client := clientOfLowBits cm
     let answers := fun code => exec (.acquire lb cm term patience) s = .next (answered 0x20 [code] s)
     (s.localState = .leaving → answers 0x87) ∧
     (s.localState ≠ .member → s.localState ≠ .leaving → answers 0x80) ∧
     (s.localState = .member → 64 ≤ lb.toNat ∨ term = 0 → answers 0x81) ∧
     ∀ l : Lease, lb = BitVec.ofNat 8 l.val → s.localState = .member → term ≠ 0 →
       (s.config.bindings[client] ≠ .port → answers 0x82) ∧
       (s.config.bindings[client] = .port →
         (∀ e, s.leases[l] = some e →
           (∃ h ∈ e.holders, h.tag = ownTag s client) ∨ (∃ w ∈ e.waiters, w.tag = ownTag s client) →
           answers 0x83) ∧
         ((∀ e, s.leases[l] = some e →
             (∀ h ∈ e.holders, h.tag ≠ ownTag s client) ∧ ∀ w ∈ e.waiters, w.tag ≠ ownTag s client) →
           (¬ PairAbsent s.queue l client → answers 0x83) ∧
             (PairAbsent s.queue l client → NoneFree s.queue → answers 0x84))))

/-- RELEASE in MEMBER and LEAVING for a PORT client is placed when the queue holds nothing for the pair and the tag is
in the replica, or beside an ACQUIRE in attempt. It cancels an ACQUIRE that is not in attempt: its slot is emptied,
WITHDRAWN with reason LOCAL arrives, nothing is placed, then the free slot goes to waiting needs, RELEASING clients
conclude and in LEAVING the handshake goes on; in MEMBER with no need waiting and no client RELEASING nothing more
happens. The refusals come in the order of the checks; each leaves everything as it is. The model's choice: of the
freed slots the waiting needs take theirs before a client that concludes places its reclaim ACQUIRE (log entry 33),
and clients conclude in ascending number (log entry 30). -/
def Obligations.ReleaseRequests : Prop :=
  (∀ (s : Machine.State) (l : Lease) (c : Client) (k : Fin 8), PortReady s →
     s.localState = .member ∨ s.localState = .leaving → s.config.bindings[c] = .port → LowestFree s.queue k →
     (∀ (j : Fin 8) (x : Slot), j.val < 6 → s.queue.slots[j] = some x → x.content.isReleaseFor l c = false) →
     (PairAbsent s.queue l c ∧
         (∃ e, s.leases[l] = some e ∧
           ((∃ h ∈ e.holders, h.tag = ownTag s c) ∨ ∃ w ∈ e.waiters, w.tag = ownTag s c)) ∨
       ∃ (j : Fin 8) (x : Slot), j.val < 6 ∧ s.queue.slots[j] = some x ∧ x.content.isAcquireFor l c = true ∧
         x.inAttempt = true ∧
         ∀ (i : Fin 8) (y : Slot), i.val < j.val → s.queue.slots[i] = some y → y.content.isAcquireFor l c = false) →
     exec (.release (BitVec.ofNat 8 l.val) (BitVec.ofNat 8 c.val)) s =
       .next (answered 0x21 [0x01, BitVec.ofNat 8 k.val]
         { s with
           queue :=
             { s.queue with
               slots := s.queue.slots.set k (some
                 { content := .release l c, age := s.queue.nextAge, attempts := 0, inAttempt := false, opened := false })
               nextAge := s.queue.nextAge + 1 } })) ∧
  ((∀ (s : Machine.State) (l : Lease) (c : Client) (k : Fin 8) (x : Slot), PortReady s →
     s.localState = .member → s.config.bindings[c] = .port →
     (∀ (j : Fin 8) (y : Slot), j.val < 6 → s.queue.slots[j] = some y → y.content.isReleaseFor l c = false) →
     k.val < 6 → s.queue.slots[k] = some x → x.content.isAcquireFor l c = true → x.inAttempt = false →
     (∀ (j : Fin 8) (y : Slot), j.val < k.val → s.queue.slots[j] = some y → y.content.isAcquireFor l c = false) →
     (∀ d : Client, s.queue.needs[d] = none) → (∀ d : Client, s.clients[d].state ≠ .releasing) →
     exec (.release (BitVec.ofNat 8 l.val) (BitVec.ofNat 8 c.val)) s = .next (answered 0x21 [0x02]
       { s with
         queue := { s.queue with slots := s.queue.slots.set k none }
         notices := arrive { stamp := commitStamp s, body := .withdrawn l c .localRequest } s.notices })) ∧
   ∀ (s : Machine.State) (l : Lease) (c : Client) (k : Fin 8) (x : Slot), PortReady s →
     s.localState = .member ∨ s.localState = .leaving → s.config.bindings[c] = .port →
     (∀ (j : Fin 8) (y : Slot), j.val < 6 → s.queue.slots[j] = some y → y.content.isReleaseFor l c = false) →
     k.val < 6 → s.queue.slots[k] = some x → x.content.isAcquireFor l c = true → x.inAttempt = false →
     (∀ (j : Fin 8) (y : Slot), j.val < k.val → s.queue.slots[j] = some y → y.content.isAcquireFor l c = false) →
     exec (.release (BitVec.ofNat 8 l.val) (BitVec.ofNat 8 c.val)) s = .next (answered 0x21 [0x02]
       (leaveHandshake (concludeClients (serveNeeds
         { s with
           queue := { s.queue with slots := s.queue.slots.set k none }
           notices := arrive { stamp := commitStamp s, body := .withdrawn l c .localRequest } s.notices }))))) ∧
  (∀ (s : Machine.State) (lb cb : Byte), PortReady s →
     let answers := fun code => exec (.release lb cb) s = .next (answered 0x21 [code] s)
     (s.localState ≠ .member → s.localState ≠ .leaving → answers 0x80) ∧
     (s.localState = .member ∨ s.localState = .leaving →
       (64 ≤ lb.toNat ∨ 8 ≤ cb.toNat → answers 0x81) ∧
       ∀ (l : Lease) (c : Client), lb = BitVec.ofNat 8 l.val → cb = BitVec.ofNat 8 c.val →
         (s.config.bindings[c] ≠ .port → answers 0x82) ∧
         (s.config.bindings[c] = .port →
           ((∃ (k : Fin 8) (x : Slot), k.val < 6 ∧ s.queue.slots[k] = some x ∧ x.content.isReleaseFor l c = true) →
             answers 0x83) ∧
           (PairAbsent s.queue l c →
             ((∀ e, s.leases[l] = some e →
                 (∀ h ∈ e.holders, h.tag ≠ ownTag s c) ∧ ∀ w ∈ e.waiters, w.tag ≠ ownTag s c) →
               answers 0x85) ∧
             (∀ e, s.leases[l] = some e →
               (∃ h ∈ e.holders, h.tag = ownTag s c) ∨ (∃ w ∈ e.waiters, w.tag = ownTag s c) →
               NoneFree s.queue → answers 0x84)) ∧
           (∀ (k : Fin 8) (x : Slot), k.val < 6 → s.queue.slots[k] = some x → x.content.isAcquireFor l c = true →
             x.inAttempt = true →
             (∀ (j : Fin 8) (y : Slot), j.val < 6 → s.queue.slots[j] = some y →
               y.content.isReleaseFor l c = false ∧ (j.val < k.val → y.content.isAcquireFor l c = false)) →
             NoneFree s.queue → answers 0x84))))

/-- RENEW of a LIVE hold of a PORT client in MEMBER: a new opened slot with the one entry, or the entry appended to
the opened slot, or absorbed by it. The refusals come in the order of the checks; each leaves everything as it is. -/
def Obligations.RenewRequests : Prop :=
  (∀ (s : Machine.State) (l : Lease) (c : Client) (k : Fin 8) (e : LeaseEntry), PortReady s →
     s.localState = .member → s.config.bindings[c] = .port → s.leases[l] = some e →
     (∃ h ∈ e.holders, h.tag = ownTag s c ∧ h.status = .live) →
     let answers := fun (q : OutboundQueue) =>
       exec (.renew (BitVec.ofNat 8 l.val) (BitVec.ofNat 8 c.val)) s =
         .next (answered 0x22 [0x01, BitVec.ofNat 8 k.val] { s with queue := q })
     (NoneOpened s.queue → LowestFree s.queue k →
       answers
         { s.queue with
           slots := s.queue.slots.set k (some
             { content := .renew [(l, c)]
               age := s.queue.nextAge
               attempts := 0
               inAttempt := false
               opened := true })
           nextAge := s.queue.nextAge + 1 }) ∧
     ∀ (x : Slot) (entries : List (Lease × Client)), k.val < 6 → s.queue.slots[k] = some x →
       x.content = .renew entries → x.opened = true →
       (∀ (j : Fin 8) (y : Slot) (ys : List (Lease × Client)), j.val < k.val → s.queue.slots[j] = some y →
         y.content = .renew ys → y.opened = false) →
       ((l, c) ∈ entries → answers s.queue) ∧
       ((l, c) ∉ entries → entries.length < 8 →
         answers
           { s.queue with
             slots := s.queue.slots.set k (some { x with content := .renew (entries ++ [(l, c)]) }) })) ∧
  (∀ (s : Machine.State) (lb cb : Byte), PortReady s →
     let answers := fun code => exec (.renew lb cb) s = .next (answered 0x22 [code] s)
     (s.localState = .leaving → answers 0x87) ∧
     (s.localState ≠ .member → s.localState ≠ .leaving → answers 0x80) ∧
     (s.localState = .member →
       (64 ≤ lb.toNat ∨ 8 ≤ cb.toNat → answers 0x81) ∧
       ∀ (l : Lease) (c : Client), lb = BitVec.ofNat 8 l.val → cb = BitVec.ofNat 8 c.val →
         (s.config.bindings[c] ≠ .port → answers 0x82) ∧
         (s.config.bindings[c] = .port →
           ((∀ e, s.leases[l] = some e → ∀ h ∈ e.holders, h.tag = ownTag s c → h.status = .fenced) →
             answers 0x85) ∧
           (∀ e, s.leases[l] = some e → (∃ h ∈ e.holders, h.tag = ownTag s c ∧ h.status = .live) →
             (NoneOpened s.queue → NoneFree s.queue → answers 0x84) ∧
             (∀ (k : Fin 8) (x : Slot) (entries : List (Lease × Client)), k.val < 6 → s.queue.slots[k] = some x →
               x.content = .renew entries → x.opened = true →
               (∀ (j : Fin 8) (y : Slot) (ys : List (Lease × Client)), j.val < k.val → s.queue.slots[j] = some y →
                 y.content = .renew ys → y.opened = false) →
               (l, c) ∉ entries → 8 ≤ entries.length → answers 0x86)))))

/-! ### Timers and teardown -/

/-- The tick timer expires: it is EXPIRED, and a TICK is placed as the youngest if the tick slot is empty. The pulse
ends: TICKOUT goes low and nothing else changes. The silence timer expires: with no frame in progress JOINING, MEMBER
and LEAVING are torn down as ISOLATED; while a frame is in progress, and in the other states, the timer is EXPIRED and
nothing else changes. The founding, pacing and hold-off timers expire: a seeker that wants founding places FOUND where
the membership slot is empty or holds a JOIN not in attempt, one with join evidence whose founding timer runs places
JOIN where the slot is empty or holds a FOUND not in attempt; else only the timer is EXPIRED. -/
def Obligations.TimersExpire : Prop :=
  ((∀ s : Machine.State, s.resetLow = false →
     exec .tickoutPulseEnd s = .next (driveOutputs { s with tickout := none })) ∧
   ∀ (s : Machine.State) (n : Nat), s.resetLow = false → s.timers.tick = .running n →
     (s.queue.slots[(6 : Fin 8)] = none →
       exec .tickTimerExpiry s = .next (driveOutputs
         { s with
           timers := { s.timers with tick := .expired }
           queue :=
             { s.queue with
               slots := s.queue.slots.set 6 (some
                 { content := .tick, age := s.queue.nextAge, attempts := 0, inAttempt := false, opened := false })
               nextAge := s.queue.nextAge + 1 } })) ∧
     (s.queue.slots[(6 : Fin 8)] ≠ none →
       exec .tickTimerExpiry s = .next (driveOutputs { s with timers := { s.timers with tick := .expired } }))) ∧
  (∀ (s : Machine.State) (n : Nat), s.resetLow = false → s.timers.silence = .running n →
     (LineQuiet s → s.localState = .joining ∨ s.localState = .member ∨ s.localState = .leaving →
       exec .silenceTimerExpiry s = .next (driveOutputs
         (teardown (.trigger .isolated) { s with timers := { s.timers with silence := .expired } }))) ∧
     (¬ LineQuiet s ∨ s.localState = .standby ∨ s.localState = .seeking ∨ s.localState = .detached →
       exec .silenceTimerExpiry s = .next (driveOutputs { s with timers := { s.timers with silence := .expired } }))) ∧
  (∀ (s : Machine.State) (n : Nat), s.resetLow = false →
     let placed := fun (c : SlotContent) =>
       { s.queue with
         slots := s.queue.slots.set 7 (some
           { content := c, age := s.queue.nextAge, attempts := 0, inAttempt := false, opened := false })
         nextAge := s.queue.nextAge + 1 }
     (s.timers.founding = .running n →
       let wants := s.localState = .seeking ∧ (∀ m, s.timers.pacing ≠ .running m) ∧ MembershipOpen s.queue .join
       (wants → exec .foundingTimerExpiry s = .next (driveOutputs
         { s with timers := { s.timers with founding := .expired }, queue := placed .found })) ∧
       (¬ wants → exec .foundingTimerExpiry s = .next (driveOutputs
         { s with timers := { s.timers with founding := .expired } }))) ∧
     (s.timers.pacing = .running n →
       let wants := s.localState = .seeking ∧ s.timers.founding = .expired ∧ MembershipOpen s.queue .join
       (wants → exec .pacingTimerExpiry s = .next (driveOutputs
         { s with timers := { s.timers with pacing := .expired }, queue := placed .found })) ∧
       (¬ wants → exec .pacingTimerExpiry s = .next (driveOutputs
         { s with timers := { s.timers with pacing := .expired } }))) ∧
     (s.timers.holdOff = .running n →
       let joins := s.localState = .seeking ∧ s.joinEvidence = true ∧ (∃ m, s.timers.founding = .running m) ∧
         MembershipOpen s.queue .found
       (joins → exec .holdOffTimerExpiry s = .next (driveOutputs
         { s with timers := { s.timers with holdOff := .expired }, queue := placed .join })) ∧
       (¬ joins → exec .holdOffTimerExpiry s = .next (driveOutputs
         { s with timers := { s.timers with holdOff := .expired } }))))

/-- A teardown: from MEMBER a REVOKED notice per LIVE hold; every line client REVOKED or IDLE by its claim; the queue
empty; roster and leases unknown; the timers stopped; then SEEKING, with the founding timer running, after a trigger
with auto-rejoin set and not from LEAVING, else DETACHED; the STATE notice last. -/
def Obligations.TeardownLeaves : Prop :=
  ∀ (s : Machine.State) (cause : TeardownCause),
    let seeks := (∃ x, cause = .trigger x) ∧ s.config.autoRejoin = true ∧ s.localState ≠ .leaving
    let reason : RevokeReason :=
      match cause with
      | .trigger .tailError => .tailError
      | .trigger .diverged => .diverged
      | .trigger .foreign => .foreign
      | .trigger .removed => .removed
      | .trigger .isolated => .isolated
      | .leaveCompleted => .leaving
    let revoked : List NoticeBody :=
      if s.localState = .member then
        (List.finRange 64).flatMap fun l : Lease =>
          match s.leases[l] with
          | none => []
          | some e =>
            (e.holders.filter fun h => h.tag.station = stationNumber s && h.status = .live).map fun h =>
              NoticeBody.revoked l h.tag.client h.grant reason
      else []
    let torn : Machine.State :=
      { s with
        leases := Vector.replicate 64 none
        roster := none
        sourceDuty := false
        queue := { slots := Vector.replicate 8 none, nextAge := 0, needs := Vector.replicate 8 none }
        clients := Vector.ofFn fun c : Client =>
          match s.config.bindings[c] with
          | .port => s.clients[c]
          | .line _ _ _ =>
            { s.clients[c] with
              state := if s.clients[c].recognised then .revoked else .idle
              reclaim := false } }
    (seeks → teardown cause s =
      { torn with
        localState := .seeking
        joinEvidence := false
        timers :=
          { tick := .stopped
            silence := .stopped
            founding := .running (16000 * 6 * tickPeriodMs s)
            pacing := .stopped
            holdOff := .stopped }
        notices := arriveInOrder (commitStamp s) (revoked ++ [.state .seeking]) s.notices }) ∧
    (¬ seeks → teardown cause s =
      { torn with
        localState := .detached
        timers :=
          { tick := .stopped, silence := .stopped, founding := .stopped, pacing := .stopped, holdOff := .stopped }
        notices := arriveInOrder (commitStamp s) (revoked ++ [.state .detached]) s.notices })

/-! ### Line clients -/

/-- Claim asserted: the recognised claim changes, its count of samples is cleared (R149), and the claim pin stands at
the level of the command (model choice: log entry 35); so in every case here. Beside that, an IDLE line client in
MEMBER goes to ASKING and its ACQUIRE, with patience UNLIMITED, is placed, or its need waits where no slot is free; in
RELEASING the reclaim flag is set; a PORT client, and an IDLE one outside MEMBER or one in any other state, changes
nothing more. Claim released: HOLDING and WAITING go to RELEASING and a RELEASE is placed, or its need waits; ASKING
drops its waiting need, cancels its ACQUIRE, or has a RELEASE placed beside an ACQUIRE in attempt; REVOKED and REFUSED
go to IDLE; in RELEASING the reclaim flag is cleared; PORT and IDLE change nothing more. Not said here: HOLDING and
WAITING where a client is RELEASING already (NeedsAndConclusions has how such clients conclude), and a cancellation
while needs wait. -/
def Obligations.ClaimEvents : Prop :=
  (∀ (s : Machine.State) (c : Client), s.resetLow = false → s.clients[c].recognised = false →
     let after := fun (x : LineClient) (q : OutboundQueue) => exec (.claimAsserted c) s = .next (driveOutputs
       { s with claimPins := s.claimPins.set c true, clients := s.clients.set c x, queue := q })
     let seen : LineClient := { s.clients[c] with recognised := true, deglitch := 0 }
     (s.config.bindings[c] = .port → after seen s.queue) ∧
     ∀ (l : Lease) (m : Mode) (t : Nat), s.config.bindings[c] = .line l m t →
       (s.clients[c].state = .idle → s.localState ≠ .member → after seen s.queue) ∧
       (s.clients[c].state ≠ .idle → s.clients[c].state ≠ .releasing → after seen s.queue) ∧
       (s.clients[c].state = .releasing → after { seen with reclaim := true } s.queue) ∧
       (s.clients[c].state = .idle → s.localState = .member → PairAbsent s.queue l c →
         (∀ k, LowestFree s.queue k → after { seen with state := .asking }
           { s.queue with
             slots := s.queue.slots.set k (some
               { content := .acquire l c m t 255
                 age := s.queue.nextAge
                 attempts := 0
                 inAttempt := false
                 opened := false })
             nextAge := s.queue.nextAge + 1 }) ∧
         (NoneFree s.queue → after { seen with state := .asking }
           { s.queue with needs := s.queue.needs.set c (some .acquire) }))) ∧
  (∀ (s : Machine.State) (c : Client), s.resetLow = false → s.clients[c].recognised = true →
     let after := fun (x : LineClient) (q : OutboundQueue) (ns : List Notice) =>
       exec (.claimReleased c) s = .next (driveOutputs
         { s with claimPins := s.claimPins.set c false, clients := s.clients.set c x, queue := q, notices := ns })
     let seen : LineClient := { s.clients[c] with recognised := false, deglitch := 0 }
     (s.config.bindings[c] = .port → after seen s.queue s.notices) ∧
     ∀ (l : Lease) (m : Mode) (t : Nat), s.config.bindings[c] = .line l m t →
       let placed := fun (k : Fin 8) =>
         { s.queue with
           slots := s.queue.slots.set k (some
             { content := .release l c, age := s.queue.nextAge, attempts := 0, inAttempt := false, opened := false })
           nextAge := s.queue.nextAge + 1 }
       (s.clients[c].state = .idle → after seen s.queue s.notices) ∧
       (s.clients[c].state = .revoked ∨ s.clients[c].state = .refused →
         after { seen with state := .idle } s.queue s.notices) ∧
       (s.clients[c].state = .releasing → after { seen with reclaim := false } s.queue s.notices) ∧
       (s.clients[c].state = .holding ∨ s.clients[c].state = .waiting →
         (∀ d : Client, s.clients[d].state ≠ .releasing) → PairAbsent s.queue l c → TagIn s l (ownTag s c) →
           (∀ k, LowestFree s.queue k → after { seen with state := .releasing } (placed k) s.notices) ∧
           (NoneFree s.queue → after { seen with state := .releasing }
             { s.queue with needs := s.queue.needs.set c (some .release) } s.notices)) ∧
       (s.clients[c].state = .asking → PairAbsent s.queue l c →
         after { seen with state := .idle } { s.queue with needs := s.queue.needs.set c none } s.notices) ∧
       ∀ (k : Fin 8) (x : Slot), s.clients[c].state = .asking → k.val < 6 → s.queue.slots[k] = some x →
         x.content.isAcquireFor l c = true →
         (∀ (j : Fin 8) (y : Slot), j.val < 6 → s.queue.slots[j] = some y →
           y.content.isReleaseFor l c = false ∧ (y.content.isAcquireFor l c = true → j = k)) →
         (x.inAttempt = true →
           (∀ j, LowestFree s.queue j → after { seen with state := .releasing } (placed j) s.notices) ∧
           (NoneFree s.queue → after { seen with state := .releasing }
             { s.queue with needs := s.queue.needs.set c (some .release) } s.notices)) ∧
         (x.inAttempt = false → NothingWaits s →
           after { seen with state := .idle } { s.queue with slots := s.queue.slots.set k none }
             (arrive { stamp := commitStamp s, body := .withdrawn l c .localRequest } s.notices)))

/-- When a general slot is free the waiting needs are served by ascending client: an ACQUIRE need is placed, a RELEASE
need is placed if its tag is in the replica or its ACQUIRE in attempt, and else dropped. A RELEASING client for which
the queue holds nothing concludes: to IDLE, or with the reclaim flag to ASKING with a fresh ACQUIRE, placed or
waiting; that several conclude by ascending client is the model's choice of log entry 30. A discarded ACQUIRE of an
ASKING client and a discarded RELEASE of a RELEASING one are raised afresh. -/
def Obligations.NeedsAndConclusions : Prop :=
  (∀ s : Machine.State,
    serveNeeds s = (List.finRange 8).foldl serveNeed s ∧ concludeClients s = (List.finRange 8).foldl concludeClient s) ∧
  ∀ (s : Machine.State) (c : Client),
    (s.queue.needs[c] = none ∨ NoneFree s.queue → serveNeed s c = s) ∧
    (s.config.bindings[c] = .port ∨ s.clients[c].state ≠ .releasing → concludeClient s c = s) ∧
    (freshNeed none s = s) ∧
    ∀ (l : Lease) (m : Mode) (t : Nat), s.config.bindings[c] = .line l m t →
      let holding := fun (k : Fin 8) (x : SlotContent) (n : Option NeedKind) =>
        { s.queue with
          slots := s.queue.slots.set k (some
            { content := x, age := s.queue.nextAge, attempts := 0, inAttempt := false, opened := false })
          nextAge := s.queue.nextAge + 1
          needs := s.queue.needs.set c n }
      let needing := fun (n : Option NeedKind) => { s.queue with needs := s.queue.needs.set c n }
      let again : LineClient := { s.clients[c] with state := .asking, reclaim := false }
      let goes := fun (x : LineClient) (q : OutboundQueue) =>
        ({ s with clients := s.clients.set c x, queue := q } : Machine.State)
      (PairAbsent s.queue l c → ∀ k : Fin 8, LowestFree s.queue k →
        (s.queue.needs[c] = some .acquire →
          serveNeed s c = { s with queue := holding k (.acquire l c m t 255) none }) ∧
        (s.queue.needs[c] = some .release → TagIn s l (ownTag s c) →
          serveNeed s c = { s with queue := holding k (.release l c) none }) ∧
        (s.queue.needs[c] = some .release → ¬ TagIn s l (ownTag s c) →
          serveNeed s c = { s with queue := needing none })) ∧
      (∀ (k j : Fin 8) (x : Slot), LowestFree s.queue k → s.queue.needs[c] = some .release → j.val < 6 →
        s.queue.slots[j] = some x → x.content.isAcquireFor l c = true → x.inAttempt = true →
        (∀ (i : Fin 8) (y : Slot), i.val < 6 → s.queue.slots[i] = some y →
          y.content.isReleaseFor l c = false ∧ (i.val < j.val → y.content.isAcquireFor l c = false)) →
        serveNeed s c = { s with queue := holding k (.release l c) none }) ∧
      (s.clients[c].state = .releasing →
        (¬ PairAbsent s.queue l c ∨ s.queue.needs[c] ≠ none → concludeClient s c = s) ∧
        (PairAbsent s.queue l c → s.queue.needs[c] = none →
          (s.clients[c].reclaim = false → concludeClient s c = goes { s.clients[c] with state := .idle } s.queue) ∧
          (s.clients[c].reclaim = true →
            (∀ k, LowestFree s.queue k → concludeClient s c = goes again (holding k (.acquire l c m t 255) none)) ∧
            (NoneFree s.queue → concludeClient s c = goes again (needing (some .acquire)))))) ∧
      ∀ (m' : Mode) (t' p : Nat),
        (s.clients[c].state ≠ .asking → freshNeed (some (.acquire l c m' t' p)) s = s) ∧
        (s.clients[c].state ≠ .releasing → freshNeed (some (.release l c)) s = s) ∧
        (PairAbsent s.queue l c → s.queue.needs[c] = none →
          (s.clients[c].state = .asking →
            (∀ k, LowestFree s.queue k → freshNeed (some (.acquire l c m' t' p)) s =
              { s with queue := holding k (.acquire l c m t 255) none }) ∧
            (NoneFree s.queue → freshNeed (some (.acquire l c m' t' p)) s = { s with queue := needing (some .acquire) })) ∧
          (s.clients[c].state = .releasing → TagIn s l (ownTag s c) →
            (∀ k, LowestFree s.queue k → freshNeed (some (.release l c)) s =
              { s with queue := holding k (.release l c) none }) ∧
            (NoneFree s.queue → freshNeed (some (.release l c)) s = { s with queue := needing (some .release) })))

/-- Auto-renew, in MEMBER only and by ascending client: a HOLDING line client whose LIVE hold has at most half its
term left, rounded up, and which no RENEW slot that is opened or in attempt names (log entry 28), is put into a new
opened RENEW slot or appended to the opened one; a full queue and a full slot leave all as it is. At entry into MEMBER
the timers are those of the entry, each IDLE line client with its claim ASSERTED goes to ASKING with an ACQUIRE
placed, or its need waiting, by ascending client, and the STATE notice arrives. -/
def Obligations.ClientsRenewAndAsk : Prop :=
  (∀ s : Machine.State,
    (s.localState = .member → autoRenew s = (List.finRange 8).foldl renewClient s) ∧
    (s.localState ≠ .member → autoRenew s = s) ∧
    let entered : Machine.State :=
      { s with
        localState := .member
        timers :=
          match s.localState with
          | .seeking =>
            { tick := ticking s 1, silence := ticking s 3, founding := .stopped, pacing := .stopped, holdOff := .stopped }
          | _ => { s.timers with tick := ticking s 1 } }
    let asked := (List.finRange 8).foldl askAtEntry entered
    enterMember s =
      { asked with notices := arrive { stamp := commitStamp s, body := .state .member } asked.notices }) ∧
  ∀ (s : Machine.State) (c : Client),
    (s.config.bindings[c] = .port → renewClient s c = s ∧ askAtEntry s c = s) ∧
    (s.clients[c].state ≠ .idle ∨ s.clients[c].recognised = false → askAtEntry s c = s) ∧
    ∀ (l : Lease) (m : Mode) (t : Nat), s.config.bindings[c] = .line l m t →
      (s.clients[c].state = .idle → s.clients[c].recognised = true → PairAbsent s.queue l c →
        let asking := s.clients.set c { s.clients[c] with state := .asking }
        (∀ k, LowestFree s.queue k → askAtEntry s c =
          { s with
            clients := asking
            queue :=
              { s.queue with
                slots := s.queue.slots.set k (some
                  { content := .acquire l c m t 255
                    age := s.queue.nextAge
                    attempts := 0
                    inAttempt := false
                    opened := false })
                nextAge := s.queue.nextAge + 1 } }) ∧
        (NoneFree s.queue → askAtEntry s c =
          { s with clients := asking, queue := { s.queue with needs := s.queue.needs.set c (some .acquire) } })) ∧
      ((∀ e, s.leases[l] = some e → ∀ h ∈ e.holders, h.tag = ownTag s c → h.status = .fenced) → renewClient s c = s) ∧
      ∀ (e : LeaseEntry) (front back : List Holder) (h : Holder), s.leases[l] = some e → e.holders = front ++ h :: back →
        h.tag = ownTag s c → h.status = .live → (∀ g ∈ front, g.tag = ownTag s c → g.status = .fenced) →
        let due := s.clients[c].state = .holding ∧ h.remaining ≤ (h.term + 1) / 2 ∧
          ∀ (k : Fin 8) (x : Slot) (entries : List (Lease × Client)), k.val < 6 → s.queue.slots[k] = some x →
            x.content = .renew entries → x.opened = true ∨ x.inAttempt = true → (l, c) ∉ entries
        let renewing := fun (q : OutboundQueue) => renewClient s c = { s with queue := q }
        (¬ due → renewing s.queue) ∧
        (due → NoneOpened s.queue →
          (∀ k, LowestFree s.queue k → renewing
            { s.queue with
              slots := s.queue.slots.set k (some
                { content := .renew [(l, c)]
                  age := s.queue.nextAge
                  attempts := 0
                  inAttempt := false
                  opened := true })
              nextAge := s.queue.nextAge + 1 }) ∧
          (NoneFree s.queue → renewing s.queue)) ∧
        ∀ (k : Fin 8) (x : Slot) (entries : List (Lease × Client)), due → k.val < 6 → s.queue.slots[k] = some x →
          x.content = .renew entries → x.opened = true →
          (∀ (j : Fin 8) (y : Slot) (ys : List (Lease × Client)), j.val < k.val → s.queue.slots[j] = some y →
            y.content = .renew ys → y.opened = false) →
          (entries.length < 8 → renewing
            { s.queue with
              slots := s.queue.slots.set k (some { x with content := .renew (entries ++ [(l, c)]) }) }) ∧
          (8 ≤ entries.length → renewing s.queue)

/-! ### The start of frames -/

/-- An edge of the line with no frame in progress (log entry 31): after at least 10 recessive bits it is a start bit
and fixes the role: the local state, the required set and the commit count of the roster, and the source duty, as they
stand; the report is cleared and the courtesy gap is over. After fewer it is no start bit: the bit that begins is
dominant, the gap is counted again after it, and nothing else changes. Either way the edge is that of the dominant
level listed first where one is (log entry 25: the model's choice). The frame's end at a station that was then in
STANDBY or DETACHED keeps the report, starts the gap, and changes nothing else. -/
def Obligations.StartBitAndListener : Prop :=
  (∀ s : Machine.State, s.resetLow = false → LineQuiet s →
    (s.line.gapBits < 10 →
      exec .frameStartBit s = .next (driveOutputs
        { s with
          line := { s.line with gapBits := 0, bitCycles := 0 }
          lineInput := if s.lineInput.head? = some true then s.lineInput else true :: s.lineInput })) ∧
    (10 ≤ s.line.gapBits → exec .frameStartBit s = .next (driveOutputs
      { s with
        line :=
          { phase := .receiving
              { localState := s.localState
                required := s.roster.map fun r =>
                  (List.finRange 16).filter fun i : Fin 16 => r.records[i].state ≠ .absent
                commits := s.roster.map fun r => r.commits
                duty := s.sourceDuty }
            gapBits := 0
            bitCycles := 0
            courtesyPending := false
            markBits := 0
            report := none }
        lineInput := if s.lineInput.head? = some true then s.lineInput.tail else s.lineInput }))) ∧
  ∀ (s : Machine.State) (role : Role) (cells : List LineCell), s.resetLow = false →
    s.line.phase = .receiving role → role.localState = .standby ∨ role.localState = .detached →
    exec (.frameEnd cells) s = .next (driveOutputs { s with line := lineAfter s 0 (frameReport s role none cells) })

/-- The completion of the quiet gap is an opportunity (log entry 16) and makes the line idle. An opportunity that
comes (which one acts in which phase is the model's choice, log entry 17) without a permitted slot, or whose head is
an ordinary frame while the courtesy gap is kept, starts nothing; at the twenty-second bit the courtesy gap is over. A
head RELEASE whose tag is not in the replica is dropped at the opportunity with WITHDRAWN, NOT_PRESENT; stated in
MEMBER where nothing else is offered and nothing waits for the slot: the line then stays idle. -/
def Obligations.OpportunityWithoutAttempt : Prop :=
  (∀ s : Machine.State, s.resetLow = false →
    exec .quietGapComplete s = exec (.attemptStart .quietGap) s ∧
    (∀ o : Opportunity, OpportunityComes s o →
      (∀ k x, ¬ Offered s k x) ∨
        (∃ k x, IsHead s k x ∧ 6 ≤ (kindCode (slotKind x.content)).toNat ∧ s.line.courtesyPending = true ∧
          o ≠ .courtesyGap) →
      exec (.attemptStart o) s = .next (driveOutputs
        { s with
          line :=
            { s.line with
              phase := .idle
              gapBits := max s.line.gapBits (if o = .courtesyGap then 22 else 11)
              courtesyPending := if o = .courtesyGap then false else s.line.courtesyPending
              markBits := 0 } }))) ∧
  ∀ (s : Machine.State) (o : Opportunity) (k : Fin 8) (x : Slot) (l : Lease) (c : Client), s.resetLow = false →
    OpportunityComes s o → s.localState = .member → s.line.courtesyPending = false → NothingWaits s →
    s.queue.slots[k] = some x → x.content = .release l c →
    (∀ (j : Fin 8) (y : Slot), Offered s j y → j = k) → ¬ TagIn s l (ownTag s c) →
    exec (.attemptStart o) s = .next (driveOutputs
      { s with
        line :=
          { s.line with
            phase := .idle
            gapBits := max s.line.gapBits 11
            markBits := 0 }
        queue := { s.queue with slots := s.queue.slots.set k none }
        notices := arrive { stamp := commitStamp s, body := .withdrawn l c .notPresent } s.notices })

/-- An opportunity that comes (log entries 16 and 17 say which acts in which phase: the model's choice) and whose head
assembles starts its attempt: the slot is in attempt and no more opened, and the frame goes out from header to second
CRC cell: kind code and station number, check field, length, payload, CRC. A start bit of another station listed for
the same bit is the same one (log entry 25). What payload bytes and CRC mean is stated by PayloadsReadBack. -/
def Obligations.AttemptSendsTheHead : Prop :=
  ∀ (s : Machine.State) (o : Opportunity) (k : Fin 8) (x : Slot) (b : FrameBody), s.resetLow = false → OpportunityComes s o →
    IsHead s k x → assemble s x.content = some b →
    (kindCode (slotKind x.content)).toNat < 6 ∨ s.line.courtesyPending = false ∨ o = .courtesyGap →
    let check : Byte :=
      match b, s.roster with
      | .join, _ => 0
      | .found _, _ => 0
      | _, none => 0
      | _, some r => r.commits.extractLsb' 0 8
    let data : List Byte :=
      [kindCode (bodyKind b) ++ BitVec.ofNat 4 (stationNumber s).val, check,
        BitVec.ofNat 8 (payloadBytes b).length] ++ payloadBytes b
    exec (.attemptStart o) s = .next (driveOutputs
      { s with
        line :=
          { phase := .sending
              { localState := s.localState
                required := s.roster.map fun r =>
                  (List.finRange 16).filter fun i : Fin 16 => r.records[i].state ≠ .absent
                commits := s.roster.map fun r => r.commits
                duty := s.sourceDuty }
              { slot := k
                bytes := data ++ [(crc16 data).extractLsb' 8 8, (crc16 data).extractLsb' 0 8] }
            gapBits := 0
            bitCycles := 0
            courtesyPending := false
            markBits := 0
            report := none }
        lineInput := if s.lineInput.head? = some true then s.lineInput.tail else s.lineInput
        queue :=
          { s.queue with
            slots := s.queue.slots.set k (some
              { x with
                content :=
                  match b with
                  | .renew kept => .renew kept
                  | _ => x.content
                inAttempt := true
                opened := false }) } })

/-- What the queue assembles from a slot: a RELEASE while its tag is in the replica, a RENEW of the entries that are
LIVE holds, an ACQUIRE and a FOUND with their fields, a SNAP of the cursor's item while a record is JOINING. -/
def Obligations.AssembledFrames : Prop :=
  ∀ (s : Machine.State) (l : Lease) (c : Client),
    assemble s .tick = some .tick ∧ assemble s .join = some .join ∧ assemble s .leave = some .leave ∧
    assemble s .found = some (.found (if s.straps.nsz.toNat = 0 then 16 else s.straps.nsz.toNat)) ∧
    (∀ m t p, assemble s (.acquire l c m t p) = some (.acquire l c m t p)) ∧
    (TagIn s l (ownTag s c) → assemble s (.release l c) = some (.release l c)) ∧
    (¬ TagIn s l (ownTag s c) → assemble s (.release l c) = none) ∧
    (∀ entries kept : List (Lease × Client),
      kept = entries.filter (fun lc =>
        match s.leases[lc.1] with
        | none => false
        | some e => e.holders.any fun h => h.tag = ownTag s lc.2 && h.status = .live) →
      assemble s (.renew entries) = if kept = [] then none else some (.renew kept)) ∧
    (s.roster = none → assemble s .snap = none) ∧
    ∀ r : Roster, s.roster = some r →
      ((∀ i : Fin 16, r.records[i].state ≠ .joining) → assemble s .snap = none) ∧
      ((∃ i : Fin 16, r.records[i].state = .joining) →
        (r.cursor.val = 0 → assemble s .snap = some (.snap (.roster r.expected r.commits r.ticks r.records))) ∧
        (r.cursor.val = l.val + 1 → assemble s .snap = (s.leases[l]).map fun e => .snap (.lease l e)))

/-! ### The end of frames -/

/-- The frame end of an engaged station, receiver or sender: the report is kept, the gap starts, an aborted sender
keeps its marks up to the end of the extent it sent; then, in this order (log entry 13), the own outcome, the verdict
to the time unit (a seeker that reads a committed verdict restarts founding, stops pacing and drops its FOUND, one
that reads a failed FOUND paces; JOINING, MEMBER and LEAVING restart the silence timer), the application, the notices,
the hand-overs, the time unit, the needs, conclusions (in ascending client number, log entry 30) and auto-renew, then
a teardown, or admission and placing. The model's choices, read from the rules: after a LEAVE discarded at the attempt
limit the source duty follows its condition and nothing is placed at that frame end (log entry 29), and a held silence
expiry ejects as ISOLATED wherever no trigger and no committed verdict stands against it, at an unreadable tail of a
station not required too (log entry 27). It is the model's choice too that the line after the frame takes, as the
extent sent by a sender that aborted before its length cell, the length it had assembled (log entry 32). -/
def Obligations.FrameEndTakesItsSteps : Prop :=
  (∀ (s : Machine.State) (role : Role) (cells : List LineCell), s.resetLow = false → s.line.phase = .receiving role →
    role.localState ≠ .standby → role.localState ≠ .detached →
    let rep := frameReport s role none cells
    exec (.frameEnd cells) s = .next (driveOutputs (frameEndSteps none rep { s with line := lineAfter s 0 rep }))) ∧
  (∀ (s : Machine.State) (role : Role) (tx : Transmission) (cells : List LineCell), s.resetLow = false →
    s.line.phase = .sending role tx →
    let rep := frameReport s role (some tx) cells
    exec (.frameEnd cells) s = .next (driveOutputs
      (frameEndSteps (some tx.slot) rep { s with line := lineAfter s (marksLeft tx cells) rep }))) ∧
  (∀ (rep : FrameReport) (s : Machine.State),
    let committed := rep.verdict = .commit ∨ rep.verdict = .refuse
    let unfound :=
      match s.queue.slots[(7 : Fin 8)] with
      | some { content := .found, .. } => { s.queue with slots := s.queue.slots.set 7 none }
      | _ => s.queue
    (s.localState = .seeking → committed → takeVerdict rep s =
      { s with
        joinEvidence := true
        timers := { s.timers with founding := ticking s 6, pacing := .stopped }
        queue := unfound }) ∧
    (s.localState = .seeking → ¬ committed → rep.kindCode = 2 → takeVerdict rep s =
      { s with timers := { s.timers with pacing := ticking s 1 }, queue := unfound }) ∧
    (s.localState = .seeking → ¬ committed → rep.kindCode ≠ 2 → takeVerdict rep s = s) ∧
    (s.localState = .joining ∨ s.localState = .member ∨ s.localState = .leaving → takeVerdict rep s =
      if committed then { s with timers := { s.timers with silence := ticking s 3 } } else s) ∧
    (s.localState = .standby ∨ s.localState = .detached → takeVerdict rep s = s)) ∧
  ∀ (slot : Option (Fin 8)) (rep : FrameReport) (s : Machine.State),
    let own : Machine.State × OwnOutcome :=
      match slot, rep.attempt with
      | some k, some o => takeOutcome k o s
      | _, _ => (s, {})
    let out : Machine.State × FrameEffect := applyFrame rep (takeVerdict rep own.1)
    let fx : FrameEffect := out.2
    let told : Machine.State := { out.1 with
      notices := arriveInOrder (commitStamp out.1) (own.2.notices ++ fx.rosterNotices) out.1.notices }
    let handed : Machine.State := fx.events.foldl handOver told
    let tickStarts : Machine.State := { handed with
      timers := { handed.timers with tick := ticking handed 1 }
      queue := { handed.queue with slots := handed.queue.slots.set 6 none } }
    let follows := handed.localState = .member ∨ handed.localState = .leaving
    let timed : Machine.State :=
      if fx.tickApplied then { (if follows then tickStarts else handed) with tickout := some 16 }
      else if fx.membersRemoved ∧ follows then tickStarts
      else handed
    let served : Machine.State := concludeClients (freshNeed own.2.discarded (serveNeeds timed))
    let t : Machine.State := if fx.tickApplied then autoRenew served else served
    let takes := t.localState = .joining ∨ t.localState = .member ∨ t.localState = .leaving
    let admitted : Machine.State :=
      if own.2.joined ∧ t.localState = .seeking then enterJoining t else if fx.admitted then enterMember t else t
    let ends := fun u : Machine.State => frameEndSteps slot rep s = u
    (fx.leaveCompleted = true → ends (teardown .leaveCompleted t)) ∧
    (fx.leaveCompleted = false → takes → ∀ x, fx.trigger = some x → ends (teardown (.trigger x) t)) ∧
    (fx.leaveCompleted = false → takes → fx.trigger = none → t.timers.silence = .expired →
      ends (teardown (.trigger .isolated) t)) ∧
    (fx.leaveCompleted = false → ¬ takes ∨ fx.trigger = none ∧ t.timers.silence ≠ .expired →
      (own.2.discarded ≠ some .leave →
        ends (leaveHandshake (joinTest (foundingTest (transferUnit admitted))))) ∧
      (own.2.discarded = some .leave → ends { admitted with sourceDuty := dutyNow admitted }))

/-- What the report of a receiver says: kind code and sender as read, the payload where its kind is assigned, its
length and fields fit and the reception checks pass, the divergence of the check field from the commit count of the
start bit, whether the station acknowledges, and whether it was itself required. A cell that FRAME_END does not carry
reads recessive (log entry 5). -/
def Obligations.ReceptionChecks : Prop :=
  ∀ (s : Machine.State) (role : Role) (cells : List LineCell),
    let rep := frameReport s role none cells
    let cell := fun i : Nat => (cells[i]?).getD { markDominant := false, data := 0xFF }
    let p := if (cell 2).data.toNat ≤ 64 then (cell 2).data.toNat else 0
    let bytes := fun (first n : Nat) => (List.range n).map fun i => (cell (first + i)).data
    let listens := role.localState = .standby ∨ role.localState = .detached
    let found := rep.kindCode = 2
    let read := fun b : FrameBody => ∃ k, kindCode k = rep.kindCode ∧ readPayload k (bytes 3 p) = some b
    let checked := (∀ i : Nat, i < 5 + p → (cell i).markDominant = true) ∧ (cell 2).data.toNat ≤ 64 ∧
      (cell (3 + p)).data ++ (cell (4 + p)).data = crc16 (bytes 0 (3 + p)) ∧ ∃ b, read b
    rep.kindCode = (cell 0).data.extractLsb' 4 4 ∧ rep.sender.val = ((cell 0).data.extractLsb' 0 4).toNat ∧
    rep.ackMap = (cell (5 + p)).data ++ (cell (6 + p)).data ∧ rep.required = role.required ∧ rep.attempt = none ∧
    (rep.whole = true ↔ ¬ listens ∧ checked) ∧
    (∀ b, rep.payload = some b ↔ ¬ listens ∧ checked ∧ read b) ∧
    (rep.acknowledged = true ↔ checked ∧
      (role.localState = .seeking ∧ found ∨
        (role.localState = .joining ∨ role.localState = .member ∨ role.localState = .leaving) ∧ ¬ found ∧
          ((∃ req, role.required = some req ∧ stationNumber s ∈ req) ∨
            role.required = none ∧ role.localState = .joining))) ∧
    (rep.divergence = true ↔ ∃ n, role.commits = some n ∧ rep.kindCode ≠ 2 ∧ rep.kindCode ≠ 3 ∧
      (cell 1).data ≠ n.extractLsb' 0 8) ∧
    (rep.selfRequired = true ↔ (∃ req, role.required = some req ∧ stationNumber s ∈ req) ∨
      role.required = none ∧ role.localState = .joining ∧ ¬ found)

/-- What becomes of an own frame, from its cells: a header bit driven recessive and read dominant, all higher bits as
driven, loses; any other difference in a bit or a mark up to the CRC aborts (log entries 6 and 7); else it is sent. A
sent frame is COMMITTED, REFUSED for a JOIN, or VOIDED by its verdict; an aborted JOIN is COMMITTED or REFUSED by the
verdict it reads, wherever it aborted, in its own header too (model choice: log entry 36); any other aborted frame is
ABORTED. A sender that lost reports as a receiver; an aborted one acknowledges nothing, passes no payload on and
drives no verdict. -/
def Obligations.AttemptsAreRead : Prop :=
  (∀ (driven : List Byte) (cells : List LineCell),
    let first := readCell cells 0
    let header := driven.getD 0 0
    let lost := ∃ i : Fin 8, header.getLsbD i = true ∧ first.data.getLsbD i = false ∧
      ∀ j : Fin 8, i.val < j.val → header.getLsbD j = first.data.getLsbD j
    let asDriven := ∀ (i : Nat) (d : Byte), driven[i]? = some d → readCell cells i = { markDominant := true, data := d }
    (first.markDominant = false → senderCourse driven cells = .aborted) ∧
    (first.markDominant = true → lost → senderCourse driven cells = .lost) ∧
    (first.markDominant = true → ¬ lost → asDriven → senderCourse driven cells = .sent) ∧
    (first.markDominant = true → ¬ lost → ¬ asDriven → senderCourse driven cells = .aborted)) ∧
  ∀ (s : Machine.State) (role : Role) (tx : Transmission) (cells : List LineCell),
    let rep := frameReport s role (some tx) cells
    let course := senderCourse tx.bytes cells
    let join := ∃ x, s.queue.slots[tx.slot] = some x ∧ x.content = .join
    (course = .lost → rep = { frameReport s role none cells with attempt := some .lost }) ∧
    (course = .sent → rep.whole = true ∧ rep.acknowledged = true ∧ rep.divergence = false ∧
      rep.payload = payloadRead cells ∧
      (rep.verdict = .commit → rep.attempt = some .committed) ∧
      (rep.verdict = .refuse → join → rep.attempt = some .refused) ∧
      (rep.verdict ≠ .commit → ¬ (rep.verdict = .refuse ∧ join) → rep.attempt = some .voided)) ∧
    (course = .aborted → rep.whole = false ∧ rep.acknowledged = false ∧ rep.divergence = false ∧ rep.payload = none ∧
      rep.verdictDriven = none ∧
      (join → rep.verdict = .commit → rep.attempt = some .committed) ∧
      (join → rep.verdict = .refuse → rep.attempt = some .refused) ∧
      (¬ join ∨ rep.verdict ≠ .commit ∧ rep.verdict ≠ .refuse → rep.attempt = some .aborted))

/-- The verdict a station reads, by the value of the verdict cell and the marks of the tail; the verdict driver also
compares it with the value it drove. The verdict a station drives: on a FOUND its sender by the quorum of its strapped
size; on a JOIN the holder of the source duty by its required set and the room test; on any other kind the sender by
its required set; no other station drives one, and no sender that aborted. -/
def Obligations.Verdicts : Prop :=
  (∀ (s : Machine.State) (role : Role) (tx : Option Transmission) (cells : List LineCell),
     let rep := frameReport s role tx cells
     let value := (readCell cells (7 + payloadCells cells)).data
     let marked := ∀ i : Nat, i < 3 → (readCell cells (5 + payloadCells cells + i)).markDominant = true
     (¬ marked → rep.verdict = .unreadable) ∧
     (∀ v, rep.verdictDriven = some v → v ≠ value → rep.verdict = .unreadable) ∧
     (marked → rep.verdictDriven = none ∨ rep.verdictDriven = some value →
       (value = 0x00 → rep.verdict = .commit) ∧
       (value = 0x33 → rep.kindCode = 3 → rep.verdict = .refuse) ∧
       (value = 0x33 → rep.kindCode ≠ 3 → rep.verdict = .unreadable) ∧
       (value = 0x0F → rep.verdict = .void) ∧
       (value = 0xFF → rep.verdict = .abandoned) ∧
       (value ≠ 0x00 → value ≠ 0x33 → value ≠ 0x0F → value ≠ 0xFF → rep.verdict = .unreadable))) ∧
  (∀ (s : Machine.State) (role : Role) (tx : Option Transmission) (cells : List LineCell),
     let rep := frameReport s role tx cells
     let dominant := fun i : Fin 16 => rep.ackMap.getLsbD i.val = false
     let sent := ∃ t, tx = some t ∧ senderCourse t.bytes cells = .sent
     let n := if s.straps.nsz.toNat = 0 then 16 else s.straps.nsz.toNat
     (rep.kindCode = 2 → sent →
       rep.verdictDriven = some
         (if n / 2 + 1 ≤ ((List.finRange 16).filter fun i => dominant i).length then 0x00 else 0x0F)) ∧
     (∀ req, rep.kindCode ≠ 2 → rep.kindCode ≠ 3 → sent → role.required = some req →
       rep.verdictDriven = some (if ∀ i ∈ req, dominant i then 0x00 else 0x0F)) ∧
     (∀ t, tx = some t → senderCourse t.bytes cells = .aborted → rep.verdictDriven = none) ∧
     (∀ req r, rep.kindCode = 3 → (∀ t, tx = some t → senderCourse t.bytes cells ≠ .aborted) →
       role.localState = .member ∨ role.localState = .leaving → role.duty = true →
       role.required = some req → s.roster = some r →
       rep.verdictDriven = some
         (if ∀ i ∈ req, dominant i then
           (if ((List.finRange 16).filter fun i : Fin 16 => r.records[i].state ≠ .absent ∧ i ≠ rep.sender).length <
               r.expected then 0x00
             else 0x33)
         else 0x0F)) ∧
     (rep.kindCode = 3 → role.duty = false ∨ role.localState ≠ .member ∧ role.localState ≠ .leaving →
       rep.verdictDriven = none) ∧
     (rep.kindCode ≠ 3 → ¬ sent → rep.verdictDriven = none))

/-- What becomes of a slot when its attempt ends: committed, it goes, and an ordinary frame keeps the courtesy gap; a
refused JOIN goes and starts the hold-off; a FOUND that is aborted or voided goes without a notice, whatever kind its
header read as, and a seeker paces; else the slot stays, an aborted or voided attempt counting, until the sixteenth
discards it with SEND_FAILED; an ACQUIRE goes with WITHDRAWN, LOCAL, where a RELEASE stands beside it, in LEAVING, at
the sixteenth counted attempt too (model choice: log entry 37), and where it would stay while a RELEASE need of its
line client waits. -/
def Obligations.AttemptEnds : Prop :=
  ∀ (s : Machine.State) (k : Fin 8) (x : Slot), s.queue.slots[k] = some x →
    let failed := fun o : AttemptOutcome => o = .lost ∨ o = .aborted ∨ o = .voided
    let without := fun (ks : Vector (Option Slot) 8) => { s with queue := { s.queue with slots := ks } }
    let kept := fun (a : Nat) => without (s.queue.slots.set k (some { x with attempts := a, inAttempt := false }))
    let counts := fun o : AttemptOutcome =>
      if o = .lost ∨ slotKind x.content = .tick ∨ slotKind x.content = .snap then x.attempts else min (x.attempts + 1) 16
    (takeOutcome k .committed s =
      ({ without (s.queue.slots.set k none) with
          line :=
            { s.line with
              courtesyPending := s.line.courtesyPending || decide (6 ≤ (kindCode (slotKind x.content)).toNat) } },
        { joined := slotKind x.content = .join })) ∧
    (takeOutcome k .refused s =
      ({ without (s.queue.slots.set k none) with
          timers := { s.timers with holdOff := .running (16000 * 8 * tickPeriodMs s) } },
        { notices := [.roster (stationNumber s) .deniedFull] })) ∧
    (∀ o, failed o → slotKind x.content ≠ .acquire → (x.content = .found → o = .lost) → counts o < 16 →
      takeOutcome k o s = (kept (counts o), {})) ∧
    (∀ o, x.content = .found → o = .aborted ∨ o = .voided →
      takeOutcome k o s = ({ without (s.queue.slots.set k none) with
        timers := if s.localState = .seeking then { s.timers with pacing := ticking s 1 } else s.timers }, {})) ∧
    (∀ o l c, failed o → x.content = .release l c → counts o = 16 →
      takeOutcome k o s = (without (s.queue.slots.set k none),
        { notices := [.sendFailedRelease l c], discarded := some x.content })) ∧
    (∀ o entries, failed o → x.content = .renew entries → counts o = 16 →
      takeOutcome k o s = (without (s.queue.slots.set k none),
        { notices := [.sendFailedRenew], discarded := some x.content })) ∧
    (∀ o, failed o → x.content = .leave → counts o = 16 →
      takeOutcome k o s = (without (s.queue.slots.set k none),
        { notices := [.sendFailedLeave], discarded := some x.content })) ∧
    (∀ o, failed o → x.content = .join → counts o = 16 →
      takeOutcome k o s = ({ without (s.queue.slots.set k none) with joinEvidence := false },
        { notices := [.sendFailedJoin], discarded := some x.content })) ∧
    ∀ o l c m t p, failed o → x.content = .acquire l c m t p →
      (∀ (j : Fin 8) (y : Slot), j.val < 6 → s.queue.slots[j] = some y → y.content = .release l c →
        (∀ (i : Fin 8) (z : Slot), i.val < j.val → s.queue.slots[i] = some z → z.content ≠ .release l c) →
        takeOutcome k o s = (without ((s.queue.slots.set k none).set j none),
          { notices := [.withdrawn l c .localRequest] })) ∧
      ((∀ (j : Fin 8) (y : Slot), j.val < 6 → s.queue.slots[j] = some y → y.content ≠ .release l c) →
        (s.localState = .leaving → takeOutcome k o s = (without (s.queue.slots.set k none),
          { notices := [.withdrawn l c .localRequest] })) ∧
        (s.localState ≠ .leaving →
          (counts o < 16 →
            (s.queue.needs[c] ≠ some .release ∨ (∀ m' t', s.config.bindings[c] ≠ .line l m' t') →
              takeOutcome k o s = (kept (counts o), {})) ∧
            (∀ m' t', s.queue.needs[c] = some .release → s.config.bindings[c] = .line l m' t' →
              takeOutcome k o s =
                ({ s with
                    queue :=
                      { s.queue with slots := s.queue.slots.set k none, needs := s.queue.needs.set c none } },
                  { notices := [.withdrawn l c .localRequest] }))) ∧
          (counts o = 16 → takeOutcome k o s = (without (s.queue.slots.set k none),
            { notices := [.sendFailedAcquire l c], discarded := some x.content }))))

/-- The frame end of a MEMBER that sent an ordinary frame from a general slot, with nothing waiting: a committed
frame, its own or the one it lost to, is applied as at a receiver; the slot goes at its own commit, which keeps the
courtesy gap, and stays uncounted at a loss. A VOID that brings nobody to three misses, and an abort that nobody's
verdict follows, count the attempt; the VOID accounts the misses, the abort leaves its marks to drive. The model's
choice: a sender that aborted before its length cell, in its header or check cell, leaves marks up to the length it
had assembled (log entry 32). -/
def Obligations.SenderFrameEnds : Prop :=
  ∀ (s : Machine.State) (role : Role) (tx : Transmission) (cells : List LineCell) (r : Roster) (req : List Station)
      (x : Slot), s.line.phase = .sending role tx → PlainMember s r → s.queue.slots[tx.slot] = some x → tx.slot.val < 6 →
    6 ≤ (kindCode (slotKind x.content)).toNat → x.attempts < 15 →
    (∀ (l : Lease) (c : Client) (m : Mode) (t p : Nat), x.content = .acquire l c m t p →
      ∀ (j : Fin 8) (y : Slot), s.queue.slots[j] = some y → y.content ≠ .release l c) →
    let rep := frameReport s role (some tx) cells
    let slots := fun y : Option Slot => { s.queue with slots := s.queue.slots.set tx.slot y }
    let kept := fun n : Nat => slots (some { x with attempts := n, inAttempt := false })
    let duty := decide (firstMember r = some (stationNumber s))
    (∀ b : FrameBody, 6 ≤ (kindCode (bodyKind b)).toNat → ReadsCommitted rep r req b →
      let ends := fun (q : OutboundQueue) (courtesy : Bool) => exec (.frameEnd cells) s = .next (driveOutputs
        { s with
          line := { lineAfter s (marksLeft tx cells) rep with courtesyPending := courtesy }
          leases := (ordinaryEffect rep.sender b s.leases).1
          roster := some (afterCommit req r)
          sourceDuty := duty
          timers := { s.timers with silence := ticking s 3 }
          queue := q
          notices := arriveInOrder ((r.commits + 1).setWidth 16)
            ((ordinaryEffect rep.sender b s.leases).2.flatMap (eventNotices s)) s.notices })
      (rep.attempt = some .committed → ends (slots none) true) ∧
      (rep.attempt = some .lost → ends (kept x.attempts) s.line.courtesyPending)) ∧
    (rep.attempt = some .voided → rep.verdict = .void → rep.kindCode ≠ 2 → rep.required = some req →
      s.timers.silence ≠ .expired → (∀ i : Fin 16, r.records[i].miss.val < 2) →
      exec (.frameEnd cells) s = .next (driveOutputs
        { s with
          line := lineAfter s (marksLeft tx cells) rep
          roster := some
            { r with
              records := Vector.ofFn fun i : Fin 16 =>
                if req.contains i then
                  { r.records[i] with
                    miss := if rep.ackMap.getLsbD i.val = false then 0 else r.records[i].miss + 1 }
                else r.records[i] }
          sourceDuty := duty
          queue := kept (x.attempts + 1) })) ∧
    (rep.attempt = some .aborted → rep.verdict = .abandoned → s.timers.silence ≠ .expired →
      exec (.frameEnd cells) s = .next (driveOutputs
        { s with
          line := lineAfter s (marksLeft tx cells) rep
          sourceDuty := duty
          queue := kept (x.attempts + 1) }))

/-- A committed TICK of a MEMBER at a receiver in MEMBER: both counts advance, the misses of the required set are
cleared, every known entry runs the TICK event, the tick timer and the silence timer run afresh, the tick slot is
emptied, TICKOUT goes high, and the notices of the hand-over arrive in order. -/
def Obligations.CommittedTickIsApplied : Prop :=
  ∀ (s : Machine.State) (role : Role) (cells : List LineCell) (r : Roster) (req : List Station),
    s.line.phase = .receiving role → PlainMember s r →
    let rep := frameReport s role none cells
    ReadsCommitted rep r req .tick →
    exec (.frameEnd cells) s = .next (driveOutputs
      { s with
        line := lineAfter s 0 rep
        leases := Vector.ofFn fun l : Fin 64 => (s.leases[l]).map fun e => (tickEntry l e).1
        roster := some
          { r with
            commits := r.commits + 1
            ticks := r.ticks + 1
            records := Vector.ofFn fun i : Fin 16 =>
              if req.contains i then { r.records[i] with miss := 0 } else r.records[i] }
        sourceDuty := (List.finRange 16).find? (fun i : Fin 16 => r.records[i].state = .member) =
          some (stationNumber s)
        timers :=
          { s.timers with
            tick := .running (16000 * 1 * tickPeriodMs s)
            silence := .running (16000 * 3 * tickPeriodMs s) }
        queue := { s.queue with slots := s.queue.slots.set 6 none }
        notices := arriveInOrder ((r.commits + 1).setWidth 16)
          ((List.finRange 64).flatMap fun l : Fin 64 =>
            (s.leases[l]).toList.flatMap fun e => (tickEntry l e).2.flatMap (eventNotices s))
          s.notices
        tickout := some 16 })

/-- A committed ACQUIRE, RELEASE or RENEW of a MEMBER at a receiver in MEMBER: the commit count advances, the misses
of the required set are cleared, the entries named change by R11 to R17 and no other, a RENEW sets the remaining of
each LIVE hold that it names to its term, the silence timer runs afresh, and the notices of the hand-over arrive in
order. -/
def Obligations.CommittedOrdinaryFrameIsApplied : Prop :=
  ∀ (s : Machine.State) (role : Role) (cells : List LineCell) (r : Roster) (req : List Station) (b : FrameBody),
    s.line.phase = .receiving role → PlainMember s r → 6 ≤ (kindCode (bodyKind b)).toNat →
    let rep := frameReport s role none cells
    ReadsCommitted rep r req b →
    let onEntry := fun (l : Lease) (f : LeaseEntry → LeaseEntry × List TableEvent) =>
      match s.leases[l] with
      | none => (s.leases, [])
      | some e => (s.leases.set l (some (f e).1), (f e).2)
    let applied : LeaseTable × List TableEvent :=
      match b with
      | .acquire l c m t p => onEntry l (acquireEntry l { station := rep.sender, client := c } m t p)
      | .release l c => onEntry l (releaseEntry l { station := rep.sender, client := c })
      | .renew entries =>
        (Vector.ofFn fun l : Fin 64 => (s.leases[l]).map fun e =>
            { e with
              holders := e.holders.map fun h =>
                if h.tag.station = rep.sender ∧ h.status = .live ∧ (l, h.tag.client) ∈ entries then
                  { h with remaining := h.term }
                else h },
          [])
      | _ => (s.leases, [])
    exec (.frameEnd cells) s = .next (driveOutputs
      { s with
        line := lineAfter s 0 rep
        leases := applied.1
        roster := some
          { r with
            commits := r.commits + 1
            records := Vector.ofFn fun i : Fin 16 =>
              if req.contains i then { r.records[i] with miss := 0 } else r.records[i] }
        sourceDuty := (List.finRange 16).find? (fun i : Fin 16 => r.records[i].state = .member) =
          some (stationNumber s)
        timers := { s.timers with silence := .running (16000 * 3 * tickPeriodMs s) }
        notices := arriveInOrder ((r.commits + 1).setWidth 16) (applied.2.flatMap (eventNotices s)) s.notices })

/-- A committed FOUND at a seeker that acknowledged it and is a founder: MEMBER, with the founded roster of the
lowest-numbered N dominant stations, every lease FREE, tick and silence timers running and the others stopped. -/
def Obligations.CommittedFoundMakesAMember : Prop :=
  ∀ (s : Machine.State) (role : Role) (cells : List LineCell) (n : Nat), s.resetLow = false →
    s.line.phase = .receiving role → s.localState = .seeking → s.roster = none →
    (∀ c : Client, s.clients[c].recognised = false) → NothingWaits s → s.queue.slots[(7 : Fin 8)] = none →
    let rep := frameReport s role none cells
    rep.verdict = .commit → rep.payload = some (.found n) → rep.acknowledged = true →
    let members := ((List.finRange 16).filter fun i : Fin 16 => rep.ackMap.getLsbD i.val = false).take n
    stationNumber s ∈ members →
    exec (.frameEnd cells) s = .next (driveOutputs
      { s with
        line := lineAfter s 0 rep
        localState := .member
        joinEvidence := true
        leases := Vector.replicate 64 (some { counter := 0, holders := [], waiters := [] })
        roster := some
          { expected := n
            commits := 0
            ticks := 0
            cursor := 0
            records := Vector.ofFn fun i : Fin 16 =>
              if members.contains i then { state := .member, miss := 0, progress := none }
              else { state := .absent, miss := 0, progress := none } }
        sourceDuty := members.head? = some (stationNumber s)
        timers :=
          { tick := .running (16000 * 1 * tickPeriodMs s)
            silence := .running (16000 * 3 * tickPeriodMs s)
            founding := .stopped
            pacing := .stopped
            holdOff := .stopped }
        notices := arrive { stamp := 0, body := .state .member } s.notices })

/-- A JOIN read at a receiver in MEMBER. Committed: a MEMBER record of the sender is purged and reported REMOVED
first; the record becomes JOINING, awaiting the roster, reported JOINED; the cursor starts at 0; the commit count
advances and the misses are cleared; the source duty goes by the members left, and its holder places the SNAP.
Refused: DENIED_FULL is reported, and only counts and timers change. -/
def Obligations.JoinFramesAtAMember : Prop :=
  ∀ (s : Machine.State) (role : Role) (cells : List LineCell) (r : Roster) (req : List Station),
    s.line.phase = .receiving role → PlainMember s r →
    let rep := frameReport s role none cells
    let j := rep.sender
    let own := stationNumber s
    rep.payload = some .join → rep.acknowledged = true → rep.divergence = false → rep.required = some req → j ≠ own →
    let base : Machine.State :=
      { s with line := lineAfter s 0 rep, timers := { s.timers with silence := ticking s 3 } }
    let stamp : BitVec 16 := (r.commits + 1).setWidth 16
    let purged :=
      if r.records[j].state = .member then onEveryEntry (purgeRemoved [j]) s.leases else (s.leases, [])
    let joined : Roster :=
      { r with
        cursor := 0
        records := r.records.set j { state := .joining, miss := 0, progress := some .awaitingRoster } }
    let duty := decide (firstMember joined = some own)
    (rep.verdict = .commit → exec (.frameEnd cells) s = .next (driveOutputs
      { base with
        leases := purged.1
        roster := some (afterCommit req joined)
        sourceDuty := duty
        queue := if duty then
            { s.queue with
              slots := s.queue.slots.set 7 (some
                { content := .snap, age := s.queue.nextAge, attempts := 0, inAttempt := false, opened := false })
              nextAge := s.queue.nextAge + 1 }
          else s.queue
        notices := arriveInOrder stamp
          ((if r.records[j].state = .member then [.roster j .removed, .roster j .joined] else [.roster j .joined]) ++
            purged.2.flatMap (eventNotices s))
          s.notices })) ∧
    (rep.verdict = .refuse → exec (.frameEnd cells) s = .next (driveOutputs
      { base with
        roster := some (afterCommit req r)
        sourceDuty := firstMember r = some own
        notices := arriveInOrder stamp [.roster j .deniedFull] s.notices }))

/-- The frame end of the JOIN that a seeker sent, nothing waiting: committed, it is JOINING, the slot gone, the
silence timer running and the seeker's timers stopped, with the STATE notice; refused, it goes on seeking, the slot
gone, the hold-off running eight periods, with its own DENIED_FULL notice. Its JOIN may have been aborted before, in
its own header too (model choice: log entry 36). -/
def Obligations.JoinAtItsSeeker : Prop :=
  ∀ (s : Machine.State) (role : Role) (tx : Transmission) (cells : List LineCell) (x : Slot), s.resetLow = false →
    s.line.phase = .sending role tx → tx.slot = 7 → s.queue.slots[(7 : Fin 8)] = some x → x.content = .join →
    s.localState = .seeking → s.roster = none → role.localState = .seeking → role.required = none → NothingWaits s →
    let rep := frameReport s role (some tx) cells
    let base : Machine.State :=
      { s with
        line := lineAfter s (marksLeft tx cells) rep
        joinEvidence := true
        sourceDuty := false
        queue := { s.queue with slots := s.queue.slots.set 7 none } }
    rep.payload = some .join ∨ rep.payload = none →
    (rep.attempt = some .committed → rep.verdict = .commit → exec (.frameEnd cells) s = .next (driveOutputs
      { base with
        localState := .joining
        timers :=
          { s.timers with
            silence := ticking s 3
            founding := .stopped
            pacing := .stopped
            holdOff := .stopped }
        notices := arrive { stamp := 0, body := .state .joining } s.notices })) ∧
    (rep.attempt = some .refused → rep.verdict = .refuse → exec (.frameEnd cells) s = .next (driveOutputs
      { base with
        timers := { s.timers with founding := ticking s 6, pacing := .stopped, holdOff := ticking s 8 }
        notices := arrive { stamp := 0, body := .roster (stationNumber s) .deniedFull } s.notices }))

/-- A committed LEAVE of another MEMBER at a receiver in MEMBER: its record becomes ABSENT, its LIVE holders and
waiters go from every entry, ROSTER LEFT and the hand-overs are reported (lease by lease, drops before grants: the
model's choice, log entry 14; R26 gives the order of the grants only), counts and timers as at any commit. The commit
of its own LEAVE takes a station in LEAVING, of which the replica holds no record, to DETACHED: replica unknown, queue
empty, timers stopped, line clients by their claims, the STATE notice last with the count of that commit. -/
def Obligations.LeaveFrames : Prop :=
  (∀ (s : Machine.State) (role : Role) (cells : List LineCell) (r : Roster) (req : List Station),
    s.line.phase = .receiving role → PlainMember s r →
    let rep := frameReport s role none cells
    let j := rep.sender
    ReadsCommitted rep r req .leave → j ≠ stationNumber s →
    let left := onEveryEntry (purgeLeft j) s.leases
    let without : Roster := { r with records := r.records.set j { state := .absent, miss := 0, progress := none } }
    exec (.frameEnd cells) s = .next (driveOutputs
      { s with
        line := lineAfter s 0 rep
        leases := left.1
        roster := some (afterCommit req without)
        sourceDuty := firstMember without = some (stationNumber s)
        timers := { s.timers with silence := ticking s 3 }
        notices := arriveInOrder ((r.commits + 1).setWidth 16)
          (.roster j .left :: left.2.flatMap (eventNotices s)) s.notices })) ∧
  ∀ (s : Machine.State) (role : Role) (tx : Transmission) (cells : List LineCell) (r : Roster) (req : List Station)
      (x : Slot), s.resetLow = false → s.line.phase = .sending role tx → s.localState = .leaving → s.roster = some r →
    s.queue.slots[tx.slot] = some x → x.content = .leave → NothingWaits s →
    (∀ (l : Lease) (e : LeaseEntry), s.leases[l] = some e →
      (∀ h ∈ e.holders, h.tag.station ≠ stationNumber s) ∧ ∀ w ∈ e.waiters, w.tag.station ≠ stationNumber s) →
    let rep := frameReport s role (some tx) cells
    ReadsCommitted rep r req .leave → rep.sender = stationNumber s → rep.attempt = some .committed →
    exec (.frameEnd cells) s = .next (driveOutputs
      { s with
        line := lineAfter s (marksLeft tx cells) rep
        localState := .detached
        leases := Vector.replicate 64 none
        roster := none
        sourceDuty := false
        timers := { tick := .stopped, silence := .stopped, founding := .stopped, pacing := .stopped, holdOff := .stopped }
        queue := { slots := Vector.replicate 8 none, nextAge := 0, needs := Vector.replicate 8 none }
        clients := Vector.ofFn fun c : Client =>
          match s.config.bindings[c] with
          | .port => s.clients[c]
          | .line _ _ _ =>
            { s.clients[c] with
              state := if s.clients[c].recognised then .revoked else .idle
              reclaim := false }
        notices := arrive { stamp := (r.commits + 1).setWidth 16, body := .state .detached } s.notices })

/-- A committed SNAP item of a MEMBER at a receiver in MEMBER: cursor and progress move on, each admitted station is
reported MEMBER, no lease changes, counts and timers as at any commit; the holder of the source duty places the next
SNAP while a record is JOINING. -/
def Obligations.SnapFramesAtAMember : Prop :=
  ∀ (s : Machine.State) (role : Role) (cells : List LineCell) (r : Roster) (req : List Station) (item : SnapItem),
    s.line.phase = .receiving role → MemberAtRest s r →
    let rep := frameReport s role none cells
    ReadsCommitted rep r req (.snap item) →
    let moved := snapProgress (itemNumber item) r
    let duty := decide (firstMember moved = some (stationNumber s))
    exec (.frameEnd cells) s = .next (driveOutputs
      { s with
        line := lineAfter s 0 rep
        roster := some (afterCommit req moved)
        sourceDuty := duty
        timers := { s.timers with silence := ticking s 3 }
        queue := if duty ∧ ∃ i : Fin 16, moved.records[i].state = .joining then
            { s.queue with
              slots := s.queue.slots.set 7 (some
                { content := .snap, age := s.queue.nextAge, attempts := 0, inAttempt := false, opened := false })
              nextAge := s.queue.nextAge + 1 }
          else s.queue
        notices := arriveInOrder ((r.commits + 1).setWidth 16)
          (((List.finRange 16).filter fun i : Fin 16 =>
              r.records[i].state = .joining ∧ moved.records[i].state = .member ∧ i ≠ stationNumber s).map
            fun i => NoticeBody.roster i .member)
          s.notices })

/-- A committed SNAP item at a joiner, nothing waiting and no claim ASSERTED. The roster item at an unknown roster
(whatever its sender, log entry 12): with the own record awaiting the roster it is loaded, as moved on by its own
commit; with the own record ABSENT the station ejects itself as REMOVED, and with any other as DIVERGED. A lease item
of a MEMBER at a known roster makes that entry known; the item that ends the own transfer admits the station: MEMBER,
the tick timer running, the STATE notice. -/
def Obligations.SnapFramesAtAJoiner : Prop :=
  ∀ (s : Machine.State) (role : Role) (cells : List LineCell), s.resetLow = false → s.line.phase = .receiving role →
    role.localState ≠ .standby → role.localState ≠ .detached → s.localState = .joining → NothingWaits s →
    s.queue.slots[(7 : Fin 8)] = none → (∀ c : Client, s.clients[c].recognised = false) →
    let rep := frameReport s role none cells
    let own := stationNumber s
    let base : Machine.State :=
      { s with line := lineAfter s 0 rep, sourceDuty := false, timers := { s.timers with silence := ticking s 3 } }
    (∀ (n : Nat) (commits ticks : BitVec 32) (records : Vector StationRecord 16), s.roster = none →
      rep.verdict = .commit → rep.payload = some (.snap (.roster n commits ticks records)) → rep.acknowledged = true →
      let ejects := fun x => exec (.frameEnd cells) s = .next (driveOutputs (teardown (.trigger x) base))
      let present := (List.finRange 16).filter fun i : Fin 16 => records[i].state ≠ .absent
      let awaits := records[own].state = .joining ∧ records[own].progress = some .awaitingRoster
      (records[own].state = .absent → ejects .removed) ∧
      (records[own].state ≠ .absent → ¬ awaits → ejects .diverged) ∧
      (awaits → exec (.frameEnd cells) s = .next (driveOutputs
        { base with
          roster := some (afterCommit present (snapProgress 0
            { expected := n, commits := commits, ticks := ticks, cursor := 0, records := records })) }))) ∧
    ∀ (r : Roster) (req : List Station) (l : Lease) (e : LeaseEntry), s.roster = some r →
      ReadsCommitted rep r req (.snap (.lease l e)) →
      let moved := snapProgress l.succ r
      let admitted := r.records[own].state = .joining ∧ moved.records[own].state = .member
      let others := ((List.finRange 16).filter fun i : Fin 16 =>
          r.records[i].state = .joining ∧ moved.records[i].state = .member ∧ i ≠ own).map
        fun i => NoticeBody.roster i .member
      let learnt : Machine.State :=
        { base with leases := s.leases.set l (some e), roster := some (afterCommit req moved) }
      let stamp : BitVec 16 := (r.commits + 1).setWidth 16
      let duty := decide (firstMember moved = some own)
      (¬ admitted → exec (.frameEnd cells) s = .next (driveOutputs
        { learnt with notices := arriveInOrder stamp others s.notices })) ∧
      (admitted → exec (.frameEnd cells) s = .next (driveOutputs
        { learnt with
          localState := .member
          sourceDuty := duty
          timers := { base.timers with tick := ticking s 1 }
          queue := if duty ∧ ∃ i : Fin 16, moved.records[i].state = .joining then
              { s.queue with
                slots := s.queue.slots.set 7 (some
                  { content := .snap, age := s.queue.nextAge, attempts := 0, inAttempt := false, opened := false })
                nextAge := s.queue.nextAge + 1 }
            else s.queue
          notices := arriveInOrder stamp (others ++ [.state .member]) s.notices }))

/-- Self-ejections that leave the frame unapplied, at a receiver in JOINING, MEMBER or LEAVING where nothing waits:
TAIL_ERROR at an unreadable tail of a station that was required; DIVERGED at a COMMIT or REFUSE, of any kind but
FOUND, that a required station did not acknowledge; FOREIGN at a committed FOUND. -/
def Obligations.EjectionsWithoutTheFrame : Prop :=
  ∀ (s : Machine.State) (role : Role) (cells : List LineCell), s.resetLow = false →
    s.line.phase = .receiving role → role.localState ≠ .standby → role.localState ≠ .detached →
    s.localState = .joining ∨ s.localState = .member ∨ s.localState = .leaving → NothingWaits s →
    let rep := frameReport s role none cells
    let ejects := fun x => exec (.frameEnd cells) s =
      .next (driveOutputs (teardown (.trigger x) { s with line := lineAfter s 0 rep }))
    (rep.verdict = .unreadable → rep.selfRequired = true → ejects .tailError) ∧
    (rep.verdict = .commit ∨ rep.verdict = .refuse → rep.kindCode ≠ 2 → rep.selfRequired = true →
      rep.acknowledged = false → ejects .diverged) ∧
    (∀ n, rep.verdict = .commit → rep.payload = some (.found n) → ejects .foreign)

/-- Self-ejections of a receiver in MEMBER after its roster and leases have taken the frame: DIVERGED at the commit of
an ordinary frame that it acknowledged with a divergence; FOREIGN at a commit of a sender that is no MEMBER, of which
only a TICK has an effect on ticks and entries; REMOVED at a VOID that removes its own record with others, the leases
left as they are. The notices of the frame stand before those of the teardown. -/
def Obligations.EjectionsAfterTheFrame : Prop :=
  ∀ (s : Machine.State) (role : Role) (cells : List LineCell) (r : Roster) (req : List Station) (b : FrameBody),
    s.line.phase = .receiving role → role.localState ≠ .standby → role.localState ≠ .detached → PlainMember s r →
    let rep := frameReport s role none cells
    let stamp : BitVec 16 := (r.commits + 1).setWidth 16
    let ejects := fun (x : Trigger) (t : Machine.State) =>
      exec (.frameEnd cells) s = .next (driveOutputs (teardown (.trigger x) t))
    rep.required = some req →
    (rep.verdict = .commit → rep.payload = some b → rep.acknowledged = true →
      (rep.divergence = true → r.records[rep.sender].state = .member → 6 ≤ (kindCode (bodyKind b)).toNat →
        ejects .diverged
          { s with
            line := lineAfter s 0 rep
            leases := (ordinaryEffect rep.sender b s.leases).1
            roster := some (afterCommit req r)
            notices := arriveInOrder stamp ((ordinaryEffect rep.sender b s.leases).2.flatMap (eventNotices s)) s.notices }) ∧
      (rep.divergence = false → r.records[rep.sender].state ≠ .member →
        (4 ≤ (kindCode (bodyKind b)).toNat → ejects .foreign
          { s with line := lineAfter s 0 rep, roster := some (afterCommit req r) }) ∧
        (b = .tick → ejects .foreign
          { s with
            line := lineAfter s 0 rep
            leases := (onEveryEntry tickEntry s.leases).1
            roster := some (afterCommit req { r with ticks := r.ticks + 1 })
            notices := arriveInOrder stamp ((onEveryEntry tickEntry s.leases).2.flatMap (eventNotices s)) s.notices
            tickout := some 16 }))) ∧
    (rep.verdict = .void → rep.kindCode ≠ 2 →
      let counted := fun i : Fin 16 =>
        if req.contains i then
          { r.records[i] with
            miss :=
              if rep.ackMap.getLsbD i.val = false then 0 else if r.records[i].miss = 3 then 3 else r.records[i].miss + 1 }
        else r.records[i]
      let members := (List.finRange 16).filter fun i : Fin 16 => r.records[i].state = .member
      let late := members.filter fun i => (counted i).miss = 3
      let removed := if r.expected / 2 + 1 + late.length ≤ members.length then late else []
      stationNumber s ∈ removed → ejects .removed
        { s with
          line := lineAfter s 0 rep
          roster := some
            { r with
              records := Vector.ofFn fun i : Fin 16 =>
                if removed.contains i then { state := .absent, miss := 0, progress := none } else counted i }
          notices := arriveInOrder (r.commits.setWidth 16)
            ((removed.filter fun i => i ≠ stationNumber s).map fun i => .roster i .removed) s.notices })

/-- A VOID at a receiver in MEMBER that is not itself removed: the miss counts of the required set follow the ack map;
the members at 3 are removed together if the quorum is left: in every known entry their LIVE holders become FENCED
with count 4 in their places and their waiters go, and an entry that this changes is advanced, with ROSTER notices,
the hand-overs and a fresh tick timer; else no record is removed. -/
def Obligations.VoidIsAccounted : Prop :=
  ∀ (s : Machine.State) (role : Role) (cells : List LineCell) (r : Roster) (req : List Station),
    s.line.phase = .receiving role → role.localState ≠ .standby → role.localState ≠ .detached → PlainMember s r →
    s.timers.silence ≠ .expired →
    let rep := frameReport s role none cells
    rep.verdict = .void → rep.kindCode ≠ 2 → rep.required = some req →
    let counted := fun i : Fin 16 =>
      if req.contains i then
        { r.records[i] with
          miss :=
            if rep.ackMap.getLsbD i.val = false then 0 else if r.records[i].miss = 3 then 3 else r.records[i].miss + 1 }
      else r.records[i]
    let members : List Station := (List.finRange 16).filter fun i : Fin 16 => r.records[i].state = .member
    let late : List Station := members.filter fun i => (counted i).miss = 3
    let removed : List Station := if r.expected / 2 + 1 + late.length ≤ members.length then late else []
    stationNumber s ∉ removed →
    let purge := fun (l : Fin 64) (e : LeaseEntry) =>
      let holders := e.holders.map fun h : Holder =>
        if h.status = .live ∧ h.tag.station ∈ removed then { h with status := .fenced, remaining := 4 } else h
      let waiters := e.waiters.filter fun w : Waiter => w.tag.station ∉ removed
      if holders = e.holders ∧ waiters = e.waiters then (e, [])
      else advance l { e with holders := holders, waiters := waiters }
    exec (.frameEnd cells) s = .next (driveOutputs
      { s with
        line := lineAfter s 0 rep
        leases := if removed = [] then s.leases
          else Vector.ofFn fun l : Fin 64 => (s.leases[l]).map fun e => (purge l e).1
        roster := some
          { r with
            records := Vector.ofFn fun i : Fin 16 =>
              if removed.contains i then { state := .absent, miss := 0, progress := none } else counted i }
        sourceDuty := (List.finRange 16).find?
            (fun i : Fin 16 => r.records[i].state = .member && !removed.contains i) = some (stationNumber s)
        timers := if removed = [] then s.timers
          else { s.timers with tick := .running (16000 * 1 * tickPeriodMs s) }
        queue := if removed = [] then s.queue else { s.queue with slots := s.queue.slots.set 6 none }
        notices := arriveInOrder (r.commits.setWidth 16)
          (removed.map (fun i => .roster i .removed) ++
            if removed = [] then []
            else (List.finRange 64).flatMap fun l : Fin 64 =>
              (s.leases[l]).toList.flatMap fun e => (purge l e).2.flatMap (eventNotices s))
          s.notices })

/-- The source duty is held in MEMBER and LEAVING by the lowest MEMBER of the roster; its holder places the SNAP in an
empty membership slot while a record is JOINING; without the duty a SNAP is dropped. The founding test places FOUND,
and the join test JOIN, by the conditions of a seeker. In LEAVING the handshake looks, by ascending lease and client,
at each own tag that is a LIVE holder or a waiter, and places a RELEASE for it where the queue holds none and a slot
is free; then, once the replica holds no own record, FENCED ones among them, no ACQUIRE or RELEASE slot and no need is
left, and the membership slot is empty or holds a SNAP not in attempt, it places LEAVE. In every other state it does
nothing. -/
def Obligations.PlacingAtAFrameEnd : Prop :=
  (∀ s : Machine.State,
     let duty := (∃ r, s.roster = some r ∧ firstMember r = some (stationNumber s)) ∧
       (s.localState = .member ∨ s.localState = .leaving)
     let joining := ∃ (r : Roster) (i : Fin 16), s.roster = some r ∧ r.records[i].state = .joining
     let snap := ∃ x, s.queue.slots[(7 : Fin 8)] = some x ∧ x.content = .snap
     let placed := fun c : SlotContent =>
       { s.queue with
         slots := s.queue.slots.set 7 (some
           { content := c, age := s.queue.nextAge, attempts := 0, inAttempt := false, opened := false })
         nextAge := s.queue.nextAge + 1 }
     let founds := s.localState = .seeking ∧ s.timers.founding = .expired ∧ (∀ m, s.timers.pacing ≠ .running m) ∧
       MembershipOpen s.queue .join
     let joins := s.localState = .seeking ∧ s.joinEvidence = true ∧ (∃ m, s.timers.founding = .running m) ∧
       (∀ m, s.timers.holdOff ≠ .running m) ∧ MembershipOpen s.queue .found
     (duty → joining → s.queue.slots[(7 : Fin 8)] = none →
       transferUnit s = { s with sourceDuty := true, queue := placed .snap }) ∧
     (duty → ¬ joining ∨ s.queue.slots[(7 : Fin 8)] ≠ none → transferUnit s = { s with sourceDuty := true }) ∧
     (¬ duty → snap → transferUnit s =
       { s with sourceDuty := false, queue := { s.queue with slots := s.queue.slots.set 7 none } }) ∧
     (¬ duty → ¬ snap → transferUnit s = { s with sourceDuty := false }) ∧
     (founds → foundingTest s = { s with queue := placed .found }) ∧ (¬ founds → foundingTest s = s) ∧
     (joins → joinTest s = { s with queue := placed .join }) ∧ (¬ joins → joinTest s = s)) ∧
  ((∀ s : Machine.State,
     (s.localState ≠ .leaving → leaveHandshake s = s) ∧
     (s.localState = .leaving →
       let pairs := (List.finRange 64).flatMap fun l : Fin 64 =>
         match s.leases[l] with
         | none => []
         | some e => ((List.finRange 8).filter fun c : Fin 8 =>
             (e.holders.any fun h => h.tag = ownTag s c && h.status = .live) ||
               (e.waiters.any fun w => w.tag = ownTag s c)).map fun c => (l, c)
       let t := pairs.foldl handshakeRelease s
       let done := (∀ (l : Lease) (e : LeaseEntry), t.leases[l] = some e →
           (∀ h ∈ e.holders, h.tag.station ≠ stationNumber t) ∧ ∀ w ∈ e.waiters, w.tag.station ≠ stationNumber t) ∧
         (∀ (k : Fin 8) (x : Slot), k.val < 6 → t.queue.slots[k] = some x →
           x.content.isAcquire = false ∧ x.content.isRelease = false) ∧
         (∀ c : Client, t.queue.needs[c] = none) ∧ MembershipOpen t.queue .snap
       (¬ done → leaveHandshake s = t) ∧
       (done → leaveHandshake s =
         { t with
           queue :=
             { t.queue with
               slots := t.queue.slots.set 7 (some
                 { content := .leave, age := t.queue.nextAge, attempts := 0, inAttempt := false, opened := false })
               nextAge := t.queue.nextAge + 1 } }))) ∧
   ∀ (s : Machine.State) (l : Lease) (c : Client),
     ((∃ (k : Fin 8) (x : Slot), k.val < 6 ∧ s.queue.slots[k] = some x ∧ x.content = .release l c) ∨ NoneFree s.queue →
       handshakeRelease s (l, c) = s) ∧
     ∀ k : Fin 8, LowestFree s.queue k →
       (∀ (j : Fin 8) (x : Slot), j.val < 6 → s.queue.slots[j] = some x → x.content ≠ .release l c) →
       (PairAbsent s.queue l c ∧ TagIn s l (ownTag s c) ∨
         ∃ (j : Fin 8) (x : Slot), j.val < 6 ∧ s.queue.slots[j] = some x ∧ x.content.isAcquireFor l c = true ∧
           x.inAttempt = true ∧
           ∀ (i : Fin 8) (y : Slot), i.val < j.val → s.queue.slots[i] = some y → y.content.isAcquireFor l c = false) →
       handshakeRelease s (l, c) =
         { s with
           queue :=
             { s.queue with
               slots := s.queue.slots.set k (some
                 { content := .release l c, age := s.queue.nextAge, attempts := 0, inAttempt := false, opened := false })
               nextAge := s.queue.nextAge + 1 } })

/-! ### Roster and lease table -/

/-- A JOIN commit makes the sender's record JOINING, awaiting the roster, and starts a transfer afresh where no other
record is JOINING; a SNAP commit of item i moves the cursor on, and each JOINING record from awaiting to 64 at item 0,
by one at a lease item, and from 1 to MEMBER. -/
def Obligations.JoinAndSnapChangeTheRecords : Prop :=
  ∀ (r : Roster) (j : Station) (item : Fin 65),
    joinRecord j r =
      { r with
        cursor := if ∃ i : Fin 16, i ≠ j ∧ r.records[i].state = .joining then r.cursor else 0
        records := r.records.set j { state := .joining, miss := 0, progress := some .awaitingRoster } } ∧
    (snapProgress item r).cursor.val = (item.val + 1) % 65 ∧
    (snapProgress item r).expected = r.expected ∧ (snapProgress item r).commits = r.commits ∧
    (snapProgress item r).ticks = r.ticks ∧
    ∀ i : Fin 16,
      let x := r.records[i]
      let y := (snapProgress item r).records[i]
      (x.state ≠ .joining → y = x) ∧
      (x.state = .joining → x.progress = some .awaitingRoster →
        y = if item = 0 then { x with progress := some (.remaining 64) } else x) ∧
      ∀ n : Nat, x.state = .joining → x.progress = some (.remaining n) → 1 ≤ n →
        y = if item = 0 then x
          else if n = 1 then { state := .member, miss := 0, progress := none }
          else { x with progress := some (.remaining (n - 1)) }

/-- A committed ACQUIRE against its entry: DUPLICATE, granted at once, BUSY, QUEUE_FULL or appended, the first that
applies; a denial leaves the entry as it is. -/
def Obligations.AcquireOutcomes : Prop :=
  ∀ (l : Lease) (tag : Tag) (m : Mode) (t p : Nat) (e : LeaseEntry),
    let present := (∃ h ∈ e.holders, h.tag = tag) ∨ ∃ w ∈ e.waiters, w.tag = tag
    let fits := e.holders = [] ∨ m = .shared ∧ (∀ h ∈ e.holders, h.mode = .shared) ∧ e.holders.length < 4
    let number : BitVec 16 := if e.counter = 0xFFFF then 1 else e.counter + 1
    (present → acquireEntry l tag m t p e = (e, [.deniedDuplicate l tag])) ∧
    (¬ present → e.waiters = [] → fits →
      acquireEntry l tag m t p e =
        ({ e with
            counter := number
            holders := e.holders ++
              [{ tag := tag, mode := m, status := .live, term := t, remaining := t, grant := number }] },
          [.granted l tag number (e.holders.length + 1)])) ∧
    (¬ present → ¬ (e.waiters = [] ∧ fits) →
      (p = 0 → acquireEntry l tag m t p e = (e, [.deniedBusy l tag])) ∧
      (p ≠ 0 → 8 ≤ e.waiters.length → acquireEntry l tag m t p e = (e, [.deniedQueueFull l tag])) ∧
      (p ≠ 0 → e.waiters.length < 8 →
        acquireEntry l tag m t p e =
          ({ e with
              waiters := e.waiters ++
                [{ tag := tag, mode := m, term := t, patience := if p = 255 then .unlimited else .ticks p }] },
            [.queued l tag (e.waiters.length + 1)])))

/-- The advance procedure: an empty queue or a head that does not fit ends it; a head that fits is granted with the
next grant number, which is never 0, and the procedure goes on with the next. -/
def Obligations.AdvanceGrantsFromTheHead : Prop :=
  ∀ (l : Lease) (e : LeaseEntry),
    (e.waiters = [] → advance l e = (e, [])) ∧
    ∀ (w : Waiter) (rest : List Waiter), e.waiters = w :: rest →
      let fits := e.holders = [] ∨
        w.mode = .shared ∧ (∀ h ∈ e.holders, h.mode = .shared) ∧ e.holders.length < 4
      let number : BitVec 16 := if e.counter = 0xFFFF then 1 else e.counter + 1
      number ≠ 0 ∧ (¬ fits → advance l e = (e, [])) ∧
      (fits →
        let out := advance l
          { counter := number
            holders := e.holders ++
              [{ tag := w.tag, mode := w.mode, status := .live, term := w.term, remaining := w.term, grant := number }]
            waiters := rest }
        advance l e = (out.1, .granted l w.tag number (e.holders.length + 1) :: out.2))

/-- A committed RELEASE removes the LIVE holder, or else the waiter, of its tag, and the advance follows; a RENEW sets
the remaining of a LIVE holder to its term; neither changes an entry without such a record. The removal of stations
from an entry: their LIVE holders are FENCED with count 4 in their places, FENCED records stay as they are, their
waiters go, and the advance runs; the leaving of a station: its LIVE holders and its waiters go, FENCED records stay,
and the advance runs after the holder-set changes are reported, each with the count of holders left (that they come
before the grants is the model's choice, log entry 14; R26 gives the order of the grants only). An entry with no such
record is left as it is and not advanced. -/
def Obligations.ReleaseRenewAndPurgeOutcomes : Prop :=
  (∀ (l : Lease) (tag : Tag) (e : LeaseEntry),
     (∀ (front back : List Holder) (h : Holder), e.holders = front ++ h :: back → h.tag = tag → h.status = .live →
       (∀ g ∈ front, g.tag ≠ tag) → (∀ g ∈ back, g.tag ≠ tag) →
       let out := advance l { e with holders := front ++ back }
       releaseEntry l tag e =
         (out.1, .released l tag h.grant (front.length + back.length) :: out.2) ∧
       renewEntry tag e = { e with holders := front ++ { h with remaining := h.term } :: back }) ∧
     ((∀ h ∈ e.holders, h.tag = tag → h.status = .fenced) →
       renewEntry tag e = e ∧
       (∀ (front back : List Waiter) (w : Waiter), e.waiters = front ++ w :: back → w.tag = tag →
         (∀ v ∈ front, v.tag ≠ tag) →
         let out := advance l { e with waiters := front ++ back }
         releaseEntry l tag e = (out.1, .withdrawn l tag :: out.2)) ∧
       ((∀ w ∈ e.waiters, w.tag ≠ tag) → releaseEntry l tag e = (e, [])))) ∧
  (∀ (l : Lease) (e : LeaseEntry),
     (∀ stations : List Station,
       let holders := e.holders.map fun h : Holder =>
         if h.status = .live ∧ h.tag.station ∈ stations then { h with status := .fenced, remaining := 4 } else h
       let waiters := e.waiters.filter fun w : Waiter => w.tag.station ∉ stations
       (holders = e.holders → waiters = e.waiters → removalPurge stations l e = (e, [])) ∧
       (holders ≠ e.holders ∨ waiters ≠ e.waiters →
         removalPurge stations l e = advance l { e with holders := holders, waiters := waiters })) ∧
     ∀ j : Station,
       let gone := e.holders.filter fun h => h.status = .live ∧ h.tag.station = j
       let holders := e.holders.filter fun h => h.status = .fenced ∨ h.tag.station ≠ j
       let waiters := e.waiters.filter fun w : Waiter => w.tag.station ≠ j
       (gone = [] → waiters = e.waiters → leavePurge j l e = (e, [])) ∧
       (gone ≠ [] ∨ waiters ≠ e.waiters →
         let out := advance l { e with holders := holders, waiters := waiters }
         ∃ left : List TableEvent, leavePurge j l e = (out.1, left ++ out.2) ∧ left.length = gone.length ∧
           ∀ (i : Nat) (h : Holder), gone[i]? = some h →
             left[i]? = some (.leftWithStation l h.tag h.grant (e.holders.length - (i + 1)))))

/-- The TICK event of one entry: every record counts down, then the holders and waiters at 0 go, then the advance
runs; the results come in this order, and an entry in which nothing reaches 0 is not advanced. -/
def Obligations.TickCountsDown : Prop :=
  ∀ (l : Lease) (e : LeaseEntry),
    let holders := e.holders.map fun h => { h with remaining := h.remaining - 1 }
    let waiters := e.waiters.map fun w =>
      match w.patience with
      | .unlimited => w
      | .ticks n => { w with patience := .ticks (n - 1) }
    let gone := holders.filter fun h => h.remaining = 0
    let late := waiters.filter fun w => w.patience = .ticks 0
    (gone = [] → late = [] → tickEntry l e = ({ e with holders := holders, waiters := waiters }, [])) ∧
    (gone ≠ [] ∨ late ≠ [] →
      let out := advance l
        { e with
          holders := holders.filter fun h => h.remaining ≠ 0
          waiters := waiters.filter fun w => w.patience ≠ .ticks 0 }
      ∃ ended : List TableEvent,
        tickEntry l e = (out.1, ended ++ late.map (fun w => .timedOut l w.tag) ++ out.2) ∧
        ended.length = gone.length ∧
        ∀ (i : Nat) (h : Holder), gone[i]? = some h →
          ended[i]? = some
            (if h.status = .live then .expired l h.tag h.grant (holders.length - (i + 1))
            else .fenceEnded l h.tag h.grant (holders.length - (i + 1))))

/-- A hand-over of the lease table: a result of an own tag is its notice (a grant in LEAVING also REVOKED), a holder-
set change of another station is a WATCH notice while the lease is watched in MEMBER or LEAVING, and so is the end of
an own fence; own records leaving with their station and other results of other stations bring none. Then the client
unit takes a result of an own tag on the lease its client is bound to: ASKING and WAITING go to HOLDING at a grant,
ASKING to WAITING when queued and to REFUSED at DUPLICATE or QUEUE_FULL, HOLDING to REVOKED at an expiry, and every
other state stays. -/
def Obligations.ResultsAreHandedOver : Prop :=
  ∀ (s : Machine.State) (l : Lease) (tag : Tag) (g : BitVec 16) (n p : Nat),
    let c := tag.client
    let own := tag.station = stationNumber s
    let watched := fun b : NoticeBody =>
      if s.config.watch.getLsbD l.val = true ∧ (s.localState = .member ∨ s.localState = .leaving) then [b] else []
    let added := watched (.watch l tag g true n)
    let gone := watched (.watch l tag g false n)
    let tells := fun (ev : TableEvent) (bs : List NoticeBody) => eventNotices s ev = bs
    (own →
      tells (.granted l tag g n)
        (.granted l c g :: if s.localState = .leaving then [.revoked l c g .leaving] else []) ∧
      tells (.queued l tag p) [.queued l c p] ∧ tells (.deniedDuplicate l tag) [.denied l c .duplicate] ∧
      tells (.deniedBusy l tag) [.denied l c .busy] ∧ tells (.deniedQueueFull l tag) [.denied l c .queueFull] ∧
      tells (.released l tag g n) [.released l c g] ∧ tells (.withdrawn l tag) [.withdrawn l c .committed] ∧
      tells (.expired l tag g n) [.expired l c g] ∧ tells (.timedOut l tag) [.timedOut l c] ∧
      tells (.fenceEnded l tag g n) gone ∧ tells (.leftWithStation l tag g n) []) ∧
    (¬ own →
      tells (.granted l tag g n) added ∧ tells (.released l tag g n) gone ∧ tells (.expired l tag g n) gone ∧
      tells (.fenceEnded l tag g n) gone ∧ tells (.leftWithStation l tag g n) gone ∧ tells (.queued l tag p) [] ∧
      tells (.deniedDuplicate l tag) [] ∧ tells (.deniedBusy l tag) [] ∧ tells (.deniedQueueFull l tag) [] ∧
      tells (.withdrawn l tag) [] ∧ tells (.timedOut l tag) []) ∧
    ∀ ev : TableEvent, ev.lease = l → ev.tag = tag →
      handOver s ev = takeResult ev
        { s with notices := arriveInOrder (commitStamp s) (eventNotices s ev) s.notices } ∧
      (¬ own ∨ (∀ m t, s.config.bindings[c] ≠ .line l m t) → takeResult ev s = s) ∧
      ∀ m t, own → s.config.bindings[c] = .line l m t → takeResult ev s =
        { s with
          clients := s.clients.set c
            { s.clients[c] with
              state :=
                match s.clients[c].state, ev with
                | .asking, .granted _ _ _ _ => .holding
                | .asking, .queued _ _ _ => .waiting
                | .asking, .deniedDuplicate _ _ => .refused
                | .asking, .deniedQueueFull _ _ => .refused
                | .waiting, .granted _ _ _ _ => .holding
                | .holding, .expired _ _ _ _ => .revoked
                | x, _ => x } }

/-! ### Formats -/

/-- The payload of each kind byte by byte, by the tables of R190. A payload is read from bytes exactly where it is of
the header's kind, its fields are in range (BodyInRange), the bytes are as many as the layout has for it, and they are
its bytes in every bit but the don't-care bits (examinedBits): nothing else is read, so a FOUND of 0 or 17, an odd or
empty RENEW, an ACQUIRE of term 0 or a SNAP field out of range is not. A payload in range takes 64 bytes at most and
is read back from its own; the whole frame that carries it, read as sent, passes the reception checks with that
payload. The CRC starts at all ones and takes the bits most significant first: each shifts the register left, and
where its top bit differs from the bit the polynomial 0x1021 is added. Over data and its own two bytes it comes to 0. -/
def Obligations.PayloadsReadBack : Prop :=
  (let tagged := fun (t : Tag) (m : Mode) =>
     BitVec.ofNat 4 t.station.val ++ (if m = .shared then 1#1 else 0#1) ++ BitVec.ofNat 3 t.client.val
   payloadBytes .tick = [] ∧ payloadBytes .join = [] ∧ payloadBytes .leave = [] ∧
   (∀ n, payloadBytes (.found n) = [BitVec.ofNat 8 n]) ∧
   (∀ l c, payloadBytes (.release l c) = [BitVec.ofNat 8 l.val, BitVec.ofNat 8 c.val]) ∧
   (∀ entries, payloadBytes (.renew entries) =
     entries.flatMap fun x => [BitVec.ofNat 8 x.1.val, BitVec.ofNat 8 x.2.val]) ∧
   (∀ l c m term patience, payloadBytes (.acquire l c m term patience) =
     [BitVec.ofNat 8 l.val, (if m = .shared then 1#1 else 0#1) ++ 0#4 ++ BitVec.ofNat 3 c.val,
       BitVec.ofNat 8 term, BitVec.ofNat 8 patience]) ∧
   (∀ (n : Nat) (commits ticks : BitVec 32) (records : Vector StationRecord 16),
     payloadBytes (.snap (.roster n commits ticks records)) =
       [0x00, BitVec.ofNat 8 n] ++
         [commits.extractLsb' 24 8, commits.extractLsb' 16 8, commits.extractLsb' 8 8, commits.extractLsb' 0 8] ++
         [ticks.extractLsb' 24 8, ticks.extractLsb' 16 8, ticks.extractLsb' 8 8, ticks.extractLsb' 0 8] ++
         ((List.finRange 16).flatMap fun i : Fin 16 =>
           [(match records[i].state with
             | .absent => 0b00#2
             | .joining => 0b01#2
             | .member => 0b10#2) ++ 0#4 ++ BitVec.ofNat 2 records[i].miss.val,
             (match records[i].progress with
              | none => 0x00
              | some .awaitingRoster => 0x80
              | some (.remaining r) => BitVec.ofNat 8 r)])) ∧
   ∀ (l : Lease) (e : LeaseEntry),
     payloadBytes (.snap (.lease l e)) =
       [BitVec.ofNat 8 (l.val + 1), e.counter.extractLsb' 8 8, e.counter.extractLsb' 0 8,
           BitVec.ofNat 4 e.holders.length ++ BitVec.ofNat 4 e.waiters.length] ++
         (e.holders.flatMap fun h =>
           [tagged h.tag h.mode, if h.status = .fenced then 0x01 else 0x00, BitVec.ofNat 8 h.term,
             BitVec.ofNat 8 h.remaining, h.grant.extractLsb' 8 8, h.grant.extractLsb' 0 8]) ++
         (e.waiters.flatMap fun w =>
           [tagged w.tag w.mode, BitVec.ofNat 8 w.term,
             (match w.patience with
              | .ticks n => BitVec.ofNat 8 n
              | .unlimited => 0xFF)])) ∧
  (∀ (k : FrameKind) (bytes : List Byte) (b : FrameBody),
    readPayload k bytes = some b ↔
      bodyKind b = k ∧ BodyInRange b ∧ bytes.length = (payloadBytes b).length ∧
        List.zipWith (· &&& ·) bytes (examinedBits b) = payloadBytes b) ∧
  (∀ b : FrameBody, BodyInRange b →
    readPayload (bodyKind b) (payloadBytes b) = some b ∧ (payloadBytes b).length ≤ 64 ∧
    ∀ (i : Station) (check : Byte) (tail : List LineCell),
      let cells := (frameBytes i check b).map (fun d => { markDominant := true, data := d : LineCell }) ++ tail
      receptionWhole cells = true ∧ payloadRead cells = some b ∧ kindCodeRead cells = kindCode (bodyKind b) ∧
        senderRead cells = i) ∧
  (∀ (register : BitVec 16) (bit : Bool),
    crcBit register bit =
      if register.getLsbD 15 = bit then register <<< 1 else (register <<< 1) ^^^ 0x1021) ∧
  crc16 [] = 0xFFFF ∧
  ∀ (bytes : List Byte) (d : Byte),
    crc16 (bytes ++ [d]) = (([7, 6, 5, 4, 3, 2, 1, 0].map fun i => d.getLsbD i).foldl crcBit (crc16 bytes)) ∧
    crc16 (bytes ++ [(crc16 bytes).extractLsb' 8 8, (crc16 bytes).extractLsb' 0 8]) = 0

/-- The bytes of each port request: its code and its argument bytes in the order of R191, in the watch mask lease 63
at bit 7 of the first byte and lease 0 at bit 0 of the last, and each of the other 242 codes an unknown request. Bytes
are read as a request exactly where the request is well-formed and they are the bytes it is written as, with every
argument at every value; fewer bytes, or more, are read as none. -/
def Obligations.RequestBytesSpellTheRequest : Prop :=
  requestOfBytes [0x01] = some .status ∧
  (∀ client binding lease term : Byte,
    requestOfBytes [0x10, client, binding, lease, term] = some (.configureClient client binding lease term)) ∧
  (∀ b7 b6 b5 b4 b3 b2 b1 b0 : Byte, ∃ mask : BitVec 64,
    requestOfBytes [0x11, b7, b6, b5, b4, b3, b2, b1, b0] = some (.configureWatch mask) ∧
    ∀ i : Nat, i < 8 →
      mask.getLsbD (56 + i) = b7.getLsbD i ∧ mask.getLsbD (48 + i) = b6.getLsbD i ∧
      mask.getLsbD (40 + i) = b5.getLsbD i ∧ mask.getLsbD (32 + i) = b4.getLsbD i ∧
      mask.getLsbD (24 + i) = b3.getLsbD i ∧ mask.getLsbD (16 + i) = b2.getLsbD i ∧
      mask.getLsbD (8 + i) = b1.getLsbD i ∧ mask.getLsbD i = b0.getLsbD i) ∧
  (∀ autoRejoin : Byte, requestOfBytes [0x12, autoRejoin] = some (.configureOptions autoRejoin)) ∧
  requestOfBytes [0x13] = some .start ∧
  (∀ lease clientMode term patience : Byte,
    requestOfBytes [0x20, lease, clientMode, term, patience] = some (.acquire lease clientMode term patience)) ∧
  (∀ lease client : Byte, requestOfBytes [0x21, lease, client] = some (.release lease client)) ∧
  (∀ lease client : Byte, requestOfBytes [0x22, lease, client] = some (.renew lease client)) ∧
  (∀ index : Byte, requestOfBytes [0x30, index] = some (.readLease index)) ∧
  requestOfBytes [0x31] = some .readRoster ∧ requestOfBytes [0x32] = some .takeNotice ∧
  requestOfBytes [0x40] = some .leave ∧ requestOfBytes [0x41] = some .rejoin ∧ requestOfBytes [0x4F] = some .reset ∧
  (∀ code : Byte,
    code ∉ ([0x01, 0x10, 0x11, 0x12, 0x13, 0x20, 0x21, 0x22, 0x30, 0x31, 0x32, 0x40, 0x41, 0x4F] : List Byte) →
      requestOfBytes [code] = some (.unknownRequest code)) ∧
  ∀ (i : Instr) (bytes : List Byte),
    requestOfBytes bytes = some i ↔ i.wellFormed = true ∧ bytesOfRequest i = some bytes

/-! ### What every step keeps -/

/-- Every step keeps the replica in order: each entry in its ranges and limits, waiters only behind a head that does
not fit, each record with only the fields its state allows, roster and all 64 entries known in MEMBER and LEAVING and
none known in STANDBY, SEEKING and DETACHED. It rests on the roster not changing during a frame, kept by every step of
itself, on the own progress of a joiner covering its unknown entries, and on one premise about the line: a joiner
reads each lease item once. -/
def Obligations.StepKeepsTheReplica : Prop :=
  ∀ s t : Machine.State, EntriesLegal s → HeadsBlocked s → RecordsLegal s → ReplicaPlaced s → TransferCovers s →
    FrameAgrees s → NextItemIsNew s → step s = .next t →
    EntriesLegal t ∧ HeadsBlocked t ∧ RecordsLegal t ∧ ReplicaPlaced t ∧ TransferCovers t

/-- Every step keeps the notification queue at 32 records at most, an OVERFLOW record only as its newest. -/
def Obligations.StepKeepsTheNoticeQueue : Prop :=
  ∀ s t : Machine.State, NoticesLegal s.notices → step s = .next t → NoticesLegal t.notices

/-- A notice arrives by the table of the notification queue: at the tail, as an OVERFLOW record with its own stamp, or
counted with the stamp unchanged; and the queue then holds at most 32 records, an OVERFLOW record only as its newest. -/
def Obligations.NoticeArrives : Prop :=
  ∀ (n : Notice) (q : List Notice),
    ((∀ m ∈ q, m.isOverflow = false) → q.length < 31 → arrive n q = q ++ [n]) ∧
    ((∀ m ∈ q, m.isOverflow = false) → q.length = 31 →
      arrive n q = q ++ [{ stamp := n.stamp, body := .overflow 1 }]) ∧
    (NoticesLegal q → n.isOverflow = false → NoticesLegal (arrive n q) ∧ (arrive n q).length ≤ 32) ∧
    ∀ (front : List Notice) (stamp : BitVec 16) (count : Nat), (∀ m ∈ front, m.isOverflow = false) →
      arrive n (front ++ [{ stamp := stamp, body := .overflow count }]) =
        front ++ [{ stamp := stamp, body := .overflow (if count + 1 < 255 then count + 1 else 255) }]

/-- Every step keeps the law of the outbound queue: at most one ACQUIRE and one RELEASE of a pair, both only while the
ACQUIRE is in attempt. -/
def Obligations.StepKeepsTheQueueLaw : Prop :=
  ∀ s t : Machine.State, QueueLegal s.queue → step s = .next t → QueueLegal t.queue

/-- While a frame is on the line the roster does not change: the required set and the commit count fixed at its start
bit are those of the roster, after every step. -/
def Obligations.StepKeepsTheFrameInAgreement : Prop :=
  ∀ s t : Machine.State, FrameAgrees s → step s = .next t → FrameAgrees t

/-- Every step leaves the GRANT lines, SYNC and NOTICE at the levels their conditions give. -/
def Obligations.StepKeepsTheOutputs : Prop :=
  ∀ s t : Machine.State, OutputsSettled s → step s = .next t → OutputsSettled t

/-- All these hold of the state after reset. -/
def Obligations.ResetIsInOrder : Prop :=
  EntriesLegal State.reset ∧ HeadsBlocked State.reset ∧ RecordsLegal State.reset ∧ ReplicaPlaced State.reset ∧
    TransferCovers State.reset ∧ NextItemIsNew State.reset ∧ NoticesLegal State.reset.notices ∧
    QueueLegal State.reset.queue ∧ FrameAgrees State.reset ∧ OutputsSettled State.reset
end

