-- ==== Sys2Proof/Laws/Clock.lean ====
section
/-! SUPPORT. The timed events of the clock (log entries 3, 4 and 25). -/

namespace Sys2Proof.Machine

/-- A bit is an own mark of an aborted frame (R90). -/
theorem drivesMark_iff (s : State) : drivesMark s = true ↔ s.line.markBits ≠ 0 ∧ s.line.markBits % 9 = 0 := by
  unfold drivesMark
  rw [Bool.and_eq_true]
  exact and_congr decide_eq_true_iff decide_eq_true_iff

/-- A bit is dominant: an own mark, or driven by another station (R86, R90). -/
theorem lineDominant_iff (s : State) : lineDominant s = true ↔
    s.line.markBits ≠ 0 ∧ s.line.markBits % 9 = 0 ∨ s.lineInput.head? = some true := by
  unfold lineDominant othersDominant
  rw [Bool.or_eq_true, drivesMark_iff, decide_eq_true_iff]

/-- The line between frames at an edge. -/
theorem inputAtEdge_eq (levels : List Bool) :
    inputAtEdge levels = if levels.head? = some true then levels else true :: levels := by
  match levels with
  | [] | true :: _ | false :: _ => rfl

/-- The line between frames after a start bit. -/
theorem inputAfterStart_eq (levels : List Bool) :
    inputAfterStart levels = if levels.head? = some true then levels.tail else levels := by
  match levels with
  | [] | true :: _ | false :: _ => rfl

/-- The start bit of another station is due (R88). -/
theorem dueEdge_some (s : State) (h1 : s.lineInput.head? = some true) (h2 : 10 ≤ s.line.gapBits) :
    dueEdge s = some .frameStartBit := by
  unfold dueEdge othersDominant
  rw [h1]
  simp [Config.startGapBits, h2]

/-- No start bit of another station is due (R88). -/
theorem dueEdge_none (s : State) (h : ¬ (s.lineInput.head? = some true ∧ 10 ≤ s.line.gapBits)) : dueEdge s = none := by
  unfold dueEdge othersDominant
  rw [if_neg]
  simp only [Config.startGapBits, Bool.and_eq_true, decide_eq_true_eq]
  exact fun hh => h ⟨hh.1, of_decide_eq_true hh.2⟩

/-- What one cycle does to the line engine and the line between frames (R86, R88, R92). -/
theorem cycleGap_eq (s : State) :
    let inFrame := s.line.phase ≠ .counting ∧ s.line.phase ≠ .idle
    let bitPasses := ¬ inFrame ∧ ¬ s.line.bitCycles + 1 < cyclesPerBit s
    let dominant := s.line.markBits ≠ 0 ∧ s.line.markBits % 9 = 0 ∨ s.lineInput.head? = some true
    cycleGap s =
      { s with
        lineInput := if bitPasses then s.lineInput.tail else s.lineInput
        line :=
          if inFrame then s.line
          else if s.line.bitCycles + 1 < cyclesPerBit s then { s.line with bitCycles := s.line.bitCycles + 1 }
          else
            { s.line with
              bitCycles := 0
              gapBits := if dominant then 0 else min (s.line.gapBits + 1) 22
              markBits := s.line.markBits - 1 } } := by
  intro inFrame bitPasses dominant
  have hp : frameInProgress s = true ↔ inFrame := by
    unfold frameInProgress
    simp only [inFrame]
    cases s.line.phase <;> simp
  unfold cycleGap
  by_cases hf : inFrame
  · rw [if_pos (hp.2 hf)]
    simp only [bitPasses, hf, if_true, not_true_eq_false, false_and, if_false]
  · rw [if_neg (fun h => hf (hp.1 h))]
    by_cases hb : s.line.bitCycles + 1 < cyclesPerBit s
    · rw [if_pos hb]
      simp only [bitPasses, hf, hb, not_true_eq_false, and_false, if_false, if_true]
    · rw [if_neg hb]
      have hd : lineDominant s = true ↔ dominant := lineDominant_iff s
      unfold passBit
      simp only [bitPasses, hf, hb, not_false_eq_true, and_self, if_true, if_false, hd, Config.courtesyGapBits]

/-- A timer is due at 0. -/
theorem timerDue_iff (t : Timer) : t.due = true ↔ t = .running 0 := by
  unfold Timer.due; split <;> simp_all

/-- A timer that is not at 0 is not due. -/
theorem timerDue_false {t : Timer} (h : t ≠ .running 0) : t.due = false := by
  rw [← Bool.not_eq_true, timerDue_iff]; exact h

/-- With nothing listed the claim pins keep their levels (R149). -/
theorem movePins_nil (s : State) (h : s.claimInput = []) : movePins s = s := by
  unfold movePins claimLevels
  rw [h]
  cases s
  simp at h
  subst h
  rfl

/-- The levels listed for the cycle that runs are those of the pins in it (R149). -/
theorem movePins_cons (s : State) (pins : Vector Bool 8) (rest : List (Vector Bool 8))
    (h : s.claimInput = pins :: rest) :
    movePins s = { s with claimPins := pins, claimInput := rest } := by
  unfold movePins claimLevels
  rw [h]
  rfl

/-- A sample at the level of the recognised claim sets the count to 0, one at the other level counts (R149). -/
theorem sampleClaim_deglitch (pin : Bool) (x : LineClient) :
    (sampleClaim pin x).deglitch = if pin = x.recognised then 0 else x.deglitch + 1 := rfl

/-- Up to seven samples in a row at the other level only count: a pulse that ends before its eighth sample leaves the
count at its samples, and the next sample clears it (R149). -/
theorem sampleClaim_run (pin : Bool) (x : LineClient) (hx : pin ≠ x.recognised) (hd : x.deglitch = 0) (n : Nat)
    (hn : n ≤ 7) :
    ((sampleClaim pin)^[n] x) = { x with deglitch := Fin.ofNat 8 n } ∧
      sampleClaim x.recognised ((sampleClaim pin)^[n] x) = x := by
  have h : (sampleClaim pin)^[n] x = { x with deglitch := Fin.ofNat 8 n } := by
    induction n with
    | zero => cases x; simp_all
    | succ n ih =>
      rw [Function.iterate_succ_apply', ih (by omega)]
      unfold sampleClaim
      rw [if_neg hx]
      congr 1
      apply Fin.ext
      simp [Fin.val_add]
  refine ⟨h, ?_⟩
  rw [h]
  cases x
  simp_all [sampleClaim]

/-- A claim is settled at its eighth sample in a row that differs (R149). -/
theorem claimSettled_iff (s : State) (c : Client) : claimSettled s c = true ↔ s.sampleCycles = 31 ∧
    s.clients[c].deglitch = 7 ∧ (claimLevels s)[c] ≠ s.clients[c].recognised := by
  simp only [claimSettled, Config.sampleCycles, Bool.and_eq_true, decide_eq_true_eq, and_assoc]
  constructor
  · rintro ⟨a, b, c⟩; exact ⟨by have := of_decide_eq_true a; omega, b, c⟩
  · rintro ⟨a, b, c⟩; exact ⟨by rw [a]; decide, b, c⟩

/-- The lowest client whose claim is settled. -/
theorem claimSettled_first (s : State) (c : Client) (hc : claimSettled s c = true) (hl : ∀ d : Client,
    d.val < c.val → ¬ claimSettled s d = true) :
    allClients.find? (claimSettled s) = some c := by
  rw [List.find?_eq_some_iff_append]
  refine ⟨hc, (List.finRange 8).take c.val, (List.finRange 8).drop (c.val+1), ?_, ?_⟩
  · show List.finRange 8 = _
    clear hl hc; revert c; decide
  · intro d hdm
    have : d.val < c.val := by clear hl hc; revert c d; decide
    simpa using hl d this

/-- No frame ends by the clock. -/
theorem dueEvent_not_frameEnd (s : State) (cells) : dueEvent s ≠ some (.frameEnd cells) := by
  have h1 : dueExpiry s.timers ≠ some (.frameEnd cells) := by
    unfold dueExpiry; repeat' split
    all_goals simp
  have h2 : dueClaim s ≠ some (.frameEnd cells) := by
    unfold dueClaim; split
    · simp
    · split <;> simp
  have h3 : dueLine s ≠ some (.frameEnd cells) := by
    unfold dueLine dueEdge; repeat' split
    all_goals simp
  have h4 : duePulse s ≠ some (.frameEnd cells) := by
    unfold duePulse; split <;> simp
  unfold dueEvent
  split
  · simp
  · revert h1 h2 h3 h4
    cases dueExpiry s.timers <;> cases dueClaim s <;> cases dueLine s <;> cases duePulse s <;> intros <;> simp_all

end Sys2Proof.Machine
end

