-- ==== Sys2Proof/Laws/State.lean ====
section
/-! SUPPORT. One lemma per field for each named update of the state, true by rfl: what the update leaves
alone, and what it writes. -/

namespace Sys2Proof.Machine

@[simp] theorem notifyStamped_pending (stamp : BitVec 16) (b : NoticeBody) (s : State) :
    (notifyStamped stamp b s).pending = s.pending := rfl
@[simp] theorem notifyStamped_resetLow (stamp : BitVec 16) (b : NoticeBody) (s : State) :
    (notifyStamped stamp b s).resetLow = s.resetLow := rfl
@[simp] theorem notifyStamped_straps (stamp : BitVec 16) (b : NoticeBody) (s : State) :
    (notifyStamped stamp b s).straps = s.straps := rfl
@[simp] theorem notifyStamped_config (stamp : BitVec 16) (b : NoticeBody) (s : State) :
    (notifyStamped stamp b s).config = s.config := rfl
@[simp] theorem notifyStamped_localState (stamp : BitVec 16) (b : NoticeBody) (s : State) :
    (notifyStamped stamp b s).localState = s.localState := rfl
@[simp] theorem notifyStamped_joinEvidence (stamp : BitVec 16) (b : NoticeBody) (s : State) :
    (notifyStamped stamp b s).joinEvidence = s.joinEvidence := rfl
@[simp] theorem notifyStamped_leases (stamp : BitVec 16) (b : NoticeBody) (s : State) :
    (notifyStamped stamp b s).leases = s.leases := rfl
@[simp] theorem notifyStamped_roster (stamp : BitVec 16) (b : NoticeBody) (s : State) :
    (notifyStamped stamp b s).roster = s.roster := rfl
@[simp] theorem notifyStamped_sourceDuty (stamp : BitVec 16) (b : NoticeBody) (s : State) :
    (notifyStamped stamp b s).sourceDuty = s.sourceDuty := rfl
@[simp] theorem notifyStamped_timers (stamp : BitVec 16) (b : NoticeBody) (s : State) :
    (notifyStamped stamp b s).timers = s.timers := rfl
@[simp] theorem notifyStamped_line (stamp : BitVec 16) (b : NoticeBody) (s : State) :
    (notifyStamped stamp b s).line = s.line := rfl
@[simp] theorem notifyStamped_queue (stamp : BitVec 16) (b : NoticeBody) (s : State) :
    (notifyStamped stamp b s).queue = s.queue := rfl
@[simp] theorem notifyStamped_clients (stamp : BitVec 16) (b : NoticeBody) (s : State) :
    (notifyStamped stamp b s).clients = s.clients := rfl
@[simp] theorem notifyStamped_claimPins (stamp : BitVec 16) (b : NoticeBody) (s : State) :
    (notifyStamped stamp b s).claimPins = s.claimPins := rfl
@[simp] theorem notifyStamped_claimInput (stamp : BitVec 16) (b : NoticeBody) (s : State) :
    (notifyStamped stamp b s).claimInput = s.claimInput := rfl
@[simp] theorem notifyStamped_lineInput (stamp : BitVec 16) (b : NoticeBody) (s : State) :
    (notifyStamped stamp b s).lineInput = s.lineInput := rfl
@[simp] theorem notifyStamped_sampleCycles (stamp : BitVec 16) (b : NoticeBody) (s : State) :
    (notifyStamped stamp b s).sampleCycles = s.sampleCycles := rfl
@[simp] theorem notifyStamped_exchange (stamp : BitVec 16) (b : NoticeBody) (s : State) :
    (notifyStamped stamp b s).exchange = s.exchange := rfl
@[simp] theorem notifyStamped_serial (stamp : BitVec 16) (b : NoticeBody) (s : State) :
    (notifyStamped stamp b s).serial = s.serial := rfl
@[simp] theorem notifyStamped_portInput (stamp : BitVec 16) (b : NoticeBody) (s : State) :
    (notifyStamped stamp b s).portInput = s.portInput := rfl
@[simp] theorem notifyStamped_notices (stamp : BitVec 16) (b : NoticeBody) (s : State) :
    (notifyStamped stamp b s).notices = arrive { stamp := stamp, body := b } s.notices := rfl
@[simp] theorem notifyStamped_grant (stamp : BitVec 16) (b : NoticeBody) (s : State) :
    (notifyStamped stamp b s).grant = s.grant := rfl
@[simp] theorem notifyStamped_sync (stamp : BitVec 16) (b : NoticeBody) (s : State) :
    (notifyStamped stamp b s).sync = s.sync := rfl
@[simp] theorem notifyStamped_notice (stamp : BitVec 16) (b : NoticeBody) (s : State) :
    (notifyStamped stamp b s).notice = s.notice := rfl
@[simp] theorem notifyStamped_tickout (stamp : BitVec 16) (b : NoticeBody) (s : State) :
    (notifyStamped stamp b s).tickout = s.tickout := rfl

@[simp] theorem notify_pending (b : NoticeBody) (s : State) : (notify b s).pending = s.pending := rfl
@[simp] theorem notify_resetLow (b : NoticeBody) (s : State) : (notify b s).resetLow = s.resetLow := rfl
@[simp] theorem notify_straps (b : NoticeBody) (s : State) : (notify b s).straps = s.straps := rfl
@[simp] theorem notify_config (b : NoticeBody) (s : State) : (notify b s).config = s.config := rfl
@[simp] theorem notify_localState (b : NoticeBody) (s : State) : (notify b s).localState = s.localState := rfl
@[simp] theorem notify_joinEvidence (b : NoticeBody) (s : State) :
    (notify b s).joinEvidence = s.joinEvidence := rfl
@[simp] theorem notify_leases (b : NoticeBody) (s : State) : (notify b s).leases = s.leases := rfl
@[simp] theorem notify_roster (b : NoticeBody) (s : State) : (notify b s).roster = s.roster := rfl
@[simp] theorem notify_sourceDuty (b : NoticeBody) (s : State) : (notify b s).sourceDuty = s.sourceDuty := rfl
@[simp] theorem notify_timers (b : NoticeBody) (s : State) : (notify b s).timers = s.timers := rfl
@[simp] theorem notify_line (b : NoticeBody) (s : State) : (notify b s).line = s.line := rfl
@[simp] theorem notify_queue (b : NoticeBody) (s : State) : (notify b s).queue = s.queue := rfl
@[simp] theorem notify_clients (b : NoticeBody) (s : State) : (notify b s).clients = s.clients := rfl
@[simp] theorem notify_claimPins (b : NoticeBody) (s : State) : (notify b s).claimPins = s.claimPins := rfl
@[simp] theorem notify_claimInput (b : NoticeBody) (s : State) : (notify b s).claimInput = s.claimInput := rfl
@[simp] theorem notify_lineInput (b : NoticeBody) (s : State) : (notify b s).lineInput = s.lineInput := rfl
@[simp] theorem notify_sampleCycles (b : NoticeBody) (s : State) :
    (notify b s).sampleCycles = s.sampleCycles := rfl
@[simp] theorem notify_exchange (b : NoticeBody) (s : State) : (notify b s).exchange = s.exchange := rfl
@[simp] theorem notify_serial (b : NoticeBody) (s : State) : (notify b s).serial = s.serial := rfl
@[simp] theorem notify_portInput (b : NoticeBody) (s : State) : (notify b s).portInput = s.portInput := rfl
@[simp] theorem notify_notices (b : NoticeBody) (s : State) :
    (notify b s).notices = arrive { stamp := commitStamp s, body := b } s.notices := rfl
@[simp] theorem notify_grant (b : NoticeBody) (s : State) : (notify b s).grant = s.grant := rfl
@[simp] theorem notify_sync (b : NoticeBody) (s : State) : (notify b s).sync = s.sync := rfl
@[simp] theorem notify_notice (b : NoticeBody) (s : State) : (notify b s).notice = s.notice := rfl
@[simp] theorem notify_tickout (b : NoticeBody) (s : State) : (notify b s).tickout = s.tickout := rfl

@[simp] theorem setNeed_pending (c : Client) (n : Option NeedKind) (s : State) :
    (setNeed c n s).pending = s.pending := rfl
@[simp] theorem setNeed_resetLow (c : Client) (n : Option NeedKind) (s : State) :
    (setNeed c n s).resetLow = s.resetLow := rfl
@[simp] theorem setNeed_straps (c : Client) (n : Option NeedKind) (s : State) :
    (setNeed c n s).straps = s.straps := rfl
@[simp] theorem setNeed_config (c : Client) (n : Option NeedKind) (s : State) :
    (setNeed c n s).config = s.config := rfl
@[simp] theorem setNeed_localState (c : Client) (n : Option NeedKind) (s : State) :
    (setNeed c n s).localState = s.localState := rfl
@[simp] theorem setNeed_joinEvidence (c : Client) (n : Option NeedKind) (s : State) :
    (setNeed c n s).joinEvidence = s.joinEvidence := rfl
@[simp] theorem setNeed_leases (c : Client) (n : Option NeedKind) (s : State) :
    (setNeed c n s).leases = s.leases := rfl
@[simp] theorem setNeed_roster (c : Client) (n : Option NeedKind) (s : State) :
    (setNeed c n s).roster = s.roster := rfl
@[simp] theorem setNeed_sourceDuty (c : Client) (n : Option NeedKind) (s : State) :
    (setNeed c n s).sourceDuty = s.sourceDuty := rfl
@[simp] theorem setNeed_timers (c : Client) (n : Option NeedKind) (s : State) :
    (setNeed c n s).timers = s.timers := rfl
@[simp] theorem setNeed_line (c : Client) (n : Option NeedKind) (s : State) :
    (setNeed c n s).line = s.line := rfl
@[simp] theorem setNeed_queue (c : Client) (n : Option NeedKind) (s : State) :
    (setNeed c n s).queue = { s.queue with needs := s.queue.needs.set c n } := rfl
@[simp] theorem setNeed_clients (c : Client) (n : Option NeedKind) (s : State) :
    (setNeed c n s).clients = s.clients := rfl
@[simp] theorem setNeed_claimPins (c : Client) (n : Option NeedKind) (s : State) :
    (setNeed c n s).claimPins = s.claimPins := rfl
@[simp] theorem setNeed_claimInput (c : Client) (n : Option NeedKind) (s : State) :
    (setNeed c n s).claimInput = s.claimInput := rfl
@[simp] theorem setNeed_lineInput (c : Client) (n : Option NeedKind) (s : State) :
    (setNeed c n s).lineInput = s.lineInput := rfl
@[simp] theorem setNeed_sampleCycles (c : Client) (n : Option NeedKind) (s : State) :
    (setNeed c n s).sampleCycles = s.sampleCycles := rfl
@[simp] theorem setNeed_exchange (c : Client) (n : Option NeedKind) (s : State) :
    (setNeed c n s).exchange = s.exchange := rfl
@[simp] theorem setNeed_serial (c : Client) (n : Option NeedKind) (s : State) :
    (setNeed c n s).serial = s.serial := rfl
@[simp] theorem setNeed_portInput (c : Client) (n : Option NeedKind) (s : State) :
    (setNeed c n s).portInput = s.portInput := rfl
@[simp] theorem setNeed_notices (c : Client) (n : Option NeedKind) (s : State) :
    (setNeed c n s).notices = s.notices := rfl
@[simp] theorem setNeed_grant (c : Client) (n : Option NeedKind) (s : State) :
    (setNeed c n s).grant = s.grant := rfl
@[simp] theorem setNeed_sync (c : Client) (n : Option NeedKind) (s : State) :
    (setNeed c n s).sync = s.sync := rfl
@[simp] theorem setNeed_notice (c : Client) (n : Option NeedKind) (s : State) :
    (setNeed c n s).notice = s.notice := rfl
@[simp] theorem setNeed_tickout (c : Client) (n : Option NeedKind) (s : State) :
    (setNeed c n s).tickout = s.tickout := rfl

@[simp] theorem setClientState_pending (c : Client) (x : ClientState) (s : State) :
    (setClientState c x s).pending = s.pending := rfl
@[simp] theorem setClientState_resetLow (c : Client) (x : ClientState) (s : State) :
    (setClientState c x s).resetLow = s.resetLow := rfl
@[simp] theorem setClientState_straps (c : Client) (x : ClientState) (s : State) :
    (setClientState c x s).straps = s.straps := rfl
@[simp] theorem setClientState_config (c : Client) (x : ClientState) (s : State) :
    (setClientState c x s).config = s.config := rfl
@[simp] theorem setClientState_localState (c : Client) (x : ClientState) (s : State) :
    (setClientState c x s).localState = s.localState := rfl
@[simp] theorem setClientState_joinEvidence (c : Client) (x : ClientState) (s : State) :
    (setClientState c x s).joinEvidence = s.joinEvidence := rfl
@[simp] theorem setClientState_leases (c : Client) (x : ClientState) (s : State) :
    (setClientState c x s).leases = s.leases := rfl
@[simp] theorem setClientState_roster (c : Client) (x : ClientState) (s : State) :
    (setClientState c x s).roster = s.roster := rfl
@[simp] theorem setClientState_sourceDuty (c : Client) (x : ClientState) (s : State) :
    (setClientState c x s).sourceDuty = s.sourceDuty := rfl
@[simp] theorem setClientState_timers (c : Client) (x : ClientState) (s : State) :
    (setClientState c x s).timers = s.timers := rfl
@[simp] theorem setClientState_line (c : Client) (x : ClientState) (s : State) :
    (setClientState c x s).line = s.line := rfl
@[simp] theorem setClientState_queue (c : Client) (x : ClientState) (s : State) :
    (setClientState c x s).queue = s.queue := rfl
@[simp] theorem setClientState_clients (c : Client) (x : ClientState) (s : State) :
    (setClientState c x s).clients = s.clients.set c { s.clients[c] with state := x } := rfl
@[simp] theorem setClientState_claimPins (c : Client) (x : ClientState) (s : State) :
    (setClientState c x s).claimPins = s.claimPins := rfl
@[simp] theorem setClientState_claimInput (c : Client) (x : ClientState) (s : State) :
    (setClientState c x s).claimInput = s.claimInput := rfl
@[simp] theorem setClientState_lineInput (c : Client) (x : ClientState) (s : State) :
    (setClientState c x s).lineInput = s.lineInput := rfl
@[simp] theorem setClientState_sampleCycles (c : Client) (x : ClientState) (s : State) :
    (setClientState c x s).sampleCycles = s.sampleCycles := rfl
@[simp] theorem setClientState_exchange (c : Client) (x : ClientState) (s : State) :
    (setClientState c x s).exchange = s.exchange := rfl
@[simp] theorem setClientState_serial (c : Client) (x : ClientState) (s : State) :
    (setClientState c x s).serial = s.serial := rfl
@[simp] theorem setClientState_portInput (c : Client) (x : ClientState) (s : State) :
    (setClientState c x s).portInput = s.portInput := rfl
@[simp] theorem setClientState_notices (c : Client) (x : ClientState) (s : State) :
    (setClientState c x s).notices = s.notices := rfl
@[simp] theorem setClientState_grant (c : Client) (x : ClientState) (s : State) :
    (setClientState c x s).grant = s.grant := rfl
@[simp] theorem setClientState_sync (c : Client) (x : ClientState) (s : State) :
    (setClientState c x s).sync = s.sync := rfl
@[simp] theorem setClientState_notice (c : Client) (x : ClientState) (s : State) :
    (setClientState c x s).notice = s.notice := rfl
@[simp] theorem setClientState_tickout (c : Client) (x : ClientState) (s : State) :
    (setClientState c x s).tickout = s.tickout := rfl

@[simp] theorem setReclaim_pending (c : Client) (b : Bool) (s : State) :
    (setReclaim c b s).pending = s.pending := rfl
@[simp] theorem setReclaim_resetLow (c : Client) (b : Bool) (s : State) :
    (setReclaim c b s).resetLow = s.resetLow := rfl
@[simp] theorem setReclaim_straps (c : Client) (b : Bool) (s : State) :
    (setReclaim c b s).straps = s.straps := rfl
@[simp] theorem setReclaim_config (c : Client) (b : Bool) (s : State) :
    (setReclaim c b s).config = s.config := rfl
@[simp] theorem setReclaim_localState (c : Client) (b : Bool) (s : State) :
    (setReclaim c b s).localState = s.localState := rfl
@[simp] theorem setReclaim_joinEvidence (c : Client) (b : Bool) (s : State) :
    (setReclaim c b s).joinEvidence = s.joinEvidence := rfl
@[simp] theorem setReclaim_leases (c : Client) (b : Bool) (s : State) :
    (setReclaim c b s).leases = s.leases := rfl
@[simp] theorem setReclaim_roster (c : Client) (b : Bool) (s : State) :
    (setReclaim c b s).roster = s.roster := rfl
@[simp] theorem setReclaim_sourceDuty (c : Client) (b : Bool) (s : State) :
    (setReclaim c b s).sourceDuty = s.sourceDuty := rfl
@[simp] theorem setReclaim_timers (c : Client) (b : Bool) (s : State) :
    (setReclaim c b s).timers = s.timers := rfl
@[simp] theorem setReclaim_line (c : Client) (b : Bool) (s : State) : (setReclaim c b s).line = s.line := rfl
@[simp] theorem setReclaim_queue (c : Client) (b : Bool) (s : State) :
    (setReclaim c b s).queue = s.queue := rfl
@[simp] theorem setReclaim_clients (c : Client) (b : Bool) (s : State) :
    (setReclaim c b s).clients = s.clients.set c { s.clients[c] with reclaim := b } := rfl
@[simp] theorem setReclaim_claimPins (c : Client) (b : Bool) (s : State) :
    (setReclaim c b s).claimPins = s.claimPins := rfl
@[simp] theorem setReclaim_claimInput (c : Client) (b : Bool) (s : State) :
    (setReclaim c b s).claimInput = s.claimInput := rfl
@[simp] theorem setReclaim_lineInput (c : Client) (b : Bool) (s : State) :
    (setReclaim c b s).lineInput = s.lineInput := rfl
@[simp] theorem setReclaim_sampleCycles (c : Client) (b : Bool) (s : State) :
    (setReclaim c b s).sampleCycles = s.sampleCycles := rfl
@[simp] theorem setReclaim_exchange (c : Client) (b : Bool) (s : State) :
    (setReclaim c b s).exchange = s.exchange := rfl
@[simp] theorem setReclaim_serial (c : Client) (b : Bool) (s : State) :
    (setReclaim c b s).serial = s.serial := rfl
@[simp] theorem setReclaim_portInput (c : Client) (b : Bool) (s : State) :
    (setReclaim c b s).portInput = s.portInput := rfl
@[simp] theorem setReclaim_notices (c : Client) (b : Bool) (s : State) :
    (setReclaim c b s).notices = s.notices := rfl
@[simp] theorem setReclaim_grant (c : Client) (b : Bool) (s : State) :
    (setReclaim c b s).grant = s.grant := rfl
@[simp] theorem setReclaim_sync (c : Client) (b : Bool) (s : State) : (setReclaim c b s).sync = s.sync := rfl
@[simp] theorem setReclaim_notice (c : Client) (b : Bool) (s : State) :
    (setReclaim c b s).notice = s.notice := rfl
@[simp] theorem setReclaim_tickout (c : Client) (b : Bool) (s : State) :
    (setReclaim c b s).tickout = s.tickout := rfl

@[simp] theorem revokeClients_pending (s : State) : (revokeClients s).pending = s.pending := rfl
@[simp] theorem revokeClients_resetLow (s : State) : (revokeClients s).resetLow = s.resetLow := rfl
@[simp] theorem revokeClients_straps (s : State) : (revokeClients s).straps = s.straps := rfl
@[simp] theorem revokeClients_config (s : State) : (revokeClients s).config = s.config := rfl
@[simp] theorem revokeClients_localState (s : State) : (revokeClients s).localState = s.localState := rfl
@[simp] theorem revokeClients_joinEvidence (s : State) :
    (revokeClients s).joinEvidence = s.joinEvidence := rfl
@[simp] theorem revokeClients_leases (s : State) : (revokeClients s).leases = s.leases := rfl
@[simp] theorem revokeClients_roster (s : State) : (revokeClients s).roster = s.roster := rfl
@[simp] theorem revokeClients_sourceDuty (s : State) : (revokeClients s).sourceDuty = s.sourceDuty := rfl
@[simp] theorem revokeClients_timers (s : State) : (revokeClients s).timers = s.timers := rfl
@[simp] theorem revokeClients_line (s : State) : (revokeClients s).line = s.line := rfl
@[simp] theorem revokeClients_queue (s : State) : (revokeClients s).queue = s.queue := rfl
@[simp] theorem revokeClients_clients (s : State) :
    (revokeClients s).clients = Vector.ofFn fun c : Client => revokedRecord s.config.bindings[c] s.clients[c] := rfl
@[simp] theorem revokeClients_claimPins (s : State) : (revokeClients s).claimPins = s.claimPins := rfl
@[simp] theorem revokeClients_claimInput (s : State) : (revokeClients s).claimInput = s.claimInput := rfl
@[simp] theorem revokeClients_lineInput (s : State) : (revokeClients s).lineInput = s.lineInput := rfl
@[simp] theorem revokeClients_sampleCycles (s : State) :
    (revokeClients s).sampleCycles = s.sampleCycles := rfl
@[simp] theorem revokeClients_exchange (s : State) : (revokeClients s).exchange = s.exchange := rfl
@[simp] theorem revokeClients_serial (s : State) : (revokeClients s).serial = s.serial := rfl
@[simp] theorem revokeClients_portInput (s : State) : (revokeClients s).portInput = s.portInput := rfl
@[simp] theorem revokeClients_notices (s : State) : (revokeClients s).notices = s.notices := rfl
@[simp] theorem revokeClients_grant (s : State) : (revokeClients s).grant = s.grant := rfl
@[simp] theorem revokeClients_sync (s : State) : (revokeClients s).sync = s.sync := rfl
@[simp] theorem revokeClients_notice (s : State) : (revokeClients s).notice = s.notice := rfl
@[simp] theorem revokeClients_tickout (s : State) : (revokeClients s).tickout = s.tickout := rfl

@[simp] theorem driveOutputs_pending (s : State) : (driveOutputs s).pending = s.pending := rfl
@[simp] theorem driveOutputs_resetLow (s : State) : (driveOutputs s).resetLow = s.resetLow := rfl
@[simp] theorem driveOutputs_straps (s : State) : (driveOutputs s).straps = s.straps := rfl
@[simp] theorem driveOutputs_config (s : State) : (driveOutputs s).config = s.config := rfl
@[simp] theorem driveOutputs_localState (s : State) : (driveOutputs s).localState = s.localState := rfl
@[simp] theorem driveOutputs_joinEvidence (s : State) : (driveOutputs s).joinEvidence = s.joinEvidence := rfl
@[simp] theorem driveOutputs_leases (s : State) : (driveOutputs s).leases = s.leases := rfl
@[simp] theorem driveOutputs_roster (s : State) : (driveOutputs s).roster = s.roster := rfl
@[simp] theorem driveOutputs_sourceDuty (s : State) : (driveOutputs s).sourceDuty = s.sourceDuty := rfl
@[simp] theorem driveOutputs_timers (s : State) : (driveOutputs s).timers = s.timers := rfl
@[simp] theorem driveOutputs_line (s : State) : (driveOutputs s).line = s.line := rfl
@[simp] theorem driveOutputs_queue (s : State) : (driveOutputs s).queue = s.queue := rfl
@[simp] theorem driveOutputs_clients (s : State) : (driveOutputs s).clients = s.clients := rfl
@[simp] theorem driveOutputs_claimPins (s : State) : (driveOutputs s).claimPins = s.claimPins := rfl
@[simp] theorem driveOutputs_claimInput (s : State) : (driveOutputs s).claimInput = s.claimInput := rfl
@[simp] theorem driveOutputs_lineInput (s : State) : (driveOutputs s).lineInput = s.lineInput := rfl
@[simp] theorem driveOutputs_sampleCycles (s : State) : (driveOutputs s).sampleCycles = s.sampleCycles := rfl
@[simp] theorem driveOutputs_exchange (s : State) : (driveOutputs s).exchange = s.exchange := rfl
@[simp] theorem driveOutputs_serial (s : State) : (driveOutputs s).serial = s.serial := rfl
@[simp] theorem driveOutputs_portInput (s : State) : (driveOutputs s).portInput = s.portInput := rfl
@[simp] theorem driveOutputs_notices (s : State) : (driveOutputs s).notices = s.notices := rfl
@[simp] theorem driveOutputs_grant (s : State) :
    (driveOutputs s).grant = Vector.ofFn fun c : Client => grantLevel s c := rfl
@[simp] theorem driveOutputs_sync (s : State) : (driveOutputs s).sync = syncLevel s := rfl
@[simp] theorem driveOutputs_notice (s : State) : (driveOutputs s).notice = noticeLevel s := rfl
@[simp] theorem driveOutputs_tickout (s : State) : (driveOutputs s).tickout = s.tickout := rfl

/-- The tick period reads the straps. -/
theorem tickPeriodMs_same (u s : State) (h1 : u.straps = s.straps) : tickPeriodMs u = tickPeriodMs s := by unfold tickPeriodMs; rw [h1]

/-- The station number reads the straps. -/
theorem stationNumber_same (u s : State) (h1 : u.straps = s.straps) : stationNumber u = stationNumber s := by
  cases s; cases u; dsimp only at h1; subst h1; rfl

end Sys2Proof.Machine
end

