-- ==== Sys2Proof/Laws/Notices.lean ====
section
/-! SUPPORT. The notification queue: what the arrival of notices can do (R187). -/

namespace Sys2Proof.Machine

/-- Notices arriving one after the other. -/
def arriveAll (ns q : List Notice) : List Notice := ns.foldl (fun q n => arrive n q) q

@[simp] theorem arriveAll_nil (q : List Notice) : arriveAll [] q = q := rfl

@[simp] theorem arriveAll_cons (n : Notice) (ns q : List Notice) :
    arriveAll (n :: ns) q = arriveAll ns (arrive n q) := rfl

theorem arriveAll_append (ms ns q : List Notice) : arriveAll (ms ++ ns) q = arriveAll ns (arriveAll ms q) := by
  simp [arriveAll, List.foldl_append]

theorem noticesLegal_nil : NoticesLegal [] := Or.inr ⟨by simp, by simp⟩

theorem IsOverflowRecord.isOverflow {n : Notice} (h : IsOverflowRecord n) : n.isOverflow = true := by
  obtain ⟨c, hc, -, -⟩ := h
  simp [Notice.isOverflow, hc]

theorem IsOverflowRecord.countOne {n : Notice} (h : IsOverflowRecord n) : IsOverflowRecord n.countOne := by
  obtain ⟨c, hc, h1, h2⟩ := h
  refine ⟨min (c + 1) Config.overflowLimit, ?_, ?_, ?_⟩
  · simp [Notice.countOne, hc]
  · simp [Config.overflowLimit]
  · simp [Config.overflowLimit]

theorem countOne_of_not_overflow (n : Notice) (h : n.isOverflow = false) : n.countOne = n := by
  cases n with
  | mk stamp body => cases body <;> simp_all [Notice.isOverflow, Notice.countOne]

theorem map_countOne_of_none (q : List Notice) (h : ∀ m ∈ q, m.isOverflow = false) :
    q.map Notice.countOne = q := by
  induction q with
  | nil => rfl
  | cons a q ih =>
    simp only [List.map_cons, List.mem_cons, forall_eq_or_imp] at *
    rw [countOne_of_not_overflow a h.1, ih h.2]

/-- The arrival into a queue whose newest record is OVERFLOW. -/
theorem arrive_overflow (n m : Notice) (front : List Notice) (hm : m.isOverflow = true)
    (hf : ∀ x ∈ front, x.isOverflow = false) : arrive n (front ++ [m]) = front ++ [m.countOne] := by
  have h : (front ++ [m]).any Notice.isOverflow = true := by simp [hm]
  simp [arrive, h, map_countOne_of_none front hf]

/-- The arrival into a queue without OVERFLOW. -/
theorem arrive_no_overflow (n : Notice) (q : List Notice) (hf : ∀ x ∈ q, x.isOverflow = false) :
    arrive n q =
      if q.length + 1 < Config.noticeLimit then q ++ [n] else q ++ [{ stamp := n.stamp, body := .overflow 1 }] := by
  have h : q.any Notice.isOverflow = false := by simpa using hf
  simp [arrive, h]

/-- A produced notice is not an OVERFLOW record: only the queue itself makes one. -/
theorem arrive_legal (n : Notice) (q : List Notice) (hn : n.isOverflow = false) (h : NoticesLegal q) :
    NoticesLegal (arrive n q) := by
  rcases h with ⟨front, m, rfl, hm, hl, hf⟩ | ⟨hl, hf⟩
  · rw [arrive_overflow n m front hm.isOverflow hf]
    exact Or.inl ⟨front, m.countOne, rfl, hm.countOne, hl, hf⟩
  · rw [arrive_no_overflow n q hf]
    split
    · rename_i hlt
      refine Or.inr ⟨?_, ?_⟩
      · simp [Config.noticeLimit] at hlt ⊢; omega
      · intro x hx
        rcases List.mem_append.1 hx with hx | hx
        · exact hf x hx
        · rw [List.mem_singleton.1 hx]; exact hn
    · exact Or.inl ⟨q, _, rfl, ⟨1, rfl, by omega, by omega⟩, hl, hf⟩

theorem arriveAll_legal (ns q : List Notice) (hn : ∀ n ∈ ns, n.isOverflow = false) (h : NoticesLegal q) :
    NoticesLegal (arriveAll ns q) := by
  induction ns generalizing q with
  | nil => exact h
  | cons n ns ih =>
    simp only [List.mem_cons, forall_eq_or_imp] at hn
    exact ih _ hn.2 (arrive_legal n q hn.1 h)

/-- A take removes the oldest record and keeps the law (R188). -/
theorem noticesLegal_tail (n : Notice) (q : List Notice) (h : NoticesLegal (n :: q)) : NoticesLegal q := by
  rcases h with ⟨front, m, he, hm, hl, hf⟩ | ⟨hl, hf⟩
  · cases front with
    | nil =>
      simp at he
      rw [he.2]
      exact noticesLegal_nil
    | cons a front =>
      simp only [List.cons_append, List.cons.injEq] at he
      rw [he.2]
      simp only [List.length_cons, List.mem_cons, forall_eq_or_imp] at hl hf
      exact Or.inl ⟨front, m, rfl, hm, by omega, hf.2⟩
  · simp only [List.length_cons, List.mem_cons, forall_eq_or_imp] at hl hf
    exact Or.inr ⟨by omega, hf.2⟩

end Sys2Proof.Machine
end

