-- ==== Sys2Proof/Laws/Local.lean ====
section
/-! SUPPORT. What the operations of the local side can do: they change the outbound queue, the line-client
records and, by arrivals, the notification queue, and nothing else. -/

namespace Sys2Proof.Machine

/-- `t` is `s` after changes to the outbound queue and the line-client records, and after arrivals of
notices that are not OVERFLOW records. -/
structure LocalStep (s t : State) : Prop where
  same : t = { s with queue := t.queue, clients := t.clients, notices := t.notices }
  arrivals : ∃ ns, (∀ n ∈ ns, n.isOverflow = false) ∧ t.notices = arriveAll ns s.notices

namespace LocalStep

theorem refl (s : State) : LocalStep s s := ⟨rfl, [], by simp, rfl⟩

theorem trans {s t u : State} (h : LocalStep s t) (k : LocalStep t u) : LocalStep s u := by
  obtain ⟨hs, ns, hn, ha⟩ := h
  obtain ⟨ks, ms, hm, ka⟩ := k
  refine ⟨by rw [ks, hs], ns ++ ms, ?_, ?_⟩
  · intro n hmem
    rcases List.mem_append.1 hmem with h1 | h1
    · exact hn n h1
    · exact hm n h1
  · rw [ka, ha, arriveAll_append]

theorem pending {s t : State} (h : LocalStep s t) : t.pending = s.pending := by rw [h.same]
theorem resetLow {s t : State} (h : LocalStep s t) : t.resetLow = s.resetLow := by rw [h.same]
theorem straps {s t : State} (h : LocalStep s t) : t.straps = s.straps := by rw [h.same]
theorem config {s t : State} (h : LocalStep s t) : t.config = s.config := by rw [h.same]
theorem localState {s t : State} (h : LocalStep s t) : t.localState = s.localState := by rw [h.same]
theorem joinEvidence {s t : State} (h : LocalStep s t) : t.joinEvidence = s.joinEvidence := by rw [h.same]
theorem leases {s t : State} (h : LocalStep s t) : t.leases = s.leases := by rw [h.same]
theorem roster {s t : State} (h : LocalStep s t) : t.roster = s.roster := by rw [h.same]
theorem sourceDuty {s t : State} (h : LocalStep s t) : t.sourceDuty = s.sourceDuty := by rw [h.same]
theorem timers {s t : State} (h : LocalStep s t) : t.timers = s.timers := by rw [h.same]
theorem line {s t : State} (h : LocalStep s t) : t.line = s.line := by rw [h.same]
theorem claimPins {s t : State} (h : LocalStep s t) : t.claimPins = s.claimPins := by rw [h.same]
theorem claimInput {s t : State} (h : LocalStep s t) : t.claimInput = s.claimInput := by rw [h.same]
theorem lineInput {s t : State} (h : LocalStep s t) : t.lineInput = s.lineInput := by rw [h.same]
theorem sampleCycles {s t : State} (h : LocalStep s t) : t.sampleCycles = s.sampleCycles := by rw [h.same]
theorem exchange {s t : State} (h : LocalStep s t) : t.exchange = s.exchange := by rw [h.same]
theorem serial {s t : State} (h : LocalStep s t) : t.serial = s.serial := by rw [h.same]
theorem portInput {s t : State} (h : LocalStep s t) : t.portInput = s.portInput := by rw [h.same]
theorem grant {s t : State} (h : LocalStep s t) : t.grant = s.grant := by rw [h.same]
theorem sync {s t : State} (h : LocalStep s t) : t.sync = s.sync := by rw [h.same]
theorem notice {s t : State} (h : LocalStep s t) : t.notice = s.notice := by rw [h.same]
theorem tickout {s t : State} (h : LocalStep s t) : t.tickout = s.tickout := by rw [h.same]

theorem legal {s t : State} (h : LocalStep s t) (hq : NoticesLegal s.notices) : NoticesLegal t.notices := by
  obtain ⟨-, ns, hn, ha⟩ := h
  rw [ha]
  exact arriveAll_legal ns _ hn hq

/-- A change of the outbound queue alone. -/
theorem ofQueue (s : State) (q : OutboundQueue) : LocalStep s { s with queue := q } := ⟨rfl, [], by simp, rfl⟩

/-- A change of the line-client records alone. -/
theorem ofClients (s : State) (x : Vector LineClient 8) : LocalStep s { s with clients := x } :=
  ⟨rfl, [], by simp, rfl⟩

/-- A fold of local steps is one. -/
theorem foldl {α : Type} (f : State → α → State) (hf : ∀ s a, LocalStep s (f s a)) (xs : List α) (s : State) :
    LocalStep s (xs.foldl f s) := by
  induction xs generalizing s with
  | nil => exact refl s
  | cons a xs ih => exact (hf s a).trans (ih (f s a))

end LocalStep

/-- A body that only the notification queue itself makes. -/
def NoticeBody.isOverflow (b : NoticeBody) : Bool :=
  match b with
  | .overflow _ => true
  | _ => false

theorem notify_local (b : NoticeBody) (s : State) (hb : b.isOverflow = false) : LocalStep s (notify b s) := by
  refine ⟨rfl, [{ stamp := commitStamp s, body := b }], ?_, rfl⟩
  intro n hn
  rw [List.mem_singleton.1 hn]
  cases b <;> simp_all [NoticeBody.isOverflow, Notice.isOverflow]

theorem notifyAll_local (bs : List NoticeBody) (s : State) (hb : ∀ b ∈ bs, b.isOverflow = false) :
    LocalStep s (notifyAll bs s) := by
  induction bs generalizing s with
  | nil => exact LocalStep.refl s
  | cons b bs ih =>
    simp only [List.mem_cons, forall_eq_or_imp] at hb
    exact (notify_local b s hb.1).trans (ih (notify b s) hb.2)

theorem setNeed_local (c : Client) (n : Option NeedKind) (s : State) : LocalStep s (setNeed c n s) :=
  LocalStep.ofQueue s _

theorem setClientState_local (c : Client) (x : ClientState) (s : State) : LocalStep s (setClientState c x s) :=
  LocalStep.ofClients s _

theorem setReclaim_local (c : Client) (b : Bool) (s : State) : LocalStep s (setReclaim c b s) :=
  LocalStep.ofClients s _

theorem emptySlot_local (k : Fin 8) (s : State) : LocalStep s { s with queue := removeSlot k s.queue } :=
  LocalStep.ofQueue s _

theorem raiseAcquire_local (c : Client) (s : State) : LocalStep s (raiseAcquire c s) := by
  unfold raiseAcquire
  split
  · exact LocalStep.refl s
  · dsimp only
    split
    · exact setNeed_local c _ s
    · exact LocalStep.ofQueue s _

theorem requestRelease_local (l : Lease) (c : Client) (s : State) : LocalStep s (requestRelease l c s).2 := by
  unfold requestRelease
  dsimp only
  split
  · exact (LocalStep.ofQueue s _).trans (notify_local _ _ rfl)
  · exact LocalStep.ofQueue s _

theorem raiseRelease_local (c : Client) (s : State) : LocalStep s (raiseRelease c s) := by
  unfold raiseRelease
  split
  · exact LocalStep.refl s
  · dsimp only
    split
    · exact setNeed_local c _ s
    · exact requestRelease_local _ _ s

theorem serveNeed_local (s : State) (c : Client) : LocalStep s (serveNeed s c) := by
  unfold serveNeed
  split
  · exact (setNeed_local c none s).trans (raiseAcquire_local c _)
  · exact (setNeed_local c none s).trans (raiseRelease_local c _)
  · exact LocalStep.refl s

theorem serveNeeds_local (s : State) : LocalStep s (serveNeeds s) := LocalStep.foldl _ serveNeed_local _ s

theorem concludeClient_local (s : State) (c : Client) : LocalStep s (concludeClient s c) := by
  unfold concludeClient
  split
  · exact LocalStep.refl s
  · split
    · split
      · exact ((setClientState_local c _ s).trans (setReclaim_local c false _)).trans (raiseAcquire_local c _)
      · exact setClientState_local c _ s
    · exact LocalStep.refl s

theorem concludeClients_local (s : State) : LocalStep s (concludeClients s) :=
  LocalStep.foldl _ concludeClient_local _ s

theorem settleQueue_local (s : State) : LocalStep s (settleQueue s) :=
  (serveNeeds_local s).trans (concludeClients_local _)

theorem takeClaimAsserted_local (c : Client) (s : State) : LocalStep s (takeClaimAsserted c s) := by
  unfold takeClaimAsserted
  split
  · exact LocalStep.refl s
  · split
    · split
      · exact (setClientState_local c _ s).trans (raiseAcquire_local c _)
      · exact LocalStep.refl s
    · exact setReclaim_local c true s
    all_goals exact LocalStep.refl s

theorem releaseAsking_local (l : Lease) (c : Client) (s : State) : LocalStep s (releaseAsking l c s) := by
  unfold releaseAsking
  split
  · exact (setNeed_local c none s).trans (setClientState_local c _ _)
  · split
    · exact (setClientState_local c _ s).trans (raiseRelease_local c _)
    · exact ((setClientState_local c _ s).trans (raiseRelease_local c _)).trans (settleQueue_local _)

theorem takeClaimReleased_local (c : Client) (s : State) : LocalStep s (takeClaimReleased c s) := by
  unfold takeClaimReleased
  split
  · exact LocalStep.refl s
  · split
    · exact LocalStep.refl s
    · exact releaseAsking_local _ c s
    · exact ((setClientState_local c _ s).trans (raiseRelease_local c _)).trans (concludeClients_local _)
    · exact ((setClientState_local c _ s).trans (raiseRelease_local c _)).trans (concludeClients_local _)
    · exact setReclaim_local c false s
    · exact setClientState_local c _ s
    · exact setClientState_local c _ s

theorem takeResult_local (ev : TableEvent) (s : State) : LocalStep s (takeResult ev s) := by
  unfold takeResult
  split
  · split
    · exact LocalStep.refl s
    · split
      · exact setClientState_local _ _ s
      · exact LocalStep.refl s
  · exact LocalStep.refl s

theorem takeSendFailed_local (x : SlotContent) (s : State) : LocalStep s (takeSendFailed x s) := by
  unfold takeSendFailed
  split
  · split
    · exact raiseAcquire_local _ s
    · exact LocalStep.refl s
  · split
    · exact raiseRelease_local _ s
    · exact LocalStep.refl s
  · exact LocalStep.refl s

theorem askAtEntry_local (s : State) (c : Client) : LocalStep s (askAtEntry s c) := by
  unfold askAtEntry
  split
  · exact LocalStep.refl s
  · split
    · exact (setClientState_local c _ s).trans (raiseAcquire_local c _)
    · exact LocalStep.refl s

theorem askAllAtEntry_local (s : State) : LocalStep s (askAllAtEntry s) := LocalStep.foldl _ askAtEntry_local _ s

theorem revokeClients_local (s : State) : LocalStep s (revokeClients s) := LocalStep.ofClients s _

theorem renewClient_local (s : State) (c : Client) : LocalStep s (renewClient s c) := by
  unfold renewClient
  split
  · exact LocalStep.refl s
  · split
    · exact LocalStep.refl s
    · split
      · exact LocalStep.ofQueue s _
      · exact LocalStep.refl s

theorem autoRenew_local (s : State) : LocalStep s (autoRenew s) := by
  unfold autoRenew
  split
  · exact LocalStep.foldl _ renewClient_local _ s
  · exact LocalStep.refl s

end Sys2Proof.Machine
end

