-- ==== Sys2Proof/Laws/Control.lean ====
section
/-! SUPPORT. What station control, the time unit and the frame end can do besides applying a frame: they keep
the replica, the configuration, the straps, the port and the phase of the line. -/

namespace Sys2Proof.Machine

/-- `t` is `s` but for the local side, the timers, local state, join evidence, source duty, TICKOUT and the
courtesy gap. -/
structure ControlStep (s t : State) : Prop where
  same :
    t =
      { s with
        queue := t.queue
        clients := t.clients
        notices := t.notices
        timers := t.timers
        joinEvidence := t.joinEvidence
        localState := t.localState
        sourceDuty := t.sourceDuty
        tickout := t.tickout
        line := { s.line with courtesyPending := t.line.courtesyPending } }
  arrivals : ∃ ns, (∀ n ∈ ns, n.isOverflow = false) ∧ t.notices = arriveAll ns s.notices

namespace ControlStep

theorem refl (s : State) : ControlStep s s := ⟨rfl, [], by simp, rfl⟩

theorem trans {s t u : State} (h : ControlStep s t) (k : ControlStep t u) : ControlStep s u := by
  obtain ⟨hs, ns, hn, ha⟩ := h
  obtain ⟨ks, ms, hm, ka⟩ := k
  refine ⟨by rw [ks, hs], ns ++ ms, ?_, ?_⟩
  · intro n hmem
    rcases List.mem_append.1 hmem with h1 | h1
    · exact hn n h1
    · exact hm n h1
  · rw [ka, ha, arriveAll_append]

theorem pending {s t : State} (h : ControlStep s t) : t.pending = s.pending := by rw [h.same]
theorem resetLow {s t : State} (h : ControlStep s t) : t.resetLow = s.resetLow := by rw [h.same]
theorem straps {s t : State} (h : ControlStep s t) : t.straps = s.straps := by rw [h.same]
theorem config {s t : State} (h : ControlStep s t) : t.config = s.config := by rw [h.same]
theorem leases {s t : State} (h : ControlStep s t) : t.leases = s.leases := by rw [h.same]
theorem roster {s t : State} (h : ControlStep s t) : t.roster = s.roster := by rw [h.same]
theorem phase {s t : State} (h : ControlStep s t) : t.line.phase = s.line.phase := by rw [h.same]
theorem report {s t : State} (h : ControlStep s t) : t.line.report = s.line.report := by rw [h.same]
theorem claimPins {s t : State} (h : ControlStep s t) : t.claimPins = s.claimPins := by rw [h.same]
theorem claimInput {s t : State} (h : ControlStep s t) : t.claimInput = s.claimInput := by rw [h.same]
theorem lineInput {s t : State} (h : ControlStep s t) : t.lineInput = s.lineInput := by rw [h.same]
theorem sampleCycles {s t : State} (h : ControlStep s t) : t.sampleCycles = s.sampleCycles := by rw [h.same]
theorem exchange {s t : State} (h : ControlStep s t) : t.exchange = s.exchange := by rw [h.same]
theorem serial {s t : State} (h : ControlStep s t) : t.serial = s.serial := by rw [h.same]
theorem portInput {s t : State} (h : ControlStep s t) : t.portInput = s.portInput := by rw [h.same]

theorem legal {s t : State} (h : ControlStep s t) (hq : NoticesLegal s.notices) : NoticesLegal t.notices := by
  obtain ⟨-, ns, hn, ha⟩ := h
  rw [ha]
  exact arriveAll_legal ns _ hn hq

theorem ofTimers (s : State) (x : Timers) : ControlStep s { s with timers := x } := ⟨rfl, [], by simp, rfl⟩

theorem ofState (s : State) (x : LocalState) : ControlStep s { s with localState := x } :=
  ⟨rfl, [], by simp, rfl⟩

theorem ofDuty (s : State) (x : Bool) : ControlStep s { s with sourceDuty := x } := ⟨rfl, [], by simp, rfl⟩

theorem ofEvidence (s : State) (x : Bool) : ControlStep s { s with joinEvidence := x } := ⟨rfl, [], by simp, rfl⟩

theorem foldl {α : Type} (f : State → α → State) (hf : ∀ s a, ControlStep s (f s a)) (xs : List α) (s : State) :
    ControlStep s (xs.foldl f s) := by
  induction xs generalizing s with
  | nil => exact refl s
  | cons a xs ih => exact (hf s a).trans (ih (f s a))

end ControlStep

theorem LocalStep.control {s t : State} (h : LocalStep s t) : ControlStep s t :=
  ⟨by rw [h.same], h.arrivals⟩

/-! ### Station control -/

theorem placeMembership_local (c : SlotContent) (s : State) : LocalStep s (placeMembership c s) :=
  LocalStep.ofQueue s _

theorem dropMembership_local (c : SlotContent) (s : State) : LocalStep s (dropMembership c s) := by
  unfold dropMembership
  split
  · exact LocalStep.ofQueue s _
  · exact LocalStep.refl s

theorem foundingTest_local (s : State) : LocalStep s (foundingTest s) := by
  unfold foundingTest
  split
  · exact placeMembership_local _ s
  · exact LocalStep.refl s

theorem joinTest_local (s : State) : LocalStep s (joinTest s) := by
  unfold joinTest
  split
  · exact placeMembership_local _ s
  · exact LocalStep.refl s

theorem beginSeeking_control (s : State) : ControlStep s (beginSeeking s) := ⟨rfl, [], by simp, rfl⟩

theorem enterSeeking_control (s : State) : ControlStep s (enterSeeking s) :=
  (beginSeeking_control s).trans (notify_local _ _ rfl).control

theorem transferUnit_control (s : State) : ControlStep s (transferUnit s) := by
  unfold transferUnit
  dsimp only
  refine (ControlStep.ofDuty s (dutyNow s)).trans (LocalStep.control ?_)
  split
  · split
    · exact placeMembership_local _ _
    · exact LocalStep.refl _
  · exact dropMembership_local _ _

theorem enterJoining_control (s : State) : ControlStep s (enterJoining s) := by
  unfold enterJoining
  refine ControlStep.trans ?_ (notify_local _ _ rfl).control
  exact ⟨rfl, [], by simp, rfl⟩

theorem enterMember_control (s : State) : ControlStep s (enterMember s) := by
  unfold enterMember
  dsimp only
  refine ControlStep.trans ?_ (notify_local _ _ rfl).control
  refine ControlStep.trans ?_ (askAllAtEntry_local _).control
  exact ⟨rfl, [], by simp, rfl⟩

theorem handshakeRelease_local (s : State) (lc : Lease × Client) : LocalStep s (handshakeRelease s lc) := by
  unfold handshakeRelease
  split
  · exact LocalStep.refl s
  · split
    · exact LocalStep.refl s
    · exact requestRelease_local _ _ s

theorem leaveHandshake_local (s : State) : LocalStep s (leaveHandshake s) := by
  unfold leaveHandshake
  split
  · dsimp only
    have h := LocalStep.foldl _ handshakeRelease_local (handshakePairs s) s
    split
    · exact h.trans (placeMembership_local _ _)
    · exact h
  · exact LocalStep.refl s

theorem slotFreed_local (s : State) : LocalStep s (slotFreed s) :=
  (settleQueue_local s).trans (leaveHandshake_local _)

theorem withdrawAcquire_local (s : State) (k : Fin 8) : LocalStep s (withdrawAcquire s k) := by
  unfold withdrawAcquire
  split
  · exact LocalStep.refl s
  · split
    · split
      · exact LocalStep.refl s
      · exact (LocalStep.ofQueue s _).trans (notify_local _ _ rfl)
    · exact LocalStep.refl s

theorem dropAcquireNeeds_local (s : State) : LocalStep s (dropAcquireNeeds s) := LocalStep.ofQueue s _

theorem revokedNotices_bodies (s : State) (x : RevokeReason) : ∀ b ∈ revokedNotices s x, b.isOverflow = false := by
  intro b hb
  simp only [revokedNotices, List.mem_map] at hb
  obtain ⟨lh, -, rfl⟩ := hb
  rfl

theorem enterLeaving_control (s : State) : ControlStep s (enterLeaving s) := by
  unfold enterLeaving
  dsimp only
  refine ControlStep.trans ?_ (notify_local _ _ rfl).control
  refine ControlStep.trans ?_ (slotFreed_local _).control
  refine ControlStep.trans ?_ (dropAcquireNeeds_local _).control
  refine ControlStep.trans ?_ (LocalStep.foldl _ withdrawAcquire_local _ _).control
  refine ControlStep.trans ?_ (notifyAll_local _ _ (revokedNotices_bodies _ _)).control
  exact (ControlStep.ofState s .leaving).trans (revokeClients_local _).control

/-! ### Teardown (R144): the replica is unknown, and everything a control step keeps is kept -/

/-- What a teardown leaves: the replica unknown, the queue empty, SEEKING or DETACHED (R144, R145). -/
structure TornDown (s t : State) : Prop where
  control : ControlStep { s with leases := unknownLeases, roster := none } t
  queue : t.queue = OutboundQueue.empty
  sourceDuty : t.sourceDuty = false

theorem notifyStamped_local (stamp : BitVec 16) (b : NoticeBody) (s : State) (hb : b.isOverflow = false) :
    LocalStep s (notifyStamped stamp b s) := by
  refine ⟨rfl, [{ stamp := stamp, body := b }], ?_, rfl⟩
  intro n hn
  rw [List.mem_singleton.1 hn]
  cases b <;> simp_all [NoticeBody.isOverflow, Notice.isOverflow]

theorem clearParticipation_control {s t : State} (h : LocalStep s t) :
    ControlStep { s with leases := unknownLeases, roster := none } (clearParticipation t) := by
  obtain ⟨hs, ns, hn, ha⟩ := h
  refine ⟨?_, ns, hn, ha⟩
  unfold clearParticipation
  rw [hs]

theorem teardown_tornDown (cause : TeardownCause) (s : State) : TornDown s (teardown cause s) := by
  have h1 : LocalStep s (revokeClients
      (if s.localState = .member then notifyAll (revokedNotices s (causeReason cause)) s else s)) := by
    refine LocalStep.trans ?_ (revokeClients_local _)
    split
    · exact notifyAll_local _ _ (revokedNotices_bodies _ _)
    · exact LocalStep.refl s
  have h2 := clearParticipation_control h1
  unfold teardown
  dsimp only
  split
  · exact ⟨(h2.trans (beginSeeking_control _)).trans (notifyStamped_local _ _ _ rfl).control, rfl, rfl⟩
  · exact ⟨(h2.trans (ControlStep.ofState _ .detached)).trans (notifyStamped_local _ _ _ rfl).control, rfl, rfl⟩

/-- The local state after a teardown (R145). -/
theorem teardown_localState (cause : TeardownCause) (s : State) :
    (teardown cause s).localState = if seeksAfterTeardown s cause then .seeking else .detached := by
  unfold teardown
  dsimp only
  split <;> rfl

theorem startTimer_of_straps {s t : State} (h : t.straps = s.straps) (n : Nat) : startTimer t n = startTimer s n := by
  unfold startTimer tickPeriodMs
  rw [h]

/-- The timers after a teardown: STOPPED, but for the founding timer of a station that seeks (R144, R133). -/
theorem teardown_timers (cause : TeardownCause) (s : State) :
    (teardown cause s).timers =
      if seeksAfterTeardown s cause then
        { Timers.allStopped with founding := startTimer s Config.foundingPeriods }
      else Timers.allStopped := by
  have hs : ∀ x : State, LocalStep s x → startTimer (clearParticipation x) Config.foundingPeriods =
      startTimer s Config.foundingPeriods := fun x hx => startTimer_of_straps hx.straps _
  have h1 : LocalStep s (revokeClients
      (if s.localState = .member then notifyAll (revokedNotices s (causeReason cause)) s else s)) := by
    refine LocalStep.trans ?_ (revokeClients_local _)
    split
    · exact notifyAll_local _ _ (revokedNotices_bodies _ _)
    · exact LocalStep.refl s
  have h2 := hs _ h1
  unfold teardown
  dsimp only
  by_cases h : seeksAfterTeardown s cause = true
  · rw [if_pos h, if_pos h, notifyStamped_timers]
    unfold beginSeeking
    dsimp only
    rw [h2]
    rfl
  · rw [if_neg h, if_neg h]
    rfl

end Sys2Proof.Machine
end

