-- ==== Sys2Proof/Laws/Leases.lean ====
section
/-! SUPPORT. The lease table: every operation on an entry keeps its fields in range and the limits of R3 and
R4, and so do the operations on the whole table. -/

namespace Sys2Proof.Machine

theorem entryInRange_iff (e : LeaseEntry) :
    entryInRange e = true ↔
      e.holders.length ≤ 4 ∧ e.waiters.length ≤ 8 ∧ (∀ h ∈ e.holders, holderInRange h = true) ∧
        (∀ w ∈ e.waiters, waiterInRange w = true) ∧
        (e.holders.length ≤ 1 ∨ ∀ h ∈ e.holders, h.mode = .shared) ∧ (entryTags e).Nodup := by
  simp [entryInRange, and_assoc]
  rfl

theorem holderInRange_iff (h : Holder) :
    holderInRange h = true ↔
      1 ≤ h.term ∧ h.term ≤ 255 ∧ h.grant ≠ 0 ∧ 1 ≤ h.remaining ∧
        (h.status = .live → h.remaining ≤ h.term) ∧ (h.status = .fenced → h.remaining ≤ 4) := by
  cases hs : h.status <;> simp [holderInRange, hs, and_assoc] <;> intros <;> rfl

theorem waiterInRange_iff (w : Waiter) :
    waiterInRange w = true ↔
      1 ≤ w.term ∧ w.term ≤ 255 ∧ ∀ n, w.patience = .ticks n → 1 ≤ n ∧ n ≤ 254 := by
  cases hp : w.patience <;> simp [waiterInRange, hp, and_assoc]

/-- Fewer holders and waiters, in the same order, stay in range. -/
theorem entryInRange_sublist {e : LeaseEntry} {hs : List Holder} {ws : List Waiter} (he : entryInRange e = true)
    (hh : hs.Sublist e.holders) (hw : ws.Sublist e.waiters) :
    entryInRange { e with holders := hs, waiters := ws } = true := by
  rw [entryInRange_iff] at he ⊢
  obtain ⟨h1, h2, h3, h4, h5, h6⟩ := he
  refine ⟨hh.length_le.trans h1, hw.length_le.trans h2, fun h m => h3 h (hh.subset m), fun w m => h4 w (hw.subset m),
    ?_, ?_⟩
  · rcases h5 with h5 | h5
    · exact Or.inl (hh.length_le.trans h5)
    · exact Or.inr fun h m => h5 h (hh.subset m)
  · exact h6.sublist ((hh.map _).append (hw.map _))

/-! ### Grants (R6, R7, R12) -/

theorem nextGrant_ne_zero (c : BitVec 16) : nextGrant c ≠ 0 := by
  unfold nextGrant
  split
  · decide
  · rename_i h
    intro h0
    apply h
    have : c = 0 - 1 := by rw [← h0]; simp
    rw [this]
    decide

theorem compatible_iff (hs : List Holder) (m : Mode) :
    compatible hs m = true ↔ hs = [] ∨ ((∀ h ∈ hs, h.mode = .shared) ∧ m = .shared ∧ hs.length < 4) := by
  unfold compatible derivedState
  by_cases h0 : hs = []
  · simp [h0]
  · by_cases h1 : hs.any (fun h => h.mode = .exclusive) = true
    · simp only [if_neg h0, if_pos h1, Bool.false_eq_true, false_iff]
      rintro (h | ⟨h, -, -⟩)
      · exact h0 h
      · simp only [List.any_eq_true, decide_eq_true_eq] at h1
        obtain ⟨x, hx, hm⟩ := h1
        rw [h x hx] at hm
        cases hm
    · simp only [if_neg h0, if_neg h1, Bool.and_eq_true, decide_eq_true_eq]
      simp only [Bool.not_eq_true, List.any_eq_false, decide_eq_true_eq] at h1
      constructor
      · rintro ⟨hm, hl⟩
        refine Or.inr ⟨fun h hh => ?_, hm, hl⟩
        have := h1 h hh
        cases hmode : h.mode with
        | exclusive => exact absurd hmode this
        | shared => rfl
      · rintro (h | ⟨-, hm, hl⟩)
        · exact absurd h h0
        · exact ⟨hm, hl⟩

/-- A grant to the head waiter keeps the entry in range. -/
theorem grantTo_inRange (w : Waiter) (ws : List Waiter) (e : LeaseEntry)
    (he : entryInRange { e with waiters := w :: ws } = true) (hc : compatible e.holders w.mode = true) :
    entryInRange { grantTo w.tag w.mode w.term e with waiters := ws } = true := by
  rw [entryInRange_iff] at he ⊢
  rw [compatible_iff] at hc
  obtain ⟨h1, h2, h3, h4, h5, h6⟩ := he
  simp only [List.length_cons, List.mem_cons, forall_eq_or_imp] at h2 h4
  have hw : 1 ≤ w.term ∧ w.term ≤ 255 := by
    have := h4.1
    simp only [waiterInRange, Bool.and_eq_true, decide_eq_true_eq] at this
    exact this.1
  refine ⟨?_, by simp only; omega, ?_, h4.2, ?_, ?_⟩
  · rcases hc with hc | ⟨-, -, hc⟩
    · simp [grantTo, hc]
    · simp only [grantTo, List.length_append, List.length_cons, List.length_nil]; omega
  · intro h hm
    simp only [grantTo, List.mem_append, List.mem_singleton] at hm
    rcases hm with hm | rfl
    · exact h3 h hm
    · have hg := nextGrant_ne_zero e.counter
      rw [holderInRange_iff]
      exact ⟨hw.1, hw.2, hg, hw.1, fun _ => le_refl _, fun h => by cases h⟩
  · rcases hc with hc | ⟨hs, hm, -⟩
    · exact Or.inl (by simp [grantTo, hc])
    · refine Or.inr fun h hmem => ?_
      simp only [grantTo, List.mem_append, List.mem_singleton] at hmem
      rcases hmem with hmem | rfl
      · exact hs h hmem
      · exact hm
  · simpa [entryTags, grantTo, grantedHolder] using h6

/-- The advance procedure keeps the entry in range. -/
theorem advanceQueue_inRange (l : Lease) (ws : List Waiter) (e : LeaseEntry)
    (he : entryInRange { e with waiters := ws } = true) : entryInRange (advanceQueue l ws e).1 = true := by
  induction ws generalizing e with
  | nil => exact he
  | cons w ws ih =>
    simp only [advanceQueue]
    split
    · rename_i hc
      exact ih _ (grantTo_inRange w ws e he hc)
    · exact he

theorem advance_inRange (l : Lease) (e : LeaseEntry) (he : entryInRange e = true) :
    entryInRange (advance l e).1 = true := advanceQueue_inRange l e.waiters e he

/-- After the advance procedure the head waiter, if any, is blocked (R4, R7). -/
theorem advanceQueue_blocked (l : Lease) (ws : List Waiter) (e : LeaseEntry) :
    ∀ w rest, (advanceQueue l ws e).1.waiters = w :: rest →
      compatible (advanceQueue l ws e).1.holders w.mode = false := by
  induction ws generalizing e with
  | nil => intro w rest h; simp [advanceQueue] at h
  | cons w ws ih =>
    simp only [advanceQueue]
    split
    · exact ih _
    · rename_i hc
      intro v rest h
      simp only [List.cons.injEq] at h
      rw [← h.1]
      exact Bool.eq_false_iff.2 hc

/-! ### The frames (R11 to R20) -/

theorem mem_entryTags (e : LeaseEntry) (t : Tag) : e.hasTag t = true ↔ t ∈ entryTags e := by
  simp only [LeaseEntry.hasTag, entryTags, Bool.or_eq_true, List.any_eq_true, decide_eq_true_eq, List.mem_append,
    List.mem_map]

theorem acquireEntry_inRange (l : Lease) (tag : Tag) (m : Mode) (term p : Nat) (e : LeaseEntry)
    (he : entryInRange e = true) (ht : 1 ≤ term ∧ term ≤ 255) (hp : p ≤ 255) :
    entryInRange (acquireEntry l tag m term p e).1 = true := by
  unfold acquireEntry
  split
  · exact he
  · rename_i hdup
    rw [mem_entryTags] at hdup
    split
    · rename_i hg
      obtain ⟨hw, hc⟩ := hg
      have hwl : waiterInRange { tag := tag, mode := m, term := term, patience := .unlimited } = true := by
        simp [waiterInRange, ht]
      have key : entryInRange { e with waiters := [{ tag := tag, mode := m, term := term, patience := .unlimited }] } = true := by
        rw [entryInRange_iff] at he ⊢
        obtain ⟨h1, h2, h3, h4, h5, h6⟩ := he
        refine ⟨h1, by simp, h3, by simpa using hwl, h5, ?_⟩
        simp only [entryTags, hw, List.map_nil, List.append_nil] at h6 hdup
        simp only [entryTags, List.map_cons, List.map_nil, List.nodup_append, List.mem_singleton]
        refine ⟨h6, by simp, ?_⟩
        rintro a ha b rfl hab
        exact hdup (hab ▸ ha)
      have := grantTo_inRange _ [] e key hc
      have hw' : (grantTo tag m term e).waiters = [] := hw
      rw [← hw'] at this
      exact this
    · split
      · exact he
      · split
        · exact he
        · rename_i hp0 hlen
          simp only [Config.waiterLimit, not_le] at hlen
          rw [entryInRange_iff] at he ⊢
          obtain ⟨h1, h2, h3, h4, h5, h6⟩ := he
          refine ⟨h1, by simp; omega, h3, ?_, h5, ?_⟩
          · intro w hwm
            rcases List.mem_append.1 hwm with hwm | hwm
            · exact h4 w hwm
            · rw [List.mem_singleton.1 hwm]
              rw [waiterInRange_iff]
              refine ⟨ht.1, ht.2, fun n hn => ?_⟩
              simp only [patienceOf] at hn
              split at hn
              · cases hn
              · cases hn
                omega
          · have : entryTags { e with waiters := e.waiters ++ [{ tag := tag, mode := m, term := term, patience := patienceOf p }] } = entryTags e ++ [tag] := by
              simp [entryTags]
            rw [this, List.nodup_append]
            refine ⟨h6, by simp, ?_⟩
            rintro a ha b hb hab
            rw [List.mem_singleton.1 hb] at hab
            exact hdup (hab ▸ ha)

theorem releaseEntry_inRange (l : Lease) (tag : Tag) (e : LeaseEntry) (he : entryInRange e = true) :
    entryInRange (releaseEntry l tag e).1 = true := by
  unfold releaseEntry
  split
  · exact advance_inRange l _ (entryInRange_sublist he List.eraseP_sublist (List.Sublist.refl _))
  · split
    · exact advance_inRange l _ (entryInRange_sublist he (List.Sublist.refl _) List.eraseP_sublist)
    · exact he

/-- Holders changed in remaining or status only, each in range, keep the entry in range. -/
theorem entryInRange_mapHolders {e : LeaseEntry} (f : Holder → Holder) (he : entryInRange e = true)
    (ht : ∀ h, (f h).tag = h.tag) (hm : ∀ h, (f h).mode = h.mode)
    (hr : ∀ h ∈ e.holders, holderInRange h = true → holderInRange (f h) = true) :
    entryInRange { e with holders := e.holders.map f } = true := by
  rw [entryInRange_iff] at he ⊢
  obtain ⟨h1, h2, h3, h4, h5, h6⟩ := he
  refine ⟨by simpa using h1, h2, ?_, h4, ?_, ?_⟩
  · intro h hmem
    obtain ⟨g, hg, rfl⟩ := List.mem_map.1 hmem
    exact hr g hg (h3 g hg)
  · rcases h5 with h5 | h5
    · exact Or.inl (by simpa using h5)
    · refine Or.inr fun h hmem => ?_
      obtain ⟨g, hg, rfl⟩ := List.mem_map.1 hmem
      rw [hm, h5 g hg]
  · have : (e.holders.map f).map (·.tag) = e.holders.map (·.tag) := by
      rw [List.map_map]
      exact List.map_congr_left fun h _ => ht h
    simpa [entryTags, this] using h6

theorem renewEntry_inRange (tag : Tag) (e : LeaseEntry) (he : entryInRange e = true) :
    entryInRange (renewEntry tag e) = true := by
  unfold renewEntry
  refine entryInRange_mapHolders _ he ?_ ?_ ?_
  · intro h; split <;> rfl
  · intro h; split <;> rfl
  · intro h _ hr
    split
    · rename_i hl
      simp only [Holder.isLiveOf, Bool.and_eq_true, decide_eq_true_eq] at hl
      simp only [holderInRange, hl.2, Bool.and_eq_true, decide_eq_true_eq] at hr ⊢
      tauto
    · exact hr

/-- The count-down and the removals of a TICK keep the entry in range. -/
theorem tickEntry_inRange (l : Lease) (e : LeaseEntry) (he : entryInRange e = true) :
    entryInRange (tickEntry l e).1 = true := by
  have key : entryInRange
      { countDown e with
        holders := (countDown e).holders.filter fun h => h.remaining ≠ 0
        waiters := (countDown e).waiters.filter fun w => !outOfPatience w } = true := by
    rw [entryInRange_iff] at he ⊢
    obtain ⟨h1, h2, h3, h4, h5, h6⟩ := he
    refine ⟨?_, ?_, ?_, ?_, ?_, ?_⟩
    · refine (List.length_filter_le _ _).trans ?_
      simpa [countDown] using h1
    · refine (List.length_filter_le _ _).trans ?_
      simpa [countDown] using h2
    · intro h hm
      simp only [countDown, List.mem_filter, List.mem_map, decide_eq_true_eq] at hm
      obtain ⟨⟨g, hg, rfl⟩, hne⟩ := hm
      have := h3 g hg
      simp only [holderInRange, Bool.and_eq_true, decide_eq_true_eq] at this hne ⊢
      refine ⟨⟨this.1.1, by omega⟩, ?_⟩
      cases hst : g.status <;> simp_all <;> omega
    · intro w hm
      simp only [countDown, List.mem_filter, List.mem_map] at hm
      obtain ⟨⟨v, hv, rfl⟩, hne⟩ := hm
      have := h4 v hv
      cases hp : v.patience with
      | unlimited => simp_all [waiterInRange, countDownWaiter]
      | ticks n =>
        simp [waiterInRange, countDownWaiter, hp, outOfPatience] at this hne ⊢
        omega
    · rcases h5 with h5 | h5
      · refine Or.inl ((List.length_filter_le _ _).trans ?_)
        simpa [countDown] using h5
      · refine Or.inr fun h hm => ?_
        simp only [countDown, List.mem_filter, List.mem_map] at hm
        obtain ⟨⟨g, hg, rfl⟩, -⟩ := hm
        exact h5 g hg
    · have hsub : (entryTags { countDown e with
          holders := (countDown e).holders.filter fun h => h.remaining ≠ 0
          waiters := (countDown e).waiters.filter fun w => !outOfPatience w }).Sublist (entryTags (countDown e)) :=
        ((List.filter_sublist).map _).append ((List.filter_sublist).map _)
      have htags : entryTags (countDown e) = entryTags e := by
        simp only [entryTags, countDown, List.map_map]
        congr 1
        refine List.map_congr_left fun w _ => ?_
        simp only [Function.comp, countDownWaiter]
        split <;> rfl
      rw [htags] at hsub
      exact h6.sublist hsub
  unfold tickEntry
  dsimp only
  split
  · rename_i hno
    obtain ⟨hg, hl⟩ := hno
    have e1 : (countDown e).holders.filter (fun h => h.remaining ≠ 0) = (countDown e).holders := by
      rw [List.filter_eq_self]
      intro h hm
      rw [List.filter_eq_nil_iff] at hg
      simpa using hg h hm
    have e2 : (countDown e).waiters.filter (fun w => !outOfPatience w) = (countDown e).waiters := by
      rw [List.filter_eq_self]
      intro w hm
      rw [List.filter_eq_nil_iff] at hl
      simpa using hl w hm
    rw [e1, e2] at key
    exact key
  · exact advance_inRange l _ key

/-! ### The purges (R22, R26) -/

theorem removalPurge_inRange (stations : List Station) (l : Lease) (e : LeaseEntry) (he : entryInRange e = true) :
    entryInRange (removalPurge stations l e).1 = true := by
  unfold removalPurge
  split
  · refine advance_inRange l _ ?_
    have h1 := entryInRange_sublist he (List.Sublist.refl _) (List.filter_sublist (p := fun w => !waiterIn stations w))
    refine entryInRange_mapHolders (e := { e with waiters := e.waiters.filter fun w => !waiterIn stations w }) _ h1 ?_ ?_ ?_
    · intro h; split <;> rfl
    · intro h; split <;> rfl
    · intro h _ hr
      split
      · simp only [holderInRange, Bool.and_eq_true, decide_eq_true_eq] at hr ⊢
        exact ⟨⟨hr.1.1, by decide⟩, le_refl _⟩
      · exact hr
  · exact he

theorem leavePurge_inRange (station : Station) (l : Lease) (e : LeaseEntry) (he : entryInRange e = true) :
    entryInRange (leavePurge station l e).1 = true := by
  unfold leavePurge
  split
  · exact advance_inRange l _ (entryInRange_sublist he List.filter_sublist List.filter_sublist)
  · exact he

/-! ### The waiter law (R4) -/

theorem compatible_fits (hs : List Holder) (m : Mode) : compatible hs m = true ↔ Fits hs m := by
  rw [compatible_iff]
  unfold Fits
  tauto

/-- An entry without waiters keeps the waiter law. -/
theorem headBlocked_nil {e : LeaseEntry} (h : e.waiters = []) : HeadBlocked e := by
  intro w rest hw
  rw [h] at hw
  cases hw

/-- Only the modes and the number of the holders, and the head, bear on the waiter law. -/
theorem headBlocked_congr {e d : LeaseEntry} (h : HeadBlocked e)
    (hm : d.holders.map (·.mode) = e.holders.map (·.mode))
    (hw : d.waiters.head?.map (·.mode) = e.waiters.head?.map (·.mode)) : HeadBlocked d := by
  intro w rest hd hf
  rw [hd] at hw
  simp only [List.head?_cons, Option.map_some] at hw
  cases he : e.waiters with
  | nil => rw [he] at hw; cases hw
  | cons v vs =>
    rw [he] at hw
    simp only [List.head?_cons, Option.map_some, Option.some.injEq] at hw
    refine h v vs he ?_
    rw [← hw]
    have hl : d.holders.length = e.holders.length := by simpa using congrArg List.length hm
    have key : ∀ xs ys : List Holder, xs.map (·.mode) = ys.map (·.mode) → (∀ h ∈ xs, h.mode = .shared) →
        ∀ h ∈ ys, h.mode = .shared := by
      intro xs ys hxy hx y hy
      have : y.mode ∈ xs.map (·.mode) := by rw [hxy]; exact List.mem_map_of_mem hy
      obtain ⟨x, hx1, hx2⟩ := List.mem_map.1 this
      rw [← hx2]
      exact hx x hx1
    rcases hf with hf | ⟨h1, h2, h3⟩
    · left
      rw [hf] at hl
      exact List.eq_nil_of_length_eq_zero hl.symm
    · exact Or.inr ⟨h1, key _ _ hm h2, by omega⟩

/-- After the advance procedure the entry keeps the waiter law (R7, R8). -/
theorem advance_blocked (l : Lease) (e : LeaseEntry) : HeadBlocked (advance l e).1 := by
  intro w rest h hf
  have := advanceQueue_blocked l e.waiters e w rest h
  rw [← compatible_fits] at hf
  exact Bool.false_ne_true (this.symm.trans hf)

theorem acquireEntry_blocked (l : Lease) (tag : Tag) (m : Mode) (term p : Nat) (e : LeaseEntry) (he : HeadBlocked e) :
    HeadBlocked (acquireEntry l tag m term p e).1 := by
  unfold acquireEntry
  split
  · exact he
  · split
    · rename_i h
      exact headBlocked_nil (by simpa [grantTo] using h.1)
    · rename_i h
      split
      · exact he
      · split
        · exact he
        · intro w rest hw hf
          dsimp only at hw hf
          cases hq : e.waiters with
          | nil =>
            rw [hq] at hw
            simp only [List.nil_append, List.cons.injEq] at hw
            obtain ⟨rfl, -⟩ := hw
            exact h ⟨hq, (compatible_fits _ _).2 hf⟩
          | cons v vs =>
            rw [hq] at hw
            simp only [List.cons_append, List.cons.injEq] at hw
            obtain ⟨rfl, -⟩ := hw
            exact he _ vs hq hf

theorem releaseEntry_blocked (l : Lease) (tag : Tag) (e : LeaseEntry) (he : HeadBlocked e) :
    HeadBlocked (releaseEntry l tag e).1 := by
  unfold releaseEntry
  split
  · exact advance_blocked l _
  · split
    · exact advance_blocked l _
    · exact he

theorem renewEntry_blocked (tag : Tag) (e : LeaseEntry) (he : HeadBlocked e) : HeadBlocked (renewEntry tag e) := by
  refine headBlocked_congr he ?_ rfl
  unfold renewEntry
  rw [List.map_map]
  refine List.map_congr_left fun h _ => ?_
  simp only [Function.comp]
  split <;> rfl

theorem tickEntry_blocked (l : Lease) (e : LeaseEntry) (he : HeadBlocked e) : HeadBlocked (tickEntry l e).1 := by
  unfold tickEntry
  dsimp only
  split
  · refine headBlocked_congr he ?_ ?_
    · simp [countDown]
    · simp only [countDown, List.head?_map, Option.map_map]
      congr 1
      funext w
      simp only [Function.comp, countDownWaiter]
      split <;> rfl
  · exact advance_blocked l _

theorem removalPurge_blocked (stations : List Station) (l : Lease) (e : LeaseEntry) (he : HeadBlocked e) :
    HeadBlocked (removalPurge stations l e).1 := by
  unfold removalPurge
  split
  · exact advance_blocked l _
  · exact he

theorem leavePurge_blocked (station : Station) (l : Lease) (e : LeaseEntry) (he : HeadBlocked e) :
    HeadBlocked (leavePurge station l e).1 := by
  unfold leavePurge
  split
  · exact advance_blocked l _
  · exact he

/-! ### The whole table -/

/-- Every known entry of the table is in range. -/
def TableLegal (t : LeaseTable) : Prop := ∀ (l : Lease) (e : LeaseEntry), t[l] = some e → entryInRange e = true

theorem entriesLegal_iff (s : State) : EntriesLegal s ↔ TableLegal s.leases := Iff.rfl

theorem unknownLeases_legal : TableLegal unknownLeases := by
  intro l e h
  simp [unknownLeases] at h

theorem foundedLeases_legal : TableLegal foundedLeases := by
  intro l e h
  simp [foundedLeases] at h
  subst h
  decide

/-- What holds of every known entry, and is kept by an operation on one entry, holds after it. -/
theorem updateLease_keeps (P : LeaseEntry → Prop) (l : Lease) (f : LeaseEntry → LeaseEntry × List TableEvent)
    (t : LeaseTable) (ht : ∀ (k : Lease) (e : LeaseEntry), t[k] = some e → P e) (hf : ∀ e, P e → P (f e).1) :
    ∀ (k : Lease) (e : LeaseEntry), (updateLease l f t).1[k] = some e → P e := by
  unfold updateLease
  split
  · exact ht
  · rename_i e he
    intro k d hd
    by_cases hk : l = k
    · subst hk
      simp at hd
      rw [← hd]
      exact hf e (ht l e he)
    · have : l.val ≠ k.val := fun h => hk (Fin.ext h)
      have hv : (t.set l (some (f e).1))[k] = t[k] := by simp [this]
      dsimp only at hd
      rw [hv] at hd
      exact ht k d hd

/-- The same for an operation on every entry. -/
theorem updateAllLeases_keeps (P : LeaseEntry → Prop) (f : Lease → LeaseEntry → LeaseEntry × List TableEvent)
    (t : LeaseTable) (ht : ∀ (k : Lease) (e : LeaseEntry), t[k] = some e → P e) (hf : ∀ l e, P e → P (f l e).1) :
    ∀ (k : Lease) (e : LeaseEntry), (updateAllLeases f t).1[k] = some e → P e := by
  intro l d hd
  simp only [updateAllLeases, Fin.getElem_fin, Vector.getElem_ofFn, Option.map_eq_some_iff] at hd
  obtain ⟨e, he, rfl⟩ := hd
  exact hf _ e (ht l e he)

theorem renewLeases_keeps (P : LeaseEntry → Prop) (j : Station) (entries : List (Lease × Client)) (t : LeaseTable)
    (ht : ∀ (k : Lease) (e : LeaseEntry), t[k] = some e → P e) (hf : ∀ tag e, P e → P (renewEntry tag e)) :
    ∀ (k : Lease) (e : LeaseEntry), (renewLeases j entries t)[k] = some e → P e := by
  unfold renewLeases
  induction entries generalizing t with
  | nil => exact ht
  | cons lc entries ih => exact ih _ (updateLease_keeps P _ _ t ht fun e he => hf _ e he)

theorem updateLease_legal (l : Lease) (f : LeaseEntry → LeaseEntry × List TableEvent) (t : LeaseTable)
    (ht : TableLegal t) (hf : ∀ e, entryInRange e = true → entryInRange (f e).1 = true) :
    TableLegal (updateLease l f t).1 := updateLease_keeps _ l f t ht hf

theorem updateAllLeases_legal (f : Lease → LeaseEntry → LeaseEntry × List TableEvent) (t : LeaseTable)
    (ht : TableLegal t) (hf : ∀ l e, entryInRange e = true → entryInRange (f l e).1 = true) :
    TableLegal (updateAllLeases f t).1 := updateAllLeases_keeps _ f t ht hf

theorem renewLeases_legal (j : Station) (entries : List (Lease × Client)) (t : LeaseTable) (ht : TableLegal t) :
    TableLegal (renewLeases j entries t) := renewLeases_keeps _ j entries t ht renewEntry_inRange

/-- The known entries stay known, and the unknown ones unknown, under an operation on one entry. -/
theorem updateLease_isSome (l : Lease) (f : LeaseEntry → LeaseEntry × List TableEvent) (t : LeaseTable) (k : Lease) :
    ((updateLease l f t).1[k]).isSome = (t[k]).isSome := by
  unfold updateLease
  split
  · rfl
  · rename_i e he
    by_cases hk : l = k
    · subst hk; simp [he]
    · have : l.val ≠ k.val := fun h => hk (Fin.ext h)
      simp [this]

/-- The known entries stay known, and the unknown ones unknown, under an operation on every entry. -/
theorem updateAllLeases_isSome (f : Lease → LeaseEntry → LeaseEntry × List TableEvent) (t : LeaseTable) (k : Lease) :
    ((updateAllLeases f t).1[k]).isSome = (t[k]).isSome := by
  simp [updateAllLeases]

theorem renewLeases_isSome (j : Station) (entries : List (Lease × Client)) (t : LeaseTable) (k : Lease) :
    ((renewLeases j entries t)[k]).isSome = (t[k]).isSome := by
  unfold renewLeases
  induction entries generalizing t with
  | nil => rfl
  | cons lc entries ih => exact (ih _).trans (updateLease_isSome _ _ t k)

end Sys2Proof.Machine
end

