-- ==== Sys2Proof/Laws/Frame.lean ====
section
/-! SUPPORT. The frame end: what a payload that was read is, what taking the outcome and applying the frame can
do, and what a whole frame end leaves of the state. -/

namespace Sys2Proof.Machine

/-! ### Payloads as read (R56, R94) -/

/-- The fields of a payload that reaches the owners are in range (R9, R94, R56). -/
def BodyLegal (b : FrameBody) : Prop :=
  match b with
  | .acquire _ _ _ term patience => 1 ≤ term ∧ term ≤ 255 ∧ patience ≤ 255
  | .snap (.lease _ e) => entryInRange e = true
  | .snap (.roster _ _ _ records) => ∀ i : Station, recordInRange records[i] = true
  | .found n => 1 ≤ n ∧ n ≤ 16
  | _ => True

theorem readEntry_inRange (bytes : List Byte) (e : LeaseEntry) (h : readEntry bytes = some e) :
    entryInRange e = true := by
  unfold readEntry at h
  split at h
  · split at h
    · cases h
    · split at h
      · cases h
      · dsimp only at h
        split at h
        · rename_i hr
          cases h
          exact hr
        · cases h
  · cases h

theorem readRecord_inRange (b0 b1 : Byte) (x : StationRecord) (h : readRecord b0 b1 = some x) :
    recordInRange x = true := by
  unfold readRecord at h
  split at h
  · dsimp only at h
    split at h
    · rename_i hr
      cases h
      exact hr
    · cases h
  · cases h

theorem readRosterItem_legal (bytes : List Byte) (x : SnapItem) (h : readRosterItem bytes = some x) :
    BodyLegal (.snap x) := by
  unfold readRosterItem at h
  split at h
  · rename_i bs n c3 c2 c1 c0 t3 t2 t1 t0 rest
    split at h
    · rename_i hc
      dsimp only at h
      split at h
      · cases h
        intro i
        simp only [Fin.getElem_fin, Vector.getElem_ofFn]
        have hi := hc.2.2.2.2
        simp only [List.all_eq_true, List.mem_finRange, forall_const] at hi
        obtain ⟨y, hy⟩ := Option.isSome_iff_exists.1 (hi i)
        rw [hy]
        exact readRecord_inRange _ _ y hy
      · cases h
    · cases h
  · cases h

theorem readLeaseItem_legal (bytes : List Byte) (x : SnapItem) (h : readLeaseItem bytes = some x) :
    BodyLegal (.snap x) := by
  unfold readLeaseItem at h
  split at h
  · cases h
  · split at h
    · split at h
      · cases h
      · rename_i e he
        cases h
        exact readEntry_inRange _ e he
    · cases h

theorem readPayload_legal (k : FrameKind) (bytes : List Byte) (b : FrameBody) (h : readPayload k bytes = some b) :
    BodyLegal b := by
  cases k with
  | tick => simp only [readPayload] at h; split at h <;> cases h; trivial
  | join => simp only [readPayload] at h; split at h <;> cases h; trivial
  | leave => simp only [readPayload] at h; split at h <;> cases h; trivial
  | found =>
    simp only [readPayload] at h
    split at h
    · split at h
      · rename_i hn; cases h; exact hn
      · cases h
    · cases h
  | snap =>
    simp only [readPayload] at h
    split at h
    · rename_i x hx
      cases h
      exact readRosterItem_legal _ x hx
    · simp only [Option.map_eq_some_iff] at h
      obtain ⟨x, hx, rfl⟩ := h
      exact readLeaseItem_legal _ x hx
  | release =>
    simp only [readPayload] at h
    split at h
    · split at h
      · cases h; trivial
      · cases h
    · cases h
  | renew =>
    simp only [readPayload] at h
    split at h
    · cases h
    · simp only [Option.map_eq_some_iff] at h
      obtain ⟨x, -, rfl⟩ := h
      trivial
  | acquire =>
    simp only [readPayload] at h
    split at h
    · split at h
      · cases h
      · split at h
        · cases h
        · rename_i t p _ _ _ ht
          cases h
          refine ⟨?_, ?_, ?_⟩
          · have : t.toNat ≠ 0 := fun h0 => ht (BitVec.eq_of_toNat_eq (by simpa using h0))
            omega
          · have := t.isLt; omega
          · have := p.isLt; omega
    · cases h

/-- The payload of a frame-end report is in range. -/
theorem frameReport_payload (s : State) (role : Role) (tx : Option Transmission) (cells : List LineCell)
    (b : FrameBody) (h : (frameReport s role tx cells).payload = some b) : BodyLegal b := by
  have he : (frameReport s role tx cells).payload =
      if (frameReport s role tx cells).whole then payloadRead cells else none := rfl
  rw [he] at h
  split at h
  · unfold payloadRead at h
    split at h
    · cases h
    · exact readPayload_legal _ _ b h
  · cases h

/-- The kind of an assigned code (R90). -/
theorem kindOfCode_eq_some (c : BitVec 4) (k : FrameKind) : kindOfCode c = some k ↔ kindCode k = c := by
  cases k <;> revert c <;> decide

/-- A payload is of the kind it is read as. -/
theorem readPayload_kind (k : FrameKind) (bytes : List Byte) (b : FrameBody) (h : readPayload k bytes = some b) :
    bodyKind b = k := by
  cases k with
  | tick => simp only [readPayload] at h; split at h <;> cases h; rfl
  | join => simp only [readPayload] at h; split at h <;> cases h; rfl
  | leave => simp only [readPayload] at h; split at h <;> cases h; rfl
  | found =>
    simp only [readPayload] at h
    split at h
    · split at h <;> cases h; rfl
    · cases h
  | snap =>
    simp only [readPayload] at h
    split at h
    · cases h; rfl
    · simp only [Option.map_eq_some_iff] at h
      obtain ⟨x, -, rfl⟩ := h; rfl
  | release =>
    simp only [readPayload] at h
    split at h
    · split at h <;> cases h; rfl
    · cases h
  | renew =>
    simp only [readPayload] at h
    split at h
    · cases h
    · simp only [Option.map_eq_some_iff] at h
      obtain ⟨x, -, rfl⟩ := h; rfl
  | acquire =>
    simp only [readPayload] at h
    split at h
    · split at h
      · cases h
      · split at h <;> cases h; rfl
    · cases h

/-- The payload read from the cells is of the kind of the header (R93). -/
theorem payloadRead_kind (cells : List LineCell) (b : FrameBody) (h : payloadRead cells = some b) :
    kindCodeRead cells = kindCode (bodyKind b) := by
  unfold payloadRead at h
  split at h
  · cases h
  · rename_i k hk
    rw [readPayload_kind k _ b h]
    exact ((kindOfCode_eq_some _ _).1 hk).symm

/-- The payload of a frame-end report is that of the cells, of the kind of the header. -/
theorem frameReport_payloadRead (s : State) (role : Role) (tx : Option Transmission) (cells : List LineCell)
    (b : FrameBody) (h : (frameReport s role tx cells).payload = some b) :
    payloadRead cells = some b ∧ (frameReport s role tx cells).kindCode = kindCode (bodyKind b) := by
  have he : (frameReport s role tx cells).payload =
      if (frameReport s role tx cells).whole then payloadRead cells else none := rfl
  rw [he] at h
  split at h
  · exact ⟨h, payloadRead_kind cells b h⟩
  · cases h

@[simp] theorem frameReport_required (s : State) (role : Role) (tx : Option Transmission) (cells : List LineCell) :
    (frameReport s role tx cells).required = role.required := rfl

/-! ### Taking the outcome (R118) -/

theorem ControlStep.ofQueue (s : State) (q : OutboundQueue) : ControlStep s { s with queue := q } :=
  (LocalStep.ofQueue s q).control

/-- Taking an outcome keeps the replica, and its notices are not OVERFLOW records. -/
structure OutcomeStep (s : State) (out : State × OwnOutcome) : Prop where
  control : ControlStep s out.1
  noArrival : out.1.notices = s.notices
  bodies : ∀ b ∈ out.2.notices, b.isOverflow = false

theorem discardNotice_body (c : SlotContent) (n : NoticeBody) (h : discardNotice c = some n) :
    n.isOverflow = false := by
  cases c <;> cases h <;> rfl

theorem countAttempt_step (k : Fin 8) (x : Slot) (o : AttemptOutcome) (s : State) :
    OutcomeStep s (countAttempt k x o s) := by
  unfold countAttempt
  generalize (if attemptCounts o x.content then min (x.attempts + 1) Config.attemptLimit else x.attempts) = a
  dsimp only
  split
  · split
    · rename_i n hn
      refine ⟨(ControlStep.ofQueue s _).trans (ControlStep.ofEvidence _ _), rfl, ?_⟩
      intro b hb
      simp only [discardSlot, List.mem_singleton] at hb
      rw [hb]
      exact discardNotice_body _ n hn
    · exact ⟨ControlStep.ofQueue s _, rfl, by simp⟩
  · exact ⟨ControlStep.ofQueue s _, rfl, by simp⟩

theorem failAcquire_step (k : Fin 8) (x : Slot) (l : Lease) (c : Client) (o : AttemptOutcome) (s : State) :
    OutcomeStep s (failAcquire k x l c o s) := by
  unfold failAcquire
  split
  · exact ⟨(ControlStep.ofQueue s _).trans (ControlStep.ofQueue _ _), rfl, by simp [NoticeBody.isOverflow]⟩
  · split
    · exact ⟨ControlStep.ofQueue s _, rfl, by simp [NoticeBody.isOverflow]⟩
    · have h := countAttempt_step k x o s
      dsimp only
      split
      · refine ⟨(h.control.trans (ControlStep.ofQueue _ _)).trans (ControlStep.ofQueue _ _), ?_,
          by simp [NoticeBody.isOverflow]⟩
        exact h.noArrival
      · exact h

/-- The start of the pacing timer is a change of the timers. -/
theorem startPacing_step (s : State) : ControlStep s (startPacing s) := ControlStep.ofTimers s _

theorem failFound_step (k : Fin 8) (x : Slot) (o : AttemptOutcome) (s : State) : OutcomeStep s (failFound k x o s) := by
  unfold failFound
  split
  · exact countAttempt_step k x o s
  · exact ⟨(ControlStep.ofQueue s _).trans (startPacing_step _), rfl, by simp⟩

theorem takeOutcome_step (k : Fin 8) (o : AttemptOutcome) (s : State) : OutcomeStep s (takeOutcome k o s) := by
  unfold takeOutcome
  split
  · exact ⟨ControlStep.refl s, rfl, by simp⟩
  · rename_i x _
    have hf : OutcomeStep s (failAttempt k x o s) := by
      unfold failAttempt
      split
      · exact failAcquire_step _ _ _ _ _ s
      · exact failFound_step _ _ _ s
      · exact countAttempt_step _ _ _ s
    cases o with
    | committed =>
      refine ⟨?_, rfl, by simp [commitAttempt]⟩
      refine (ControlStep.ofQueue s (removeSlot k s.queue)).trans ?_
      exact ⟨rfl, [], by simp, rfl⟩
    | refused =>
      refine ⟨(ControlStep.ofQueue s _).trans (ControlStep.ofTimers _ _), rfl, ?_⟩
      simp [refuseAttempt, NoticeBody.isOverflow]
    | lost => exact hf
    | aborted => exact hf
    | voided => exact hf

theorem ownOutcome_step (slot : Option (Fin 8)) (rep : FrameReport) (s : State) :
    OutcomeStep s (ownOutcome slot rep s) := by
  unfold ownOutcome
  split
  · exact takeOutcome_step _ _ s
  · exact ⟨ControlStep.refl s, rfl, by simp⟩

theorem takeVerdict_control (rep : FrameReport) (s : State) : ControlStep s (takeVerdict rep s) := by
  have h1 : ControlStep s (seekerReadsCommit s) := by
    unfold seekerReadsCommit
    refine ControlStep.trans ?_ (dropMembership_local _ _).control
    exact ⟨rfl, [], by simp, rfl⟩
  have h2 : ControlStep s (seekerReadsFailedFound s) := by
    unfold seekerReadsFailedFound
    exact (ControlStep.ofTimers s _).trans (dropMembership_local _ _).control
  have h3 : ControlStep s (restartSilence s) := ControlStep.ofTimers s _
  unfold takeVerdict
  split <;> (try split) <;> (try split) <;> first | exact h1 | exact h2 | exact h3 | exact ControlStep.refl s

/-! ### Applying the frame (R104) -/

/-- Applying a frame changes the replica only; its ROSTER notices are not OVERFLOW records. -/
structure ApplyStep (s : State) (out : State × FrameEffect) : Prop where
  same : out.1 = { s with roster := out.1.roster, leases := out.1.leases }
  bodies : ∀ b ∈ out.2.rosterNotices, b.isOverflow = false

theorem rosterNotice_body (own j : Station) (x : RosterReason) : ∀ b ∈ rosterNotice own j x, b.isOverflow = false := by
  intro b hb
  unfold rosterNotice at hb
  split at hb
  · cases hb
  · rw [List.mem_singleton.1 hb]; rfl

theorem flatMap_rosterNotice_body (own : Station) (x : RosterReason) (js : List Station) :
    ∀ b ∈ js.flatMap fun i => rosterNotice own i x, b.isOverflow = false := by
  intro b hb
  obtain ⟨i, -, hi⟩ := List.mem_flatMap.1 hb
  exact rosterNotice_body own i x b hi

theorem applyKind_bodies (own : Station) (x : LocalState) (rep : FrameReport) (b : FrameBody) (r : Roster)
    (t : LeaseTable) : ∀ n ∈ (applyKind own x rep b r t).effect.rosterNotices, n.isOverflow = false := by
  intro n hn
  unfold applyKind at hn
  split at hn
  · simp [applyTick] at hn
  · simp at hn
  · split at hn
    · exact rosterNotice_body own _ _ n hn
    · unfold applyJoin at hn
      split at hn
      · rcases List.mem_append.1 hn with hn | hn
        · exact rosterNotice_body own _ _ n hn
        · exact rosterNotice_body own _ _ n hn
      · exact rosterNotice_body own _ _ n hn
  · unfold applyLeave at hn
    split at hn
    · exact rosterNotice_body own _ _ n hn
    · simp at hn
  · unfold applySnap at hn
    split at hn
    · exact flatMap_rosterNotice_body own _ _ n hn
    · simp at hn
  · unfold applyRelease at hn
    split at hn <;> simp at hn
  · unfold applyRenew at hn
    split at hn <;> simp at hn
  · unfold applyAcquire at hn
    split at hn <;> simp at hn

theorem applyKnown_step (rep : FrameReport) (b : FrameBody) (r : Roster) (s : State) :
    ApplyStep s (applyKnown rep b r s) := by
  unfold applyKnown
  split
  · exact ⟨rfl, by simp⟩
  · exact ⟨rfl, applyKind_bodies _ _ _ _ _ _⟩

theorem applyUnknown_step (rep : FrameReport) (b : FrameBody) (s : State) : ApplyStep s (applyUnknown rep b s) := by
  unfold applyUnknown
  split
  · split
    · exact ⟨rfl, by simp⟩
    · split
      · unfold found
        dsimp only
        split
        · exact ⟨rfl, by simp⟩
        · exact ⟨rfl, by simp⟩
      · exact ⟨rfl, by simp⟩
  · split
    · unfold loadRoster
      dsimp only
      split
      · exact ⟨rfl, by simp⟩
      · split
        · exact ⟨rfl, by simp⟩
        · exact ⟨rfl, by simp⟩
    · exact ⟨rfl, by simp⟩
  · exact ⟨rfl, by simp⟩

theorem accountVoid_step (rep : FrameReport) (r : Roster) (s : State) : ApplyStep s (accountVoid rep r s) := by
  unfold accountVoid
  dsimp only
  generalize accountMisses (rep.required.getD []) rep.ackMap r = counted
  have hb := flatMap_rosterNotice_body (stationNumber s) .removed (removalsOf counted)
  by_cases h1 : (removalsOf counted).contains (stationNumber s) = true
  · rw [if_pos h1]
    exact ⟨rfl, hb⟩
  · rw [if_neg h1]
    by_cases h2 : membersToRemove counted = []
    · rw [if_pos h2]
      exact ⟨rfl, hb⟩
    · rw [if_neg h2]
      exact ⟨rfl, hb⟩

theorem applyFrame_step (rep : FrameReport) (s : State) : ApplyStep s (applyFrame rep s) := by
  have hc : ApplyStep s (applyCommit rep s) := by
    unfold applyCommit
    split
    · exact ⟨rfl, by simp⟩
    · split
      · exact ⟨rfl, by simp⟩
      · unfold applyCommitted
        split
        · exact applyUnknown_step _ _ s
        · exact applyKnown_step _ _ _ s
  unfold applyFrame
  split
  · exact ⟨rfl, by simp⟩
  · exact hc
  · exact hc
  · unfold applyVoid
    split
    · exact ⟨rfl, by simp⟩
    · split
      · exact ⟨rfl, by simp⟩
      · exact accountVoid_step _ _ s
  · exact ⟨rfl, by simp⟩

/-- An applied frame with its fields in range keeps the table legal. -/
theorem applyKind_legal (own : Station) (x : LocalState) (rep : FrameReport) (b : FrameBody) (r : Roster)
    (t : LeaseTable) (ht : TableLegal t) (hb : BodyLegal b) : TableLegal (applyKind own x rep b r t).leases := by
  unfold applyKind
  split
  · exact updateAllLeases_legal _ t ht fun l e he => tickEntry_inRange l e he
  · exact ht
  · split
    · exact ht
    · unfold applyJoin
      split
      · exact updateAllLeases_legal _ t ht fun l e he => removalPurge_inRange _ l e he
      · exact ht
  · unfold applyLeave
    split
    · exact updateAllLeases_legal _ t ht fun l e he => leavePurge_inRange _ l e he
    · exact ht
  · rename_i item
    unfold applySnap
    split
    · dsimp only
      split
      · unfold loadItem
        split
        · exact ht
        · rename_i l e
          intro k d hd
          by_cases hk : l = k
          · subst hk
            simp at hd
            rw [← hd]
            exact hb
          · have : l.val ≠ k.val := fun h => hk (Fin.ext h)
            have hv : (t.set l (some e))[k] = t[k] := by simp [this]
            rw [hv] at hd
            exact ht k d hd
      · exact ht
    · exact ht
  · unfold applyRelease
    split
    · exact updateLease_legal _ _ t ht fun e he => releaseEntry_inRange _ _ e he
    · exact ht
  · unfold applyRenew
    split
    · exact renewLeases_legal _ _ t ht
    · exact ht
  · unfold applyAcquire
    split
    · exact updateLease_legal _ _ t ht fun e he =>
        acquireEntry_inRange _ _ _ _ _ e he ⟨hb.1, hb.2.1⟩ hb.2.2
    · exact ht

theorem applyFrame_legal (rep : FrameReport) (s : State) (ht : TableLegal s.leases)
    (hb : ∀ b, rep.payload = some b → BodyLegal b) : TableLegal (applyFrame rep s).1.leases := by
  have hc : TableLegal (applyCommit rep s).1.leases := by
    unfold applyCommit
    split
    · exact ht
    · split
      · exact ht
      · rename_i b hp
        unfold applyCommitted
        split
        · unfold applyUnknown
          split
          · split
            · exact ht
            · split
              · unfold found
                dsimp only
                split
                · exact foundedLeases_legal
                · exact ht
              · exact ht
          · split
            · unfold loadRoster
              dsimp only
              split
              · exact ht
              · split
                · exact ht
                · exact ht
            · exact ht
          · exact ht
        · unfold applyKnown
          split
          · exact ht
          · exact applyKind_legal _ _ _ _ _ _ ht (hb _ hp)
  unfold applyFrame
  split
  · exact ht
  · exact hc
  · exact hc
  · unfold applyVoid
    split
    · exact ht
    · split
      · exact ht
      · unfold accountVoid
        dsimp only
        split
        · exact ht
        · split
          · exact ht
          · exact updateAllLeases_legal _ _ ht fun l e he => removalPurge_inRange _ l e he
  · exact ht

/-! ### The rest of the frame end -/

theorem watchNotices_bodies (s : State) (ev : TableEvent) : ∀ b ∈ watchNotices s ev, b.isOverflow = false := by
  intro b hb
  unfold watchNotices at hb
  split at hb
  · cases ev <;> simp_all [watchOf, NoticeBody.isOverflow]
  · cases hb

theorem eventNotices_bodies (s : State) (ev : TableEvent) : ∀ b ∈ eventNotices s ev, b.isOverflow = false := by
  intro b hb
  unfold eventNotices at hb
  split at hb
  · unfold ownEventNotices at hb
    split at hb
    · split at hb
      · simp only [List.mem_cons, List.not_mem_nil, or_false] at hb
        rcases hb with rfl | rfl <;> rfl
      · rw [List.mem_singleton.1 hb]; rfl
    all_goals first
      | exact watchNotices_bodies s _ b hb
      | (rw [List.mem_singleton.1 hb]; rfl)
      | cases hb
  · exact watchNotices_bodies s ev b hb

theorem handOver_local (s : State) (ev : TableEvent) : LocalStep s (handOver s ev) :=
  (notifyAll_local _ s (eventNotices_bodies s ev)).trans (takeResult_local ev _)

theorem timeUnitEffect_control (fx : FrameEffect) (s : State) : ControlStep s (timeUnitEffect fx s) := by
  unfold timeUnitEffect
  split
  · unfold afterTick
    dsimp only
    split <;> exact ⟨rfl, [], by simp, rfl⟩
  · split
    · unfold afterRemoval
      split <;> exact ⟨rfl, [], by simp, rfl⟩
    · exact ControlStep.refl s

theorem serveClients_local (fx : FrameEffect) (own : OwnOutcome) (s : State) :
    LocalStep s (serveClients fx own s) := by
  have h1 : LocalStep s (serveNeeds s) := serveNeeds_local s
  have h2 : LocalStep (serveNeeds s) (freshNeed own.discarded (serveNeeds s)) := by
    unfold freshNeed
    split
    · exact LocalStep.refl _
    · exact takeSendFailed_local _ _
  have h3 := (h1.trans h2).trans (concludeClients_local _)
  unfold serveClients
  dsimp only
  split
  · exact h3.trans (autoRenew_local _)
  · exact h3

theorem admit_control (fx : FrameEffect) (own : OwnOutcome) (s : State) : ControlStep s (applyAdmission fx own s) := by
  unfold applyAdmission
  split
  · exact enterJoining_control s
  · split
    · exact enterMember_control s
    · exact ControlStep.refl s

theorem placeAtFrameEnd_control (s : State) : ControlStep s (placeAtFrameEnd s) :=
  (transferUnit_control s).trans
    (((foundingTest_local _).trans (joinTest_local _)).trans (leaveHandshake_local _)).control

theorem placeUnlessDiscarded_control (own : OwnOutcome) (s : State) :
    ControlStep s (placeUnlessDiscarded own s) := by
  unfold placeUnlessDiscarded
  split
  · exact ControlStep.ofDuty s (dutyNow s)
  · exact placeAtFrameEnd_control s

/-- A frame end: up to the application of the frame a control step, then the application, then again a control
step, and at the end possibly a teardown. -/
theorem frameEndSteps_course (slot : Option (Fin 8)) (rep : FrameReport) (s : State) :
    ∃ u v w,
      ControlStep s u ∧ (∃ fx, applyFrame rep u = (v, fx)) ∧ ControlStep v w ∧
        (frameEndSteps slot rep s = w ∨ ∃ cause, frameEndSteps slot rep s = teardown cause w) := by
  have h1 := ownOutcome_step slot rep s
  have h2 := takeVerdict_control rep (ownOutcome slot rep s).1
  have h3 := applyFrame_step rep (takeVerdict rep (ownOutcome slot rep s).1)
  have hb : ∀ b ∈ (ownOutcome slot rep s).2.notices ++
      (applyFrame rep (takeVerdict rep (ownOutcome slot rep s).1)).2.rosterNotices, b.isOverflow = false := by
    intro b hb
    rcases List.mem_append.1 hb with hb | hb
    · exact h1.bodies b hb
    · exact h3.bodies b hb
  have h4 := (notifyAll_local _ (applyFrame rep (takeVerdict rep (ownOutcome slot rep s).1)).1 hb).trans
    (LocalStep.foldl _ handOver_local (applyFrame rep (takeVerdict rep (ownOutcome slot rep s).1)).2.events _)
  have h5 := h4.control.trans
    (timeUnitEffect_control (applyFrame rep (takeVerdict rep (ownOutcome slot rep s).1)).2 _)
  have h6 := h5.trans (serveClients_local (applyFrame rep (takeVerdict rep (ownOutcome slot rep s).1)).2
    (ownOutcome slot rep s).2 _).control
  unfold frameEndSteps settleFrameEnd
  dsimp only
  split
  · rename_i cause _
    exact ⟨_, _, _, h1.control.trans h2, ⟨_, rfl⟩, h6, Or.inr ⟨cause, rfl⟩⟩
  · exact ⟨_, _, _, h1.control.trans h2, ⟨_, rfl⟩,
      h6.trans ((admit_control _ _ _).trans (placeUnlessDiscarded_control _ _)), Or.inl rfl⟩

end Sys2Proof.Machine
end

