-- ==== Sys2Proof/Laws/Commands.lean ====
section
/-! SUPPORT. What a command other than FRAME_END can do to the waiting commands, the replica, the notification
queue and the frame in progress. -/

namespace Sys2Proof.Machine

/-- The commands wait as before, the replica is kept or given up, and the notification queue and the frame in
progress stay in order. -/
structure CommandStep (s t : State) : Prop where
  pending : t.pending = s.pending
  replica : (t.leases = s.leases ∧ t.roster = s.roster) ∨ (t.leases = unknownLeases ∧ t.roster = none)
  notices : NoticesLegal s.notices → NoticesLegal t.notices
  frame : FrameAgrees s → FrameAgrees t

namespace CommandStep

theorem refl (s : State) : CommandStep s s := ⟨rfl, Or.inl ⟨rfl, rfl⟩, id, id⟩

theorem trans {s t u : State} (h : CommandStep s t) (k : CommandStep t u) : CommandStep s u := by
  refine ⟨k.pending.trans h.pending, ?_, fun hn => k.notices (h.notices hn), fun hf => k.frame (h.frame hf)⟩
  rcases k.replica with ⟨k1, k2⟩ | hk
  · rcases h.replica with ⟨h1, h2⟩ | ⟨h1, h2⟩
    · exact Or.inl ⟨k1.trans h1, k2.trans h2⟩
    · exact Or.inr ⟨k1.trans h1, k2.trans h2⟩
  · exact Or.inr hk

/-- A known entry stays in range. -/
theorem legal {s t : State} (h : CommandStep s t) (hl : EntriesLegal s) : EntriesLegal t := by
  rcases h.replica with ⟨h1, -⟩ | ⟨h1, -⟩
  · intro l e he
    rw [h1] at he
    exact hl l e he
  · intro l e he
    rw [h1] at he
    exact unknownLeases_legal l e he

end CommandStep

/-- A state that differs in neither of the four parts. -/
theorem CommandStep.ofSame {s t : State} (hp : t.pending = s.pending) (hl : t.leases = s.leases)
    (hr : t.roster = s.roster) (hn : t.notices = s.notices) (hf : t.line.phase = s.line.phase) : CommandStep s t := by
  refine ⟨hp, Or.inl ⟨hl, hr⟩, fun h => hn ▸ h, fun h => ?_⟩
  unfold FrameAgrees RoleOfRoster at *
  rw [hf, hr]
  exact h

theorem ControlStep.command {s t : State} (h : ControlStep s t) : CommandStep s t := by
  refine ⟨h.pending, Or.inl ⟨h.leases, h.roster⟩, h.legal, fun hf => ?_⟩
  unfold FrameAgrees RoleOfRoster at *
  rw [h.phase, h.roster]
  exact hf

theorem LocalStep.command {s t : State} (h : LocalStep s t) : CommandStep s t := h.control.command

theorem driveOutputs_command (s : State) : CommandStep s (driveOutputs s) :=
  CommandStep.ofSame rfl rfl rfl rfl rfl

/-! ### Resets and teardown -/

theorem resetBlocks_command (s : State) : CommandStep s (resetBlocks s) :=
  ⟨rfl, Or.inr ⟨rfl, rfl⟩, fun _ => noticesLegal_nil, fun _ => trivial⟩

theorem startStation_command (s : State) : CommandStep s (startStation s) := by
  unfold startStation
  refine CommandStep.trans ?_ (enterSeeking_control _).command
  exact CommandStep.ofSame rfl rfl rfl rfl rfl

theorem takeReset_command (s : State) : CommandStep s (takeReset s) := by
  unfold takeReset
  dsimp only
  have h : CommandStep s { resetBlocks s with config := configurationAfterReset (autoStart s) } :=
    (resetBlocks_command s).trans (CommandStep.ofSame rfl rfl rfl rfl rfl)
  split
  · exact h.trans (startStation_command _)
  · exact h

/-- A teardown with no frame in progress. -/
theorem teardown_command (cause : TeardownCause) (s : State) (hf : frameInProgress s = false) :
    CommandStep s (teardown cause s) := by
  have h := (teardown_tornDown cause s).control
  refine ⟨h.pending, Or.inr ⟨h.leases, h.roster⟩, h.legal, fun _ => ?_⟩
  have hp := h.phase
  dsimp only at hp
  unfold frameInProgress at hf
  unfold FrameAgrees
  rw [hp]
  revert hf
  cases s.line.phase <;> simp

/-! ### The port -/

theorem endExchange_command (s : State) : CommandStep s (endExchange s) := by
  unfold endExchange
  split
  · exact CommandStep.refl s
  · split
    · exact takeReset_command s
    · exact CommandStep.ofSame rfl rfl rfl rfl rfl

theorem takeRequest_command (code : Byte) (act : State → List Byte × State) (s : State)
    (ha : ∀ t, CommandStep t (act t).2) : CommandStep s (takeRequest code act s) := by
  unfold takeRequest
  exact ((endExchange_command s).trans (ha _)).trans (CommandStep.ofSame rfl rfl rfl rfl rfl)

theorem portRequest_command (code : Byte) (act : State → List Byte × State) (s : State)
    (ha : ∀ t, CommandStep t (act t).2) : CommandStep s (portRequest code act s) := by
  unfold portRequest
  refine CommandStep.trans ?_ (driveOutputs_command _)
  split
  · exact CommandStep.refl s
  · exact takeRequest_command code act s ha

theorem takeConfigureClient_command (a b c d : Byte) (s : State) :
    CommandStep s (takeConfigureClient a b c d s).2 := by
  unfold takeConfigureClient
  split
  · exact CommandStep.refl s
  · split
    · exact CommandStep.ofSame rfl rfl rfl rfl rfl
    · exact CommandStep.refl s

theorem takeConfigureWatch_command (m : BitVec 64) (s : State) : CommandStep s (takeConfigureWatch m s).2 := by
  unfold takeConfigureWatch
  split
  · exact CommandStep.refl s
  · exact CommandStep.ofSame rfl rfl rfl rfl rfl

theorem takeConfigureOptions_command (a : Byte) (s : State) : CommandStep s (takeConfigureOptions a s).2 := by
  unfold takeConfigureOptions
  split
  · exact CommandStep.refl s
  · split
    · exact CommandStep.ofSame rfl rfl rfl rfl rfl
    · split
      · exact CommandStep.ofSame rfl rfl rfl rfl rfl
      · exact CommandStep.refl s

theorem takeStart_command (s : State) : CommandStep s (takeStart s).2 := by
  unfold takeStart
  split
  · exact startStation_command s
  · exact CommandStep.refl s

theorem takeLeave_command (s : State) : CommandStep s (takeLeave s).2 := by
  unfold takeLeave
  split
  · exact (enterLeaving_control s).command
  all_goals exact CommandStep.refl s

theorem takeRejoin_command (s : State) : CommandStep s (takeRejoin s).2 := by
  unfold takeRejoin
  split
  · exact (enterSeeking_control s).command
  · exact CommandStep.refl s

theorem takeAcquire_command (a b c d : Byte) (s : State) : CommandStep s (takeAcquire a b c d s).2 := by
  unfold takeAcquire
  split
  · exact CommandStep.refl s
  · split
    · exact CommandStep.refl s
    · split
      · exact CommandStep.refl s
      · unfold placeAcquireRequest
        split
        · exact CommandStep.refl s
        · split
          · exact CommandStep.refl s
          · exact (LocalStep.ofQueue s _).command

theorem takeRelease_command (a b : Byte) (s : State) : CommandStep s (takeRelease a b s).2 := by
  unfold takeRelease
  split
  · exact CommandStep.refl s
  · split
    · unfold placeReleaseRequest
      split
      · exact CommandStep.refl s
      · dsimp only
        split
        · exact ((requestRelease_local _ _ s).trans (slotFreed_local _)).command
        · exact (requestRelease_local _ _ s).command
    · exact CommandStep.refl s

theorem takeRenew_command (a b : Byte) (s : State) : CommandStep s (takeRenew a b s).2 := by
  unfold takeRenew
  split
  · exact CommandStep.refl s
  · split
    · unfold placeRenewRequest
      split
      · exact CommandStep.refl s
      · split
        · exact CommandStep.refl s
        · exact (LocalStep.ofQueue s _).command
    · exact CommandStep.refl s

theorem takeReadLease_command (a : Byte) (s : State) : CommandStep s (takeReadLease a s).2 := by
  unfold takeReadLease
  split
  · exact CommandStep.refl s
  · split <;> exact CommandStep.refl s

theorem takeReadRoster_command (s : State) : CommandStep s (takeReadRoster s).2 := by
  unfold takeReadRoster
  split <;> exact CommandStep.refl s

theorem takeTakeNotice_command (s : State) : CommandStep s (takeTakeNotice s).2 := by
  unfold takeTakeNotice
  split
  · exact CommandStep.refl s
  · rename_i n rest hn
    refine ⟨rfl, Or.inl ⟨rfl, rfl⟩, fun h => ?_, id⟩
    rw [hn] at h
    exact noticesLegal_tail n rest h

/-! ### The line -/

theorem roleNow_agrees (s : State) : RoleOfRoster s (roleNow s) := ⟨rfl, rfl⟩

theorem tryHead_command (fuel : Nat) (s : State) : CommandStep s (tryHead fuel s) := by
  have hw : ∀ t : State, CommandStep t (waitIdle t) := fun t =>
    ⟨rfl, Or.inl ⟨rfl, rfl⟩, id, fun _ => trivial⟩
  induction fuel generalizing s with
  | zero => exact hw s
  | succ fuel ih =>
    unfold tryHead
    split
    · exact hw s
    · rename_i k x _
      split
      · exact hw s
      · split
        · rename_i b _
          exact ⟨rfl, Or.inl ⟨rfl, rfl⟩, id, fun _ => ⟨rfl, rfl⟩⟩
        · refine CommandStep.trans ?_ (ih _)
          unfold dropSlot
          refine (LocalStep.trans ?_ (slotFreed_local _)).command
          refine (LocalStep.ofQueue s _).trans (notifyAll_local _ _ ?_)
          intro b hb
          unfold dropNotices at hb
          split at hb
          · rw [List.mem_singleton.1 hb]; rfl
          · cases hb

theorem startAttempt_command (o : Opportunity) (s : State) : CommandStep s (startAttempt o s) := by
  unfold startAttempt
  split
  · refine CommandStep.trans ?_ (tryHead_command 16 _)
    exact ⟨rfl, Or.inl ⟨rfl, rfl⟩, id, fun _ => trivial⟩
  · exact CommandStep.refl s

theorem completeQuietGap_command (s : State) : CommandStep s (completeQuietGap s) :=
  startAttempt_command _ s

theorem receiveStartBit_command (s : State) : CommandStep s (receiveStartBit s) := by
  unfold receiveStartBit
  split
  · exact CommandStep.refl s
  · split
    · exact ⟨rfl, Or.inl ⟨rfl, rfl⟩, id, fun _ => roleNow_agrees s⟩
    · exact CommandStep.ofSame rfl rfl rfl rfl rfl

/-! ### Timers and claims -/

theorem expireTick_command (s : State) : CommandStep s (expireTick s) := by
  unfold expireTick
  split
  · exact CommandStep.ofSame rfl rfl rfl rfl rfl
  · exact CommandStep.refl s

theorem expireSilence_command (s : State) : CommandStep s (expireSilence s) := by
  unfold expireSilence
  split
  · dsimp only
    have h : CommandStep s { s with timers := { s.timers with silence := .expired } } :=
      CommandStep.ofSame rfl rfl rfl rfl rfl
    split
    · rename_i hc
      simp only [Bool.and_eq_true, Bool.not_eq_true'] at hc
      exact h.trans (teardown_command _ _ hc.1)
    · exact h
  · exact CommandStep.refl s

theorem expireFounding_command (s : State) : CommandStep s (expireFounding s) := by
  unfold expireFounding
  split
  · exact ((ControlStep.ofTimers s _).trans (foundingTest_local _).control).command
  · exact CommandStep.refl s

theorem expirePacing_command (s : State) : CommandStep s (expirePacing s) := by
  unfold expirePacing
  split
  · exact ((ControlStep.ofTimers s _).trans (foundingTest_local _).control).command
  · exact CommandStep.refl s

theorem expireHoldOff_command (s : State) : CommandStep s (expireHoldOff s) := by
  unfold expireHoldOff
  split
  · exact ((ControlStep.ofTimers s _).trans (joinTest_local _).control).command
  · exact CommandStep.refl s

theorem recogniseClaim_command (c : Client) (level : Bool) (s : State) : CommandStep s (recogniseClaim c level s) :=
  CommandStep.ofSame rfl rfl rfl rfl rfl

theorem claimAsserted_command (c : Client) (s : State) : CommandStep s (claimAsserted c s) := by
  unfold claimAsserted
  split
  · exact CommandStep.ofSame rfl rfl rfl rfl rfl
  · exact (recogniseClaim_command c true s).trans (takeClaimAsserted_local c _).command

theorem claimReleased_command (c : Client) (s : State) : CommandStep s (claimReleased c s) := by
  unfold claimReleased
  split
  · exact (recogniseClaim_command c false s).trans (takeClaimReleased_local c _).command
  · exact CommandStep.ofSame rfl rfl rfl rfl rfl

/-! ### Every command but FRAME_END -/

/-- While RESETn is high an effect is made; while it is low none is. -/
theorem guarded_command (f : State → State) (s : State) (hf : ∀ t, CommandStep t (f t)) :
    CommandStep s (driveOutputs (if s.resetLow then s else f s)) := by
  refine CommandStep.trans ?_ (driveOutputs_command _)
  split
  · exact CommandStep.refl s
  · exact hf s

theorem exec_command (c : Instr) (s t : State) (hc : ∀ cells, c ≠ .frameEnd cells) (h : exec c s = .next t) :
    CommandStep s t := by
  have key : ∀ u : State, CommandStep s u → (Host.Outcome.next u : Host.Outcome State Fault Refusal) = .next t →
      CommandStep s t := by
    intro u hu he
    cases he
    exact hu
  cases c with
  | pinReset =>
    have hr : CommandStep s { resetBlocks s with resetLow := true } :=
      ⟨rfl, Or.inr ⟨rfl, rfl⟩, fun _ => noticesLegal_nil, fun _ => trivial⟩
    exact key _ (hr.trans (driveOutputs_command _)) h
  | pinResetRelease pins =>
    refine key _ (CommandStep.trans (CommandStep.trans ?_ (takeReset_command _)) (driveOutputs_command _)) h
    exact CommandStep.ofSame rfl rfl rfl rfl rfl
  | exchangeDiscarded bs =>
    exact key _ (guarded_command discardExchange s fun t =>
      (endExchange_command t).trans (CommandStep.ofSame rfl rfl rfl rfl rfl)) h
  | status => exact key _ (portRequest_command _ _ s fun t => CommandStep.refl t) h
  | configureClient a b d e => exact key _ (portRequest_command _ _ s (takeConfigureClient_command a b d e)) h
  | configureWatch m => exact key _ (portRequest_command _ _ s (takeConfigureWatch_command m)) h
  | configureOptions a => exact key _ (portRequest_command _ _ s (takeConfigureOptions_command a)) h
  | start => exact key _ (portRequest_command _ _ s takeStart_command) h
  | acquire a b d e => exact key _ (portRequest_command _ _ s (takeAcquire_command a b d e)) h
  | release a b => exact key _ (portRequest_command _ _ s (takeRelease_command a b)) h
  | renew a b => exact key _ (portRequest_command _ _ s (takeRenew_command a b)) h
  | readLease a => exact key _ (portRequest_command _ _ s (takeReadLease_command a)) h
  | readRoster => exact key _ (portRequest_command _ _ s takeReadRoster_command) h
  | takeNotice => exact key _ (portRequest_command _ _ s takeTakeNotice_command) h
  | leave => exact key _ (portRequest_command _ _ s takeLeave_command) h
  | rejoin => exact key _ (portRequest_command _ _ s takeRejoin_command) h
  | reset => exact key _ (portRequest_command _ _ s fun t => CommandStep.refl t) h
  | unknownRequest a => exact key _ (portRequest_command _ _ s fun t => CommandStep.refl t) h
  | softReset => exact key _ (guarded_command _ s takeReset_command) h
  | attemptStart o => exact key _ (guarded_command _ s (startAttempt_command o)) h
  | frameEnd cells => exact absurd rfl (hc cells)
  | tickTimerExpiry => exact key _ (guarded_command _ s expireTick_command) h
  | silenceTimerExpiry => exact key _ (guarded_command _ s expireSilence_command) h
  | foundingTimerExpiry => exact key _ (guarded_command _ s expireFounding_command) h
  | pacingTimerExpiry => exact key _ (guarded_command _ s expirePacing_command) h
  | holdOffTimerExpiry => exact key _ (guarded_command _ s expireHoldOff_command) h
  | claimAsserted c => exact key _ (guarded_command _ s (claimAsserted_command c)) h
  | claimReleased c => exact key _ (guarded_command _ s (claimReleased_command c)) h
  | frameStartBit => exact key _ (guarded_command _ s receiveStartBit_command) h
  | quietGapComplete => exact key _ (guarded_command _ s completeQuietGap_command) h
  | tickoutPulseEnd =>
    exact key _ (guarded_command (fun s => { s with tickout := none }) s fun t =>
      CommandStep.ofSame rfl rfl rfl rfl rfl) h

/-- The clock of the empty queue. -/
theorem clockCycle_command (s : State) : CommandStep s (clockCycle s) := by
  unfold clockCycle
  split
  · exact CommandStep.refl s
  · refine CommandStep.trans ?_ (t := cycleClaims (movePins
      { s with timers := s.timers.cycle, tickout := s.tickout.map fun n => n - 1 })) ?_
    · unfold cycleClaims
      split <;> exact CommandStep.ofSame rfl rfl rfl rfl rfl
    · unfold cycleGap
      split
      · exact CommandStep.refl _
      · split <;> exact CommandStep.ofSame rfl rfl rfl rfl rfl

/-! ### FRAME_END -/

/-- A frame end keeps the waiting commands and the legality of the notification queue, and ends the frame. -/
structure FrameEndStep (s t : State) : Prop where
  pending : t.pending = s.pending
  notices : NoticesLegal s.notices → NoticesLegal t.notices
  frame : FrameAgrees t
  legal : EntriesLegal s → EntriesLegal t

theorem applyFrame_keeps (rep : FrameReport) (u v : State) (fx : FrameEffect) (h : applyFrame rep u = (v, fx)) :
    v.pending = u.pending ∧ v.notices = u.notices ∧ v.line = u.line := by
  have hs := (applyFrame_step rep u).same
  rw [h] at hs
  dsimp only at hs
  rw [hs]
  exact ⟨rfl, rfl, rfl⟩

theorem frameEndSteps_step (slot : Option (Fin 8)) (rep : FrameReport) (s : State)
    (hphase : s.line.phase = .counting) (hb : ∀ b, rep.payload = some b → BodyLegal b) :
    FrameEndStep s (frameEndSteps slot rep s) := by
  obtain ⟨u, v, w, h1, ⟨fx, h2⟩, h3, h4⟩ := frameEndSteps_course slot rep s
  obtain ⟨k1, k2, k3⟩ := applyFrame_keeps rep u v fx h2
  have hw : w.pending = s.pending := by rw [h3.pending, k1, h1.pending]
  have hn : NoticesLegal s.notices → NoticesLegal w.notices := fun h => h3.legal (by rw [k2]; exact h1.legal h)
  have hp : w.line.phase = .counting := by rw [h3.phase, k3, h1.phase, hphase]
  have hl : EntriesLegal s → EntriesLegal w := by
    intro hs l e he
    rw [h3.leases] at he
    have hv : TableLegal v.leases := by
      have := applyFrame_legal rep u (by rw [h1.leases]; exact hs) hb
      rw [h2] at this
      exact this
    exact hv l e he
  rcases h4 with h4 | ⟨cause, h4⟩
  · rw [h4]
    refine ⟨hw, hn, ?_, hl⟩
    unfold FrameAgrees
    rw [hp]
    trivial
  · have hc := teardown_command cause w (by unfold frameInProgress; rw [hp])
    rw [h4]
    refine ⟨hc.pending.trans hw, fun h => hc.notices (hn h), hc.frame ?_, fun h => hc.legal (hl h)⟩
    unfold FrameAgrees
    rw [hp]
    trivial

theorem endFrame_step (cells : List LineCell) (s : State) :
    endFrame cells s = s ∨ FrameEndStep s (endFrame cells s) := by
  have hc : ∀ n rep, FrameEndStep s (closeFrame n rep s) := fun _ _ => ⟨rfl, id, trivial, id⟩
  have hx : ∀ n rep t, FrameEndStep (closeFrame n rep s) t → FrameEndStep s t := fun _ _ _ h =>
    ⟨h.pending, h.notices, h.frame, h.legal⟩
  unfold endFrame
  split
  · exact Or.inl rfl
  · exact Or.inl rfl
  · dsimp only
    split
    · exact Or.inr (hx _ _ _ (frameEndSteps_step none _ _ rfl (frameReport_payload s _ none cells)))
    · exact Or.inr (hc _ _)
  · exact Or.inr (hx _ _ _ (frameEndSteps_step _ _ _ rfl (frameReport_payload s _ _ cells)))

end Sys2Proof.Machine
end

