-- ==== Sys2Proof/Laws/Queue.lean ====
section
/-! SUPPORT. Finding slots in the outbound queue: the lowest free general slot, the slots of a pair of lease and
client, the opened RENEW slot, and what setting a slot leaves (R111, R112, R120, R121). -/

namespace Sys2Proof.Machine

theorem mem_generalSlots (k : Fin 8) : k ∈ generalSlots ↔ k.val < 6 := by
  revert k
  decide

/-- The first general slot that satisfies `p`. -/
theorem find_generalSlots_some (p : Fin 8 → Bool) (k : Fin 8) :
    generalSlots.find? p = some k ↔ k.val < 6 ∧ p k = true ∧ ∀ j : Fin 8, j.val < k.val → p j = false := by
  have key : ∀ a : Fin 8 → Bool, ∀ k : Fin 8,
      generalSlots.find? a = some k ↔
        k.val < 6 ∧ a k = true ∧ ∀ j : Fin 8, j.val < k.val → a j = false := by
    intro a k
    have h0 : generalSlots = [0, 1, 2, 3, 4, 5] := rfl
    rw [h0]
    simp only [List.find?_cons, List.find?_nil]
    constructor
    · intro h
      split at h <;> rename_i h0
      · cases h; exact ⟨by decide, h0, fun j hj => absurd hj (Nat.not_lt_zero _)⟩
      · split at h <;> rename_i h1
        · cases h
          refine ⟨by decide, h1, ?_⟩
          intro j hj
          have : j = 0 := Fin.ext (Nat.lt_one_iff.1 hj)
          rw [this]; exact h0
        · split at h <;> rename_i h2
          · cases h
            refine ⟨by decide, h2, ?_⟩
            intro j hj
            have : j = 0 ∨ j = 1 := by revert hj; revert j; decide
            rcases this with rfl | rfl <;> assumption
          · split at h <;> rename_i h3
            · cases h
              refine ⟨by decide, h3, ?_⟩
              intro j hj
              have : j = 0 ∨ j = 1 ∨ j = 2 := by revert hj; revert j; decide
              rcases this with rfl | rfl | rfl <;> assumption
            · split at h <;> rename_i h4
              · cases h
                refine ⟨by decide, h4, ?_⟩
                intro j hj
                have : j = 0 ∨ j = 1 ∨ j = 2 ∨ j = 3 := by revert hj; revert j; decide
                rcases this with rfl | rfl | rfl | rfl <;> assumption
              · split at h <;> rename_i h5
                · cases h
                  refine ⟨by decide, h5, ?_⟩
                  intro j hj
                  have : j = 0 ∨ j = 1 ∨ j = 2 ∨ j = 3 ∨ j = 4 := by revert hj; revert j; decide
                  rcases this with rfl | rfl | rfl | rfl | rfl <;> assumption
                · cases h
    · rintro ⟨h6, hp, hlow⟩
      have e : k = 0 ∨ k = 1 ∨ k = 2 ∨ k = 3 ∨ k = 4 ∨ k = 5 := by
        clear hp hlow
        revert k
        decide
      have low : ∀ j : Fin 8, j.val < k.val → a j = false := hlow
      rcases e with rfl | rfl | rfl | rfl | rfl | rfl
      · have hp : a 0 = true := hp
        simp [hp]
      · have hp : a 1 = true := hp
        simp [hp, low 0 (by decide)]
      · have hp : a 2 = true := hp
        simp [hp, low 0 (by decide), low 1 (by decide)]
      · have hp : a 3 = true := hp
        simp [hp, low 0 (by decide), low 1 (by decide), low 2 (by decide)]
      · have hp : a 4 = true := hp
        simp [hp, low 0 (by decide), low 1 (by decide), low 2 (by decide), low 3 (by decide)]
      · have hp : a 5 = true := hp
        simp [hp, low 0 (by decide), low 1 (by decide), low 2 (by decide), low 3 (by decide), low 4 (by decide)]
  exact key p k

/-- No general slot satisfies `p`. -/
theorem find_generalSlots_none (p : Fin 8 → Bool) :
    generalSlots.find? p = none ↔ ∀ k : Fin 8, k.val < 6 → p k = false := by
  rw [List.find?_eq_none]
  constructor
  · intro h k hk
    simpa using h k ((mem_generalSlots k).2 hk)
  · intro h k hk
    simpa using h k ((mem_generalSlots k).1 hk)

theorem head_filter {α : Type} (p : α → Bool) (xs : List α) : (xs.filter p).head? = xs.find? p := by
  induction xs with
  | nil => rfl
  | cons a xs ih =>
    by_cases h : p a = true
    · simp [h]
    · simp [h, ih]

/-! ### Free general slots -/

theorem slotFree_iff (q : OutboundQueue) (k : Fin 8) : slotFree q k = true ↔ q.slots[k] = none := by
  unfold slotFree
  cases q.slots[k] <;> simp

theorem freeGeneralSlot_some (q : OutboundQueue) (k : Fin 8) : freeGeneralSlot q = some k ↔ LowestFree q k := by
  unfold freeGeneralSlot LowestFree
  rw [find_generalSlots_some]
  refine and_congr_right fun _ => and_congr (slotFree_iff q k) ?_
  refine forall_congr' fun j => imp_congr_right fun _ => ?_
  rw [Bool.eq_false_iff, Ne, slotFree_iff]

theorem freeGeneralSlot_none (q : OutboundQueue) : freeGeneralSlot q = none ↔ NoneFree q := by
  unfold freeGeneralSlot NoneFree
  rw [find_generalSlots_none]
  refine forall_congr' fun j => imp_congr_right fun _ => ?_
  rw [Bool.eq_false_iff, Ne, slotFree_iff]

/-! ### The slots of a pair -/

/-- The first general slot whose content satisfies `p`. -/
theorem generalSlotsWith_head_some (p : SlotContent → Bool) (q : OutboundQueue) (k : Fin 8) (x : Slot)
    (hk : k.val < 6) (hx : q.slots[k] = some x) (hp : p x.content = true)
    (hlow : ∀ (j : Fin 8) (y : Slot), j.val < k.val → q.slots[j] = some y → p y.content = false) :
    (generalSlotsWith p q).head? = some k := by
  unfold generalSlotsWith
  rw [head_filter, find_generalSlots_some]
  refine ⟨hk, by rw [hx]; exact hp, fun j hj => ?_⟩
  cases hy : q.slots[j] with
  | none => rfl
  | some y => exact hlow j y hj hy

/-- No general slot has a content that satisfies `p`. -/
theorem generalSlotsWith_head_none (p : SlotContent → Bool) (q : OutboundQueue) :
    (generalSlotsWith p q).head? = none ↔
      ∀ (k : Fin 8) (x : Slot), k.val < 6 → q.slots[k] = some x → p x.content = false := by
  unfold generalSlotsWith
  rw [head_filter, find_generalSlots_none]
  constructor
  · intro h k x hk hx
    have := h k hk
    rw [hx] at this
    exact this
  · intro h k hk
    cases hx : q.slots[k] with
    | none => rfl
    | some x => exact h k x hk hx

/-- The slot found holds a content that satisfies `p`. -/
theorem generalSlotsWith_head_spec (p : SlotContent → Bool) (q : OutboundQueue) (k : Fin 8)
    (h : (generalSlotsWith p q).head? = some k) :
    k.val < 6 ∧ ∃ x, q.slots[k] = some x ∧ p x.content = true := by
  unfold generalSlotsWith at h
  rw [head_filter, find_generalSlots_some] at h
  refine ⟨h.1, ?_⟩
  have h2 := h.2.1
  cases hx : q.slots[k] with
  | none => rw [hx] at h2; cases h2
  | some x => rw [hx] at h2; exact ⟨x, rfl, h2⟩

theorem acquireSlot_none (l : Lease) (c : Client) (q : OutboundQueue) :
    acquireSlot l c q = none ↔
      ∀ (k : Fin 8) (x : Slot), k.val < 6 → q.slots[k] = some x → x.content.isAcquireFor l c = false :=
  generalSlotsWith_head_none _ q

theorem releaseSlot_none (l : Lease) (c : Client) (q : OutboundQueue) :
    releaseSlot l c q = none ↔
      ∀ (k : Fin 8) (x : Slot), k.val < 6 → q.slots[k] = some x → x.content.isReleaseFor l c = false :=
  generalSlotsWith_head_none _ q

theorem pairAbsent_iff (q : OutboundQueue) (l : Lease) (c : Client) :
    PairAbsent q l c ↔ acquireSlot l c q = none ∧ releaseSlot l c q = none := by
  rw [acquireSlot_none, releaseSlot_none]
  unfold PairAbsent
  constructor
  · exact fun h => ⟨fun k x hk hx => (h k x hk hx).1, fun k x hk hx => (h k x hk hx).2⟩
  · exact fun h k x hk hx => ⟨h.1 k x hk hx, h.2 k x hk hx⟩

/-! ### The opened RENEW slot -/

/-- What `openedRenew` looks for in one slot. -/
def openedEntries (q : OutboundQueue) (k : Fin 8) : Option (Fin 8 × List (Lease × Client)) :=
  match q.slots[k] with
  | none => none
  | some x =>
    match x.content with
    | .renew entries => if x.opened then some (k, entries) else none
    | _ => none

theorem openedRenew_eq (q : OutboundQueue) : openedRenew q = generalSlots.findSome? (openedEntries q) := rfl

theorem openedEntries_some (q : OutboundQueue) (k j : Fin 8) (entries : List (Lease × Client)) :
    openedEntries q k = some (j, entries) ↔
      j = k ∧ ∃ x, q.slots[k] = some x ∧ x.content = .renew entries ∧ x.opened = true := by
  unfold openedEntries
  split
  · rename_i hx
    simp [hx]
  · rename_i x hx
    split
    · rename_i es hc
      split
      · rename_i ho
        constructor
        · intro h
          cases h
          exact ⟨rfl, x, hx, hc, ho⟩
        · rintro ⟨rfl, y, hy, he, -⟩
          rw [hx] at hy
          cases hy
          rw [hc] at he
          cases he
          rfl
      · rename_i ho
        constructor
        · intro h
          cases h
        · rintro ⟨-, y, hy, -, ho'⟩
          rw [hx] at hy
          cases hy
          exact absurd ho' ho
    · rename_i hn
      constructor
      · intro h
        cases h
      · rintro ⟨-, y, hy, he, -⟩
        rw [hx] at hy
        cases hy
        exact absurd he (hn entries)

theorem openedRenew_none (q : OutboundQueue) : openedRenew q = none ↔ NoneOpened q := by
  rw [openedRenew_eq, List.findSome?_eq_none_iff]
  constructor
  · intro h k x entries hk hx hc
    have hn := h k ((mem_generalSlots k).2 hk)
    cases ho : x.opened with
    | false => rfl
    | true =>
      have := (openedEntries_some q k k entries).2 ⟨rfl, x, hx, hc, ho⟩
      rw [this] at hn
      cases hn
  · intro h k hk
    cases he : openedEntries q k with
    | none => rfl
    | some y =>
      obtain ⟨j, entries⟩ := y
      obtain ⟨-, x, hx, hc, ho⟩ := (openedEntries_some q k j entries).1 he
      have := h k x entries ((mem_generalSlots k).1 hk) hx hc
      rw [this] at ho
      cases ho

/-- The first opened slot is found. -/
theorem openedRenew_first (q : OutboundQueue) (k : Fin 8) (x : Slot) (entries : List (Lease × Client))
    (hk : k.val < 6) (hx : q.slots[k] = some x) (hc : x.content = .renew entries) (ho : x.opened = true)
    (hlow : ∀ (j : Fin 8) (y : Slot) (ys : List (Lease × Client)), j.val < k.val → q.slots[j] = some y →
      y.content = .renew ys → y.opened = false) : openedRenew q = some (k, entries) := by
  have hs : openedEntries q k = some (k, entries) := (openedEntries_some q k k entries).2 ⟨rfl, x, hx, hc, ho⟩
  have hf : generalSlots.find? (fun j => (openedEntries q j).isSome) = some k := by
    rw [find_generalSlots_some]
    refine ⟨hk, by rw [hs]; rfl, fun j hj => ?_⟩
    cases he : openedEntries q j with
    | none => rfl
    | some y =>
      obtain ⟨i, es⟩ := y
      obtain ⟨-, y, hy, hc', ho'⟩ := (openedEntries_some q j i es).1 he
      have := hlow j y es hj hy hc'
      rw [this] at ho'
      cases ho'
  have general : ∀ (f : Fin 8 → Option (Fin 8 × List (Lease × Client))) (ks : List (Fin 8)),
      ks.find? (fun j => (f j).isSome) = some k → ks.findSome? f = f k := by
    intro f ks
    induction ks with
    | nil => intro h; cases h
    | cons a ks ih =>
      intro h
      rw [List.find?_cons] at h
      rw [List.findSome?_cons]
      cases ha : f a with
      | none =>
        rw [ha] at h
        exact ih h
      | some y =>
        rw [ha] at h
        cases h
        exact ha.symm
  rw [openedRenew_eq, general _ _ hf, hs]

/-- What the opened RENEW slot is. -/
theorem openedRenew_spec (q : OutboundQueue) (k : Fin 8) (entries : List (Lease × Client))
    (h : openedRenew q = some (k, entries)) : ∃ x, q.slots[k] = some x ∧ x.content = .renew entries := by
  rw [openedRenew_eq] at h
  obtain ⟨j, -, hj⟩ := List.exists_of_findSome?_eq_some h
  obtain ⟨rfl, x, hx, hc, -⟩ := (openedEntries_some q j k entries).1 hj
  exact ⟨x, hx, hc⟩

/-! ### Setting a slot -/

theorem slots_set_get (v : Vector (Option Slot) 8) (k j : Fin 8) (x : Option Slot) :
    (v.set k x)[j] = if k = j then x else v[j] := by
  simp only [Fin.getElem_fin, Vector.getElem_set]
  by_cases h : k = j
  · subst h; simp
  · rw [if_neg (by simpa [Fin.ext_iff] using h), if_neg h]

end Sys2Proof.Machine
end

