-- ==== Sys2Proof/Laws/Requests.lean ====
section
/-! SUPPORT. Port requests and commands in a state that is ready for them, and what a line client asks of the outbound queue. -/

namespace Sys2Proof.Machine

/-- No RESET exchange open: the exchange ends without an act (R162). -/
theorem endExchange_ready (s : State) (h : PortReady s) : endExchange s = { s with exchange := none } := by
  unfold endExchange
  split
  · rename_i h2; cases s; simp at h2; subst h2; rfl
  · rename_i x h2; rw [if_neg (h.2 x h2)]

/-- A port request in a ready state (R164). -/
theorem portRequest_ready (code : Byte) (act : State → List Byte × State) (s : State) (h : PortReady s) :
    portRequest code act s = answered code (act { s with exchange := none }).1 (act { s with exchange := none }).2 := by
  unfold portRequest answered takeRequest
  rw [endExchange_ready s h, h.1]
  rfl

/-- What the exchange held is no part of what it holds next. -/
theorem answered_forgets_exchange (code : Byte) (b : List Byte) (s : State) : answered code b { s with exchange := none } = answered code b s := rfl

/-- A lease number is read back from its byte. -/
theorem leaseOfByte_ofNat (l : Lease) : leaseOfByte (BitVec.ofNat 8 l.val) = some l := by revert l; decide

/-- A client number is read back from its byte. -/
theorem clientOfByte_ofNat (l : Client) : clientOfByte (BitVec.ofNat 8 l.val) = some l := by revert l; decide

/-- A byte of 64 or more names no lease. -/
theorem leaseOfByte_none (b : Byte) (h : 64 ≤ b.toNat) : leaseOfByte b = none := by unfold leaseOfByte; rw [dif_neg (by omega)]

/-- A byte of 8 or more names no client. -/
theorem clientOfByte_none (b : Byte) (h : 8 ≤ b.toNat) : clientOfByte b = none := by unfold clientOfByte; rw [dif_neg (by omega)]

/-- With RESETn high the effect is made. -/
theorem guarded_high {s : State} (f : State → State) (h : s.resetLow = false) :
    (Host.Outcome.next (driveOutputs (if s.resetLow then s else f s)) : Host.Outcome State Fault Refusal) = .next (driveOutputs (f s)) := by
  rw [h]; rfl

/-- No frame in progress, as the engine tests it. -/
theorem frameInProgress_false_iff (s : State) : frameInProgress s = false ↔ LineQuiet s := by
  unfold frameInProgress LineQuiet; cases s.line.phase <;> simp

/-- The tag test of an entry. -/
theorem hasTag_true_iff (e : LeaseEntry) (t : Tag) : e.hasTag t = true ↔ (∃ h ∈ e.holders, h.tag = t) ∨ ∃ w ∈ e.waiters, w.tag = t := by
  simp [LeaseEntry.hasTag]

/-- The tag test of an entry fails. -/
theorem hasTag_false_iff (e : LeaseEntry) (t : Tag) : e.hasTag t = false ↔ (∀ h ∈ e.holders, h.tag ≠ t) ∧ ∀ w ∈ e.waiters, w.tag ≠ t := by
  simp [LeaseEntry.hasTag]

/-- The tag test of the lease table (R116). -/
theorem tagPresent_iff (s : State) (l t) : tagPresent s l t = true ↔ TagIn s l t := by
  unfold tagPresent TagIn
  cases h : s.leases[l] with
  | none => simp
  | some e => simp [hasTag_true_iff]

/-- The last write of a client record counts. -/
theorem clients_set_set (v : Vector LineClient 8) (c : Fin 8) (x y : LineClient) : (v.set c x).set c y = v.set c y := by
  apply Vector.ext; intro i hi
  simp only [Vector.getElem_set]; split <;> rfl

/-- A client record after a write. -/
theorem clients_set_get (v : Vector LineClient 8) (c d : Fin 8) (x : LineClient) : (v.set c x)[d] = if c = d then x else v[d] := by
  simp only [Fin.getElem_fin, Vector.getElem_set]
  by_cases h : c = d
  · subst h; simp
  · rw [if_neg (fun hx => h (Fin.ext hx)), if_neg h]

/-- The record a new client state leaves. -/
theorem setClientState_eq (c x s) : setClientState c x s = { s with clients := s.clients.set c { s.clients[c] with state := x } } := rfl

/-- An ACQUIRE goes to the lowest free slot (R120, R122). -/
theorem placeAcquire_placed (q l c m t p k) (hp : PairAbsent q l c) (hk : LowestFree q k) : placeAcquire l c m t p q = (.queued k, placeSlot k (.acquire l c m t p) q) := by
  unfold placeAcquire
  rw [((pairAbsent_iff _ _ _).1 hp).1, ((pairAbsent_iff _ _ _).1 hp).2]
  simp only [Option.isSome_none, Bool.or_self, Bool.false_eq_true, if_false]
  unfold placeGeneral
  rw [(freeGeneralSlot_some _ _).2 hk]

/-- No slot is free for the ACQUIRE (R124). -/
theorem placeAcquire_full (q l c m t p) (hp : PairAbsent q l c) (hk : NoneFree q) : placeAcquire l c m t p q = (.slotsFull, q) := by
  unfold placeAcquire
  rw [((pairAbsent_iff _ _ _).1 hp).1, ((pairAbsent_iff _ _ _).1 hp).2]
  simp only [Option.isSome_none, Bool.or_self, Bool.false_eq_true, if_false]
  unfold placeGeneral
  rw [(freeGeneralSlot_none _).2 hk]

/-- A LINE-bound client has its binding. -/
theorem lineBinding_line (s : State) (c l m t) (h : s.config.bindings[c] = .line l m t) : lineBinding s c = some (l, m, t) := by
  unfold lineBinding; rw [h]

/-- A PORT-bound client has no line binding. -/
theorem lineBinding_port (s : State) (c) (h : s.config.bindings[c] = .port) : lineBinding s c = none := by
  unfold lineBinding; rw [h]

/-- A line client asks: placed. -/
theorem raiseAcquire_placed (s : State) (c l m t k) (h : s.config.bindings[c] = .line l m t) (hp : PairAbsent s.queue l c) (hk : LowestFree s.queue k) :
   raiseAcquire c s = { s with queue := placeSlot k (.acquire l c m t 255) s.queue } := by
  unfold raiseAcquire; rw [lineBinding_line s c l m t h]
  simp only [placeAcquire_placed _ _ _ _ _ _ _ hp hk]
  simp

/-- A line client asks: the need waits (R125). -/
theorem raiseAcquire_full (s : State) (c l m t) (h : s.config.bindings[c] = .line l m t) (hp : PairAbsent s.queue l c) (hk : NoneFree s.queue) :
   raiseAcquire c s = setNeed c (some .acquire) s := by
  unfold raiseAcquire; rw [lineBinding_line s c l m t h]
  simp only [placeAcquire_full _ _ _ _ _ _ hp hk]
  simp

/-- A RELEASE of a tag in the table: placed (R123). -/
theorem requestRelease_placed (s : State) (l c k) (hp : PairAbsent s.queue l c) (ht : TagIn s l (ownTag s c)) (hk : LowestFree s.queue k) :
    requestRelease l c s = (.queued k, { s with queue := placeSlot k (.release l c) s.queue }) := by
  have hq : placeRelease l c (tagPresent s l (ownTag s c)) s.queue = (.queued k, placeSlot k (.release l c) s.queue) := by
    unfold placeRelease
    rw [((pairAbsent_iff _ _ _).1 hp).1, ((pairAbsent_iff _ _ _).1 hp).2, (tagPresent_iff _ _ _).2 ht]
    simp only [Option.isSome_none, Bool.false_eq_true, if_false, if_true]
    unfold placeGeneral; rw [(freeGeneralSlot_some _ _).2 hk]
  unfold requestRelease
  simp only [hq]
  simp

/-- A RELEASE of a tag in the table: no slot is free. -/
theorem requestRelease_full (s : State) (l c) (hp : PairAbsent s.queue l c) (ht : TagIn s l (ownTag s c)) (hk : NoneFree s.queue) :
    requestRelease l c s = (.slotsFull, s) := by
  have hq : placeRelease l c (tagPresent s l (ownTag s c)) s.queue = (.slotsFull, s.queue) := by
    unfold placeRelease
    rw [((pairAbsent_iff _ _ _).1 hp).1, ((pairAbsent_iff _ _ _).1 hp).2, (tagPresent_iff _ _ _).2 ht]
    simp only [Option.isSome_none, Bool.false_eq_true, if_false, if_true]
    unfold placeGeneral; rw [(freeGeneralSlot_none _).2 hk]
  unfold requestRelease
  simp only [hq]
  simp

/-- The one ACQUIRE of a pair without a RELEASE. -/
theorem acquireSlot_only (q : OutboundQueue) (l c k x) (hk : (k : Fin 8).val < 6) (hx : q.slots[k] = some x) (ha : x.content.isAcquireFor l c = true)
   (hu : ∀ (j : Fin 8) (y : Slot), j.val < 6 → q.slots[j] = some y → y.content.isReleaseFor l c = false ∧ (y.content.isAcquireFor l c = true → j = k)) :
   acquireSlot l c q = some k ∧ releaseSlot l c q = none := by
  refine ⟨generalSlotsWith_head_some _ q k x hk hx ha ?_, (releaseSlot_none _ _ _).2 fun j y hj hy => (hu j y hj hy).1⟩
  intro j y hj hy
  cases hh : y.content.isAcquireFor l c with
  | false => rfl
  | true => have := (hu j y (by omega) hy).2 hh; subst this; omega

/-- A line client releases (R125). -/
theorem raiseRelease_line (s : State) (c l m t) (h : s.config.bindings[c] = .line l m t) :
   raiseRelease c s = if (requestRelease l c s).1 = .slotsFull then setNeed c (some .release) s else (requestRelease l c s).2 := by
  unfold raiseRelease; rw [lineBinding_line s c l m t h]

/-- A RELEASE that was placed is in the queue. -/
theorem releaseSlot_placed (q : OutboundQueue) (k : Fin 8) (l c) (hk : k.val < 6) : releaseSlot l c (placeSlot k (.release l c) q) ≠ none := by
  intro h
  rw [releaseSlot_none] at h
  have := h k _ hk (by unfold placeSlot; dsimp only; simp; rfl)
  simp [SlotContent.isReleaseFor] at this

/-- With a RELEASE in it the queue holds something of the client. -/
theorem queueHolds_release (s : State) (l c) (h : releaseSlot l c s.queue ≠ none) : queueHoldsNothing s l c = false := by
  unfold queueHoldsNothing
  cases hh : releaseSlot l c s.queue with
  | none => exact absurd hh h
  | some x => simp

/-- With a need waiting the queue holds something of the client. -/
theorem queueHolds_need (s : State) (l c) (h : s.queue.needs[c] ≠ none) : queueHoldsNothing s l c = false := by
  unfold queueHoldsNothing
  cases hh : s.queue.needs[c] with
  | none => exact absurd hh h
  | some x => simp

/-- The membership slot yields (R82, R134). -/
theorem membershipYields_iff (q c) : membershipYields q c = true ↔ MembershipOpen q c := by
  unfold membershipYields MembershipOpen
  have : q.slots[membershipSlot] = q.slots[(7 : Fin 8)] := rfl
  rw [this]
  split
  · rename_i h; simp [h]
  · rename_i x h; simp [h]

/-- A timer that runs. -/
theorem isRunning_iff (t : Timer) : t.isRunning = true ↔ ∃ m, t = .running m := by cases t <;> simp [Timer.isRunning]

/-- A timer that does not run. -/
theorem isRunning_false_iff (t : Timer) : t.isRunning = false ↔ ∀ m, t ≠ .running m := by cases t <;> simp [Timer.isRunning]

open Classical in
/-- The founding test by its conditions (R82). -/
theorem foundingTest_eq (s : State) : foundingTest s = if s.localState = .seeking ∧ s.timers.founding = .expired ∧ (∀ m, s.timers.pacing ≠ .running m) ∧ MembershipOpen s.queue .join then placeMembership .found s else s := by
  unfold foundingTest wantsFounding
  have : ((decide (s.localState = .seeking) && decide (s.timers.founding = .expired) && !s.timers.pacing.isRunning && membershipYields s.queue .join) = true) ↔ (s.localState = .seeking ∧ s.timers.founding = .expired ∧ (∀ m, s.timers.pacing ≠ .running m) ∧ MembershipOpen s.queue .join) := by
    simp only [Bool.and_eq_true, Bool.not_eq_true', decide_eq_true_eq, isRunning_false_iff, membershipYields_iff, and_assoc]
  exact if_congr this rfl rfl

open Classical in
/-- The join test by its conditions (R134). -/
theorem joinTest_eq (s : State) : joinTest s = if s.localState = .seeking ∧ s.joinEvidence = true ∧ (∃ m, s.timers.founding = .running m) ∧ (∀ m, s.timers.holdOff ≠ .running m) ∧ MembershipOpen s.queue .found then placeMembership .join s else s := by
  unfold joinTest joinConditions
  have : ((decide (s.localState = .seeking) && s.joinEvidence && s.timers.founding.isRunning && !s.timers.holdOff.isRunning && membershipYields s.queue .found) = true) ↔ (s.localState = .seeking ∧ s.joinEvidence = true ∧ (∃ m, s.timers.founding = .running m) ∧ (∀ m, s.timers.holdOff ≠ .running m) ∧ MembershipOpen s.queue .found) := by
    simp only [Bool.and_eq_true, Bool.not_eq_true', decide_eq_true_eq, isRunning_false_iff, isRunning_iff, membershipYields_iff, and_assoc]
  exact if_congr this rfl rfl

/-- A RELEASE beside an ACQUIRE in attempt (R122). -/
theorem requestRelease_beside (s : State) (l c) (k j : Fin 8) (x : Slot) (hk : LowestFree s.queue k) (hj : j.val < 6) (hx : s.queue.slots[j] = some x) (ha : x.content.isAcquireFor l c = true) (hi : x.inAttempt = true)
    (hu : ∀ (i : Fin 8) (y : Slot), i.val < 6 → s.queue.slots[i] = some y → y.content.isReleaseFor l c = false ∧ (i.val < j.val → y.content.isAcquireFor l c = false)) :
    requestRelease l c s = (.queued k, { s with queue := placeSlot k (.release l c) s.queue }) := by
  have e1 : acquireSlot l c s.queue = some j := generalSlotsWith_head_some _ _ j x hj hx ha (fun i y hi hy => (hu i y (by omega) hy).2 hi)
  have e2 : releaseSlot l c s.queue = none := (releaseSlot_none _ _ _).2 fun i y hi hy => (hu i y hi hy).1
  have hq : ∀ p, placeRelease l c p s.queue = (.queued k, placeSlot k (.release l c) s.queue) := by
    intro p
    unfold placeRelease
    rw [e1, e2]
    simp only [Option.isSome_none, Bool.false_eq_true, if_false]
    have : slotInAttempt s.queue j = true := by unfold slotInAttempt; rw [hx]; exact hi
    rw [if_pos this]
    unfold placeGeneral; rw [(freeGeneralSlot_some _ _).2 hk]
  unfold requestRelease
  simp only [hq]
  simp

/-- A RELEASE of a tag that is not in the replica (R122). -/
theorem requestRelease_gone (s : State) (l c) (hp : PairAbsent s.queue l c) (ht : ¬ TagIn s l (ownTag s c)) :
    requestRelease l c s = (.notPresent, s) := by
  have ht' : tagPresent s l (ownTag s c) = false := by rw [← Bool.not_eq_true, tagPresent_iff]; exact ht
  have hq : placeRelease l c (tagPresent s l (ownTag s c)) s.queue = (.notPresent, s.queue) := by
    unfold placeRelease
    rw [((pairAbsent_iff _ _ _).1 hp).1, ((pairAbsent_iff _ _ _).1 hp).2, ht']
    simp
  unfold requestRelease
  simp only [hq]
  simp

end Sys2Proof.Machine
end

