-- ==== Sys2Proof/Laws/Exchange.lean ====
section
/-! SUPPORT. What follows the freeing of a general slot neither reads nor changes the open exchange. -/

namespace Sys2Proof.Machine

/-- The operation does not read the exchange, and leaves it. -/
def ExchangeFree (f : State → State) : Prop := ∀ s x, f { s with exchange := x } = { f s with exchange := x }

namespace ExchangeFree

theorem comp {f g : State → State} (hf : ExchangeFree f) (hg : ExchangeFree g) : ExchangeFree fun s => g (f s) := by
  intro s x
  dsimp only
  rw [hf, hg]

/-- A fold of such operations is one. -/
theorem foldl {α : Type} (f : State → α → State) (hf : ∀ a, ExchangeFree fun s => f s a) (xs : List α) :
    ExchangeFree fun s => xs.foldl f s := by
  induction xs with
  | nil => exact fun _ _ => rfl
  | cons a xs ih => exact (hf a).comp ih

end ExchangeFree

theorem requestRelease_exchange (l : Lease) (c : Client) : ExchangeFree fun s => (requestRelease l c s).2 := by
  intro s x
  unfold requestRelease
  dsimp only
  rw [show tagPresent { s with exchange := x } l (ownTag { s with exchange := x } c) = tagPresent s l (ownTag s c) from rfl]
  split <;> rfl

theorem raiseAcquire_exchange (c : Client) : ExchangeFree (raiseAcquire c) := by
  intro s x
  unfold raiseAcquire
  rw [show lineBinding { s with exchange := x } c = lineBinding s c from rfl]
  split
  · rfl
  · dsimp only
    split <;> rfl

theorem raiseRelease_exchange (c : Client) : ExchangeFree (raiseRelease c) := by
  intro s x
  unfold raiseRelease
  rw [show lineBinding { s with exchange := x } c = lineBinding s c from rfl]
  split
  · rfl
  · rename_i l _ _ _
    dsimp only
    have e := requestRelease_exchange l c s x
    dsimp only at e
    rw [e, show (requestRelease l c { s with exchange := x }).1 = (requestRelease l c s).1 from rfl]
    split <;> rfl

theorem serveNeed_exchange (c : Client) : ExchangeFree fun s => serveNeed s c := by
  intro s x
  dsimp only
  unfold serveNeed
  dsimp only
  split
  · exact raiseAcquire_exchange c (setNeed c none s) x
  · exact raiseRelease_exchange c (setNeed c none s) x
  · rfl

theorem concludeClient_exchange (c : Client) : ExchangeFree fun s => concludeClient s c := by
  intro s x
  dsimp only
  unfold concludeClient
  rw [show lineBinding { s with exchange := x } c = lineBinding s c from rfl]
  split
  · rfl
  · dsimp only
    rw [show ∀ l, queueHoldsNothing { s with exchange := x } l c = queueHoldsNothing s l c from fun _ => rfl]
    split
    · split
      · exact raiseAcquire_exchange c (setReclaim c false (setClientState c .asking s)) x
      · rfl
    · rfl

theorem handshakeRelease_exchange (lc : Lease × Client) : ExchangeFree fun s => handshakeRelease s lc := by
  intro s x
  dsimp only
  unfold handshakeRelease
  dsimp only
  split
  · rfl
  · split
    · rfl
    · exact requestRelease_exchange lc.1 lc.2 s x

theorem leaveHandshake_exchange : ExchangeFree leaveHandshake := by
  intro s x
  unfold leaveHandshake
  dsimp only
  split
  · have e := ExchangeFree.foldl handshakeRelease handshakeRelease_exchange (handshakePairs s) s x
    dsimp only at e
    rw [show handshakePairs { s with exchange := x } = handshakePairs s from rfl, e]
    generalize (handshakePairs s).foldl handshakeRelease s = t
    rw [show leaveConditions { t with exchange := x } = leaveConditions t from rfl]
    split <;> rfl
  · rfl

theorem serveNeeds_exchange : ExchangeFree serveNeeds := ExchangeFree.foldl serveNeed serveNeed_exchange allClients

theorem concludeClients_exchange : ExchangeFree concludeClients :=
  ExchangeFree.foldl concludeClient concludeClient_exchange allClients

/-- What follows the freeing of a general slot does not depend on the exchange (R125, R155, R140). -/
theorem slotFreed_exchange : ExchangeFree slotFreed := by
  intro s x
  unfold slotFreed settleQueue
  rw [serveNeeds_exchange, concludeClients_exchange, leaveHandshake_exchange]

end Sys2Proof.Machine
end

