-- ==== Sys2Proof/Laws/Formats.lean ====
section
/-! SUPPORT. What is written in the layouts of frames is read back (R90, R95, R189, R190). -/

namespace Sys2Proof.Machine

/-- A number below 256 is the value of its byte. -/
theorem byteOf_toNat (n : Nat) (h : n < 256) : (byteOf n).toNat = n := by
  unfold byteOf; rw [BitVec.toNat_ofNat]; exact Nat.mod_eq_of_lt h

/-- The lease of the byte of a lease number. -/
theorem leaseOfByte_byteOf (l : Lease) : leaseOfByte (byteOf l.val) = some l := by revert l; decide
/-- The client of the byte of a client number. -/
theorem clientOfByte_byteOf (l : Client) : clientOfByte (byteOf l.val) = some l := by revert l; decide

/-- The entries of a RENEW are read back from their bytes. -/
theorem readEntries_back (es : List (Lease × Client)) : readEntries (es.flatMap fun lc => [byteOf lc.1.val,
    byteOf lc.2.val]) = some es := by
  induction es with
  | nil => rfl
  | cons a es ih =>
    rw [List.flatMap_cons]
    show (match leaseOfByte (byteOf a.1.val), clientOfByte (byteOf a.2.val),
        readEntries (es.flatMap fun lc => [byteOf lc.1.val, byteOf lc.2.val]) with
      | some l, some c, some rest => some ((l, c) :: rest)
      | _, _, _ => none) = _
    rw [leaseOfByte_byteOf, clientOfByte_byteOf, ih]

/-- Tag and mode are read back from the tag byte (R189). -/
theorem tagByte_back (t : Tag) (m : Mode) : tagOfByte (tagByte t m) = t ∧ modeOfTagByte (tagByte t m) = m := by
  have : ∀ (st : Station) (c : Client), tagOfByte (tagByte { station := st, client := c } m) =
      { station := st, client := c } ∧ modeOfTagByte (tagByte { station := st, client := c } m) = m := by
    cases m <;> decide
  exact this t.station t.client

/-- A 16-bit number is read back from its two bytes. -/
theorem word16_back (x : BitVec 16) : word16 (x.extractLsb' 8 8) (x.extractLsb' 0 8) = x := by
  unfold word16
  apply BitVec.eq_of_getLsbD_eq
  intro i hi
  simp only [BitVec.getLsbD_append, BitVec.getLsbD_extractLsb']
  by_cases h : i < 8
  · simp [h]
  · simp only [h, if_false]
    have h2 : i - 8 < 8 := by omega
    simp [h2]
    congr 1; omega

/-- A 32-bit number is read back from its four bytes. -/
theorem word32_back (x : BitVec 32) : word32 (x.extractLsb' 24 8)
    (x.extractLsb' 16 8) (x.extractLsb' 8 8) (x.extractLsb' 0 8) = x := by
  unfold word32
  apply BitVec.eq_of_getLsbD_eq
  intro i hi
  simp only [BitVec.getLsbD_append, BitVec.getLsbD_extractLsb']
  by_cases h1 : i < 8
  · simp [h1]
  · by_cases h2 : i - 8 < 8
    · simp only [h1, h2, if_false, if_true, decide_true, Bool.true_and]
      congr 1; omega
    · by_cases h3 : i - 8 - 8 < 8
      · simp only [h1, h2, h3, if_false, if_true, decide_true, Bool.true_and]
        congr 1; omega
      · simp only [h1, h2, h3, if_false]
        have h4 : i - 8 - 8 - 8 < 8 := by omega
        simp only [h4, decide_true, Bool.true_and]
        congr 1; omega

/-- The holder records of an entry are read back from their bytes (R190). -/
theorem readHolders_back (hs : List Holder) (rest : List Byte) (h : ∀ x ∈ hs, holderInRange x = true) :
    readHolders hs.length (hs.flatMap holderBytes ++ rest) = some (hs, rest) := by
  induction hs with
  | nil => rfl
  | cons a hs ih =>
    have ih := ih (fun x hx => h x (List.mem_cons_of_mem _ hx))
    have ha := h a (List.mem_cons_self ..)
    rw [List.flatMap_cons, List.append_assoc]
    show readHolders (hs.length + 1) (_ :: _ :: _ :: _ :: _ :: _ :: ([] ++ (hs.flatMap holderBytes ++ rest))) = _
    unfold readHolders
    rw [List.nil_append, ih]
    dsimp only
    unfold holderInRange at ha
    simp only [Bool.and_eq_true, decide_eq_true_eq] at ha
    obtain ⟨⟨⟨⟨h1, h2⟩, h3⟩, h4⟩, h5⟩ := ha
    have hr : a.remaining ≤ 255 := by
      cases hst : a.status with
      | live => rw [hst] at h5; have h6 : a.remaining ≤ a.term := by simpa using h5
                omega
      | fenced => rw [hst] at h5; have h6 : a.remaining ≤ 4 := of_decide_eq_true h5
                  omega
    rw [(tagByte_back a.tag a.mode).1, (tagByte_back a.tag a.mode).2, byteOf_toNat _ (by omega),
        byteOf_toNat _ (by omega), word16_back]
    have : (if (statusByte a.status).getLsbD 0 = true then HolderStatus.fenced else HolderStatus.live) = a.status :=
        by
      cases a.status <;> rfl
    rw [this]

/-- The waiter records of an entry are read back from their bytes (R190). -/
theorem readWaiters_back (ws : List Waiter) (h : ∀ x ∈ ws, waiterInRange x = true) :
    readWaiters ws.length (ws.flatMap waiterBytes) = some ws := by
  induction ws with
  | nil => rfl
  | cons a ws ih =>
    have ih := ih (fun x hx => h x (List.mem_cons_of_mem _ hx))
    have ha := h a (List.mem_cons_self ..)
    rw [List.flatMap_cons]
    show readWaiters (ws.length + 1) (_ :: _ :: _ :: ([] ++ ws.flatMap waiterBytes)) = _
    unfold readWaiters
    rw [List.nil_append, ih]
    dsimp only
    unfold waiterInRange at ha
    simp only [Bool.and_eq_true, decide_eq_true_eq] at ha
    obtain ⟨⟨h1, h2⟩, h5⟩ := ha
    rw [(tagByte_back a.tag a.mode).1, (tagByte_back a.tag a.mode).2, byteOf_toNat _ (by omega)]
    have : patienceOfByte (patienceByte a.patience) = a.patience := by
      cases hp : a.patience with
      | unlimited => rfl
      | ticks n =>
        rw [hp] at h5
        simp at h5
        unfold patienceOfByte patienceByte
        dsimp only
        rw [if_neg, byteOf_toNat _ (by omega)]
        intro he
        have := congrArg BitVec.toNat he
        rw [byteOf_toNat _ (by omega)] at this
        simp at this; omega
    rw [this]

/-- The two halves of a byte are read back. -/
theorem nibbles_back (a b : Nat) (ha : a < 16) (hb : b < 16) :
    ((BitVec.ofNat 4 a ++ BitVec.ofNat 4 b).extractLsb' 4 4).toNat = a ∧
    ((BitVec.ofNat 4 a ++ BitVec.ofNat 4 b).extractLsb' 0 4).toNat = b := by
  interval_cases a <;> interval_cases b <;> decide

/-- A lease entry in range is read back from its bytes (R190). -/
theorem readEntry_back (e : LeaseEntry) (h : entryInRange e = true) : readEntry (entryBytes e) = some e := by
  have h' := h
  unfold entryInRange at h
  simp only [Bool.and_eq_true, decide_eq_true_eq, List.all_eq_true] at h
  obtain ⟨⟨⟨⟨⟨h1, h2⟩, h3⟩, h4⟩, h5⟩, h6⟩ := h
  simp only [Config.holderLimit, Config.waiterLimit] at h1 h2
  show readEntry (_ :: _ :: _ :: ([] ++ e.holders.flatMap holderBytes ++ e.waiters.flatMap waiterBytes)) = _
  unfold readEntry
  dsimp only
  rw [(nibbles_back e.holders.length e.waiters.length (by omega) (by omega)).1,
      (nibbles_back e.holders.length e.waiters.length (by omega) (by omega)).2,
    List.nil_append, readHolders_back _ _ h3]
  dsimp only
  rw [readWaiters_back _ h4]
  dsimp only
  rw [word16_back]
  rw [if_pos h']

/-- A holder record takes six bytes. -/
theorem holderBytes_length (hs : List Holder) : (hs.flatMap holderBytes).length = 6 * hs.length := by
  induction hs with
  | nil => rfl
  | cons a hs ih =>
    rw [List.flatMap_cons, List.length_append, ih]
    show 6 + _ = _
    simp only [List.length_cons]; omega

/-- A waiter record takes three bytes. -/
theorem waiterBytes_length (ws : List Waiter) : (ws.flatMap waiterBytes).length = 3 * ws.length := by
  induction ws with
  | nil => rfl
  | cons a hs ih =>
    rw [List.flatMap_cons, List.length_append, ih]
    show 3 + _ = _
    simp only [List.length_cons]; omega

/-- The number of bytes of a lease entry. -/
theorem entryBytes_length (e : LeaseEntry) : (entryBytes e).length =
    3 + 6 * e.holders.length + 3 * e.waiters.length := by
  unfold entryBytes
  rw [List.length_append, List.length_append, holderBytes_length, waiterBytes_length]
  rfl

/-- A station record in range is read back from its two bytes (R190). -/
theorem readRecord_back (x : StationRecord) (h : recordInRange x = true) :
    readRecord ((recordStateBits x.state ++ (0 : BitVec 4) ++ BitVec.ofNat 2 x.miss.val)) (progressByte x.progress) =
        some x := by
  obtain ⟨st, miss, pr⟩ := x
  have hst : ∀ (st : RecordState) (miss : Fin 4), recordStateOfBits
      ((recordStateBits st ++ (0 : BitVec 4) ++ BitVec.ofNat 2 miss.val).extractLsb' 6 2) = some st := by
    intro st miss; cases st <;> revert miss <;> decide
  have hm : ∀ (st : RecordState) (miss : Fin 4), (⟨((recordStateBits st ++
      (0 : BitVec 4) ++ BitVec.ofNat 2 miss.val).extractLsb' 0 2).toNat,
      ((recordStateBits st ++ (0 : BitVec 4) ++ BitVec.ofNat 2 miss.val).extractLsb' 0 2).isLt⟩ : Fin 4) = miss := by
    intro st miss; cases st <;> revert miss <;> decide
  have hp : progressOfByte (progressByte pr) = some pr := by
    cases pr with
    | none => rfl
    | some p =>
      cases p with
      | awaitingRoster => rfl
      | remaining r =>
        have hr : 1 ≤ r ∧ r ≤ 64 := by
          unfold recordInRange at h
          cases st <;> simp at h
          exact h
        unfold progressOfByte progressByte
        dsimp only
        have := byteOf_toNat r (by omega)
        rw [if_neg (by intro he; rw [he] at this; simp at this; omega), if_neg
            (by intro he; rw [he] at this; simp at this; omega), if_pos (by omega), this]
  unfold readRecord
  dsimp only
  rw [hst, hp]
  dsimp only
  rw [hm, if_pos h]

/-- The sixteen records take 32 bytes. -/
theorem allRecordBytes_length (v : Vector StationRecord 16) : (allRecordBytes v).length = 32 := by
  unfold allRecordBytes
  rw [show List.finRange 16 = [0,1,2,3,4,5,6,7,8,9,10,11,12,13,14,15] from by decide]
  rfl

/-- Each record of a roster item is read back. -/
theorem readItemRecord_back (n : Nat) (c t : BitVec 32) (v : Vector StationRecord 16)
    (i : Station) (h : recordInRange v[i] = true) :
    readItemRecord (payloadBytes (.snap (.roster n c t v))) i = some v[i] := by
  have e : readItemRecord (payloadBytes (.snap (.roster n c t v))) i =
      readRecord ((recordStateBits v[i].state ++ (0 : BitVec 4) ++ BitVec.ofNat 2 v[i].miss.val))
      (progressByte v[i].progress) := by
    unfold readItemRecord payloadBytes allRecordBytes
    rw [show List.finRange 16 = [0,1,2,3,4,5,6,7,8,9,10,11,12,13,14,15] from by decide]
    clear h
    fin_cases i <;> rfl
  rw [e, readRecord_back _ h]

/-- A roster item in range is read back from its bytes. -/
theorem readRosterItem_back (n : Nat) (c t : BitVec 32) (v : Vector StationRecord 16)
    (h1 : 1 ≤ n) (h2 : n ≤ 16) (h3 : ∀ i : Station, recordInRange v[i] = true)
    (h4 : ((List.finRange 16).filter fun i : Fin 16 => v[i].state ≠ .absent).length ≤ n) :
    readRosterItem (payloadBytes (.snap (.roster n c t v))) = some (.roster n c t v) := by
  have hi := fun i => readItemRecord_back n c t v i (h3 i)
  have hb : payloadBytes (.snap (.roster n c t v)) = 0x00 :: byteOf n :: c.extractLsb' 24 8 :: c.extractLsb' 16 8 ::
      c.extractLsb' 8 8 :: c.extractLsb' 0 8 :: t.extractLsb' 24 8 :: t.extractLsb' 16 8 :: t.extractLsb' 8 8 ::
      t.extractLsb' 0 8 :: allRecordBytes v := rfl
  rw [hb] at hi ⊢
  unfold readRosterItem
  show (if _ then _ else _) = _
  have hl := allRecordBytes_length v
  have hn := byteOf_toNat n (by omega)
  rw [if_pos]
  · have hv : (Vector.ofFn fun i : Fin 16 => (readItemRecord (0x00 :: byteOf n :: c.extractLsb' 24 8 ::
      c.extractLsb' 16 8 :: c.extractLsb' 8 8 :: c.extractLsb' 0 8 :: t.extractLsb' 24 8 :: t.extractLsb' 16 8 ::
      t.extractLsb' 8 8 :: t.extractLsb' 0 8 ::
      allRecordBytes v) i).getD { state := .absent, miss := 0, progress := none }) = v := by
      apply Vector.ext; intro i hi'
      rw [Vector.getElem_ofFn, hi]; rfl
    rw [hv, if_pos, word32_back, word32_back, hn]
    rw [hn]; exact h4
  · refine ⟨by simp [hl], hl, by omega, by omega, ?_⟩
    rw [List.all_eq_true]; intro i _; rw [hi]; rfl

/-- Cells that carry the given bytes read as them. -/
theorem readBytes_eq (bs : List Byte) (cells : List LineCell) (first : Nat) (n : Nat) (hn : n =
    bs.length) (h : ∀ i d, bs[i]? = some d → (readCell cells (first + i)).data = d) : readBytes cells first n = bs :=
    by
  subst hn
  unfold readBytes
  apply List.ext_getElem
  · simp
  · intro i h1 h2
    rw [List.getElem_map, List.getElem_range]
    exact h i _ (List.getElem?_eq_getElem h2)

/-- A bit equal to the top bit of the register only shifts it (R95). -/
theorem crcBit_self (c : BitVec 16) : crcBit c (c.getLsbD 15) = c <<< 1 := by
  unfold crcBit; simp

/-- A register that takes its own two bytes comes to 0. -/
theorem crc_own_bytes (c : BitVec 16) : ((bitsOf (c.extractLsb' 8 8) ++ bitsOf (c.extractLsb' 0 8))).foldl crcBit c =
    0 := by
  unfold bitsOf
  simp only [List.map_cons, List.map_nil, List.cons_append, List.nil_append, List.foldl_cons, List.foldl_nil]
  have h : ∀ (k : Nat) (b : Bool) , k < 16 → b = c.getLsbD (15 - k) → crcBit (c <<< k) b = c <<< (k + 1) := by
    intro k b hk hb
    have : b = (c <<< k).getLsbD 15 := by rw [hb, BitVec.getLsbD_shiftLeft]; simp; omega
    rw [this, crcBit_self, BitVec.shiftLeft_add]
  have g : ∀ (i : Nat), i < 8 → (c.extractLsb' 8 8).getLsbD i = c.getLsbD (8 + i) ∧ (c.extractLsb' 0 8).getLsbD i =
      c.getLsbD i := by
    intro i hi
    simp [hi]
  have e0 : c = c <<< 0 := by simp
  rw [show crcBit c ((c.extractLsb' 8 8).getLsbD 7) = c <<< 1 from by rw [(g 7 (by omega)).1]; exact crcBit_self c]
  rw [h 1 _ (by omega) (g 6 (by omega)).1, h 2 _ (by omega) (g 5 (by omega)).1, h 3 _ (by omega) (g 4 (by omega)).1,
      h 4 _ (by omega) (g 3 (by omega)).1,
    h 5 _ (by omega) (g 2 (by omega)).1, h 6 _ (by omega) (g 1 (by omega)).1, h 7 _ (by omega) (g 0 (by omega)).1,
    h 8 _ (by omega) (g 7 (by omega)).2, h 9 _ (by omega) (g 6 (by omega)).2, h 10 _ (by omega) (g 5 (by omega)).2,
        h 11 _ (by omega) (g 4 (by omega)).2,
    h 12 _ (by omega) (g 3 (by omega)).2, h 13 _ (by omega) (g 2 (by omega)).2, h 14 _ (by omega) (g 1 (by omega)).2,
        h 15 _ (by omega) (g 0 (by omega)).2]
  simp

/-- Kind code and station are read back from the header byte. -/
theorem headerByte_back (k : FrameKind) (i : Station) : (headerByte k i).extractLsb' 4 4 = kindCode k ∧
    stationOfLowBits (headerByte k i) = i := by
  cases k <;> revert i <;> decide

end Sys2Proof.Machine
end

