-- ==== Sys2Proof/Laws/Receiver.lean ====
section
/-! SUPPORT. The frame end of a plain MEMBER that only receives: which of its parts change nothing, and what is left. -/

namespace Sys2Proof.Machine

/-- A fold of operations that change nothing. -/
theorem foldl_fixed {α β} (f : α → β → α) (a : α) (h : ∀ b, f a b = a) (bs : List β) : bs.foldl f a = a := by
  induction bs with
  | nil => rfl
  | cons b bs ih => rw [List.foldl_cons, h, ih]

/-- No need waits. -/
theorem serveNeeds_none (s : State) (hn : ∀ d : Client, s.queue.needs[d] = none) : serveNeeds s = s := by
  refine foldl_fixed _ _ (fun d => ?_) _
  unfold serveNeed; rw [hn d]; split <;> simp_all

/-- No client is LINE-bound. -/
theorem concludeClients_port (s : State) (hp : ∀ d : Client, s.config.bindings[d] = .port) : concludeClients s = s := by
  refine foldl_fixed _ _ (fun d => ?_) _
  unfold concludeClient; rw [lineBinding_port s d (hp d)]

/-- No client is RELEASING. -/
theorem concludeClients_none (s : State) (hc : ∀ d : Client, s.clients[d].state ≠ .releasing) : concludeClients s = s := by
  refine foldl_fixed _ _ (fun d => ?_) _
  unfold concludeClient; split
  · rfl
  · rw [if_neg (fun hx => hc d hx.1)]

/-- No client is LINE-bound. -/
theorem autoRenew_port (s : State) (hp : ∀ d : Client, s.config.bindings[d] = .port) : autoRenew s = s := by
  unfold autoRenew; split
  · refine foldl_fixed _ _ (fun d => ?_) _
    unfold renewClient; rw [lineBinding_port s d (hp d)]
  · rfl

/-- With every client PORT-bound and no need waiting nothing is served. -/
theorem serveClients_port (fx : FrameEffect) (s : State) (hp : ∀ d : Client, s.config.bindings[d] = .port) (hn : ∀ d : Client, s.queue.needs[d] = none) :
   serveClients fx {} s = s := by
  unfold serveClients
  rw [serveNeeds_none s hn, show freshNeed ({} : OwnOutcome).discarded s = s from rfl, concludeClients_port s hp]
  dsimp only
  rw [autoRenew_port s hp, ite_self]

/-- The notices of one stamp arrive in their order (R185). -/
theorem notifyAll_arrive (bs : List NoticeBody) (s : State) : notifyAll bs s = { s with notices := arriveInOrder (commitStamp s) bs s.notices } := by
  induction bs generalizing s with
  | nil => rfl
  | cons b bs ih =>
    show notifyAll bs (notify b s) = _
    rw [ih]; rfl

/-- Arrivals one list after the other. -/
theorem arriveInOrder_append (st a b q) : arriveInOrder st (a ++ b) q = arriveInOrder st b (arriveInOrder st a q) := by
  unfold arriveInOrder; rw [List.foldl_append]

/-- A hand-over to PORT-bound clients is its notices. -/
theorem handOver_port (s : State) (ev) (hp : ∀ d : Client, s.config.bindings[d] = .port) : handOver s ev = notifyAll (eventNotices s ev) s := by
  unfold handOver takeResult
  split
  · rw [lineBinding_port]
    rw [notifyAll_arrive]; exact hp _
  · rfl

/-- Hand-overs to PORT-bound clients are their notices. -/
theorem handOvers_port (evs : List TableEvent) (s : State) (hp : ∀ d : Client, s.config.bindings[d] = .port) :
   evs.foldl handOver s = { s with notices := arriveInOrder (commitStamp s) (evs.flatMap (eventNotices s)) s.notices } := by
  induction evs generalizing s with
  | nil => rfl
  | cons e es ih =>
    rw [List.foldl_cons, handOver_port s e hp, notifyAll_arrive, ih _ (by exact hp)]
    rw [List.flatMap_cons, arriveInOrder_append]; rfl

/-- No record is JOINING. -/
theorem anyJoining_none (r : Roster) (h : ∀ i : Station, r.records[i].state ≠ .joining) : anyJoining r = false := by
  unfold anyJoining joiningStations allStations
  simp [List.filter_eq_nil_iff]; exact h

/-- The source duty of a MEMBER (R57). -/
theorem dutyNow_find (s : State) (r) (hr : s.roster = some r) (hm : s.localState = .member) : dutyNow s = decide ((List.finRange 16).find? (fun i : Fin 16 => r.records[i].state = .member) = some (stationNumber s)) := by
  unfold dutyNow; rw [hr]; dsimp only
  rw [hm]
  unfold sourceStation memberStations allStations
  rw [head_filter]
  simp

/-- A plain frame end places nothing. -/
theorem placeAtFrameEnd_plain (t : State) (r) (hr : t.roster = some r) (hm : t.localState = .member) (hj : ∀ i : Station, r.records[i].state ≠ .joining) (h7 : t.queue.slots[(7 : Fin 8)] = none) :
  placeAtFrameEnd t = { t with sourceDuty := dutyNow t } := by
  have e1 : transferUnit t = { t with sourceDuty := dutyNow t } := by
    unfold transferUnit
    have hrun : transferRunning { t with sourceDuty := dutyNow t } = false := by
      unfold transferRunning; dsimp only; rw [hr]; exact anyJoining_none r hj
    have hmem : membershipHolds t.queue .snap = false := by
      unfold membershipHolds; rw [show t.queue.slots[membershipSlot] = none from h7]
    dsimp only
    unfold dropMembership
    dsimp only
    rw [hrun, hmem]
    simp
  unfold placeAtFrameEnd
  rw [e1]
  unfold foundingTest wantsFounding joinTest joinConditions leaveHandshake
  dsimp only
  rw [hm]
  simp

/-- Every state but STANDBY and DETACHED is engaged. -/
theorem engaged_of_state (role : Role) (h1 : role.localState ≠ .standby) (h2 : role.localState ≠ .detached) : role.engaged = true := by
  unfold Role.engaged; revert h1 h2; cases role.localState <;> simp

/-- A frame end at an engaged receiver. -/
theorem endFrame_receiving (cells : List LineCell) (s : State) (role) (hp : s.line.phase = .receiving role) (he : role.engaged = true) :
   endFrame cells s = frameEndSteps none (frameReport s role none cells) (closeFrame 0 (frameReport s role none cells) s) := by
  unfold endFrame
  split
  · rename_i h'; rw [hp] at h'; cases h'
  · rename_i h'; rw [hp] at h'; cases h'
  · rename_i role' h'; rw [hp] at h'; cases h'
    dsimp only
    rw [if_pos he]
  · rename_i role' h'; rw [hp] at h'; cases h'

/-- A payload is read by an engaged station only. -/
theorem engaged_of_payload (s role cells b) (h : (frameReport s role none cells).payload = some b) : role.engaged = true := by
  unfold frameReport at h
  simp at h
  exact h.1.1

/-- The steps of a frame end at a receiver. -/
theorem frameEndSteps_receiver (rep : FrameReport) (s : State) : frameEndSteps none rep s =
   (let app := applyFrame rep (takeVerdict rep s)
    let reported := app.2.events.foldl handOver (notifyAll app.2.rosterNotices app.1)
    settleFrameEnd app.2 {} (serveClients app.2 {} (timeUnitEffect app.2 reported))) := rfl

/-- Without a discard the placing of a frame end is made. -/
theorem placeUnlessDiscarded_none (own : OwnOutcome) (s : State) (h : own.discarded = none) :
    placeUnlessDiscarded own s = placeAtFrameEnd s := by
  unfold placeUnlessDiscarded
  rw [h]
  rfl

/-- No teardown and no admission. -/
theorem settleFrameEnd_plain (fx : FrameEffect) (s : State) (h1 : fx.leaveCompleted = false) (h2 : fx.trigger = none) (h3 : s.timers.silence ≠ .expired) (h4 : fx.admitted = false) :
   settleFrameEnd fx {} s = placeAtFrameEnd s := by
  unfold settleFrameEnd teardownDue
  rw [h1, h2]
  dsimp only
  rw [if_neg h3]
  have : applyAdmission fx {} s = s := by
    unfold applyAdmission; rw [h4]; simp
  rw [this]
  simpa using placeUnlessDiscarded_none {} s rfl

/-- A MEMBER that reads COMMIT restarts the silence timer (R81). -/
theorem takeVerdict_member (rep : FrameReport) (s : State) (hm : s.localState = .member) (hv : rep.verdict = .commit) : takeVerdict rep s = restartSilence s := by
  unfold takeVerdict; rw [hm, hv]; rfl

/-- A committed frame of a MEMBER, read whole, is applyFrame_committed (R104). -/
theorem applyFrame_committed (rep : FrameReport) (s : State) (r req b) (h : ReadsCommitted rep r req b) (hr : s.roster = some r) (hb : ∀ n, b ≠ .found n) :
   applyFrame rep s = (let a := applyKind (stationNumber s) s.localState rep b r s.leases
     ({ s with roster := some (finishCommit req a.roster), leases := a.leases }, { a.effect with trigger := none })) := by
  obtain ⟨h1, h2, h3, h4, h5, h6⟩ := h
  unfold applyFrame; rw [h1]; dsimp only
  unfold applyCommit; rw [h3, h2]; simp only [Bool.not_true, Bool.and_false, Bool.false_eq_true, if_false]
  unfold applyCommitted; rw [hr]; dsimp only
  have ht : commitTrigger rep b r = none := by
    unfold commitTrigger; rw [h4]
    have : isMember r rep.sender = true := by unfold isMember; rw [h6]; rfl
    rw [this]; simp
  unfold applyKnown
  split
  · exact absurd rfl (hb _)
  · dsimp only
    rw [ht, h5]; rfl

/-- The misses are no part of a record state. -/
theorem finishCommit_states (r : Roster) (req : List Station) (i : Fin 16) : (finishCommit req r).records[i].state = r.records[i].state := by
  unfold finishCommit resetMisses mapRecords
  simp only [Fin.getElem_fin, Vector.getElem_ofFn]
  split <;> rfl

/-- The time unit leaves needs and bindings. -/
theorem timeUnitEffect_needs (fx : FrameEffect) (v : State) : (timeUnitEffect fx v).queue.needs = v.queue.needs ∧ (timeUnitEffect fx v).config = v.config := by
  unfold timeUnitEffect afterTick afterRemoval
  dsimp only
  split
  · split <;> exact ⟨rfl, rfl⟩
  · split
    · split <;> exact ⟨rfl, rfl⟩
    · exact ⟨rfl, rfl⟩

/-- A frame end of a plain MEMBER: the frame applyFrame_committed, its notices, the time unit, the source duty. -/
theorem frameEndSteps_plain (rep : FrameReport) (s u : State) (fx : FrameEffect) (ha : applyFrame rep (takeVerdict rep s) = (u, fx))
   (hport : ∀ d : Client, u.config.bindings[d] = .port) (hn : ∀ d : Client, u.queue.needs[d] = none)
   (h1 : fx.leaveCompleted = false) (h2 : fx.trigger = none) (h4 : fx.admitted = false)
   (ns : List Notice) (hns : arriveInOrder (commitStamp u) (fx.rosterNotices ++ fx.events.flatMap (eventNotices u)) u.notices = ns)
   (v : State) (hv : v = { u with notices := ns })
   (h3 : (timeUnitEffect fx v).timers.silence ≠ .expired) :
   frameEndSteps none rep s = placeAtFrameEnd (timeUnitEffect fx v) := by
  rw [frameEndSteps_receiver, ha]
  dsimp only
  rw [handOvers_port, notifyAll_arrive]
  rotate_left
  · rw [notifyAll_arrive]; exact hport
  have e : ({ ({ u with notices := arriveInOrder (commitStamp u) fx.rosterNotices u.notices } : State) with notices := arriveInOrder (commitStamp u) (fx.events.flatMap (eventNotices u)) (arriveInOrder (commitStamp u) fx.rosterNotices u.notices) } : State) = v := by
    rw [hv, ← hns, arriveInOrder_append]
  refine Eq.trans (congrArg (fun x => settleFrameEnd fx {} (serveClients fx {} (timeUnitEffect fx x))) e) ?_
  rw [serveClients_port, settleFrameEnd_plain _ _ h1 h2 h3 h4]
  · intro d; rw [(timeUnitEffect_needs fx v).2, hv]; exact hport d
  · intro d; rw [(timeUnitEffect_needs fx v).1, hv]; exact hn d

/-- The source duty by the roster before the frame. -/
theorem placeAtFrameEnd_same (t : State) (r r' : Roster) (hr : t.roster = some r') (hs : ∀ i : Fin 16, r'.records[i].state = r.records[i].state) (hm : t.localState = .member) (hj : ∀ i : Station, r.records[i].state ≠ .joining) (h7 : t.queue.slots[(7 : Fin 8)] = none) (own) (hown : stationNumber t = own) :
  placeAtFrameEnd t = { t with sourceDuty := (List.finRange 16).find? (fun i : Fin 16 => r.records[i].state = .member) = some own } := by
  subst hown
  rw [placeAtFrameEnd_plain t r' hr hm (fun i => by rw [hs]; exact hj i) h7, dutyNow_find t r' hr hm]
  simp only [hs]

/-- The hand-overs of a TICK, lease by lease. -/
theorem tick_events (s : State) : (updateAllLeases tickEntry s.leases).2.flatMap (eventNotices s) = ((List.finRange 64).flatMap fun l : Fin 64 =>
            (s.leases[l]).toList.flatMap fun e => (tickEntry l e).2.flatMap (eventNotices s)) := by
  unfold updateAllLeases allLeases
  rw [List.flatMap_assoc]
  congr 1
  funext l
  cases h : s.leases[l] <;> simp

/-- The notices of a hand-over read straps, configuration and local state. -/
theorem eventNotices_same (u s : State) (h1 : u.straps = s.straps) (h2 : u.config = s.config) (h3 : u.localState = s.localState) : eventNotices u = eventNotices s := by
  cases s; cases u; dsimp only at h1 h2 h3; subst h1 h2 h3; rfl

/-- Own outcome, application and notices of a frame end whose discard asks for nothing afresh, before the clients. -/
theorem frameEndSteps_reported (slot : Option (Fin 8)) (rep : FrameReport) (s u : State) (fx : FrameEffect)
    (own : State × OwnOutcome) (ho : ownOutcome slot rep s = own) (ha : applyFrame rep (takeVerdict rep own.1) = (u, fx)) :
    frameEndSteps slot rep s =
      settleFrameEnd fx own.2 (serveClients fx own.2 (timeUnitEffect fx (fx.events.foldl handOver
        { u with notices := arriveInOrder (commitStamp u) (own.2.notices ++ fx.rosterNotices) u.notices }))) := by
  unfold frameEndSteps
  rw [ho]
  dsimp only
  rw [ha, notifyAll_arrive]

/-- Notices of one stamp, then hand-overs to PORT-bound clients. -/
theorem handOvers_told (evs : List TableEvent) (bs : List NoticeBody) (u : State)
    (hp : ∀ d : Client, u.config.bindings[d] = .port) :
    evs.foldl handOver { u with notices := arriveInOrder (commitStamp u) bs u.notices } =
      { u with notices := arriveInOrder (commitStamp u) (bs ++ evs.flatMap (eventNotices u)) u.notices } := by
  rw [arriveInOrder_append]
  generalize arriveInOrder (commitStamp u) bs u.notices = q
  rw [handOvers_port evs { u with notices := q } hp, eventNotices_same { u with notices := q } u rfl rfl rfl]
  rfl

/-- With every client PORT-bound and no need waiting: the notices, then the time unit, then what settles the end. -/
theorem frameEndSteps_ports (slot : Option (Fin 8)) (rep : FrameReport) (s u : State) (fx : FrameEffect)
    (own : State × OwnOutcome) (ho : ownOutcome slot rep s = own) (ha : applyFrame rep (takeVerdict rep own.1) = (u, fx))
    (hd : own.2.discarded = none) (hport : ∀ d : Client, u.config.bindings[d] = .port)
    (hn : ∀ d : Client, u.queue.needs[d] = none) :
    frameEndSteps slot rep s =
      settleFrameEnd fx own.2 (timeUnitEffect fx
        { u with
          notices := arriveInOrder (commitStamp u)
            (own.2.notices ++ fx.rosterNotices ++ fx.events.flatMap (eventNotices u)) u.notices }) := by
  rw [frameEndSteps_reported slot rep s u fx own ho ha]
  refine congrArg (settleFrameEnd fx own.2) ?_
  refine (congrArg (fun x => serveClients fx own.2 (timeUnitEffect fx x)) (handOvers_told fx.events _ u hport)).trans ?_
  have h : ∀ w : State, (∀ d : Client, w.config.bindings[d] = .port) → (∀ d : Client, w.queue.needs[d] = none) → serveClients fx own.2 w = w := by
    intro w h1 h2
    unfold serveClients
    rw [serveNeeds_none w h2, hd, show freshNeed none w = w from rfl, concludeClients_port w h1]
    dsimp only
    rw [autoRenew_port w h1, ite_self]
  apply h
  · intro d; rw [(timeUnitEffect_needs fx _).2]; exact hport d
  · intro d; rw [(timeUnitEffect_needs fx _).1]; exact hn d

/-- Without hand-overs and with nothing waiting: the notices, then the time unit, then what settles the end. -/
theorem frameEndSteps_quiet (slot : Option (Fin 8)) (rep : FrameReport) (s u : State) (fx : FrameEffect)
    (own : State × OwnOutcome) (ho : ownOutcome slot rep s = own) (ha : applyFrame rep (takeVerdict rep own.1) = (u, fx))
    (hd : own.2.discarded = none) (he : fx.events = []) (ht : fx.tickApplied = false) (hw : NothingWaits u) :
    frameEndSteps slot rep s =
      settleFrameEnd fx own.2 (timeUnitEffect fx
        { u with notices := arriveInOrder (commitStamp u) (own.2.notices ++ fx.rosterNotices) u.notices }) := by
  rw [frameEndSteps_reported slot rep s u fx own ho ha, he, List.foldl_nil]
  refine congrArg (settleFrameEnd fx own.2) ?_
  have hc : ∀ w : State, (timeUnitEffect fx w).clients = w.clients := by
    intro w; unfold timeUnitEffect; rw [ht]; unfold afterRemoval; simp only [Bool.false_eq_true, if_false]; split
    · split <;> rfl
    · rfl
  unfold serveClients
  rw [serveNeeds_none, hd, show ∀ w, freshNeed none w = w from fun _ => rfl, concludeClients_none]
  · dsimp only; rw [ht, if_neg (by simp)]
  · intro d; rw [hc]; exact hw.2 d
  · intro d; rw [(timeUnitEffect_needs fx _).1]; exact hw.1 d

/-- A trigger of the frame tears down (R143, R144). -/
theorem settleFrameEnd_trigger (fx : FrameEffect) (own : OwnOutcome) (s : State) (x : Trigger) (h1 : fx.leaveCompleted = false)
    (h2 : fx.trigger = some x) (h3 : takesTriggers s.localState = true) :
    settleFrameEnd fx own s = teardown (.trigger x) s := by
  unfold settleFrameEnd teardownDue
  rw [h1, h2, h3]
  rfl

/-- No teardown: admission and placing. -/
theorem settleFrameEnd_goesOn (fx : FrameEffect) (own : OwnOutcome) (s : State) (h1 : fx.leaveCompleted = false)
    (h2 : fx.trigger = none) (h3 : s.timers.silence ≠ .expired) (hd : own.discarded = none) :
    settleFrameEnd fx own s = placeAtFrameEnd (applyAdmission fx own s) := by
  unfold settleFrameEnd teardownDue
  rw [h1, h2]
  dsimp only
  rw [if_neg h3]
  simpa using placeUnlessDiscarded_none own _ hd

/-- What a MEMBER with an empty membership slot places at a frame end: the SNAP of the source while a record is JOINING
(R57, R58). -/
theorem placeAtFrameEnd_member (t : State) (r : Roster) (hr : t.roster = some r) (hm : t.localState = .member)
    (h7 : t.queue.slots[(7 : Fin 8)] = none) :
    placeAtFrameEnd t =
      { t with
        sourceDuty := decide (firstMember r = some (stationNumber t))
        queue := if decide (firstMember r = some (stationNumber t)) ∧ ∃ i : Fin 16, r.records[i].state = .joining then
            placeSlot 7 .snap t.queue
          else t.queue } := by
  have hd : dutyNow t = decide (firstMember r = some (stationNumber t)) := by
    rw [dutyNow_find t r hr hm]; rfl
  have hj : anyJoining r = true ↔ ∃ i : Fin 16, r.records[i].state = .joining := by
    unfold anyJoining joiningStations allStations
    simp [List.filter_eq_nil_iff]
  have h7' : t.queue.slots[membershipSlot] = none := h7
  have e1 : transferUnit t = { t with
        sourceDuty := decide (firstMember r = some (stationNumber t))
        queue := if decide (firstMember r = some (stationNumber t)) ∧ ∃ i : Fin 16, r.records[i].state = .joining then
            placeSlot 7 .snap t.queue
          else t.queue } := by
    unfold transferUnit transferRunning dropMembership membershipHolds
    dsimp only
    rw [hd, hr]
    dsimp only
    by_cases h1 : decide (firstMember r = some (stationNumber t)) = true
    · rw [h1, if_pos rfl]
      have hf : slotFree t.queue membershipSlot = true := (slotFree_iff _ _).2 h7
      rw [hf, Bool.and_true]
      by_cases h2 : ∃ i : Fin 16, r.records[i].state = .joining
      · rw [if_pos (hj.2 h2), if_pos ⟨rfl, h2⟩]; rfl
      · rw [if_neg (fun h => h2 (hj.1 h)), if_neg (fun h => h2 h.2)]
    · rw [Bool.not_eq_true] at h1
      rw [h1, if_neg (by simp), h7']
      simp
  unfold placeAtFrameEnd
  rw [e1]
  unfold foundingTest wantsFounding joinTest joinConditions leaveHandshake
  dsimp only
  rw [hm]
  simp

/-- What a joiner with an empty membership slot places at a frame end: nothing. -/
theorem placeAtFrameEnd_joining (t : State) (hm : t.localState = .joining) (h7 : t.queue.slots[(7 : Fin 8)] = none) :
    placeAtFrameEnd t = { t with sourceDuty := false } := by
  have hd : dutyNow t = false := by
    unfold dutyNow; rw [hm]; cases t.roster <;> simp
  have h7' : t.queue.slots[membershipSlot] = none := h7
  have e1 : transferUnit t = { t with sourceDuty := false } := by
    unfold transferUnit dropMembership membershipHolds
    dsimp only
    rw [hd, h7']
    simp
  unfold placeAtFrameEnd
  rw [e1]
  unfold foundingTest wantsFounding joinTest joinConditions leaveHandshake
  dsimp only
  rw [hm]
  simp

end Sys2Proof.Machine
end

