-- ==== Sys2Proof/Laws/FrameKinds.lean ====
section
/-! SUPPORT. What frames of each kind do to the lease table, in the words of Safety.lean. -/

namespace Sys2Proof.Machine

/-- An operation on every known entry is `onEveryEntry`. -/
theorem updateAllLeases_eq (f : Lease → LeaseEntry → LeaseEntry × List TableEvent) (t : LeaseTable) :
    updateAllLeases f t = onEveryEntry f t := by
  unfold updateAllLeases onEveryEntry allLeases
  refine Prod.ext rfl ?_
  dsimp only
  congr 1
  funext l
  cases t[l] <;> simp

/-- The hand-overs of an operation on every entry, lease by lease. -/
theorem onEveryEntry_notices (f : Lease → LeaseEntry → LeaseEntry × List TableEvent) (t : LeaseTable)
    (g : TableEvent → List NoticeBody) :
    (onEveryEntry f t).2.flatMap g =
      (List.finRange 64).flatMap fun l : Fin 64 => (t[l]).toList.flatMap fun e => (f l e).2.flatMap g := by
  unfold onEveryEntry
  rw [List.flatMap_assoc]
  congr 1
  funext l
  cases t[l] <;> simp

/-- The removal purge of an entry is `purgeRemoved` (R22, R23). -/
theorem removalPurge_eq : removalPurge = purgeRemoved := by
  funext stations l e
  have hh : (e.holders.map fun h => if liveHolderIn stations h then { h with status := .fenced, remaining := Config.fenceCount } else h) =
      e.holders.map fun h => if h.status = .live ∧ h.tag.station ∈ stations then { h with status := .fenced, remaining := 4 } else h := by
    apply List.map_congr_left; intro h _; unfold liveHolderIn; simp [Config.fenceCount]
  have hw : (e.waiters.filter fun w => !waiterIn stations w) = e.waiters.filter fun w => w.tag.station ∉ stations := by
    apply List.filter_congr; intro w _; unfold waiterIn; simp
  have hany : (e.holders.any (liveHolderIn stations) || e.waiters.any (waiterIn stations)) = true ↔
      ¬ ((e.holders.map fun h => if h.status = .live ∧ h.tag.station ∈ stations then { h with status := .fenced, remaining := 4 } else h) = e.holders ∧
        (e.waiters.filter fun w => w.tag.station ∉ stations) = e.waiters) := by
    rw [Bool.or_eq_true, not_and_or]
    refine or_congr ?_ ?_
    · rw [← not_iff_not, not_not, ← hh, Bool.not_eq_true, List.any_eq_false]
      rw [show ((e.holders.map fun h => if liveHolderIn stations h then { h with status := .fenced, remaining := Config.fenceCount } else h) = e.holders) ↔
        ∀ h ∈ e.holders, (if liveHolderIn stations h then { h with status := .fenced, remaining := Config.fenceCount } else h) = h from by
          conv_lhs => rhs; rw [← List.map_id e.holders]
          exact List.map_inj_left]
      refine forall₂_congr fun h _ => ?_
      by_cases hx : liveHolderIn stations h = true
      · rw [if_pos hx]
        simp only [hx, not_true_eq_false, false_iff]
        intro heq
        have : h.status = .fenced := by rw [← heq]
        unfold liveHolderIn at hx; rw [this] at hx; simp at hx
      · rw [if_neg hx]; simp [hx]
    · rw [← not_iff_not, not_not, ← hw, List.filter_eq_self, Bool.not_eq_true, List.any_eq_false]
      simp
  unfold removalPurge purgeRemoved
  rw [hh, hw]
  dsimp only
  by_cases h : (e.holders.any (liveHolderIn stations) || e.waiters.any (waiterIn stations)) = true
  · rw [if_pos h, if_neg (hany.1 h)]
  · rw [if_neg h, if_pos (not_not.1 (fun h' => h (hany.2 h')))]

/-- The holder-set changes of a leave purge, each with the count of holders left just after it (R26). -/
theorem leftEvents_eq (l : Lease) (gone : List Holder) (n : Nat) :
    leftEvents l n gone = gone.mapIdx fun i h => TableEvent.leftWithStation l h.tag h.grant (n - (i + 1)) := by
  induction gone generalizing n with
  | nil => rfl
  | cons h rest ih =>
    rw [leftEvents, ih, List.mapIdx_cons]
    refine congrArg _ ?_
    refine List.mapIdx_eq_mapIdx_iff.2 fun i hi => ?_
    rw [show n - 1 - (i + 1) = n - (i + 1 + 1) by omega]

/-- The leave purge of an entry is `purgeLeft` (R26). -/
theorem leavePurge_eq : leavePurge = purgeLeft := by
  funext j l e
  have hg : e.holders.filter (liveHolderIn [j]) = e.holders.filter fun h => h.status = .live ∧ h.tag.station = j := by
    apply List.filter_congr; intro h _; unfold liveHolderIn; simp
  have hh : (e.holders.filter fun h => !liveHolderIn [j] h) = e.holders.filter fun h => ¬ (h.status = .live ∧ h.tag.station = j) := by
    apply List.filter_congr; intro h _; unfold liveHolderIn; simp
  have hw : (e.waiters.filter fun w => !waiterIn [j] w) = e.waiters.filter fun w => w.tag.station ≠ j := by
    apply List.filter_congr; intro w _; unfold waiterIn; simp
  have hany : (e.holders.any (liveHolderIn [j]) || e.waiters.any (waiterIn [j])) = true ↔
      ¬ ((e.holders.filter fun h => h.status = .live ∧ h.tag.station = j) = [] ∧
        (e.waiters.filter fun w => w.tag.station ≠ j) = e.waiters) := by
    rw [Bool.or_eq_true, not_and_or]
    refine or_congr ?_ ?_
    · rw [← not_iff_not, not_not, ← hg, List.filter_eq_nil_iff, Bool.not_eq_true, List.any_eq_false]
    · rw [← not_iff_not, not_not, ← hw, List.filter_eq_self, Bool.not_eq_true, List.any_eq_false]
      simp
  unfold leavePurge purgeLeft
  rw [hg, hh, hw]
  dsimp only
  by_cases h : (e.holders.any (liveHolderIn [j]) || e.waiters.any (waiterIn [j])) = true
  · rw [if_pos h, if_neg (hany.1 h), leftEvents_eq]
  · rw [if_neg h, if_pos (not_not.1 (fun h' => h (hany.2 h')))]

/-- An operation on one known entry, read at any entry. -/
theorem updateLease_at (l : Lease) (f : LeaseEntry → LeaseEntry × List TableEvent) (t : LeaseTable) (k : Lease) :
    (updateLease l f t).1[k] = if l = k then (t[k]).map fun e => (f e).1 else t[k] := by
  unfold updateLease
  split
  · rename_i h
    by_cases hk : l = k
    · subst hk; rw [if_pos rfl, h]; rfl
    · rw [if_neg hk]
  · rename_i e he
    by_cases hk : l = k
    · subst hk; simp [he]
    · have : l.val ≠ k.val := fun h => hk (Fin.ext h)
      simp [hk, this]

/-- A RENEW gives each LIVE hold that it names its term afresh, and changes nothing else (R17). -/
theorem renewLeases_eq (j : Station) (entries : List (Lease × Client)) (t : LeaseTable) :
    renewLeases j entries t = Vector.ofFn fun l : Fin 64 => (t[l]).map fun e =>
      { e with
        holders := e.holders.map fun h =>
          if h.tag.station = j ∧ h.status = .live ∧ (l, h.tag.client) ∈ entries then { h with remaining := h.term }
          else h } := by
  induction entries generalizing t with
  | nil =>
    refine Vector.ext fun i hi => ?_
    simp only [Vector.getElem_ofFn, List.not_mem_nil, and_false, if_false, List.map_id']
    show t[i] = _
    cases h : t[i] <;> simp
  | cons lc rest ih =>
    rw [show renewLeases j (lc :: rest) t = renewLeases j rest (updateLease lc.1 (fun e => (renewEntry { station := j, client := lc.2 } e, [])) t).1 from rfl, ih]
    refine Vector.ext fun i hi => ?_
    simp only [Vector.getElem_ofFn]
    rw [updateLease_at]
    have key : ∀ h : Holder, Holder.isLiveOf { station := j, client := lc.2 } h = true ↔ h.status = .live ∧ h.tag.station = j ∧ h.tag.client = lc.2 := by
      intro h; unfold Holder.isLiveOf
      obtain ⟨⟨a, b⟩, _, _, _, _, _⟩ := h
      simp [and_comm]
    by_cases hk : lc.1 = ⟨i, hi⟩
    · rw [if_pos hk, Option.map_map]
      congr 1
      funext e
      dsimp only [Function.comp]
      unfold renewEntry
      dsimp only
      rw [List.map_map]
      congr 1
      refine List.map_congr_left fun h _ => ?_
      dsimp only [Function.comp]
      have hl : h.tag.station = j ∧ h.status = .live ∧ ((⟨i, hi⟩, h.tag.client) : Lease × Client) ∈ lc :: rest ↔
          Holder.isLiveOf { station := j, client := lc.2 } h = true ∨
            h.tag.station = j ∧ h.status = .live ∧ ((⟨i, hi⟩, h.tag.client) : Lease × Client) ∈ rest := by
        rw [key, List.mem_cons, ← hk]
        constructor
        · rintro ⟨h2, h3, h4 | h4⟩
          · exact .inl ⟨h3, h2, congrArg Prod.snd h4⟩
          · exact .inr ⟨h2, h3, h4⟩
        · rintro (⟨h2, h3, h4⟩ | ⟨h2, h3, h4⟩)
          · exact ⟨h3, h2, .inl (Prod.ext rfl h4)⟩
          · exact ⟨h2, h3, .inr h4⟩
      simp only [hl]
      by_cases h1 : Holder.isLiveOf { station := j, client := lc.2 } h = true
      · simp only [h1, if_true, true_or]
        split <;> rfl
      · simp only [h1, false_or, if_false, Bool.false_eq_true]
    · rw [if_neg hk]
      congr 1
      funext e
      congr 1
      refine List.map_congr_left fun h _ => ?_
      refine ite_congr (propext ?_) (fun _ => rfl) (fun _ => rfl)
      refine and_congr_right fun ha => and_congr_right fun hb => ?_
      rw [List.mem_cons]
      constructor
      · exact Or.inr
      · rintro (h3 | h3)
        · exact absurd (congrArg Prod.fst h3).symm hk
        · exact h3

/-- An operation on one entry is as in `ordinaryEffect`. -/
theorem updateLease_eq (l : Lease) (f : LeaseEntry → LeaseEntry × List TableEvent) (t : LeaseTable) :
    updateLease l f t = match t[l] with
      | none => (t, [])
      | some e => (t.set l (some (f e).1), (f e).2) := by
  unfold updateLease; cases t[l] <;> rfl

/-- An ordinary frame of a MEMBER on a known roster (R9, R11 to R17). -/
theorem applyKind_ordinary (own : Station) (x : LocalState) (rep : FrameReport) (b : FrameBody) (r : Roster)
    (t : LeaseTable) (hk : 6 ≤ (kindCode (bodyKind b)).toNat) (hm : r.records[rep.sender].state = .member) :
    applyKind own x rep b r t =
      { roster := r, leases := (ordinaryEffect rep.sender b t).1, effect := { events := (ordinaryEffect rep.sender b t).2 } } := by
  have hmem : isMember r rep.sender = true := by unfold isMember; rw [hm]; rfl
  cases b with
  | acquire l c m term p =>
    unfold applyKind applyAcquire ordinaryEffect
    dsimp only
    rw [if_pos hmem, updateLease_eq]
    all_goals (cases t[l] <;> rfl)
  | release l c =>
    unfold applyKind applyRelease ordinaryEffect
    dsimp only
    rw [if_pos hmem, updateLease_eq]
    all_goals (cases t[l] <;> rfl)
  | renew es => unfold applyKind applyRenew ordinaryEffect; dsimp only; rw [if_pos hmem, renewLeases_eq]
  | _ => simp [bodyKind, kindCode] at hk

/-- A timer's length is by the straps. -/
theorem ticking_same (u s : State) (n : Nat) (h : u.straps = s.straps) : ticking u n = ticking s n := by
  unfold ticking
  rw [tickPeriodMs_same u s h]

/-- With no claim ASSERTED nobody asks at an entry into MEMBER (R151). -/
theorem askAllAtEntry_none (s : State) (h : ∀ c : Client, s.clients[c].recognised = false) : askAllAtEntry s = s := by
  refine foldl_fixed _ _ (fun c => ?_) _
  unfold askAtEntry
  split
  · rfl
  · rw [if_neg (by rw [h c]; simp)]

/-- An empty membership slot holds nothing to drop. -/
theorem dropMembership_empty (s : State) (c) (h7 : s.queue.slots[(7 : Fin 8)] = none) : dropMembership c s = s := by
  unfold dropMembership membershipHolds
  rw [show s.queue.slots[membershipSlot] = none from h7]; rfl

/-- A committed verdict at a station that is admitted restarts the silence timer (R80). -/
theorem takeVerdict_restarts (rep : FrameReport) (s : State)
    (hs : s.localState = .joining ∨ s.localState = .member ∨ s.localState = .leaving)
    (hv : rep.verdict = .commit ∨ rep.verdict = .refuse) :
    takeVerdict rep s = { s with timers := { s.timers with silence := ticking s 3 } } := by
  have hc : committedVerdict rep.verdict = true := by unfold committedVerdict; rcases hv with h | h <;> rw [h] <;> rfl
  refine Eq.trans (b := restartSilence s) ?_ rfl
  unfold takeVerdict
  rcases hs with h | h | h <;> (rw [h]; exact if_pos hc)

/-- No committed verdict: a station that is admitted does nothing with it (R80). -/
theorem takeVerdict_quiet (rep : FrameReport) (s : State)
    (hs : s.localState = .joining ∨ s.localState = .member ∨ s.localState = .leaving)
    (h1 : rep.verdict ≠ .commit) (h2 : rep.verdict ≠ .refuse) : takeVerdict rep s = s := by
  have hc : committedVerdict rep.verdict = false := by unfold committedVerdict; simp [h1, h2]
  unfold takeVerdict
  rcases hs with h | h | h <;> rw [h, hc] <;> rfl

/-- A COMMIT or REFUSE of a whole frame of any kind but FOUND on a known roster (R39, R104). -/
theorem applyFrame_known (rep : FrameReport) (s : State) (r : Roster) (req : List Station) (b : FrameBody)
    (hv : rep.verdict = .commit ∨ rep.verdict = .refuse) (hb : rep.payload = some b)
    (ha : rep.acknowledged = true) (hq : rep.required = some req) (hr : s.roster = some r) (hf : ∀ n, b ≠ .found n) :
    applyFrame rep s =
      (let a := applyKind (stationNumber s) s.localState rep b r s.leases
       ({ s with roster := some (afterCommit req a.roster), leases := a.leases },
        { a.effect with trigger := commitTrigger rep b r })) := by
  have e : applyFrame rep s = applyCommit rep s := by
    unfold applyFrame; rcases hv with h | h <;> rw [h]
  rw [e]
  unfold applyCommit; rw [ha, hb]; simp only [Bool.not_true, Bool.and_false, Bool.false_eq_true, if_false]
  unfold applyCommitted; rw [hr]; dsimp only
  unfold applyKnown
  split
  · exact absurd rfl (hf _)
  · rw [hq]; rfl

/-- No divergence and a MEMBER as the sender, or a JOIN: no trigger (R104). -/
theorem commitTrigger_none (rep : FrameReport) (b : FrameBody) (r : Roster) (hd : rep.divergence = false)
    (h : b = .join ∨ r.records[rep.sender].state = .member) : commitTrigger rep b r = none := by
  unfold commitTrigger
  rw [hd, Bool.and_false, Bool.false_and, if_neg (by simp)]
  rcases h with h | h
  · rw [h]; rfl
  · rw [show isMember r rep.sender = true by unfold isMember; rw [h]; rfl]; simp

/-- The misses and counts are no part of a record's state. -/
theorem afterCommit_state (req : List Station) (r : Roster) (i : Fin 16) :
    (afterCommit req r).records[i].state = r.records[i].state := finishCommit_states r req i

/-- The misses and counts do not move the source (R38). -/
theorem firstMember_afterCommit (req : List Station) (r : Roster) : firstMember (afterCommit req r) = firstMember r := by
  have h : (fun i : Fin 16 => decide ((afterCommit req r).records[i].state = .member)) =
      fun i : Fin 16 => decide (r.records[i].state = .member) := funext fun i => by rw [afterCommit_state]
  unfold firstMember
  rw [h]

/-- The time unit does nothing without a TICK and without a removal. -/
theorem timeUnitEffect_idle (fx : FrameEffect) (s : State) (h1 : fx.tickApplied = false) (h2 : fx.membersRemoved = false) :
    timeUnitEffect fx s = s := by
  unfold timeUnitEffect
  rw [h1, h2]
  rfl

/-- A station at rest stays so through the parts of a frame end that are its own. -/
theorem applyAdmission_none (fx : FrameEffect) (own : OwnOutcome) (s : State) (h1 : fx.admitted = false)
    (h2 : own.joined = false) : applyAdmission fx own s = s := by
  unfold applyAdmission
  rw [h1, h2]
  simp

/-- The frame end of a MEMBER at rest: what `applyFrame` makes, its notices, the source duty and the SNAP of its holder
(R57, R58, R104). -/
theorem frameEndSteps_member (slot : Option (Fin 8)) (rep : FrameReport) (s u : State) (fx : FrameEffect)
    (own : State × OwnOutcome) (r : Roster)
    (ho : ownOutcome slot rep s = own) (ha : applyFrame rep (takeVerdict rep own.1) = (u, fx))
    (hd : own.2.discarded = none) (hj : own.2.joined = false)
    (hport : ∀ d : Client, u.config.bindings[d] = .port) (hn : ∀ d : Client, u.queue.needs[d] = none)
    (hr : u.roster = some r) (hm : u.localState = .member) (h7 : u.queue.slots[(7 : Fin 8)] = none)
    (h1 : fx.leaveCompleted = false) (h2 : fx.trigger = none) (h3 : u.timers.silence ≠ .expired) (h4 : fx.admitted = false)
    (h5 : fx.tickApplied = false) (h6 : fx.membersRemoved = false) :
    frameEndSteps slot rep s =
      { u with
        notices := arriveInOrder (commitStamp u)
          (own.2.notices ++ fx.rosterNotices ++ fx.events.flatMap (eventNotices u)) u.notices
        sourceDuty := decide (firstMember r = some (stationNumber u))
        queue := if decide (firstMember r = some (stationNumber u)) ∧ ∃ i : Fin 16, r.records[i].state = .joining then
            placeSlot 7 .snap u.queue
          else u.queue } := by
  rw [frameEndSteps_ports slot rep s u fx own ho ha hd hport hn, timeUnitEffect_idle fx _ h5 h6]
  generalize arriveInOrder (commitStamp u) (own.2.notices ++ fx.rosterNotices ++ fx.events.flatMap (eventNotices u))
    u.notices = q
  rw [settleFrameEnd_goesOn fx own.2 { u with notices := q } h1 h2 h3 hd, applyAdmission_none fx own.2 _ h4 hj,
    placeAtFrameEnd_member { u with notices := q } r hr hm h7]
  rfl

/-- What a JOIN of another station does where no record is JOINING (R48). -/
theorem applyJoin_plain (own j : Station) (r : Roster) (t : LeaseTable) (hj : ∀ i : Station, r.records[i].state ≠ .joining)
    (hne : j ≠ own) :
    applyJoin own j r t =
      { roster :=
          { r with
            cursor := 0
            records := r.records.set j { state := .joining, miss := 0, progress := some .awaitingRoster } }
        leases := (if r.records[j].state = .member then onEveryEntry (purgeRemoved [j]) t else (t, [])).1
        effect :=
          { rosterNotices :=
              if r.records[j].state = .member then [.roster j .removed, .roster j .joined] else [.roster j .joined]
            events := (if r.records[j].state = .member then onEveryEntry (purgeRemoved [j]) t else (t, [])).2 } } := by
  have hr : joinRecord j r =
      { r with
        cursor := 0
        records := r.records.set j { state := .joining, miss := 0, progress := some .awaitingRoster } } := by
    unfold joinRecord
    have : joiningStations r = [] := by
      unfold joiningStations allStations; rw [List.filter_eq_nil_iff]; intro i _; simpa using hj i
    rw [this]; rfl
  have hn : ∀ x, rosterNotice own j x = [.roster j x] := by intro x; unfold rosterNotice; rw [if_neg hne]
  unfold applyJoin isMember
  rw [hn, hn, hr, updateAllLeases_eq, removalPurge_eq]
  by_cases hx : r.records[j].state = .member
  · rw [hx]; rfl
  · rw [if_neg (by simpa using hx), if_neg hx, if_neg hx]

/-- A committed frame on a known roster, with what the verdict did to the timers and what the kind does. -/
theorem applyFrame_at (rep : FrameReport) (s v : State) (r : Roster) (req : List Station) (b : FrameBody) (a : Applied)
    (hv : rep.verdict = .commit ∨ rep.verdict = .refuse) (hb : rep.payload = some b)
    (hk : rep.acknowledged = true) (hq : rep.required = some req) (hf : ∀ n, b ≠ .found n)
    (ht : takeVerdict rep s = v) (hr : v.roster = some r)
    (ha : applyKind (stationNumber v) v.localState rep b r v.leases = a) :
    applyFrame rep (takeVerdict rep s) =
      ({ v with roster := some (afterCommit req a.roster), leases := a.leases },
        { a.effect with trigger := commitTrigger rep b r }) := by
  subst ha
  rw [ht]
  exact applyFrame_known rep v r req b hv hb hk hq hr hf

/-- ROSTER notices are about the other stations (R39). -/
theorem rosterNotices_eq (own : Station) (x : RosterReason) (l : List Station) :
    (l.flatMap fun i => rosterNotice own i x) = (l.filter fun i => i ≠ own).map fun i => NoticeBody.roster i x := by
  induction l with
  | nil => rfl
  | cons i l ih =>
    rw [List.flatMap_cons, ih]
    unfold rosterNotice
    by_cases h : i = own
    · rw [if_pos h, List.filter_cons_of_neg (by simpa using h)]; rfl
    · rw [if_neg h, List.filter_cons_of_pos (by simpa using h)]; rfl

/-- The ROSTER notices of the stations a SNAP has admitted (R53). -/
theorem admitted_notices (own : Station) (r after : Roster) :
    ((admittedBetween r after).flatMap fun i => rosterNotice own i .member) =
      ((List.finRange 16).filter fun i : Fin 16 =>
        r.records[i].state = .joining ∧ after.records[i].state = .member ∧ i ≠ own).map
          fun i => NoticeBody.roster i .member := by
  rw [rosterNotices_eq]
  unfold admittedBetween joiningStations allStations
  rw [List.filter_filter, List.filter_filter]
  refine congrArg _ (List.filter_congr fun i _ => ?_)
  rw [← Bool.decide_and, ← Bool.decide_and]
  exact decide_eq_decide.2 (by tauto)

/-- A SNAP moves none of the counts (R52). -/
theorem snapProgress_counts (item : Fin 65) (r : Roster) :
    (snapProgress item r).expected = r.expected ∧ (snapProgress item r).commits = r.commits ∧
      (snapProgress item r).ticks = r.ticks := by
  unfold snapProgress mapRecords
  exact ⟨rfl, rfl, rfl⟩

/-- What a SNAP of a MEMBER does at a MEMBER (R52, R53). -/
theorem applySnap_member (own j : Station) (item : SnapItem) (r after : Roster) (t : LeaseTable)
    (hm : r.records[j].state = .member) (ha : snapProgress (itemNumber item) r = after) :
    applySnap own j .member item r t =
      { roster := after
        leases := t
        effect :=
          { rosterNotices :=
              ((List.finRange 16).filter fun i : Fin 16 =>
                r.records[i].state = .joining ∧ after.records[i].state = .member ∧ i ≠ own).map
                  fun i => NoticeBody.roster i .member } } := by
  subst ha
  unfold applySnap
  rw [if_pos (show isMember r j = true by unfold isMember; rw [hm]; rfl)]
  generalize snapProgress (itemNumber item) r = after
  dsimp only
  rw [admitted_notices]
  rfl

/-- What a LEAVE of a MEMBER does (R26, R51). -/
theorem applyLeave_member (own j : Station) (r : Roster) (t : LeaseTable) (hm : r.records[j].state = .member) :
    applyLeave own j r t =
      { roster := { r with records := r.records.set j { state := .absent, miss := 0, progress := none } }
        leases := (onEveryEntry (purgeLeft j) t).1
        effect :=
          { rosterNotices := if j = own then [] else [.roster j .left]
            events := (onEveryEntry (purgeLeft j) t).2
            leaveCompleted := j = own } } := by
  unfold applyLeave
  rw [if_pos (show isMember r j = true by unfold isMember; rw [hm]; rfl), updateAllLeases_eq, leavePurge_eq]
  rfl

/-- A teardown starts the timers and the queue afresh, whatever they held (R144). -/
theorem teardown_fresh (cause : TeardownCause) (s : State) (tm : Timers) (q : OutboundQueue) :
    teardown cause { s with timers := tm, queue := q } = teardown cause s := by
  have h1 : clearParticipation (revokeClients
        (if ({ s with timers := tm, queue := q } : State).localState = .member then
          notifyAll (revokedNotices { s with timers := tm, queue := q } (causeReason cause)) { s with timers := tm, queue := q }
        else { s with timers := tm, queue := q })) =
      clearParticipation (revokeClients
        (if s.localState = .member then notifyAll (revokedNotices s (causeReason cause)) s else s)) := by
    by_cases hm : s.localState = .member
    · rw [if_pos hm, if_pos (by exact hm), notifyAll_arrive, notifyAll_arrive]; rfl
    · rw [if_neg hm, if_neg (by exact hm)]; rfl
  have h2 : seeksAfterTeardown { s with timers := tm, queue := q } cause = seeksAfterTeardown s cause := by
    unfold seeksAfterTeardown; cases cause <;> rfl
  have h3 : commitStamp { s with timers := tm, queue := q } = commitStamp s := rfl
  unfold teardown
  dsimp only
  rw [h2, h3, h1]

/-- The frame end of a station that a trigger of the frame tears down, nothing waiting (R104, R144). -/
theorem frameEndSteps_ejected (rep : FrameReport) (s u : State) (x : Trigger)
    (ha : applyFrame rep (takeVerdict rep s) = (u, { trigger := some x })) (hw : NothingWaits u)
    (ht : takesTriggers u.localState = true) : frameEndSteps none rep s = teardown (.trigger x) u := by
  rw [frameEndSteps_quiet none rep s u _ (s, {}) rfl ha rfl rfl rfl hw,
    timeUnitEffect_idle _ _ rfl rfl, settleFrameEnd_trigger _ _ _ x rfl rfl (by exact ht)]
  rfl

/-- An ordinary frame's attempt that committed empties its slot and keeps the courtesy gap (R89, R118). -/
theorem takeOutcome_ordinary (k : Fin 8) (s : State) (x : Slot) (hx : s.queue.slots[k] = some x)
    (hk : 6 ≤ (kindCode (slotKind x.content)).toNat) :
    takeOutcome k .committed s =
      ({ s with
          queue := { s.queue with slots := s.queue.slots.set k none }
          line := { s.line with courtesyPending := true } }, {}) := by
  have h1 : isOrdinary (slotKind x.content) = true := by
    revert hk; cases x.content <;> simp [slotKind, kindCode, isOrdinary]
  have h2 : decide (x.content = .join) = false := by
    revert hk; cases x.content <;> simp [slotKind, kindCode]
  unfold takeOutcome
  rw [hx]
  dsimp only
  unfold commitAttempt
  rw [h1, h2]
  dsimp only
  rw [Bool.or_true]
  rfl

/-- The attempt of an ordinary frame that failed below the limit, no RELEASE beside it and no need waiting, in any
state but LEAVING: the slot stays, counted unless it lost (R118). -/
theorem takeOutcome_stays (k : Fin 8) (o : AttemptOutcome) (s : State) (x : Slot) (hx : s.queue.slots[k] = some x)
    (hk : 6 ≤ (kindCode (slotKind x.content)).toNat) (ha : x.attempts < 15) (ho : o = .lost ∨ o = .aborted ∨ o = .voided)
    (hm : s.localState ≠ .leaving) (hn : ∀ c : Client, s.queue.needs[c] = none)
    (hr : ∀ (l : Lease) (c : Client) (m : Mode) (t p : Nat), x.content = .acquire l c m t p →
      ∀ (j : Fin 8) (y : Slot), s.queue.slots[j] = some y → y.content ≠ .release l c) :
    takeOutcome k o s =
      ({ s with
          queue :=
            { s.queue with
              slots := s.queue.slots.set k (some
                { x with attempts := if o = .lost then x.attempts else x.attempts + 1, inAttempt := false }) } }, {}) := by
  have h1 : countAttempt k x o s = (keepSlot k (if o = .lost then x.attempts else x.attempts + 1) s, {}) := by
    have e : (if attemptCounts o x.content then min (x.attempts + 1) Config.attemptLimit else x.attempts) =
        if o = .lost then x.attempts else x.attempts + 1 := by
      have : attemptCounts o x.content = !decide (o = .lost) := by
        unfold attemptCounts
        revert hk
        rcases ho with rfl | rfl | rfl <;> cases x.content <;> simp [slotKind, kindCode]
      rw [this]
      rcases ho with rfl | rfl | rfl <;> simp [Config.attemptLimit] <;> omega
    unfold countAttempt
    dsimp only
    rw [e, if_neg]
    rcases ho with rfl | rfl | rfl <;> simp [Config.attemptLimit] <;> omega
  have h2 : takeOutcome k o s = failAttempt k x o s := by
    unfold takeOutcome; rw [hx]; rcases ho with rfl | rfl | rfl <;> rfl
  have h3 : failAttempt k x o s = countAttempt k x o s := by
    unfold failAttempt
    split
    · rename_i l c m t p hc
      have hrel : releaseSlot l c s.queue = none := (releaseSlot_none _ _ _).2 (by
        intro j y hj hy
        rw [Bool.eq_false_iff]
        intro hh
        refine hr l c m t p hc j y hy ?_
        revert hh
        cases y.content <;> simp [SlotContent.isReleaseFor])
      unfold failAcquire
      rw [hrel]
      dsimp only
      rw [if_neg hm, if_neg]
      rintro ⟨-, h⟩
      unfold releaseNeedWaits at h
      rw [hn] at h
      cases h
    · rename_i hc
      rw [hc] at hk
      simp [slotKind, kindCode] at hk
    · rfl
  rw [h2, h3, h1]
  unfold keepSlot updateSlot
  rw [hx]
  rfl

/-- A frame end at a sender. -/
theorem endFrame_sending (cells : List LineCell) (s : State) (role : Role) (tx : Transmission)
    (hp : s.line.phase = .sending role tx) :
    endFrame cells s = frameEndSteps (some tx.slot) (frameReport s role (some tx) cells)
      (closeFrame (marksLeft tx cells) (frameReport s role (some tx) cells) s) := by
  unfold endFrame
  split
  · rename_i h'; rw [hp] at h'; cases h'
  · rename_i h'; rw [hp] at h'; cases h'
  · rename_i role' h'; rw [hp] at h'; cases h'
  · rename_i role' tx' h'; rw [hp] at h'; cases h'
    rfl

/-- The miss counts at a VOID (R41). -/
theorem accountMisses_get (req : List Station) (ackMap : BitVec 16) (r : Roster) (i : Fin 16) :
    (accountMisses req ackMap r).records[i] =
      if req.contains i then
        { r.records[i] with
          miss := if ackMap.getLsbD i.val = false then 0 else if r.records[i].miss = 3 then 3 else r.records[i].miss + 1 }
      else r.records[i] := by
  unfold accountMisses mapRecords
  simp only [Fin.getElem_fin, Vector.getElem_ofFn, Fin.eta]
  split
  · congr 1
    unfold acked oneMiss
    cases ackMap.getLsbD i.val <;> rfl
  · rfl

/-- The misses are no part of a record's state. -/
theorem accountMisses_state (req : List Station) (ackMap : BitVec 16) (r : Roster) (i : Fin 16) :
    (accountMisses req ackMap r).records[i].state = r.records[i].state := by
  rw [accountMisses_get]
  split <;> rfl

/-- With no record JOINING only members are removed (R42, R43). -/
theorem removalsOf_plain (req : List Station) (ackMap : BitVec 16) (r : Roster)
    (hj : ∀ i : Station, r.records[i].state ≠ .joining) :
    removalsOf (accountMisses req ackMap r) = membersToRemove (accountMisses req ackMap r) := by
  have h : joiningToRemove (accountMisses req ackMap r) = [] := by
    unfold joiningToRemove joiningStations allStations
    rw [List.filter_eq_nil_iff]
    intro i hi
    rw [List.mem_filter] at hi
    have := hi.2
    rw [accountMisses_state] at this
    exact absurd (of_decide_eq_true this) (hj i)
  unfold removalsOf
  rw [h, List.nil_append]

/-- A VOID that brings nobody to three misses (R41, R43). -/
theorem accountVoid_quiet (rep : FrameReport) (r : Roster) (req : List Station) (s : State) (hq : rep.required = some req)
    (hj : ∀ i : Station, r.records[i].state ≠ .joining) (hm : ∀ i : Fin 16, r.records[i].miss.val < 2) :
    accountVoid rep r s =
      ({ s with
          roster := some
            { r with
              records := Vector.ofFn fun i : Fin 16 =>
                if req.contains i then
                  { r.records[i] with miss := if rep.ackMap.getLsbD i.val = false then 0 else r.records[i].miss + 1 }
                else r.records[i] } }, {}) := by
  have h3 : ∀ i : Fin 16, (accountMisses req rep.ackMap r).records[i] =
      if req.contains i then
        { r.records[i] with miss := if rep.ackMap.getLsbD i.val = false then 0 else r.records[i].miss + 1 }
      else r.records[i] := by
    intro i
    rw [accountMisses_get]
    have : r.records[i].miss ≠ 3 := fun h => by have := hm i; rw [h] at this; simp at this
    rw [if_neg this]
  have hf : ∀ m : Fin 4, m.val < 2 → m + 1 ≠ 3 := by decide
  have hl : membersAtLimit (accountMisses req rep.ackMap r) = [] := by
    unfold membersAtLimit
    rw [List.filter_eq_nil_iff]
    intro i _
    rw [h3]
    have h2 := hm i
    split
    · dsimp only
      split
      · simp
      · simp only [decide_eq_true_eq]
        exact hf _ h2
    · simp only [decide_eq_true_eq]
      intro h; rw [h] at h2; simp at h2
  have hr : membersToRemove (accountMisses req rep.ackMap r) = [] := by
    unfold membersToRemove; rw [hl]; split <;> rfl
  have he : removeStations [] (accountMisses req rep.ackMap r) =
      { r with
        records := Vector.ofFn fun i : Fin 16 =>
          if req.contains i then
            { r.records[i] with miss := if rep.ackMap.getLsbD i.val = false then 0 else r.records[i].miss + 1 }
          else r.records[i] } := by
    unfold removeStations mapRecords
    simp only [h3]
    rfl
  have hp := removalsOf_plain req rep.ackMap r hj
  unfold accountVoid
  rw [hq, Option.getD_some]
  generalize accountMisses req rep.ackMap r = counted at hp hr he ⊢
  dsimp only
  rw [hp, hr, he]
  exact (if_neg (by simp)).trans (if_pos rfl)

/-- A VOID of any kind but FOUND on a known roster (R104). -/
theorem applyFrame_void (rep : FrameReport) (s : State) (r : Roster) (hv : rep.verdict = .void) (hk : rep.kindCode ≠ 2)
    (hr : s.roster = some r) : applyFrame rep s = accountVoid rep r s := by
  have hfc : isFoundCode rep.kindCode = false := by unfold isFoundCode kindCode; simpa using hk
  unfold applyFrame
  rw [hv]
  dsimp only
  unfold applyVoid
  rw [hr, hfc]
  exact if_neg (by simp)

/-- A station that takes no triggers goes on to admission and placing (R143). -/
theorem settleFrameEnd_untaken (fx : FrameEffect) (own : OwnOutcome) (s : State) (h1 : fx.leaveCompleted = false)
    (h2 : takesTriggers s.localState = false) (hd : own.discarded = none) :
    settleFrameEnd fx own s = placeAtFrameEnd (applyAdmission fx own s) := by
  unfold settleFrameEnd teardownDue
  rw [h1, h2]
  simpa using placeUnlessDiscarded_none own _ hd

/-- What a seeker with an empty membership slot and its founding timer and hold-off running places: nothing
(R82, R134). -/
theorem placeAtFrameEnd_seeking (t : State) (n m : Nat) (hm : t.localState = .seeking)
    (h7 : t.queue.slots[(7 : Fin 8)] = none) (hf : t.timers.founding = .running n) (hh : t.timers.holdOff = .running m) :
    placeAtFrameEnd t = { t with sourceDuty := false } := by
  have hd : dutyNow t = false := by
    unfold dutyNow; rw [hm]; cases t.roster <;> simp
  have e1 : transferUnit t = { t with sourceDuty := false } := by
    unfold transferUnit
    dsimp only
    rw [hd, dropMembership_empty _ _ (by exact h7)]
    simp
  unfold placeAtFrameEnd
  rw [e1]
  unfold foundingTest wantsFounding joinTest joinConditions leaveHandshake
  dsimp only
  simp [hm, hf, hh, Timer.isRunning]

/-- A committed verdict at a seeker (R83, R134). -/
theorem takeVerdict_seeker (rep : FrameReport) (s : State) (hm : s.localState = .seeking)
    (hv : rep.verdict = .commit ∨ rep.verdict = .refuse) (h7 : s.queue.slots[(7 : Fin 8)] = none) :
    takeVerdict rep s =
      { s with joinEvidence := true, timers := { s.timers with founding := ticking s 6, pacing := .stopped } } := by
  have hc : committedVerdict rep.verdict = true := by unfold committedVerdict; rcases hv with h | h <;> rw [h] <;> rfl
  refine Eq.trans (b := seekerReadsCommit s) ?_ ?_
  · unfold takeVerdict; rw [hm]; exact if_pos hc
  · unfold seekerReadsCommit
    exact dropMembership_empty _ _ h7

/-- A teardown ends the source duty, whoever held it (R144). -/
theorem teardown_duty (cause : TeardownCause) (s : State) (d : Bool) :
    teardown cause { s with sourceDuty := d } = teardown cause s := by
  have h1 : clearParticipation (revokeClients
        (if ({ s with sourceDuty := d } : State).localState = .member then
          notifyAll (revokedNotices { s with sourceDuty := d } (causeReason cause)) { s with sourceDuty := d }
        else { s with sourceDuty := d })) =
      clearParticipation (revokeClients
        (if s.localState = .member then notifyAll (revokedNotices s (causeReason cause)) s else s)) := by
    by_cases hm : s.localState = .member
    · rw [if_pos hm, if_pos (by exact hm), notifyAll_arrive, notifyAll_arrive]; rfl
    · rw [if_neg hm, if_neg (by exact hm)]; rfl
  have h2 : seeksAfterTeardown { s with sourceDuty := d } cause = seeksAfterTeardown s cause := by
    unfold seeksAfterTeardown; cases cause <;> rfl
  have h3 : commitStamp { s with sourceDuty := d } = commitStamp s := rfl
  unfold teardown
  dsimp only
  rw [h2, h3, h1]

/-- What a lease item of a MEMBER does at a joiner with a known roster (R52, R53, R70). -/
theorem applySnap_joiner (own j : Station) (l : Lease) (e : LeaseEntry) (r after : Roster) (t : LeaseTable)
    (hm : r.records[j].state = .member) (ha : snapProgress l.succ r = after) :
    applySnap own j .joining (.lease l e) r t =
      { roster := after
        leases := t.set l (some e)
        effect :=
          { rosterNotices :=
              ((List.finRange 16).filter fun i : Fin 16 =>
                r.records[i].state = .joining ∧ after.records[i].state = .member ∧ i ≠ own).map
                  fun i => NoticeBody.roster i .member
            admitted := decide (r.records[own].state = .joining ∧ after.records[own].state = .member) } } := by
  subst ha
  unfold applySnap
  rw [if_pos (show isMember r j = true by unfold isMember; rw [hm]; rfl),
    show itemNumber (.lease l e) = l.succ from rfl]
  generalize snapProgress l.succ r = after
  have hc : (admittedBetween r after).contains own =
      decide (r.records[own].state = .joining ∧ after.records[own].state = .member) := by
    rw [Bool.eq_iff_iff, List.contains_iff_mem, decide_eq_true_iff]
    unfold admittedBetween joiningStations allStations
    rw [List.mem_filter, List.mem_filter, decide_eq_true_iff, decide_eq_true_iff]
    exact ⟨fun h => ⟨h.1.2, h.2⟩, fun h => ⟨⟨List.mem_finRange _, h.1⟩, h.2⟩⟩
  dsimp only
  rw [admitted_notices, hc, decide_eq_true (rfl : LocalState.joining = .joining), Bool.true_and, if_pos rfl]
  rfl

end Sys2Proof.Machine
end

