-- ==== Sys2Proof/Laws/Head.lean ====
section
/-! SUPPORT. The head of the outbound queue (R113, R114). -/

namespace Sys2Proof.Machine

/-- The slots offered (R113). -/
theorem mem_offeredSlots (x : LocalState) (q : OutboundQueue) (k y) : (k, y) ∈ offeredSlots x q ↔ q.slots[k] = some y ∧ kindPermitted x (slotKind y.content) = true := by
  unfold offeredSlots
  rw [List.mem_filterMap]
  constructor
  · rintro ⟨j, -, h⟩
    split at h
    · cases h
    · rename_i z hz
      split at h
      · rename_i hp; cases h; exact ⟨hz, hp⟩
      · cases h
  · rintro ⟨h1, h2⟩
    refine ⟨k, by simp [allSlots], ?_⟩
    rw [h1]; simp [h2]

/-- Nothing is offered, so there is no head. -/
theorem headSlot_none (s : State) (h : ∀ k x, ¬ Offered s k x) : headSlot s = none := by
  unfold headSlot
  have : offeredSlots s.localState s.queue = [] := by
    rw [List.eq_nil_iff_forall_not_mem]
    rintro ⟨k, x⟩ hm
    exact h k x ((mem_offeredSlots _ _ _ _).1 hm)
  rw [this]; rfl

/-- The choice is from the list. -/
theorem headOf_mem (xs a) (h : headOf xs = some a) : a ∈ xs := by
  induction xs generalizing a with
  | nil => cases h
  | cons b t ih =>
    unfold headOf at h
    cases ht : headOf t with
    | none => rw [ht] at h; cases h; simp
    | some y =>
      rw [ht] at h
      dsimp only at h
      split at h <;> cases h
      · exact List.mem_cons_of_mem _ (ih _ ht)
      · simp

/-- What goes before every other is chosen. -/
theorem headOf_eq (xs : List (Fin 8 × Slot)) (a : Fin 8 × Slot) (ha : a ∈ xs) (hm : ∀ b ∈ xs, b ≠ a → goesBefore a.2 b.2 = true)
    (hasym : ∀ b ∈ xs, b ≠ a → goesBefore b.2 a.2 = false) : headOf xs = some a := by
  induction xs with
  | nil => cases ha
  | cons b t ih =>
    unfold headOf
    by_cases hb : b = a
    · subst hb
      cases ht : headOf t with
      | none => rfl
      | some y =>
        dsimp only
        by_cases hy : y = b
        · subst hy; split <;> rfl
        · rw [hasym y (List.mem_cons_of_mem _ (headOf_mem _ _ ht)) hy]; rfl
    · have hat : a ∈ t := by
        rcases List.mem_cons.1 ha with h | h
        · exact absurd h.symm hb
        · exact h
      rw [ih hat (fun x hx => hm x (List.mem_cons_of_mem _ hx)) (fun x hx => hasym x (List.mem_cons_of_mem _ hx))]
      dsimp only
      rw [hm b (by simp) hb]; rfl

/-- The head of the queue (R114). -/
theorem headSlot_some (s : State) (k x) (h : IsHead s k x) : headSlot s = some (k, x) := by
  unfold headSlot
  refine headOf_eq _ _ ((mem_offeredSlots _ _ _ _).2 h.1) ?_ ?_
  · rintro ⟨j, y⟩ hy hne
    rw [mem_offeredSlots] at hy
    have hj : j ≠ k := by
      rintro rfl
      have := h.1.1.symm.trans hy.1
      cases this; exact hne rfl
    have := h.2 j y hy hj
    unfold goesBefore
    simp only [Bool.or_eq_true, Bool.and_eq_true, decide_eq_true_eq]
    rcases this with h | ⟨h1, h2⟩
    · exact Or.inl h
    · exact Or.inr ⟨by rw [h1], h2⟩
  · rintro ⟨j, y⟩ hy hne
    rw [mem_offeredSlots] at hy
    have hj : j ≠ k := by
      rintro rfl
      have := h.1.1.symm.trans hy.1
      cases this; exact hne rfl
    have := h.2 j y hy hj
    unfold goesBefore
    simp only [Bool.or_eq_false_iff, Bool.and_eq_false_iff, decide_eq_false_iff_not]
    rcases this with h | ⟨h1, h2⟩
    · exact ⟨by omega, Or.inl (by omega)⟩
    · rw [h1]; exact ⟨by omega, Or.inr (by omega)⟩

/-- The ordinary kinds are those of codes 6 to 9 (R117). -/
theorem isOrdinary_iff (c : SlotContent) : isOrdinary (slotKind c) = true ↔ 6 ≤ (kindCode (slotKind c)).toNat := by
  cases c <;> simp [slotKind, isOrdinary, kindCode]

end Sys2Proof.Machine
end

