-- ==== Sys2Proof/Laws/Leaving.lean ====
section
/-! SUPPORT. LEAVE at a member: what the withdrawal of ACQUIREs leaves, and that the needs served and the handshake
after it only let the queue grow (R127, R139 to R141). -/

namespace Sys2Proof.Machine

/-- Every ACQUIRE of the queue is in attempt. -/
def EveryAcquireInAttempt (q : OutboundQueue) : Prop := ∀ (k : Fin 8) (x : Slot), k.val < 6 → q.slots[k] = some x →
    x.content.isAcquire = true → x.inAttempt = true

/-- No ACQUIRE need waits. -/
def NoAcquireNeed (q : OutboundQueue) : Prop := ∀ c : Client, q.needs[c] ≠ some .acquire

/-- No line client is RELEASING. -/
def NoLineReleasing (s : State) : Prop :=
  ∀ c : Client, s.config.bindings[c] ≠ .port → s.clients[c].state ≠ .releasing

/-- What LEAVE leaves of acquires and clients (R127, R159). -/
def AcquiresGone (s : State) : Prop := EveryAcquireInAttempt s.queue ∧ NoAcquireNeed s.queue ∧ NoLineReleasing s

/-- The queue kept its slots below 7 and gained RELEASEs in free general slots, or LEAVE (R140, R141). -/
structure QueueGrew (q q' : OutboundQueue) : Prop where
  keep : ∀ (k : Fin 8) (x : Slot), k.val < 7 → q.slots[k] = some x → q'.slots[k] = some x
  fresh : ∀ (k : Fin 8) (x : Slot), q'.slots[k] = some x → q.slots[k] = some x ∨
        (k.val < 6 ∧ q.slots[k] = none ∧ x.inAttempt = false ∧ x.attempts = 0 ∧ ∃ l c, x.content = .release l c) ∨
        (k = 7 ∧ x.inAttempt = false ∧ x.attempts = 0 ∧ x.content = .leave)

/-- The operation only lets the queue grow, and reads neither notices nor the exchange. -/
structure OnlyQueueGrows (f : State → State) (s : State) : Prop where
  same : f s = { s with queue := (f s).queue }
  grew : QueueGrew s.queue (f s).queue
  pre : AcquiresGone (f s)
  indep : ∀ n e, f { s with notices := n, exchange := e } = { f s with notices := n, exchange := e }

/-- A queue that stays as it is. -/
theorem QueueGrew.refl (q) : QueueGrew q q := ⟨fun _ _ _ h => h, fun _ _ h => Or.inl h⟩

/-- One growth after another. -/
theorem QueueGrew.trans {q r t} (h : QueueGrew q r) (k : QueueGrew r t) : QueueGrew q t := by
  refine ⟨fun a x ha hx => k.keep a x ha (h.keep a x ha hx), fun a x hx => ?_⟩
  rcases k.fresh a x hx with h1 | h1 | h1
  · exact h.fresh a x h1
  · refine Or.inr (Or.inl ⟨h1.1, ?_, h1.2.2⟩)
    cases hq : q.slots[a] with
    | none => rfl
    | some y => have := h.keep a y (by omega) hq; rw [h1.2.1] at this; cases this
  · exact Or.inr (Or.inr h1)

/-- A queue whose slots stay. -/
theorem QueueGrew.ofNeeds {q q' : OutboundQueue} (h : q'.slots = q.slots) : QueueGrew q q' := by
  refine ⟨fun _ _ _ hh => by rw [h]; exact hh, fun _ _ hh => Or.inl (by rw [h] at hh; exact hh)⟩

/-- The operation that does nothing. -/
theorem OnlyQueueGrows.id (s) (h : AcquiresGone s) : OnlyQueueGrows (fun s => s) s := ⟨rfl, QueueGrew.refl _, h,
    fun _ _ => rfl⟩

/-- One operation after another. -/
theorem OnlyQueueGrows.comp {f g : State → State} {s} (h : OnlyQueueGrows f s)
    (k : OnlyQueueGrows g (f s)) : OnlyQueueGrows (fun s => g (f s)) s := by
  refine ⟨?_, h.grew.trans k.grew, k.pre, ?_⟩
  · rw [k.same, h.same]
  · intro n e
    show g (f _) = { g (f s) with notices := n, exchange := e }
    rw [h.indep, k.indep]

/-- Of equal operations. -/
theorem OnlyQueueGrows.congr {f g : State → State} {s} (h : OnlyQueueGrows f s) (e : f = g) : OnlyQueueGrows g s :=
    e ▸ h

/-- Operations in a row. -/
theorem OnlyQueueGrows.foldl {α} (f : State → α → State) (hf : ∀ s a, AcquiresGone s →
    OnlyQueueGrows (fun s => f s a) s) (xs : List α) (s) (h : AcquiresGone s) :
    OnlyQueueGrows (fun s => xs.foldl f s) s := by
  induction xs generalizing s with
  | nil => exact OnlyQueueGrows.id s h
  | cons a xs ih => exact (hf s a h).comp (ih _ (hf s a h).pre)

/-- Placing what is no ACQUIRE. -/
theorem everyAcquireInAttempt_placeSlot (k c q) (hc : c.isAcquire =
    false) (h : EveryAcquireInAttempt q) : EveryAcquireInAttempt (placeSlot k c q) := by
  intro j x hj hx
  unfold placeSlot at hx
  simp only [slots_set_get] at hx
  split at hx
  · cases hx; intro h; rw [hc] at h; cases h
  · exact h j x hj hx

/-- A RELEASE where no ACQUIRE can be cancelled. -/
theorem placeRelease_grows (l c p q) (h1 : EveryAcquireInAttempt q) (h2 : NoAcquireNeed q) :
    (placeRelease l c p q).1 ≠ .cancelled ∧ QueueGrew q (placeRelease l c p q).2 ∧
        EveryAcquireInAttempt (placeRelease l c p q).2 ∧ NoAcquireNeed (placeRelease l c p q).2 := by
  have hg : (placeGeneral (.release l c) q).1 ≠ .cancelled ∧ QueueGrew q (placeGeneral (.release l c) q).2 ∧
      EveryAcquireInAttempt (placeGeneral (.release l c) q).2 ∧ NoAcquireNeed (placeGeneral (.release l c) q).2 := by
    unfold placeGeneral
    split
    · exact ⟨by simp, QueueGrew.refl _, h1, h2⟩
    · rename_i k hk
      rw [freeGeneralSlot_some] at hk
      refine ⟨by simp, ⟨fun a x ha hx => ?_, fun a x hx => ?_⟩, everyAcquireInAttempt_placeSlot _ _ _ rfl h1, h2⟩
      · simp only [placeSlot, slots_set_get]
        rw [if_neg]
        · exact hx
        · rintro rfl; rw [hk.2.1] at hx; cases hx
      · simp only [placeSlot, slots_set_get] at hx
        split at hx
        · rename_i e; subst e; cases hx
          exact Or.inr (Or.inl ⟨hk.1, hk.2.1, rfl, rfl, l, c, rfl⟩)
        · exact Or.inl hx
  unfold placeRelease
  split
  · exact ⟨by simp, QueueGrew.refl _, h1, h2⟩
  · split
    · rename_i k hk
      split
      · exact hg
      · rename_i hi
        exfalso
        have hm := (generalSlotsWith_head_spec _ _ _ hk)
        obtain ⟨hk6, x, hx, hax⟩ := hm
        have : x.inAttempt = true := h1 k x hk6 hx (by
          revert hax
          cases x.content <;> simp [SlotContent.isAcquireFor, SlotContent.isAcquire])
        apply hi
        unfold slotInAttempt; rw [hx]; exact this
    · split
      · exact hg
      · exact ⟨by simp, QueueGrew.refl _, h1, h2⟩

/-- A RELEASE asked for. -/
theorem requestRelease_onlyQueueGrows (l c) (s : State) (h : AcquiresGone s) : OnlyQueueGrows
    (fun s => (requestRelease l c s).2) s := by
  have hp := placeRelease_grows l c (tagPresent s l (ownTag s c)) s.queue h.1 h.2.1
  have e : ∀ n e', (requestRelease l c { s with notices := n, exchange := e' }).2 =
      { s with notices := n, exchange := e', queue := (placeRelease l c (tagPresent s l (ownTag s c)) s.queue).2 } :=
      by
    intro n e'
    unfold requestRelease
    dsimp only
    exact if_neg hp.1
  have e1 : (requestRelease l c s).2 =
      { s with queue := (placeRelease l c (tagPresent s l (ownTag s c)) s.queue).2 } := e s.notices s.exchange
  refine ⟨?_, ?_, ?_, ?_⟩
  · rw [e1]
  · rw [e1]; exact hp.2.1
  · rw [e1]; exact ⟨hp.2.2.1, hp.2.2.2, h.2.2⟩
  · intro n e'; rw [e1, e]

/-- A need other than ACQUIRE. -/
theorem setNeed_onlyQueueGrows (c n) (s : State) (h : AcquiresGone s)
    (hn : n ≠ some .acquire) : OnlyQueueGrows (setNeed c n) s := by
  refine ⟨rfl, QueueGrew.ofNeeds rfl, ⟨h.1, ?_, h.2.2⟩, fun _ _ => rfl⟩
  intro d
  unfold setNeed
  simp only [Fin.getElem_fin, Vector.getElem_set]
  split
  · exact hn
  · exact h.2.1 d

/-- Of operations equal on the states that differ in notices and exchange. -/
theorem OnlyQueueGrows.eq {f g : State → State} {s} (h : OnlyQueueGrows f s) (e : ∀ n x,
    g { s with notices := n, exchange := x } = f { s with notices := n, exchange := x }) : OnlyQueueGrows g s := by
  have e0 : g s = f s := e s.notices s.exchange
  refine ⟨?_, ?_, ?_, fun n x => ?_⟩
  · rw [e0]; exact h.same
  · rw [e0]; exact h.grew
  · rw [e0]; exact h.pre
  · rw [e, e0]; exact h.indep n x

/-- A RELEASE of a line client. -/
theorem raiseRelease_onlyQueueGrows (c) (s : State) (h : AcquiresGone s) : OnlyQueueGrows (raiseRelease c) s := by
  cases hb : lineBinding s c with
  | none => exact (OnlyQueueGrows.id s h).eq fun n x => by
                unfold raiseRelease
                rw [show lineBinding { s with notices := n, exchange := x } c = none from hb]
  | some b =>
    obtain ⟨l, m, t⟩ := b
    have e1 : ∀ n x, (requestRelease l c { s with notices := n, exchange := x }).1 = (requestRelease l c s).1 :=
        fun _ _ => rfl
    by_cases hf : (requestRelease l c s).1 = .slotsFull
    · refine (setNeed_onlyQueueGrows c (some .release) s h (by simp)).eq fun n x => ?_
      unfold raiseRelease; rw [show lineBinding { s with notices := n, exchange := x } c = some (l, m, t) from hb]
      dsimp only
      exact if_pos hf
    · refine (requestRelease_onlyQueueGrows l c s h).eq fun n x => ?_
      unfold raiseRelease; rw [show lineBinding { s with notices := n, exchange := x } c = some (l, m, t) from hb]
      dsimp only
      exact if_neg hf

/-- A waiting need is served. -/
theorem serveNeed_onlyQueueGrows (s : State) (c) (h : AcquiresGone s) : OnlyQueueGrows (fun s => serveNeed s c) s :=
    by
  have hid : (∀ n x, serveNeed { s with notices := n, exchange := x } c = { s with notices := n, exchange := x }) →
      OnlyQueueGrows (fun s => serveNeed s c) s :=
    fun hh => (OnlyQueueGrows.id s h).eq hh
  cases hf : freeGeneralSlot s.queue with
  | none => exact hid fun n x => by unfold serveNeed; dsimp only; rw [hf]
  | some k =>
    cases hn : s.queue.needs[c] with
    | none => exact hid fun n x => by unfold serveNeed; dsimp only; rw [hf, hn]
    | some v =>
      cases v with
      | acquire => exact absurd hn (h.2.1 c)
      | release =>
        refine ((setNeed_onlyQueueGrows c none s h (by simp)).comp
            (raiseRelease_onlyQueueGrows c _ (setNeed_onlyQueueGrows c none s h (by simp)).pre)).eq fun n x => ?_
        unfold serveNeed; dsimp only; rw [hf, hn]

/-- No client concludes. -/
theorem concludeClient_acquiresGone (s : State) (c) (h : AcquiresGone s) : concludeClient s c = s := by
  unfold concludeClient
  split
  · rfl
  · rename_i b hb
    rw [if_neg]
    · intro hc
      refine h.2.2 c ?_ hc.1
      intro hp
      unfold lineBinding at hb
      rw [hp] at hb
      cases hb

/-- No client concludes. -/
theorem concludeClients_acquiresGone (s : State) (h : AcquiresGone s) : concludeClients s = s := by
  unfold concludeClients
  generalize allClients = cs
  induction cs with
  | nil => rfl
  | cons a cs ih => rw [List.foldl_cons, concludeClient_acquiresGone s a h]; exact ih

/-- The handshake of LEAVING (R140, R141). -/
theorem leaveHandshake_onlyQueueGrows (s : State) (h : AcquiresGone s) : OnlyQueueGrows leaveHandshake s := by
  by_cases hl : s.localState = .leaving
  · have hf := OnlyQueueGrows.foldl handshakeRelease (fun s a h => by
      by_cases h1 : (releaseSlot a.1 a.2 s.queue).isSome = true
      · exact (OnlyQueueGrows.id s h).eq fun n x => by unfold handshakeRelease; exact if_pos h1
      · cases h2 : freeGeneralSlot s.queue with
        | none => refine (OnlyQueueGrows.id s h).eq fun n x => ?_
                  unfold handshakeRelease; rw [if_neg h1]; dsimp only; rw [h2]
        | some k => refine (requestRelease_onlyQueueGrows a.1 a.2 s h).eq fun n x => ?_
                    unfold handshakeRelease; rw [if_neg h1]; dsimp only; rw [h2]) (handshakePairs s) s h
    generalize hps : handshakePairs s = ps at hf
    have e : ∀ n x, leaveHandshake { s with notices := n, exchange := x } =
        (fun t => if leaveConditions t then placeMembership .leave t else t)
            (ps.foldl handshakeRelease { s with notices := n, exchange := x }) := by
      intro n x
      unfold leaveHandshake
      rw [if_pos hl, show handshakePairs { s with notices := n, exchange := x } = ps from hps]
    refine (hf.comp (g := fun t => if leaveConditions t then placeMembership .leave t else t) ?_).eq e
    have hp : AcquiresGone (ps.foldl handshakeRelease s) := hf.pre
    clear hf e
    show OnlyQueueGrows _ (ps.foldl handshakeRelease s)
    generalize ps.foldl handshakeRelease s = t at hp
    by_cases hc : leaveConditions t = true
    · have e2 : ∀ n x, (if leaveConditions { t with notices := n, exchange := x } = true then
        placeMembership .leave { t with notices := n, exchange := x } else { t with notices := n, exchange := x }) =
            placeMembership .leave { t with notices := n, exchange := x } := fun n x => if_pos hc
      refine OnlyQueueGrows.eq (f := placeMembership .leave) ⟨rfl, ⟨fun a x ha hx => ?_, fun a x hx => ?_⟩,
          ⟨everyAcquireInAttempt_placeSlot _ _ _ rfl hp.1, hp.2.1, hp.2.2⟩, fun _ _ => rfl⟩ e2
      · simp only [placeMembership, placeSlot, slots_set_get]
        rw [if_neg]
        · exact hx
        · rintro rfl; simp [membershipSlot] at ha
      · simp only [placeMembership, placeSlot, slots_set_get] at hx
        split at hx
        · rename_i e; subst e; cases hx
          exact Or.inr (Or.inr ⟨rfl, rfl, rfl, rfl⟩)
        · exact Or.inl hx
    · exact (OnlyQueueGrows.id t hp).eq fun n x => if_neg hc
  · exact (OnlyQueueGrows.id s h).eq fun n x => by unfold leaveHandshake; exact if_neg hl

/-- The waiting needs are served. -/
theorem serveNeeds_onlyQueueGrows (s : State) (h : AcquiresGone s) : OnlyQueueGrows serveNeeds s :=
    OnlyQueueGrows.foldl serveNeed (fun s a h => serveNeed_onlyQueueGrows s a h) allClients s h

/-- What follows a freed slot, in LEAVING. -/
theorem slotFreed_onlyQueueGrows (s : State) (h : AcquiresGone s) : OnlyQueueGrows
    (fun s => leaveHandshake (serveNeeds s)) s := (serveNeeds_onlyQueueGrows s h).comp
    (leaveHandshake_onlyQueueGrows _ (serveNeeds_onlyQueueGrows s h).pre)

/-- What follows a freed slot where no client concludes. -/
theorem slotFreed_leaving (s : State) (h : AcquiresGone s) : slotFreed s = leaveHandshake (serveNeeds s) := by
  unfold slotFreed settleQueue
  rw [concludeClients_acquiresGone _ (serveNeeds_onlyQueueGrows s h).pre]

/-- The slots that LEAVE keeps (R127). -/
def slotsAtLeave (q : OutboundQueue) : Vector (Option Slot) 8 := Vector.ofFn fun k : Fin 8 =>
        match q.slots[k] with
        | none => none
        | some x => if k.val < 6 ∧ x.content.isAcquire = true ∧ x.inAttempt = false then none else some x

/-- The notice of the withdrawal of one slot (R127). -/
def withdrawnAt (q : OutboundQueue) (k : Fin 8) : List NoticeBody := match q.slots[k] with
        | some { content := .acquire l c _ _ _, inAttempt := false, .. } => [NoticeBody.withdrawn l c .localRequest]
        | _ => []

/-- The queue without the ACQUIREs, not in attempt, of the slots named. -/
def withoutAcquires (q : OutboundQueue) (ks : List (Fin 8)) : OutboundQueue :=
    { q with slots := Vector.ofFn fun k : Fin 8 =>
        match q.slots[k] with
        | none => none
        | some x => if k ∈ ks ∧ x.content.isAcquire = true ∧ x.inAttempt = false then none else some x }

/-- The withdrawal of the ACQUIREs of several slots, in order (R127, R139). -/
theorem withdrawAcquires_eq (s : State) (ks : List (Fin 8)) (hk : ks.Nodup) : ks.foldl withdrawAcquire s = { s with
     queue := withoutAcquires s.queue ks
     notices := arriveInOrder (commitStamp s) (ks.flatMap (withdrawnAt s.queue)) s.notices } := by
  induction ks generalizing s with
  | nil =>
    have : withoutAcquires s.queue [] = s.queue := by
      unfold withoutAcquires
      have : (Vector.ofFn fun k : Fin 8 =>
        match s.queue.slots[k] with
        | none => none
        | some x => if k ∈ ([] : List (Fin 8)) ∧ x.content.isAcquire = true ∧ x.inAttempt =
            false then none else some x) = s.queue.slots := by
        ext i hi : 1
        simp only [Vector.getElem_ofFn, List.not_mem_nil, false_and, if_false]
        show (match s.queue.slots[i] with | none => none | some x => some x) = s.queue.slots[i]
        cases s.queue.slots[i] <;> rfl
      rw [this]
    rw [this]; rfl
  | cons a ks ih =>
    rw [List.nodup_cons] at hk
    rw [List.foldl_cons, ih _ hk.2, List.flatMap_cons, arriveInOrder_append]
    have hw : withdrawAcquire s a =
        { s with queue := withoutAcquires s.queue [a], notices := arriveInOrder (commitStamp s) (withdrawnAt s.queue a) s.notices } := by
      have hq : ∀ x, s.queue.slots[a] = some x → (x.content.isAcquire = true ∧ x.inAttempt = false) →
          withoutAcquires s.queue [a] = removeSlot a s.queue := by
        intro x hx hp
        unfold withoutAcquires removeSlot
        congr 1
        ext i hi : 1
        simp only [Vector.getElem_ofFn, Vector.getElem_set, List.mem_singleton]
        by_cases h : a.val = i
        · have e : (⟨i, hi⟩ : Fin 8) = a := Fin.ext h.symm
          rw [if_pos h, e, hx]; dsimp only; rw [if_pos ⟨rfl, hp⟩]
        · rw [if_neg h]
          have : ¬ (⟨i, hi⟩ : Fin 8) = a := fun e => h (by rw [← e])
          simp only [this, false_and, if_false]
          show (match s.queue.slots[i] with | none => none | some x => some x) = s.queue.slots[i]
          cases s.queue.slots[i] <;> rfl
      have hq' : (∀ x, s.queue.slots[a] = some x → ¬ (x.content.isAcquire = true ∧ x.inAttempt = false)) →
          withoutAcquires s.queue [a] = s.queue := by
        intro hn
        unfold withoutAcquires
        have : (Vector.ofFn fun k : Fin 8 =>
          match s.queue.slots[k] with
          | none => none
          | some x => if k ∈ [a] ∧ x.content.isAcquire = true ∧ x.inAttempt = false then none else some x) =
              s.queue.slots := by
          ext i hi : 1
          simp only [Vector.getElem_ofFn, List.mem_singleton]
          by_cases h : (⟨i, hi⟩ : Fin 8) = a
          · rw [h]
            have e : s.queue.slots[i] = s.queue.slots[a] := by subst h; rfl
            rw [e]
            cases hx : s.queue.slots[a] with
            | none => rfl
            | some x => dsimp only; rw [if_neg (fun hh => hn x hx hh.2)]
          · simp only [h, false_and, if_false]
            show (match s.queue.slots[i] with | none => none | some x => some x) = s.queue.slots[i]
            cases s.queue.slots[i] <;> rfl
        rw [this]
      unfold withdrawAcquire withdrawnAt
      cases hx : s.queue.slots[a] with
      | none => rw [hq' (by simp [hx])]; rfl
      | some x =>
        obtain ⟨content, age, att, inA, op⟩ := x
        dsimp only
        cases content with
        | acquire l c m t p =>
          cases inA with
          | true => rw [hq' (by intro x h; rw [hx] at h; cases h; simp)]; rfl
          | false => rw [hq _ hx ⟨rfl, rfl⟩]; rfl
        | _ => rw [hq' (by intro x h; rw [hx] at h; cases h; simp [SlotContent.isAcquire])]; rfl
    rw [hw]
    have h1 : withoutAcquires (withoutAcquires s.queue [a]) ks = withoutAcquires s.queue (a :: ks) := by
      unfold withoutAcquires
      congr 1
      ext i hi : 1
      simp only [Vector.getElem_ofFn, Fin.getElem_fin, List.mem_cons, List.not_mem_nil, or_false]
      cases s.queue.slots[i] with
      | none => rfl
      | some x =>
        dsimp only
        by_cases h2 : x.content.isAcquire = true ∧ x.inAttempt = false
        · by_cases h3 : (⟨i, hi⟩ : Fin 8) = a
          · simp [h3, h2]
          · simp [h3, h2]
        · simp [h2]
    have h2 : ks.flatMap (withdrawnAt (withoutAcquires s.queue [a])) = ks.flatMap (withdrawnAt s.queue) := by
      refine List.flatMap_congr fun j hj => ?_
      have hne : j ≠ a := fun e => hk.1 (e ▸ hj)
      unfold withdrawnAt withoutAcquires
      simp only [Fin.getElem_fin, Vector.getElem_ofFn, List.mem_singleton]
      have : ¬ (⟨j.val, j.isLt⟩ : Fin 8) = a := hne
      simp only [this, false_and, if_false]
      cases s.queue.slots[j.val] <;> rfl
    rw [h1]
    show State.mk _ _ _ _ _ _ _ _ _ _ _ _ _ _ _ _ _ _ _ _ _ _ _ _ _ = _
    dsimp only
    rw [h2]
    rfl

/-- The REVOKED notices at LEAVE, by ascending lease (R139). -/
theorem revokedNotices_leaving (s : State) : revokedNotices s .leaving = ((List.finRange 64).flatMap fun l : Lease =>
                match s.leases[l] with
                | none => []
                | some e =>
                  (e.holders.filter fun h => h.tag.station = stationNumber s && h.status = .live).map fun h =>
                    NoticeBody.revoked l h.tag.client h.grant .leaving) := by
  unfold revokedNotices ownLiveHolds
  rw [List.map_flatMap]
  congr 1
  funext l
  cases s.leases[l] with
  | none => rfl
  | some e => simp [List.map_map]

end Sys2Proof.Machine
end

