-- ==== Sys2Proof/Laws/Payloads.lean ====
section
/-! SUPPORT. What is read from bytes is what they spell, the don't-care bits aside, with every field in range (R93,
R94, R56, R190): records, lease items, roster items. -/

namespace Sys2Proof.Machine

/-- A byte that is examined whole. -/
theorem and_ones (x : Byte) : x &&& 0xFF = x := by
  rw [show (0xFF : Byte) = BitVec.allOnes 8 from rfl, BitVec.and_allOnes]

/-- The byte of its own number. -/
theorem byteOf_self (x : Byte) : byteOf x.toNat = x := by
  unfold byteOf
  exact BitVec.ofNat_toNat 8 x ▸ BitVec.setWidth_eq x

/-- Only the byte of a lease is read as that lease (R190). -/
theorem leaseOfByte_eq_some (x : Byte) (l : Lease) : leaseOfByte x = some l ↔ x = byteOf l.val := by
  constructor
  · intro h
    unfold leaseOfByte at h
    split at h
    · cases h; exact (byteOf_self x).symm
    · cases h
  · rintro rfl; exact leaseOfByte_byteOf l

/-- Only the byte of a client is read as that client (R190). -/
theorem clientOfByte_eq_some (x : Byte) (c : Client) : clientOfByte x = some c ↔ x = byteOf c.val := by
  constructor
  · intro h
    unfold clientOfByte at h
    split at h
    · cases h; exact (byteOf_self x).symm
    · cases h
  · rintro rfl; exact clientOfByte_byteOf c

/-- The entries of a RENEW are read from the bytes that spell them only. -/
theorem readEntries_bytes (bytes : List Byte) (es : List (Lease × Client)) (h : readEntries bytes = some es) :
    bytes = es.flatMap fun lc => [byteOf lc.1.val, byteOf lc.2.val] := by
  match bytes with
  | [] => cases h; rfl
  | [_] => cases h
  | l :: c :: rest =>
    unfold readEntries at h
    split at h
    · rename_i hl hc hr
      cases h
      rw [List.flatMap_cons, ← readEntries_bytes rest _ hr, (leaseOfByte_eq_some _ _).1 hl,
        (clientOfByte_eq_some _ _).1 hc]
      rfl
    · cases h

/-- An entry of a RENEW takes two bytes. -/
theorem entriesBytes_length (es : List (Lease × Client)) :
    (es.flatMap fun lc => [byteOf lc.1.val, byteOf lc.2.val]).length = 2 * es.length := by
  induction es with
  | nil => rfl
  | cons a es ih =>
    rw [List.flatMap_cons, List.length_append, ih]
    show 2 + _ = _
    simp only [List.length_cons]; omega

/-- A tag byte is that of the tag and mode read from it (R189). -/
theorem tagByte_read (b : Byte) : tagByte (tagOfByte b) (modeOfTagByte b) = b := by
  revert b; decide

/-- A patience byte is that of the patience read from it (R190). -/
theorem patienceByte_read (b : Byte) : patienceByte (patienceOfByte b) = b := by
  unfold patienceOfByte
  split
  · rename_i h; rw [h]; rfl
  · exact byteOf_self b

/-- The bytes of a 16-bit number are those it was read from. -/
theorem word16_bytes (a b : Byte) : bytesOf16 (word16 a b) = [a, b] := by
  unfold bytesOf16 word16
  congr 1
  · exact BitVec.extractLsb'_append_eq_left
  · congr 1; exact BitVec.extractLsb'_append_eq_right

/-- The bytes of a 32-bit number are those it was read from. -/
theorem word32_bytes (a b c d : Byte) : bytesOf32 (word32 a b c d) = [a, b, c, d] := by
  unfold bytesOf32 word32
  simp only [List.cons.injEq, and_true]
  refine ⟨?_, ?_, ?_, BitVec.extractLsb'_append_eq_right⟩ <;> apply BitVec.eq_of_getLsbD_eq <;> intro i hi <;>
    simp only [BitVec.getLsbD_extractLsb', BitVec.getLsbD_append, hi, decide_true, Bool.true_and]
  · rw [if_neg (by omega), if_neg (by omega), if_neg (by omega)]; congr 1; omega
  · rw [if_neg (by omega), if_neg (by omega), if_pos (by omega)]; congr 1; omega
  · rw [if_neg (by omega), if_pos (by omega)]; congr 1; omega

/-- The counts byte is that of its two halves (R190). -/
theorem counts_read (x : Byte) :
    BitVec.ofNat 4 (x.extractLsb' 4 4).toNat ++ BitVec.ofNat 4 (x.extractLsb' 0 4).toNat = x := by
  revert x; decide

/-- The status of a holder is the low bit of its byte (R190). -/
theorem statusByte_read (x : Byte) : statusByte (if x.getLsbD 0 then .fenced else .live) = x &&& 0x01 := by
  revert x; decide

/-- Holder records are read from the bytes that spell them, the don't-care bits aside (R190). -/
theorem readHolders_bytes (n : Nat) (bytes : List Byte) (hs : List Holder) (rest : List Byte)
    (h : readHolders n bytes = some (hs, rest)) :
    hs.length = n ∧ ∃ used, bytes = used ++ rest ∧ used.length = 6 * n ∧
      List.zipWith (· &&& ·) used (hs.flatMap fun _ => [0xFF, 0x01, 0xFF, 0xFF, 0xFF, 0xFF]) =
        hs.flatMap holderBytes := by
  induction n generalizing bytes hs with
  | zero =>
    unfold readHolders at h
    cases h
    exact ⟨rfl, [], rfl, rfl, rfl⟩
  | succ n ih =>
    unfold readHolders at h
    split at h
    · contradiction
    · rename_i tag status term left g1 g0 tail hn
      cases hn
      split at h
      · cases h
      · rename_i hr
        cases h
        obtain ⟨hl, used, rfl, hu, hz⟩ := ih _ _ hr
        refine ⟨by rw [List.length_cons, hl], tag :: status :: term :: left :: g1 :: g0 :: used, rfl,
          by simp only [List.length_cons, hu]; omega, ?_⟩
        rw [List.flatMap_cons, List.flatMap_cons]
        simp only [List.cons_append, List.nil_append, List.zipWith_cons_cons, hz]
        simp only [holderBytes, tagByte_read, statusByte_read, byteOf_self, word16_bytes, and_ones, List.cons_append,
          List.nil_append]
    · cases h

/-- One more holder record is read (R190). -/
theorem readHolders_cons (n : Nat) (tag status term left g1 g0 : Byte) (t : List Byte) :
    readHolders (n + 1) (tag :: status :: term :: left :: g1 :: g0 :: t) = (readHolders n t).map fun p =>
      ({ tag := tagOfByte tag
         mode := modeOfTagByte tag
         status := if status.getLsbD 0 then .fenced else .live
         term := term.toNat
         remaining := left.toNat
         grant := word16 g1 g0 } :: p.1, p.2) := by
  show (match readHolders n t with | none => none | some (hs, rest) => some (_ :: hs, rest)) = _
  cases readHolders n t <;> rfl

/-- Bytes that spell holder records, the don't-care bits aside, are read as them (R190). -/
theorem readHolders_alike (hs : List Holder) (used rest : List Byte) (h : ∀ x ∈ hs, holderInRange x = true)
    (hu : used.length = 6 * hs.length)
    (hz : List.zipWith (· &&& ·) used (hs.flatMap fun _ => [0xFF, 0x01, 0xFF, 0xFF, 0xFF, 0xFF]) =
      hs.flatMap holderBytes) : readHolders hs.length (used ++ rest) = some (hs, rest) := by
  induction hs generalizing used with
  | nil =>
    rw [List.eq_nil_of_length_eq_zero hu]; rfl
  | cons a hs ih =>
    obtain _ | ⟨tag, _ | ⟨status, _ | ⟨term, _ | ⟨left, _ | ⟨g1, _ | ⟨g0, used⟩⟩⟩⟩⟩⟩ := used <;>
      simp only [List.length_cons, List.length_nil] at hu <;> try omega
    have hb : holderBytes a = [tagByte a.tag a.mode, statusByte a.status, byteOf a.term, byteOf a.remaining,
      a.grant.extractLsb' 8 8, a.grant.extractLsb' 0 8] := rfl
    have hr := readHolders_back [a] [] fun x hx => h x (by rw [List.mem_singleton.1 hx]; exact List.mem_cons_self ..)
    rw [List.flatMap_singleton, hb, List.append_nil] at hr
    replace hr := (readHolders_cons 0 _ _ _ _ _ _ []).symm.trans hr
    rw [List.flatMap_cons, List.flatMap_cons, hb] at hz
    simp only [List.cons_append, List.nil_append, List.zipWith_cons_cons, List.cons.injEq, and_ones] at hz
    obtain ⟨h1, h2, h3, h4, h5, h6, h7⟩ := hz
    have hs1 : status.getLsbD 0 = (statusByte a.status).getLsbD 0 := by
      rw [← h2, BitVec.getLsbD_and, show (1 : Byte).getLsbD 0 = true from rfl, Bool.and_true]
    simp only [readHolders, Option.map_some, Option.some.injEq, Prod.mk.injEq, List.cons.injEq, and_true] at hr
    rw [List.length_cons, List.cons_append, List.cons_append, List.cons_append, List.cons_append, List.cons_append,
      List.cons_append, readHolders_cons, ih used (fun x hx => h x (List.mem_cons_of_mem _ hx)) (by omega) h7,
      h1, h3, h4, h5, h6, hs1, Option.map_some, hr]

/-- Waiter records are read from the bytes that spell them only (R190). -/
theorem readWaiters_bytes (n : Nat) (bytes : List Byte) (ws : List Waiter) (h : readWaiters n bytes = some ws) :
    ws.length = n ∧ bytes = ws.flatMap waiterBytes := by
  induction n generalizing bytes ws with
  | zero =>
    unfold readWaiters at h
    split at h
    · cases h; exact ⟨rfl, rfl⟩
    · contradiction
    · cases h
  | succ n ih =>
    unfold readWaiters at h
    split at h
    · contradiction
    · rename_i hn
      cases hn
      split at h
      · cases h
      · rename_i hr
        cases h
        obtain ⟨hl, rfl⟩ := ih _ _ hr
        refine ⟨by rw [List.length_cons, hl], ?_⟩
        rw [List.flatMap_cons]
        simp only [waiterBytes, tagByte_read, byteOf_self, patienceByte_read, List.cons_append, List.nil_append]
    · cases h

/-- Bytes that are examined whole stay as they are. -/
theorem zipWith_ones (bytes : List Byte) (n : Nat) (h : bytes.length = n) :
    List.zipWith (· &&& ·) bytes (List.replicate n (0xFF : Byte)) = bytes := by
  subst h
  induction bytes with
  | nil => rfl
  | cons a t ih => rw [List.length_cons, List.replicate_succ, List.zipWith_cons_cons, ih, and_ones]

/-- The examined bits of a holder record take six bytes. -/
theorem holderMasks_length (hs : List Holder) :
    (hs.flatMap fun _ => ([0xFF, 0x01, 0xFF, 0xFF, 0xFF, 0xFF] : List Byte)).length = 6 * hs.length := by
  induction hs with
  | nil => rfl
  | cons a hs ih =>
    rw [List.flatMap_cons, List.length_append, ih]
    show 6 + _ = _
    simp only [List.length_cons]; omega

/-- The fields of an entry as the range checks read them (R56). -/
theorem entryInRange_fits (e : LeaseEntry) : entryInRange e = true ↔ EntryFits e := by
  rw [entryInRange_iff]
  unfold EntryFits
  refine and_congr Iff.rfl (and_congr Iff.rfl (and_congr ?_ (and_congr ?_ (and_congr ?_ Iff.rfl))))
  · simp only [holderInRange_iff]
  · refine forall_congr' fun w => imp_congr_right fun _ => ?_
    cases hp : w.patience <;> simp [waiterInRange, hp, and_assoc]
  · constructor
    · rintro (h1 | h1) h hm hx
      · have := List.length_pos_of_mem hm; omega
      · rw [h1 h hm] at hx; cases hx
    · intro h1
      by_cases hl : e.holders.length ≤ 1
      · exact Or.inl hl
      · refine Or.inr fun h hm => ?_
        cases hx : h.mode with
        | shared => rfl
        | exclusive => have := h1 h hm hx; omega

/-- The fields of a record as the range checks read them (R56). -/
theorem recordInRange_fits (x : StationRecord) : recordInRange x = true ↔ RecordFits x := by
  unfold recordInRange RecordFits
  cases x.state with
  | absent => simp
  | member => simp
  | joining =>
    rcases x.progress with _ | (_ | _) <;> simp

/-- An entry is read where its bytes spell it, the don't-care bits aside, and its fields are in range (R56, R190). -/
theorem readEntry_eq_some (bytes : List Byte) (e : LeaseEntry) :
    readEntry bytes = some e ↔ entryInRange e = true ∧ bytes.length = (entryBytes e).length ∧
      List.zipWith (· &&& ·) bytes (List.replicate 3 0xFF ++
        (e.holders.flatMap fun _ => [0xFF, 0x01, 0xFF, 0xFF, 0xFF, 0xFF]) ++
        List.replicate (3 * e.waiters.length) 0xFF) = entryBytes e := by
  constructor
  · intro h
    refine ⟨readEntry_inRange _ _ h, ?_⟩
    unfold readEntry at h
    split at h
    · rename_i c1 c0 counts rest
      split at h
      · cases h
      · rename_i hs rest' hh
        split at h
        · cases h
        · rename_i ws hw
          dsimp only at h
          split at h
          · cases h
            obtain ⟨hl, used, rfl, hu, hz⟩ := readHolders_bytes _ _ _ _ hh
            obtain ⟨hm, rfl⟩ := readWaiters_bytes _ _ _ hw
            refine ⟨?_, ?_⟩
            · rw [entryBytes_length]
              simp only [List.length_cons, List.length_append, hu, waiterBytes_length, hl]
              omega
            · unfold entryBytes
              dsimp only
              rw [hl, hm, counts_read, word16_bytes, List.append_assoc, List.append_assoc]
              simp only [List.replicate_succ, List.replicate_zero, List.cons_append, List.nil_append,
                List.zipWith_cons_cons, and_ones, List.cons.injEq, true_and]
              rw [List.zipWith_append (by rw [hu, holderMasks_length, hl]), hz,
                zipWith_ones _ _ (by rw [waiterBytes_length, hm])]
          · cases h
    · cases h
  · rintro ⟨he, hl, hz⟩
    obtain _ | ⟨c1, _ | ⟨c0, _ | ⟨counts, rest⟩⟩⟩ := bytes <;> rw [entryBytes_length] at hl <;>
      simp only [List.length_cons, List.length_nil] at hl <;> try omega
    unfold entryBytes at hz
    rw [List.append_assoc, List.append_assoc, List.append_assoc] at hz
    simp only [bytesOf16, List.replicate_succ, List.replicate_zero, List.cons_append, List.nil_append,
                List.zipWith_cons_cons, and_ones, List.cons.injEq] at hz
    obtain ⟨h1, h2, h3, hz⟩ := hz
    have hf := he
    unfold entryInRange at hf
    simp only [Bool.and_eq_true, decide_eq_true_eq, List.all_eq_true] at hf
    obtain ⟨⟨⟨⟨⟨g1, g2⟩, g3⟩, g4⟩, g5⟩, g6⟩ := hf
    simp only [Config.holderLimit, Config.waiterLimit] at g1 g2
    have hsplit : rest = rest.take (6 * e.holders.length) ++ rest.drop (6 * e.holders.length) :=
      (List.take_append_drop ..).symm
    have ht : (rest.take (6 * e.holders.length)).length = 6 * e.holders.length := by
      rw [List.length_take]; omega
    rw [hsplit, List.zipWith_append (by rw [ht, holderMasks_length])] at hz
    obtain ⟨z1, z2⟩ := List.append_inj hz
      (by rw [List.length_zipWith, ht, holderMasks_length, holderBytes_length, Nat.min_self])
    rw [zipWith_ones _ _ (by rw [List.length_drop]; omega)] at z2
    rw [hsplit]
    unfold readEntry
    dsimp only
    rw [h3, (nibbles_back e.holders.length e.waiters.length (by omega) (by omega)).1,
      (nibbles_back e.holders.length e.waiters.length (by omega) (by omega)).2, readHolders_alike _ _ _ g3 ht z1]
    dsimp only
    rw [z2, readWaiters_back _ g4]
    dsimp only
    rw [h1, h2, word16_back, if_pos he]
/-- A record is read where its bytes spell it, the don't-care bits aside, and its fields fit (R56, R190). -/
theorem readRecord_eq_some (b0 b1 : Byte) (x : StationRecord) :
    readRecord b0 b1 = some x ↔ recordInRange x = true ∧
      b0 &&& 0xC3 = recordStateBits x.state ++ (0 : BitVec 4) ++ BitVec.ofNat 2 x.miss.val ∧
      b1 = progressByte x.progress := by
  have hst : ∀ (b : Byte) (st : RecordState), recordStateOfBits (b.extractLsb' 6 2) = some st →
      b &&& 0xC3 = recordStateBits st ++ (0 : BitVec 4) ++ BitVec.ofNat 2 (b.extractLsb' 0 2).toNat := by decide
  have hpr : ∀ (b : Byte) (p : Option Progress), progressOfByte b = some p → b = progressByte p := by
    intro b p h
    unfold progressOfByte at h
    split at h
    · rename_i hb; cases h; exact hb
    · split at h
      · rename_i hb; cases h; exact hb
      · split at h
        · cases h; exact (byteOf_self b).symm
        · cases h
  have hmask : ∀ b : Byte, (b &&& 0xC3).extractLsb' 6 2 = b.extractLsb' 6 2 ∧
      (b &&& 0xC3).extractLsb' 0 2 = b.extractLsb' 0 2 := by decide
  constructor
  · intro h
    refine ⟨readRecord_inRange _ _ _ h, ?_⟩
    unfold readRecord at h
    split at h
    · rename_i st pr h1 h2
      dsimp only at h
      split at h
      · cases h; exact ⟨hst _ _ h1, hpr _ _ h2⟩
      · cases h
    · cases h
  · rintro ⟨h1, h2, h3⟩
    rw [← readRecord_back x h1, ← h2, ← h3]
    unfold readRecord
    simp only [(hmask b0).1, (hmask b0).2]

/-- A list of pairs of bytes is made of its pairs. -/
theorem bytes_in_pairs (n : Nat) (l : List Byte) (h : l.length = 2 * n) :
    l = (List.finRange n).flatMap fun i => [l.getD (2 * i.val) 0, l.getD (2 * i.val + 1) 0] := by
  induction n generalizing l with
  | zero => exact List.eq_nil_of_length_eq_zero h
  | succ n ih =>
    obtain _ | ⟨a, _ | ⟨b, t⟩⟩ := l <;> simp only [List.length_cons, List.length_nil] at h <;> try omega
    rw [List.finRange_succ, List.flatMap_cons, List.flatMap_map]
    conv_lhs => rw [ih t (by omega)]
    rfl

/-- Lists of pairs are equal pair by pair. -/
theorem flatMap_pairs_eq {α : Type} (l : List α) (f g f' g' : α → Byte) :
    (l.flatMap fun i => [f i, g i]) = (l.flatMap fun i => [f' i, g' i]) ↔ ∀ i ∈ l, f i = f' i ∧ g i = g' i := by
  induction l with
  | nil => simp
  | cons a l ih =>
    rw [List.flatMap_cons, List.flatMap_cons, List.forall_mem_cons, ← ih]
    simp only [List.cons_append, List.nil_append, List.cons.injEq, and_assoc]

/-- The mask of every pair. -/
theorem zipWith_pairs {α : Type} (l : List α) (f g : α → Byte) (x y : Byte) :
    List.zipWith (· &&& ·) (l.flatMap fun i => [f i, g i]) (l.flatMap fun _ => [x, y]) =
      l.flatMap fun i => [f i &&& x, g i &&& y] := by
  induction l with
  | nil => rfl
  | cons a l ih =>
    rw [List.flatMap_cons, List.flatMap_cons, List.flatMap_cons, ← ih]
    rfl

/-- Bytes that spell the records of a roster item, the don't-care bits aside, are those read as them (R56, R190). -/
theorem records_eq (rest : List Byte) (hr : rest.length = 32) (v : Vector StationRecord 16) :
    List.zipWith (· &&& ·) rest (List.replicate 16 [0xC3, 0xFF]).flatten = allRecordBytes v ∧
        (∀ i : Station, recordInRange v[i] = true) ↔
      ∀ i : Station, readRecord (rest.getD (2 * i.val) 0) (rest.getD (2 * i.val + 1) 0) = some v[i] := by
  have hm : (List.replicate 16 ([0xC3, 0xFF] : List Byte)).flatten = (List.finRange 16).flatMap fun _ => [0xC3, 0xFF] := by
    decide
  have hz : List.zipWith (· &&& ·) rest (List.replicate 16 [0xC3, 0xFF]).flatten = allRecordBytes v ↔
      ∀ i : Station, rest.getD (2 * i.val) 0 &&& 0xC3 =
          recordStateBits v[i].state ++ (0 : BitVec 4) ++ BitVec.ofNat 2 v[i].miss.val ∧
        rest.getD (2 * i.val + 1) 0 = progressByte v[i].progress := by
    rw [hm]
    conv_lhs => rw [bytes_in_pairs 16 rest hr]
    rw [zipWith_pairs]
    unfold allRecordBytes recordBytes
    rw [flatMap_pairs_eq]
    simp only [List.mem_finRange, forall_const, and_ones]
  rw [hz, ← forall_and]
  refine forall_congr' fun i => ?_
  rw [readRecord_eq_some]
  exact ⟨fun h => ⟨h.2, h.1⟩, fun h => ⟨h.2, h.1⟩⟩

/-- A roster item is read where its bytes spell it, the don't-care bits aside, and its fields are in range (R56). -/
theorem readRosterItem_eq_some (bytes : List Byte) (x : SnapItem) :
    readRosterItem bytes = some x ↔ itemNumber x = 0 ∧ BodyInRange (.snap x) ∧
      bytes.length = (payloadBytes (.snap x)).length ∧
      List.zipWith (· &&& ·) bytes (examinedBits (.snap x)) = payloadBytes (.snap x) := by
  have hread : ∀ (b0 b1 b2 b3 b4 b5 b6 b7 b8 b9 : Byte) (rest : List Byte) (i : Station),
      readItemRecord (b0 :: b1 :: b2 :: b3 :: b4 :: b5 :: b6 :: b7 :: b8 :: b9 :: rest) i =
        readRecord (rest.getD (2 * i.val) 0) (rest.getD (2 * i.val + 1) 0) := by
    intro b0 b1 b2 b3 b4 b5 b6 b7 b8 b9 rest i
    unfold readItemRecord
    rw [show 10 + 2 * i.val = 2 * i.val + 10 by omega, show 11 + 2 * i.val = 2 * i.val + 1 + 10 by omega]
    rfl
  have hten : List.replicate 10 (0xFF : Byte) = [0xFF, 0xFF, 0xFF, 0xFF, 0xFF, 0xFF, 0xFF, 0xFF, 0xFF, 0xFF] := rfl
  constructor
  · intro h
    unfold readRosterItem at h
    split at h
    · rename_i n c3 c2 c1 c0 t3 t2 t1 t0 rest
      split at h
      · rename_i hc
        dsimp only at h
        split at h
        · rename_i hn
          cases h
          obtain ⟨-, hr, h1, h2, hi⟩ := hc
          simp only [List.all_eq_true, List.mem_finRange, forall_const, hread] at hi
          have hall := (records_eq rest hr (Vector.ofFn fun i : Fin 16 => (readRecord (rest.getD (2 * i.val) 0)
              (rest.getD (2 * i.val + 1) 0)).getD { state := .absent, miss := 0, progress := none })).2 (by
            intro i
            obtain ⟨y, hy⟩ := Option.isSome_iff_exists.1 (hi i)
            simp only [Fin.getElem_fin, Vector.getElem_ofFn, hy, Option.getD_some])
          simp only [hread] at hn ⊢
          refine ⟨rfl, ⟨h1, h2, fun i => (recordInRange_fits _).1 (hall.2 i), hn⟩, ?_, ?_⟩
          · show _ = (_ :: _ :: _ :: _ :: _ :: _ :: _ :: _ :: _ :: _ :: allRecordBytes _).length
            simp only [List.length_cons, allRecordBytes_length, hr]
          · show _ = _ ++ bytesOf32 _ ++ bytesOf32 _ ++ allRecordBytes _
            rw [word32_bytes, word32_bytes, ← hall.1, byteOf_self]
            unfold examinedBits
            rw [hten]
            simp only [List.cons_append, List.nil_append, List.zipWith_cons_cons, and_ones]
            rfl
        · cases h
      · cases h
    · cases h
  · rintro ⟨h0, hb, hl, hz⟩
    cases x with
    | lease l e => exact absurd h0 (Fin.succ_ne_zero l)
    | roster n c t v =>
      obtain ⟨h1, h2, h3, h4⟩ := hb
      have hp : payloadBytes (.snap (.roster n c t v)) = 0x00 :: byteOf n :: c.extractLsb' 24 8 ::
          c.extractLsb' 16 8 :: c.extractLsb' 8 8 :: c.extractLsb' 0 8 :: t.extractLsb' 24 8 :: t.extractLsb' 16 8 ::
          t.extractLsb' 8 8 :: t.extractLsb' 0 8 :: allRecordBytes v := rfl
      rw [hp] at hl hz
      simp only [List.length_cons, allRecordBytes_length] at hl
      obtain _ | ⟨b0, _ | ⟨b1, _ | ⟨b2, _ | ⟨b3, _ | ⟨b4, _ | ⟨b5, _ | ⟨b6, _ | ⟨b7, _ | ⟨b8, _ | ⟨b9, rest⟩⟩⟩⟩⟩⟩⟩⟩⟩⟩
        := bytes <;> simp only [List.length_cons, List.length_nil] at hl <;> try omega
      unfold examinedBits at hz
      rw [hten] at hz
      simp only [List.cons_append, List.nil_append, List.zipWith_cons_cons, and_ones, List.cons.injEq] at hz
      obtain ⟨rfl, rfl, rfl, rfl, rfl, rfl, rfl, rfl, rfl, rfl, hz⟩ := hz
      have hall := (records_eq rest (by omega) v).1 ⟨hz, fun i => (recordInRange_fits _).2 (h3 i)⟩
      have hn := byteOf_toNat n (by omega)
      have hv : (Vector.ofFn fun i : Fin 16 => (readRecord (rest.getD (2 * i.val) 0)
          (rest.getD (2 * i.val + 1) 0)).getD { state := .absent, miss := 0, progress := none }) = v := by
        apply Vector.ext; intro i hi
        rw [Vector.getElem_ofFn, hall ⟨i, hi⟩]; rfl
      unfold readRosterItem
      simp only [hread]
      rw [hv]
      show (if _ then (if _ then _ else _) else _) = _
      rw [if_pos, if_pos, word32_back, word32_back, hn]
      · rw [hn]; exact h4
      · refine ⟨by simp only [List.length_cons]; omega, by omega, by omega, by omega, ?_⟩
        rw [List.all_eq_true]; intro i _; rw [hall i]; rfl

/-- A lease item is read where its bytes spell it, the don't-care bits aside, and its fields are in range (R55, R56). -/
theorem readLeaseItem_eq_some (bytes : List Byte) (x : SnapItem) :
    readLeaseItem bytes = some x ↔ itemNumber x ≠ 0 ∧ BodyInRange (.snap x) ∧
      bytes.length = (payloadBytes (.snap x)).length ∧
      List.zipWith (· &&& ·) bytes (examinedBits (.snap x)) = payloadBytes (.snap x) := by
  have hcons : ∀ (k : Byte) (rest : List Byte) (e : LeaseEntry) (m : List Byte) (b : Byte),
      (k :: rest).length = (b :: entryBytes e).length ∧
          List.zipWith (· &&& ·) (k :: rest) (List.replicate 4 0xFF ++ m) = b :: entryBytes e ↔
        k = b ∧ rest.length = (entryBytes e).length ∧
          List.zipWith (· &&& ·) rest (List.replicate 3 0xFF ++ m) = entryBytes e := by
    intro k rest e m b
    rw [show List.replicate 4 (0xFF : Byte) = 0xFF :: List.replicate 3 0xFF from rfl, List.cons_append,
      List.zipWith_cons_cons, and_ones, List.cons.injEq, List.length_cons, List.length_cons, Nat.add_right_cancel_iff]
    tauto
  have hitem : ∀ (k : Byte) (rest : List Byte) (l : Lease) (e : LeaseEntry),
      (BodyInRange (.snap (.lease l e)) ∧ (k :: rest).length = (payloadBytes (.snap (.lease l e))).length ∧
        List.zipWith (· &&& ·) (k :: rest) (examinedBits (.snap (.lease l e))) = payloadBytes (.snap (.lease l e))) ↔
      k = byteOf (l.val + 1) ∧ readEntry rest = some e := by
    intro k rest l e
    show (EntryFits e ∧ (k :: rest).length = (byteOf (l.val + 1) :: entryBytes e).length ∧
      List.zipWith (· &&& ·) (k :: rest) (List.replicate 4 0xFF ++ _ ++ _) = byteOf (l.val + 1) :: entryBytes e) ↔ _
    rw [List.append_assoc, hcons, readEntry_eq_some, entryInRange_fits, List.append_assoc]
    tauto
  cases bytes with
  | nil =>
    refine ⟨fun h => (by cases h), fun h => ?_⟩
    cases x with
    | roster n c t v => exact absurd rfl h.1
    | lease l e => exact absurd h.2.2.1 (by simp [payloadBytes])
  | cons k rest =>
    unfold readLeaseItem
    constructor
    · intro h
      dsimp only at h
      split at h
      · rename_i hk
        split at h
        · cases h
        · rename_i e he
          cases h
          refine ⟨fun h => absurd (congrArg Fin.val h) (Nat.succ_ne_zero _), (hitem _ _ _ _).2 ⟨?_, he⟩⟩
          rw [Nat.sub_add_cancel hk.1, byteOf_self]
      · cases h
    · rintro ⟨h0, h⟩
      cases x with
      | roster n c t v => exact absurd rfl h0
      | lease l e =>
        obtain ⟨rfl, he⟩ := (hitem _ _ _ _).1 h
        have hl := l.isLt
        have hk := byteOf_toNat (l.val + 1) (by omega)
        dsimp only
        rw [dif_pos (by omega), he]
        simp only [hk, Nat.add_sub_cancel]

end Sys2Proof.Machine
end

