-- ==== Sys2Proof/Laws/Placed.lean ====
section
/-! SUPPORT. Every step keeps the replica in order (R1, R4, R31, R32): which operations keep local state, roster and
lease table, and what those that change them leave. -/

namespace Sys2Proof.Machine

/-- The replica in order: the waiter law, the records within their fields, the replica where the local state has one,
and the own progress of a joiner above the entries still unknown. -/
structure ReplicaInOrder (s : State) : Prop where
  heads : HeadsBlocked s
  records : RecordsLegal s
  placed : ReplicaPlaced s
  covers : TransferCovers s

/-- Local state, straps, roster and lease table stand as they were. -/
structure SamePlace (s t : State) : Prop where
  localState : t.localState = s.localState
  straps : t.straps = s.straps
  roster : t.roster = s.roster
  leases : t.leases = s.leases

namespace SamePlace

theorem refl (s : State) : SamePlace s s := ⟨rfl, rfl, rfl, rfl⟩

theorem trans {s t u : State} (h : SamePlace s t) (k : SamePlace t u) : SamePlace s u :=
  ⟨k.localState.trans h.localState, k.straps.trans h.straps, k.roster.trans h.roster, k.leases.trans h.leases⟩

theorem foldl {α : Type} (f : State → α → State) (hf : ∀ s a, SamePlace s (f s a)) (xs : List α) (s : State) :
    SamePlace s (xs.foldl f s) := by
  induction xs generalizing s with
  | nil => exact refl s
  | cons a xs ih => exact (hf s a).trans (ih _)

theorem covers {s t : State} (h : SamePlace s t) (hs : TransferCovers s) : TransferCovers t := by
  obtain ⟨h1, h2, h3, h4⟩ := h
  cases s
  cases t
  dsimp only at h1 h2 h3 h4
  subst h1 h2 h3 h4
  exact hs

theorem placed {s t : State} (h : SamePlace s t) (hs : ReplicaInOrder s) : ReplicaInOrder t := by
  obtain ⟨h1, h2, h3, h4⟩ := hs
  refine ⟨?_, ?_, ?_, ?_⟩
  · unfold HeadsBlocked at h1 ⊢; rw [h.leases]; exact h1
  · unfold RecordsLegal at h2 ⊢; rw [h.roster]; exact h2
  · unfold ReplicaPlaced at h3 ⊢; rw [h.localState, h.roster, h.leases]; exact h3
  · exact h.covers h4

end SamePlace

theorem LocalStep.place {s t : State} (h : LocalStep s t) : SamePlace s t :=
  ⟨h.localState, h.straps, h.roster, h.leases⟩

/-- An update that names none of the four leaves the replica in order. -/
theorem ReplicaInOrder.of {s t : State} (hs : ReplicaInOrder s) (h : SamePlace s t) : ReplicaInOrder t := h.placed hs

/-- The replica is in order after the change. -/
def PlacedKept (s t : State) : Prop := ReplicaInOrder s → ReplicaInOrder t

theorem SamePlace.kept {s t : State} (h : SamePlace s t) : PlacedKept s t := h.placed

theorem PlacedKept.trans {s t u : State} (h : PlacedKept s t) (k : PlacedKept t u) : PlacedKept s u :=
  fun hs => k (h hs)

/-- Without a replica every state but MEMBER and LEAVING is as it should be. -/
theorem placed_unknown {s : State} (hr : s.roster = none) (hl : ∀ l : Lease, s.leases[l] = none)
    (hx : s.localState ≠ .member ∧ s.localState ≠ .leaving) : ReplicaInOrder s := by
  refine ⟨fun l e h => ?_, fun r i h => ?_, ⟨fun _ => ⟨hr, hl⟩, fun h => ?_⟩, fun r n _ h => ?_⟩
  · rw [hl l] at h; cases h
  · rw [hr] at h; cases h
  · rcases h with h | h
    · exact absurd h hx.1
    · exact absurd h hx.2
  · rw [hr] at h; cases h

theorem unknownLeases_none (l : Lease) : unknownLeases[l] = none := by
  simp [unknownLeases]

theorem resetBlocks_placed (t : State) (hl : t.leases = unknownLeases) (hr : t.roster = none)
    (hx : t.localState = .standby ∨ t.localState = .seeking ∨ t.localState = .detached) : ReplicaInOrder t := by
  refine placed_unknown hr (fun l => by rw [hl]; exact unknownLeases_none l) ?_
  rcases hx with h | h | h <;> rw [h] <;> exact ⟨by decide, by decide⟩

/-! ### Station control -/

theorem takeReset_placed (s : State) : ReplicaInOrder (takeReset s) := by
  unfold takeReset
  dsimp only
  split
  · exact resetBlocks_placed _ rfl rfl (Or.inr (Or.inl rfl))
  · exact resetBlocks_placed _ rfl rfl (Or.inl rfl)

theorem enterSeeking_placed (s : State) (hs : ReplicaInOrder s) (hx : s.localState = .standby ∨ s.localState = .detached) :
    ReplicaInOrder (enterSeeking s) := by
  have h := hs.placed.1 (by rcases hx with h | h <;> simp [h])
  exact placed_unknown h.1 h.2 ⟨fun k => by (cases k), fun k => by (cases k)⟩

theorem teardown_placed (cause : TeardownCause) (s : State) : ReplicaInOrder (teardown cause s) := by
  have h := teardown_tornDown cause s
  refine resetBlocks_placed _ ?_ ?_ ?_
  · exact h.control.leases
  · exact h.control.roster
  · rw [teardown_localState]
    split
    · exact Or.inr (Or.inl rfl)
    · exact Or.inr (Or.inr rfl)

/-- What entry into LEAVING does once the local state is LEAVING. -/
theorem enterLeaving_local (s : State) : LocalStep { s with localState := .leaving } (enterLeaving s) := by
  unfold enterLeaving
  dsimp only
  refine LocalStep.trans ?_ (notify_local _ _ rfl)
  refine LocalStep.trans ?_ (slotFreed_local _)
  refine LocalStep.trans ?_ (dropAcquireNeeds_local _)
  refine LocalStep.trans ?_ (LocalStep.foldl _ withdrawAcquire_local _ _)
  refine LocalStep.trans ?_ (notifyAll_local _ _ (revokedNotices_bodies _ _))
  exact revokeClients_local _

/-- What entry into MEMBER does once the timers and the local state are set. -/
theorem enterMember_local (s : State) :
    LocalStep { s with timers := memberTimers s, localState := .member } (enterMember s) := by
  unfold enterMember
  dsimp only
  refine LocalStep.trans ?_ (notify_local _ _ rfl)
  exact askAllAtEntry_local _

theorem notifyAll_place (bs : List NoticeBody) (s : State) : SamePlace s (notifyAll bs s) := by
  refine SamePlace.foldl (fun s b => notify b s) (fun s b => ?_) bs s
  exact ⟨rfl, rfl, rfl, rfl⟩

/-- A replica that stands where the local state has one stands there in LEAVING. -/
theorem enterLeaving_placed (s : State) (hs : ReplicaInOrder s) (hx : s.localState = .member) :
    ReplicaInOrder (enterLeaving s) := by
  refine (enterLeaving_local s).place.placed ⟨hs.heads, hs.records, ⟨fun h => ?_, fun _ => hs.placed.2 (Or.inl hx)⟩, ?_⟩
  · rcases h with h | h | h <;> cases h
  · intro r n h
    cases h

/-! ### The frame end -/

theorem takeOutcome_place (k : Fin 8) (o : AttemptOutcome) (s : State) : SamePlace s (takeOutcome k o s).1 := by
  have hc : ∀ x o, SamePlace s (countAttempt k x o s).1 := by
    intro x o
    unfold countAttempt
    generalize (if attemptCounts o x.content then min (x.attempts + 1) Config.attemptLimit else x.attempts) = a
    dsimp only
    split
    · split <;> exact ⟨rfl, rfl, rfl, rfl⟩
    · exact ⟨rfl, rfl, rfl, rfl⟩
  unfold takeOutcome
  split
  · exact SamePlace.refl s
  · rename_i x _
    have hf : ∀ o, SamePlace s (failAttempt k x o s).1 := by
      intro o
      unfold failAttempt
      split
      · unfold failAcquire
        split
        · exact ⟨rfl, rfl, rfl, rfl⟩
        · split
          · exact ⟨rfl, rfl, rfl, rfl⟩
          · have h := hc x o
            dsimp only
            split
            · exact h.trans ⟨rfl, rfl, rfl, rfl⟩
            · exact h
      · unfold failFound
        split
        · exact hc _ _
        · exact ⟨rfl, rfl, rfl, rfl⟩
      · exact hc _ _
    split
    · exact ⟨rfl, rfl, rfl, rfl⟩
    · exact ⟨rfl, rfl, rfl, rfl⟩
    all_goals exact hf _

theorem ownOutcome_place (slot : Option (Fin 8)) (rep : FrameReport) (s : State) :
    SamePlace s (ownOutcome slot rep s).1 := by
  unfold ownOutcome
  split
  · exact takeOutcome_place _ _ s
  · exact SamePlace.refl s

theorem takeVerdict_place (rep : FrameReport) (s : State) : SamePlace s (takeVerdict rep s) := by
  have h1 : SamePlace s (seekerReadsCommit s) := by
    unfold seekerReadsCommit
    refine SamePlace.trans ?_ (dropMembership_local _ _).place
    exact ⟨rfl, rfl, rfl, rfl⟩
  have h2 : SamePlace s (seekerReadsFailedFound s) := by
    unfold seekerReadsFailedFound
    refine SamePlace.trans ?_ (dropMembership_local _ _).place
    exact ⟨rfl, rfl, rfl, rfl⟩
  have h3 : SamePlace s (restartSilence s) := ⟨rfl, rfl, rfl, rfl⟩
  unfold takeVerdict
  split <;> (try split) <;> (try split) <;> first | exact h1 | exact h2 | exact h3 | exact SamePlace.refl s

/-! #### Records (R31) -/

/-- The misses of a record that is present may have any value. -/
theorem recordInRange_miss {x : StationRecord} (m : Fin 4) (h : recordInRange x = true) (hx : x.state ≠ .absent) :
    recordInRange { x with miss := m } = true := by
  cases hs : x.state <;> simp_all [recordInRange]

theorem recordInRange_noMiss {x : StationRecord} (h : recordInRange x = true) :
    recordInRange { x with miss := 0 } = true := by
  cases hs : x.state <;> simp_all [recordInRange]

theorem progressRecord_inRange (item : Fin 65) {x : StationRecord} (h : recordInRange x = true) :
    recordInRange (progressRecord item x) = true := by
  unfold progressRecord
  split
  · rename_i hs
    split
    · split
      · simp [recordInRange, hs]
      · exact h
    · rename_i n hp
      have hn : 1 ≤ n ∧ n ≤ 64 := by simpa [recordInRange, hs, hp] using h
      split
      · exact h
      · split
        · rfl
        · simp [recordInRange, hs]
          omega
    · exact h
  · exact h

/-- Every record of the roster has only the fields its state allows (R31). -/
def RosterLegal (r : Roster) : Prop := ∀ i : Station, recordInRange r.records[i] = true

theorem mapRecords_get (f : Station → StationRecord → StationRecord) (r : Roster) (i : Station) :
    (mapRecords f r).records[i] = f i r.records[i] := by
  simp [mapRecords]

theorem setRecord_get (j i : Station) (x : StationRecord) (r : Roster) :
    (setRecord j x r).records[i] = if j = i then x else r.records[i] := by
  unfold setRecord
  by_cases h : j = i
  · subst h; simp
  · have : j.val ≠ i.val := fun k => h (Fin.ext k)
    simp [this, h]

theorem finishCommit_get (req : List Station) (r : Roster) (i : Station) :
    (finishCommit req r).records[i] = if req.contains i then { r.records[i] with miss := 0 } else r.records[i] :=
  mapRecords_get _ _ i

theorem snapProgress_get (item : Fin 65) (r : Roster) (i : Station) :
    (snapProgress item r).records[i] = progressRecord item r.records[i] := mapRecords_get _ r i

theorem finishCommit_legal (req : List Station) (r : Roster) (h : RosterLegal r) : RosterLegal (finishCommit req r) := by
  intro i
  rw [finishCommit_get]
  split
  · exact recordInRange_noMiss (h i)
  · exact h i

theorem setRecord_legal (j : Station) (x : StationRecord) (r : Roster) (h : RosterLegal r) (hx : recordInRange x = true) :
    RosterLegal (setRecord j x r) := by
  intro i
  rw [setRecord_get]
  split
  · exact hx
  · exact h i

theorem snapProgress_legal (item : Fin 65) (r : Roster) (h : RosterLegal r) : RosterLegal (snapProgress item r) := by
  intro i
  rw [snapProgress_get]
  exact progressRecord_inRange item (h i)

theorem joinRecord_get (j i : Station) (r : Roster) :
    (joinRecord j r).records[i] = if j = i then awaitingRecord else r.records[i] := setRecord_get j i _ r

theorem joinRecord_legal (j : Station) (r : Roster) (h : RosterLegal r) : RosterLegal (joinRecord j r) := by
  intro i
  rw [joinRecord_get]
  split
  · rfl
  · exact h i

/-- A frame applied to a known roster leaves its records within their fields. -/
theorem applyKind_records (own : Station) (x : LocalState) (rep : FrameReport) (b : FrameBody) (r : Roster)
    (t : LeaseTable) (h : RosterLegal r) : RosterLegal (applyKind own x rep b r t).roster := by
  unfold applyKind
  split
  · exact h
  · exact h
  · split
    · exact h
    · unfold applyJoin
      split <;> exact joinRecord_legal _ r h
  · unfold applyLeave
    split
    · exact setRecord_legal _ _ r h rfl
    · exact h
  · unfold applySnap
    split
    · exact snapProgress_legal _ r h
    · exact h
  all_goals
    simp only [applyRelease, applyRenew, applyAcquire]
    split <;> exact h

theorem accountMisses_legal (req : List Station) (ackMap : BitVec 16) (r : Roster) (h : RosterLegal r)
    (hq : ∀ i, req.contains i = true → r.records[i].state ≠ .absent) : RosterLegal (accountMisses req ackMap r) := by
  intro i
  unfold accountMisses
  rw [mapRecords_get]
  split
  · rename_i hc
    exact recordInRange_miss _ (h i) (hq i hc)
  · exact h i

theorem removeStations_legal (js : List Station) (r : Roster) (h : RosterLegal r) : RosterLegal (removeStations js r) := by
  intro i
  unfold removeStations
  rw [mapRecords_get]
  split
  · rfl
  · exact h i

/-! #### The progress of the own record (R52, R53) -/

/-- The own record awaits at most as many items in `r'` as it did in `r`, or it awaits no item there. -/
def NoFurther (own : Station) (r r' : Roster) : Prop :=
  ∀ n : Nat, r'.records[own].state = .joining → r'.records[own].progress = some (.remaining n) →
    r.records[own].state = .joining ∧ r.records[own].progress = some (.remaining n)

theorem noFurther_finish {own : Station} {r r' : Roster} (req : List Station) (h : NoFurther own r r') :
    NoFurther own r (finishCommit req r') := by
  intro n h1 h2
  rw [finishCommit_get] at h1 h2
  split at h1 <;> (rename_i hc; simp only [hc] at h2) <;> exact h n (by simpa using h1) (by simpa using h2)

theorem noFurther_set (own j : Station) (x : StationRecord) (r : Roster) (hx : ∀ n, x.progress ≠ some (.remaining n)) :
    NoFurther own r (setRecord j x r) := by
  intro n h1 h2
  rw [setRecord_get] at h1 h2
  split at h2
  · exact absurd h2 (hx n)
  · rename_i hj
    rw [if_neg hj] at h1
    exact ⟨h1, h2⟩

theorem noFurther_join (own j : Station) (r : Roster) : NoFurther own r (joinRecord j r) :=
  noFurther_set own j awaitingRecord r fun n h => by cases h

theorem noFurther_remove (own : Station) (js req : List Station) (ackMap : BitVec 16) (r : Roster) :
    NoFurther own r (removeStations js (accountMisses req ackMap r)) := by
  intro n h1 h2
  unfold removeStations accountMisses at h1 h2
  rw [mapRecords_get, mapRecords_get] at h1 h2
  split at h1
  · cases h1
  · rename_i hj
    rw [if_neg hj] at h2
    split at h1 <;> (rename_i hc; simp only [hc] at h2) <;> exact ⟨by simpa using h1, by simpa using h2⟩

/-! #### The frame applied -/

/-- The entries that are unknown. -/
def unknownCount (t : LeaseTable) : Nat := ((List.finRange 64).filter fun l : Fin 64 => (t[l]).isNone).length

theorem unknownCount_congr {t u : LeaseTable} (h : ∀ l : Lease, (u[l]).isSome = (t[l]).isSome) :
    unknownCount u = unknownCount t := by
  unfold unknownCount
  congr 1
  refine List.filter_congr fun l _ => ?_
  have := h l
  cases hu : u[l] <;> cases ht : t[l] <;> simp_all

theorem unknownCount_zero {t : LeaseTable} (h : unknownCount t = 0) (l : Lease) : (t[l]).isSome = true := by
  unfold unknownCount at h
  have := List.filter_eq_nil_iff.1 (List.eq_nil_of_length_eq_zero h) l (List.mem_finRange l)
  cases ht : t[l] <;> simp_all

theorem unknownCount_le (t : LeaseTable) : unknownCount t ≤ 64 := by
  unfold unknownCount
  exact (List.length_filter_le _ _).trans (by simp)

/-- Of two properties of the leases that differ at one lease only, the one with it counts one more. -/
theorem filter_length_one {α : Type} [DecidableEq α] (xs : List α) (hn : xs.Nodup) (a : α) (ha : a ∈ xs) (p q : α → Bool)
    (hp : p a = true) (hq : q a = false) (h : ∀ b, b ≠ a → q b = p b) :
    (xs.filter p).length = (xs.filter q).length + 1 := by
  induction xs with
  | nil => cases ha
  | cons x xs ih =>
    rw [List.nodup_cons] at hn
    by_cases hx : x = a
    · subst hx
      have : xs.filter q = xs.filter p := List.filter_congr fun b hb => h b fun k => hn.1 (k ▸ hb)
      rw [List.filter_cons_of_pos hp, List.filter_cons_of_neg (by simp [hq]), this]
      rfl
    · have hm : a ∈ xs := by
        rcases List.mem_cons.1 ha with ha | ha
        · exact absurd ha.symm hx
        · exact ha
      have := ih hn.2 hm
      by_cases hpx : p x = true
      · rw [List.filter_cons_of_pos hpx, List.filter_cons_of_pos (by rw [h x hx]; exact hpx)]
        simp [this]
      · rw [List.filter_cons_of_neg hpx, List.filter_cons_of_neg (by rw [h x hx]; exact hpx)]
        exact this

theorem unknownCount_set (t : LeaseTable) (l : Lease) (e : LeaseEntry) (h : t[l] = none) :
    unknownCount t = unknownCount (t.set l (some e)) + 1 := by
  unfold unknownCount
  refine filter_length_one _ (List.nodup_finRange 64) l (List.mem_finRange l) _ _ (by rw [h]; rfl) (by simp) ?_
  intro k hk
  have : l.val ≠ k.val := fun h => hk (Fin.ext h.symm)
  simp [this]

/-- What applying a frame leaves of the replica. -/
structure ApplyPlaced (s : State) (out : State × FrameEffect) : Prop where
  localState : out.1.localState = s.localState
  straps : out.1.straps = s.straps
  heads : HeadsBlocked out.1
  records : RecordsLegal out.1
  admitted : out.2.admitted = true → out.1.roster.isSome = true ∧ ∀ l : Lease, (out.1.leases[l]).isSome = true
  placed : out.2.admitted = false → ReplicaPlaced out.1 ∧ TransferCovers out.1

theorem ApplyPlaced.same (s : State) (fx : FrameEffect) (h : fx.admitted = false) (hs : ReplicaInOrder s) :
    ApplyPlaced s (s, fx) :=
  ⟨rfl, rfl, hs.heads, hs.records, fun k => absurd (h.symm.trans k) Bool.false_ne_true, fun _ => ⟨hs.placed, hs.covers⟩⟩

/-- The local state of a station with a known roster is JOINING, MEMBER or LEAVING. -/
theorem ReplicaInOrder.known {s : State} (h : ReplicaInOrder s) {r : Roster} (hr : s.roster = some r) :
    s.localState ≠ .standby ∧ s.localState ≠ .seeking ∧ s.localState ≠ .detached := by
  have := h.placed.1
  rw [hr] at this
  refine ⟨fun k => ?_, fun k => ?_, fun k => ?_⟩ <;> have := (this (by simp [k])).1 <;> cases this

/-- Roster and lease table replaced in a station whose roster is known, and the known entries kept. -/
theorem ApplyPlaced.update {s : State} (hs : ReplicaInOrder s) {r r' : Roster} {t : LeaseTable} (fx : FrameEffect)
    (hr : s.roster = some r) (hf : fx.admitted = false)
    (h1 : ∀ (l : Lease) (e : LeaseEntry), t[l] = some e → HeadBlocked e) (h2 : RosterLegal r')
    (h3 : ∀ l : Lease, (s.leases[l]).isSome = true → (t[l]).isSome = true)
    (h4 : ∀ n, s.localState = .joining → r'.records[stationNumber s].state = .joining →
      r'.records[stationNumber s].progress = some (.remaining n) → unknownCount t ≤ n) :
    ApplyPlaced s ({ s with roster := some r', leases := t }, fx) := by
  refine ⟨rfl, rfl, h1, ?_, fun k => absurd (hf.symm.trans k) Bool.false_ne_true, fun _ => ⟨⟨fun h => ?_, fun h => ?_⟩, ?_⟩⟩
  · intro r0 i h0
    cases h0
    exact h2 i
  · have := hs.known hr
    rcases h with h | h | h
    · exact absurd h this.1
    · exact absurd h this.2.1
    · exact absurd h this.2.2
  · exact ⟨rfl, fun l => h3 l ((hs.placed.2 h).2 l)⟩
  · intro r0 n hj h0
    cases h0
    exact h4 n hj

/-- The same where no entry becomes known and the own record goes no further. -/
theorem ApplyPlaced.kept {s : State} (hs : ReplicaInOrder s) {r r' : Roster} {t : LeaseTable} (fx : FrameEffect)
    (hr : s.roster = some r) (hf : fx.admitted = false)
    (h1 : ∀ (l : Lease) (e : LeaseEntry), t[l] = some e → HeadBlocked e) (h2 : RosterLegal r')
    (h3 : ∀ l : Lease, (t[l]).isSome = (s.leases[l]).isSome) (h4 : NoFurther (stationNumber s) r r') :
    ApplyPlaced s ({ s with roster := some r', leases := t }, fx) := by
  refine ApplyPlaced.update hs fx hr hf h1 h2 (fun l h => by rw [h3]; exact h) fun n hj k1 k2 => ?_
  rw [unknownCount_congr h3]
  have := h4 n k1 k2
  exact hs.covers r n hj hr this.1 this.2

theorem foundedLeases_get (l : Lease) : foundedLeases[l] = some { counter := 0, holders := [], waiters := [] } := by
  simp [foundedLeases]

/-- A frame applied at a station with an unknown roster. -/
theorem applyUnknown_placed (rep : FrameReport) (b : FrameBody) (s : State) (hs : ReplicaInOrder s)
    (hb : BodyLegal b) : ApplyPlaced s (applyUnknown rep b s) := by
  unfold applyUnknown
  split
  · split
    · exact ApplyPlaced.same s _ rfl hs
    · split
      · unfold found
        dsimp only
        split
        · refine ⟨rfl, rfl, fun l e h => ?_, fun r i h => ?_, fun _ => ⟨rfl, fun l => ?_⟩, fun h => by cases h⟩
          · dsimp only at h
            rw [foundedLeases_get] at h
            cases h
            exact headBlocked_nil rfl
          · cases h
            simp only [foundedRoster, Fin.getElem_fin, Vector.getElem_ofFn]
            split <;> rfl
          · dsimp only
            rw [foundedLeases_get]
            rfl
        · exact ApplyPlaced.same s _ rfl hs
      · exact ApplyPlaced.same s _ rfl hs
  · rename_i n commits ticks records
    split
    · rename_i hx
      unfold loadRoster
      dsimp only
      split
      · exact ApplyPlaced.same s _ rfl hs
      · split
        · rename_i hown
          refine ⟨rfl, rfl, hs.heads, fun r i h => ?_, fun h => (by cases h), fun _ => ⟨⟨fun h => ?_, fun h => ?_⟩, ?_⟩⟩
          · cases h
            exact finishCommit_legal _ _ (snapProgress_legal 0 { expected := n, commits := commits, ticks := ticks, cursor := 0, records := records } hb) i
          · dsimp only at h; rw [hx] at h; rcases h with h | h | h <;> cases h
          · dsimp only at h; rw [hx] at h; rcases h with h | h <;> cases h
          · intro r n _ h h1 h2
            cases h
            have h3 : n = 64 := by
              have h2' := h2
              change (finishCommit _ (snapProgress 0 _)).records[stationNumber s].progress = _ at h2'
              rw [finishCommit_get, snapProgress_get] at h2'
              have : (progressRecord 0 records[stationNumber s]).progress = some (.remaining 64) := by
                simp only [progressRecord, hown.1, hown.2, if_true]
              split at h2' <;> (dsimp only at h2'; rw [this] at h2'; cases h2'; rfl)
            rw [h3]
            exact unknownCount_le _
        · exact ApplyPlaced.same s _ rfl hs
    · exact ApplyPlaced.same s _ rfl hs
  · exact ApplyPlaced.same s _ rfl hs

theorem loadItem_isSome (item : SnapItem) (t : LeaseTable) (l : Lease) (h : (t[l]).isSome = true) :
    ((loadItem item t)[l]).isSome = true := by
  unfold loadItem
  split
  · exact h
  · rename_i k e
    by_cases hk : k = l
    · subst hk; simp
    · have : k.val ≠ l.val := fun h => hk (Fin.ext h)
      simpa [this] using h

/-- What a lease item has to be for the station that reads it (NextItemIsNew). -/
def ItemIsNew (s : State) (b : FrameBody) : Prop :=
  ∀ (l : Lease) (e : LeaseEntry), s.localState = .joining → b = .snap (.lease l e) →
    s.leases[l] = none ∧ HeadBlocked e

/-- A committed SNAP item at a station with a known roster. -/
theorem applySnap_placed (rep : FrameReport) (item : SnapItem) (r : Roster) (s : State) (req : List Station)
    (x : Option Trigger) (hs : ReplicaInOrder s) (hr : s.roster = some r) (hb : ItemIsNew s (.snap item)) :
    let a := applySnap (stationNumber s) rep.sender s.localState item r s.leases
    ApplyPlaced s ({ s with roster := some (finishCommit req a.roster), leases := a.leases }, { a.effect with trigger := x }) := by
  intro a
  have hrec : RosterLegal r := fun i => hs.records r i hr
  have ha : a = applySnap (stationNumber s) rep.sender s.localState item r s.leases := rfl
  unfold applySnap at ha
  by_cases hm : isMember r rep.sender = true
  · rw [if_pos hm] at ha
    have hheads : ∀ (l : Lease) (e : LeaseEntry), a.leases[l] = some e → HeadBlocked e := by
      intro l e he
      rw [ha] at he
      dsimp only at he
      split at he
      · rename_i hj
        unfold loadItem at he
        split at he
        · exact hs.heads l e he
        · rename_i k d
          by_cases hk : k = l
          · subst hk
            simp at he
            rw [← he]
            exact (hb k d hj rfl).2
          · have : k.val ≠ l.val := fun h => hk (Fin.ext h)
            have hv : (s.leases.set k (some d))[l] = s.leases[l] := by simp [this]
            rw [hv] at he
            exact hs.heads l e he
      · exact hs.heads l e he
    have hleg : RosterLegal (finishCommit req a.roster) := by
      refine finishCommit_legal _ _ ?_
      rw [ha]
      exact snapProgress_legal _ r hrec
    have hmono : ∀ l : Lease, (s.leases[l]).isSome = true → (a.leases[l]).isSome = true := by
      intro l h
      rw [ha]
      dsimp only
      split
      · exact loadItem_isSome _ _ l h
      · exact h
    have hprog : a.roster.records[stationNumber s] = progressRecord (itemNumber item) r.records[stationNumber s] := by
      rw [ha]; exact snapProgress_get _ r _
    by_cases hadm : a.effect.admitted = true
    · refine ⟨rfl, rfl, hheads, ?_, fun _ => ⟨rfl, fun l => ?_⟩, fun h => absurd (hadm.symm.trans h) (by decide)⟩
      · intro r0 i h0
        cases h0
        exact hleg i
      · have hadm' := hadm
        rw [ha] at hadm'
        simp only [Bool.and_eq_true, decide_eq_true_eq, List.contains_iff_mem, admittedBetween, joiningStations,
          List.mem_filter] at hadm'
        obtain ⟨hj, ⟨-, hown⟩, hnow⟩ := hadm'
        rw [snapProgress_get] at hnow
        have hin := hrec (stationNumber s)
        refine unknownCount_zero ?_ l
        cases item with
        | roster n c t records =>
          exfalso
          simp only [progressRecord, hown, if_true, itemNumber] at hnow
          split at hnow <;> simp_all
        | lease k d =>
          have hnew := (hb k d hj rfl).1
          have hcount := unknownCount_set s.leases k d hnew
          have hal : a.leases = s.leases.set k (some d) := by rw [ha]; simp only [hj, if_true]; rfl
          have hne : (k.succ : Fin 65) ≠ 0 := Fin.succ_ne_zero k
          simp only [progressRecord, hown, if_true, itemNumber, hne, if_false] at hnow
          cases hp : r.records[stationNumber s].progress with
          | none => simp_all
          | some p =>
            cases p with
            | awaitingRoster => simp_all
            | remaining n =>
              have hn := hs.covers r n hj hr hown hp
              rw [hp] at hnow
              have hn1 : n ≤ 1 := by
                by_contra hc
                simp [hc] at hnow
              dsimp only
              rw [hal]
              change unknownCount s.leases ≤ n at hn
              omega
    · refine ApplyPlaced.update hs _ hr (by simpa using hadm) hheads hleg hmono fun n hj h1 h2 => ?_
      have hstate : (finishCommit req a.roster).records[stationNumber s].state = a.roster.records[stationNumber s].state := by
        rw [finishCommit_get]; split <;> rfl
      have hpr : (finishCommit req a.roster).records[stationNumber s].progress = a.roster.records[stationNumber s].progress := by
        rw [finishCommit_get]; split <;> rfl
      rw [hstate, hprog] at h1
      rw [hpr, hprog] at h2
      have hold : r.records[stationNumber s].state = .joining := by
        unfold progressRecord at h1
        split at h1
        · assumption
        · exact h1
      simp only [progressRecord, hold, if_true] at h1 h2
      cases item with
      | roster m c t records =>
        have hal : a.leases = s.leases := by rw [ha]; simp only [hj, if_true]; rfl
        rw [hal]
        simp only [itemNumber] at h1 h2
        cases hp : r.records[stationNumber s].progress with
        | none => rw [hp] at h2; simp only at h2; rw [hp] at h2; cases h2
        | some p =>
          cases p with
          | awaitingRoster =>
            rw [hp] at h2
            simp only [if_true, Option.some.injEq, Progress.remaining.injEq] at h2
            rw [← h2]
            exact unknownCount_le _
          | remaining k =>
            rw [hp] at h2
            simp only [if_true] at h2
            rw [hp] at h2
            cases h2
            exact hs.covers r n hj hr hold hp
      | lease k d =>
        have hnew := (hb k d hj rfl).1
        have hcount := unknownCount_set s.leases k d hnew
        have hal : a.leases = s.leases.set k (some d) := by rw [ha]; simp only [hj, if_true]; rfl
        rw [hal]
        have hne : (k.succ : Fin 65) ≠ 0 := Fin.succ_ne_zero k
        simp only [itemNumber, hne, if_false] at h1 h2
        cases hp : r.records[stationNumber s].progress with
        | none => rw [hp] at h2; simp only at h2; rw [hp] at h2; cases h2
        | some p =>
          cases p with
          | awaitingRoster => rw [hp] at h2; simp only at h2; rw [hp] at h2; cases h2
          | remaining m =>
            have hn := hs.covers r m hj hr hold hp
            change unknownCount s.leases ≤ m at hn
            rw [hp] at h1 h2
            simp only at h1 h2
            split at h1
            · cases h1
            · rename_i hm1
              rw [if_neg hm1] at h2
              cases h2
              omega
  · rw [if_neg hm] at ha
    have : ApplyPlaced s ({ s with roster := some (finishCommit req r), leases := s.leases }, { ({} : FrameEffect) with trigger := x }) := by
      exact ApplyPlaced.kept hs _ hr rfl hs.heads (finishCommit_legal _ _ hrec) (fun _ => rfl)
        (noFurther_finish req fun n h1 h2 => ⟨h1, h2⟩)
    rw [ha]
    exact this

/-- A committed frame applied to a known roster. -/
theorem applyKnown_placed (rep : FrameReport) (b : FrameBody) (r : Roster) (s : State) (hs : ReplicaInOrder s)
    (hr : s.roster = some r) (hb : ItemIsNew s b) : ApplyPlaced s (applyKnown rep b r s) := by
  have hrec : RosterLegal r := fun i => hs.records r i hr
  have hl := hs.heads
  have stay : NoFurther (stationNumber s) r r := fun n h1 h2 => ⟨h1, h2⟩
  have key : ∀ (a : Applied) (x : Option Trigger), a.effect.admitted = false →
      (∀ (l : Lease) (e : LeaseEntry), a.leases[l] = some e → HeadBlocked e) → RosterLegal a.roster →
      (∀ l : Lease, (a.leases[l]).isSome = (s.leases[l]).isSome) → NoFurther (stationNumber s) r a.roster →
      ApplyPlaced s ({ s with roster := some (finishCommit (rep.required.getD []) a.roster), leases := a.leases },
        { a.effect with trigger := x }) := fun a x h1 h2 h3 h4 h5 =>
    ApplyPlaced.kept hs _ hr h1 h2 (finishCommit_legal _ _ h3) h4 (noFurther_finish _ h5)
  unfold applyKnown
  split
  · exact ApplyPlaced.same s _ rfl hs
  · dsimp only
    cases b with
    | tick =>
      exact key (applyTick r s.leases) _ rfl (updateAllLeases_keeps _ _ _ hl tickEntry_blocked) hrec
        (updateAllLeases_isSome _ _) stay
    | found n => exact key { roster := r, leases := s.leases } _ rfl hl hrec (fun _ => rfl) stay
    | join =>
      simp only [applyKind]
      split
      · exact key (applyRefusal (stationNumber s) rep.sender r s.leases) _ rfl hl hrec (fun _ => rfl) stay
      · refine key (applyJoin (stationNumber s) rep.sender r s.leases) _ ?_ ?_ ?_ ?_ ?_ <;> unfold applyJoin <;> split
        · rfl
        · rfl
        · exact updateAllLeases_keeps _ _ _ hl (removalPurge_blocked _)
        · exact hl
        · exact joinRecord_legal _ r hrec
        · exact joinRecord_legal _ r hrec
        · exact updateAllLeases_isSome _ _
        · exact fun _ => rfl
        · exact noFurther_join _ _ r
        · exact noFurther_join _ _ r
    | leave =>
      refine key (applyLeave (stationNumber s) rep.sender r s.leases) _ ?_ ?_ ?_ ?_ ?_ <;> unfold applyLeave <;> split
      · rfl
      · rfl
      · exact updateAllLeases_keeps _ _ _ hl (leavePurge_blocked _)
      · exact hl
      · exact setRecord_legal _ _ r hrec rfl
      · exact hrec
      · exact updateAllLeases_isSome _ _
      · exact fun _ => rfl
      · exact noFurther_set _ _ absentRecord r fun n h => by cases h
      · exact stay
    | snap item => exact applySnap_placed rep item r s _ _ hs hr hb
    | release l c =>
      refine key (applyRelease rep.sender l c r s.leases) _ ?_ ?_ ?_ ?_ ?_ <;> unfold applyRelease <;> split
      · rfl
      · rfl
      · exact updateLease_keeps _ _ _ _ hl (releaseEntry_blocked _ _)
      · exact hl
      · exact hrec
      · exact hrec
      · exact updateLease_isSome _ _ _
      · exact fun _ => rfl
      · exact stay
      · exact stay
    | renew entries =>
      refine key (applyRenew rep.sender entries r s.leases) _ ?_ ?_ ?_ ?_ ?_ <;> unfold applyRenew <;> split
      · rfl
      · rfl
      · exact renewLeases_keeps _ _ _ _ hl renewEntry_blocked
      · exact hl
      · exact hrec
      · exact hrec
      · exact renewLeases_isSome _ _ _
      · exact fun _ => rfl
      · exact stay
      · exact stay
    | acquire l c m t p =>
      refine key (applyAcquire rep.sender l c m t p r s.leases) _ ?_ ?_ ?_ ?_ ?_ <;> unfold applyAcquire <;> split
      · rfl
      · rfl
      · exact updateLease_keeps _ _ _ _ hl (acquireEntry_blocked _ _ _ _ _)
      · exact hl
      · exact hrec
      · exact hrec
      · exact updateLease_isSome _ _ _
      · exact fun _ => rfl
      · exact stay
      · exact stay

theorem mem_requiredSet (r : Roster) (i : Station) : (requiredSet r).contains i = true ↔ r.records[i].state ≠ .absent := by
  simp [requiredSet, allStations]

/-- A VOID accounted on a known roster whose required set is that of the report. -/
theorem accountVoid_placed (rep : FrameReport) (r : Roster) (s : State) (hs : ReplicaInOrder s) (hr : s.roster = some r)
    (hq : rep.required = some (requiredSet r)) : ApplyPlaced s (accountVoid rep r s) := by
  have hrec : RosterLegal r := fun i => hs.records r i hr
  unfold accountVoid
  dsimp only
  rw [hq]
  simp only [Option.getD_some]
  have hleg : RosterLegal (removeStations (removalsOf (accountMisses (requiredSet r) rep.ackMap r))
      (accountMisses (requiredSet r) rep.ackMap r)) :=
    removeStations_legal _ _ (accountMisses_legal _ _ r hrec fun i h => (mem_requiredSet r i).1 h)
  have hno := noFurther_remove (stationNumber s) (removalsOf (accountMisses (requiredSet r) rep.ackMap r)) (requiredSet r)
    rep.ackMap r
  split
  · exact ApplyPlaced.kept hs _ hr rfl hs.heads hleg (fun _ => rfl) hno
  · split
    · exact ApplyPlaced.kept hs _ hr rfl hs.heads hleg (fun _ => rfl) hno
    · exact ApplyPlaced.kept hs _ hr rfl (updateAllLeases_keeps _ _ _ hs.heads (removalPurge_blocked _)) hleg
        (updateAllLeases_isSome _ _) hno

theorem applyFrame_placed (rep : FrameReport) (s : State) (hs : ReplicaInOrder s)
    (hq : rep.required = s.roster.map requiredSet)
    (hb : ∀ b, rep.payload = some b → BodyLegal b ∧ ItemIsNew s b) : ApplyPlaced s (applyFrame rep s) := by
  have hc : ApplyPlaced s (applyCommit rep s) := by
    unfold applyCommit
    split
    · exact ApplyPlaced.same s _ rfl hs
    · split
      · exact ApplyPlaced.same s _ rfl hs
      · rename_i b hp
        unfold applyCommitted
        split
        · exact applyUnknown_placed _ _ s hs (hb b hp).1
        · rename_i h; exact applyKnown_placed _ _ _ s hs h (hb b hp).2
  unfold applyFrame
  split
  · exact ApplyPlaced.same s _ rfl hs
  · exact hc
  · exact hc
  · unfold applyVoid
    split
    · exact ApplyPlaced.same s _ rfl hs
    · rename_i h
      split
      · exact ApplyPlaced.same s _ rfl hs
      · exact accountVoid_placed _ _ s hs h (by rw [hq, h]; rfl)
  · exact ApplyPlaced.same s _ rfl hs

theorem timeUnitEffect_place (fx : FrameEffect) (s : State) : SamePlace s (timeUnitEffect fx s) := by
  unfold timeUnitEffect
  split
  · unfold afterTick
    dsimp only
    split <;> exact ⟨rfl, rfl, rfl, rfl⟩
  · split
    · unfold afterRemoval
      split <;> exact ⟨rfl, rfl, rfl, rfl⟩
    · exact SamePlace.refl s

theorem transferUnit_place (s : State) : SamePlace s (transferUnit s) := by
  have h : SamePlace s { s with sourceDuty := dutyNow s } := ⟨rfl, rfl, rfl, rfl⟩
  unfold transferUnit
  dsimp only
  split
  · split
    · exact h.trans (placeMembership_local _ _).place
    · exact h
  · exact h.trans (dropMembership_local _ _).place

theorem placeAtFrameEnd_place (s : State) : SamePlace s (placeAtFrameEnd s) := by
  unfold placeAtFrameEnd
  exact (((transferUnit_place s).trans (foundingTest_local _).place).trans (joinTest_local _).place).trans
    (leaveHandshake_local _).place

theorem placeUnlessDiscarded_place (own : OwnOutcome) (s : State) : SamePlace s (placeUnlessDiscarded own s) := by
  unfold placeUnlessDiscarded
  split
  · exact ⟨rfl, rfl, rfl, rfl⟩
  · exact placeAtFrameEnd_place s

theorem enterMember_localState (s : State) : (enterMember s).localState = .member :=
  (enterMember_local s).localState

theorem settleFrameEnd_placed (fx : FrameEffect) (own : OwnOutcome) (s : State) (hh : HeadsBlocked s) (hr : RecordsLegal s)
    (ha : fx.admitted = true → s.roster.isSome = true ∧ ∀ l : Lease, (s.leases[l]).isSome = true)
    (hs : fx.admitted = false → ReplicaPlaced s ∧ TransferCovers s) :
    ReplicaInOrder (settleFrameEnd fx own s) := by
  unfold settleFrameEnd
  split
  · exact teardown_placed _ s
  · refine (placeUnlessDiscarded_place _ _).placed ?_
    unfold applyAdmission
    split
    · rename_i hj
      refine ⟨hh, hr, ⟨fun h => ?_, fun h => ?_⟩, fun r n _ h _ _ => ?_⟩
      · rcases h with h | h | h <;> cases h
      · rcases h with h | h <;> cases h
      · change s.roster = some r at h
        cases hx : fx.admitted with
        | true =>
          have := (ha hx).2
          have hz : unknownCount s.leases = 0 := by
            unfold unknownCount
            rw [List.length_eq_zero_iff, List.filter_eq_nil_iff]
            intro l _
            have := this l
            cases hl : s.leases[l] <;> simp_all
          change unknownCount s.leases ≤ n
          omega
        | false =>
          have := ((hs hx).1.1 (Or.inr (Or.inl hj.2))).1
          rw [this] at h
          cases h
    · split
      · rename_i _ hm
        refine (enterMember_local s).place.placed ⟨hh, hr, ⟨fun h => ?_, fun _ => ha hm⟩, fun r n h => ?_⟩
        · rcases h with h | h | h <;> cases h
        · cases h
      · rename_i _ hm
        have := hs (by simpa using hm)
        exact ⟨hh, hr, this.1, this.2⟩

theorem frameEndSteps_placed (slot : Option (Fin 8)) (rep : FrameReport) (s : State) (hs : ReplicaInOrder s)
    (hq : rep.required = s.roster.map requiredSet)
    (hb : ∀ b, rep.payload = some b → BodyLegal b ∧ ItemIsNew s b) : ReplicaInOrder (frameEndSteps slot rep s) := by
  have h1 := (ownOutcome_place slot rep s).trans (takeVerdict_place rep _)
  have hu := h1.placed hs
  unfold frameEndSteps
  dsimp only
  generalize takeVerdict rep (ownOutcome slot rep s).1 = u at h1 hu
  generalize (ownOutcome slot rep s).2 = own
  have h2 := applyFrame_placed rep u hu (by rw [h1.roster]; exact hq) (by
    intro b h
    refine ⟨(hb b h).1, fun l e hx he => ?_⟩
    rw [h1.leases]
    exact (hb b h).2 l e (by rw [← h1.localState]; exact hx) he)
  generalize applyFrame rep u = app at h2
  obtain ⟨v, fx⟩ := app
  dsimp only at h2 ⊢
  have h3 : SamePlace v (serveClients fx own (timeUnitEffect fx
      (fx.events.foldl handOver (notifyAll (own.notices ++ fx.rosterNotices) v)))) :=
    (((notifyAll_place _ v).trans (SamePlace.foldl _ (fun s ev => (handOver_local s ev).place) _ _)).trans
      (timeUnitEffect_place _ _)).trans (serveClients_local _ _ _).place
  generalize serveClients fx own (timeUnitEffect fx (fx.events.foldl handOver (notifyAll (own.notices ++ fx.rosterNotices) v))) = w at h3
  obtain ⟨g1, -, g3, g4⟩ := id h3
  refine settleFrameEnd_placed fx own w ?_ ?_ ?_ ?_
  · unfold HeadsBlocked; rw [g4]; exact h2.heads
  · unfold RecordsLegal; rw [g3]; exact h2.records
  · rw [g3, g4]; exact h2.admitted
  · intro h
    refine ⟨?_, h3.covers (h2.placed h).2⟩
    unfold ReplicaPlaced
    rw [g1, g3, g4]
    exact (h2.placed h).1

theorem endFrame_placed (cells : List LineCell) (s : State) (hs : ReplicaInOrder s) (hf : FrameAgrees s)
    (hb : ∀ b, payloadRead cells = some b → ItemIsNew s b) : ReplicaInOrder (endFrame cells s) := by
  have hc : ∀ n rep, ReplicaInOrder (closeFrame n rep s) := fun _ _ => hs.of ⟨rfl, rfl, rfl, rfl⟩
  have hp : ∀ role tx b, (frameReport s role tx cells).payload = some b → BodyLegal b ∧ ItemIsNew s b := by
    intro role tx b h
    refine ⟨frameReport_payload s role tx cells b h, hb b ?_⟩
    have he : (frameReport s role tx cells).payload =
      if (frameReport s role tx cells).whole then payloadRead cells else none := rfl
    rw [he] at h
    split at h
    · exact h
    · cases h
  unfold endFrame
  split
  · exact hs
  · exact hs
  · rename_i role hphase
    have hq : role.required = s.roster.map requiredSet := by
      unfold FrameAgrees at hf
      rw [hphase] at hf
      exact hf.1
    dsimp only
    split
    · exact frameEndSteps_placed _ _ _ (hc _ _) hq (hp _ _)
    · exact hc _ _
  · rename_i role tx hphase
    have hq : role.required = s.roster.map requiredSet := by
      unfold FrameAgrees at hf
      rw [hphase] at hf
      exact hf.1
    exact frameEndSteps_placed _ _ _ (hc _ _) hq (hp _ _)

/-! ### Commands -/

theorem driveOutputs_place (s : State) : SamePlace s (driveOutputs s) := ⟨rfl, rfl, rfl, rfl⟩

theorem guarded_placed (f : State → State) (s : State) (hf : ∀ t, PlacedKept t (f t)) :
    PlacedKept s (driveOutputs (if s.resetLow then s else f s)) := by
  refine PlacedKept.trans ?_ (driveOutputs_place _).kept
  split
  · exact (SamePlace.refl s).kept
  · exact hf s

theorem endExchange_placed (s : State) : PlacedKept s (endExchange s) := by
  unfold endExchange
  split
  · exact (SamePlace.refl s).kept
  · split
    · exact fun _ => takeReset_placed s
    · exact SamePlace.kept ⟨rfl, rfl, rfl, rfl⟩

theorem portRequest_placed (code : Byte) (act : State → List Byte × State) (s : State)
    (ha : ∀ t, PlacedKept t (act t).2) : PlacedKept s (portRequest code act s) := by
  unfold portRequest
  refine PlacedKept.trans ?_ (driveOutputs_place _).kept
  split
  · exact (SamePlace.refl s).kept
  · unfold takeRequest
    have h := (endExchange_placed s).trans (ha (endExchange s))
    exact fun hs => (h hs).of ⟨rfl, rfl, rfl, rfl⟩

theorem takeAcquire_place (a b c d : Byte) (s : State) : SamePlace s (takeAcquire a b c d s).2 := by
  unfold takeAcquire
  split
  · exact SamePlace.refl s
  · split
    · exact SamePlace.refl s
    · split
      · exact SamePlace.refl s
      · unfold placeAcquireRequest
        split
        · exact SamePlace.refl s
        · split
          · exact SamePlace.refl s
          · exact ⟨rfl, rfl, rfl, rfl⟩

theorem takeRelease_place (a b : Byte) (s : State) : SamePlace s (takeRelease a b s).2 := by
  unfold takeRelease
  split
  · exact SamePlace.refl s
  · split
    · unfold placeReleaseRequest
      split
      · exact SamePlace.refl s
      · dsimp only
        split
        · exact ((requestRelease_local _ _ s).trans (slotFreed_local _)).place
        · exact (requestRelease_local _ _ s).place
    · exact SamePlace.refl s

theorem takeRenew_place (a b : Byte) (s : State) : SamePlace s (takeRenew a b s).2 := by
  unfold takeRenew
  split
  · exact SamePlace.refl s
  · split
    · unfold placeRenewRequest
      split
      · exact SamePlace.refl s
      · split
        · exact SamePlace.refl s
        · exact ⟨rfl, rfl, rfl, rfl⟩
    · exact SamePlace.refl s

theorem tryHead_place (fuel : Nat) (s : State) : SamePlace s (tryHead fuel s) := by
  induction fuel generalizing s with
  | zero => exact ⟨rfl, rfl, rfl, rfl⟩
  | succ fuel ih =>
    unfold tryHead
    split
    · exact ⟨rfl, rfl, rfl, rfl⟩
    · rename_i k x _
      split
      · exact ⟨rfl, rfl, rfl, rfl⟩
      · split
        · exact ⟨rfl, rfl, rfl, rfl⟩
        · refine SamePlace.trans ?_ (ih _)
          unfold dropSlot
          refine SamePlace.trans ?_ (slotFreed_local _).place
          refine SamePlace.trans (t := { s with queue := removeSlot k s.queue }) ⟨rfl, rfl, rfl, rfl⟩ ?_
          exact notifyAll_place _ _

theorem startAttempt_place (o : Opportunity) (s : State) : SamePlace s (startAttempt o s) := by
  unfold startAttempt
  split
  · refine SamePlace.trans ?_ (tryHead_place 16 _)
    exact ⟨rfl, rfl, rfl, rfl⟩
  · exact SamePlace.refl s

/-- What a FRAME_END has to find for the replica to stay in order. -/
def FrameFits (c : Instr) (s : State) : Prop :=
  ∀ cells, c = .frameEnd cells → FrameAgrees s ∧ ∀ b, payloadRead cells = some b → ItemIsNew s b

/-- Every command keeps the replica in order. -/
theorem exec_placed (c : Instr) (s t : State) (h : exec c s = .next t) (hc : FrameFits c s) : PlacedKept s t := by
  have key : ∀ u : State, PlacedKept s u → (Host.Outcome.next u : Host.Outcome State Fault Refusal) = .next t →
      PlacedKept s t := by
    intro u hu he
    cases he
    exact hu
  have same : ∀ t : State, PlacedKept t t := fun t => (SamePlace.refl t).kept
  cases c with
  | pinReset => exact key _ (fun _ => resetBlocks_placed _ rfl rfl (Or.inl rfl)) h
  | pinResetRelease pins =>
    refine key (driveOutputs (takeReset { s with straps := pins, resetLow := false })) ?_ h
    exact fun _ => (driveOutputs_place _).placed (takeReset_placed _)
  | exchangeDiscarded bs =>
    exact key _ (guarded_placed discardExchange s fun t ht =>
      (endExchange_placed t ht).of ⟨rfl, rfl, rfl, rfl⟩) h
  | status => exact key _ (portRequest_placed _ _ s same) h
  | configureClient a b d e =>
    refine key _ (portRequest_placed _ _ s fun t => SamePlace.kept ?_) h
    unfold takeConfigureClient
    split
    · exact SamePlace.refl t
    · split
      · exact ⟨rfl, rfl, rfl, rfl⟩
      · exact SamePlace.refl t
  | configureWatch m =>
    refine key _ (portRequest_placed _ _ s fun t => SamePlace.kept ?_) h
    unfold takeConfigureWatch
    split
    · exact SamePlace.refl t
    · exact ⟨rfl, rfl, rfl, rfl⟩
  | configureOptions a =>
    refine key _ (portRequest_placed _ _ s fun t => SamePlace.kept ?_) h
    unfold takeConfigureOptions
    split
    · exact SamePlace.refl t
    · split
      · exact ⟨rfl, rfl, rfl, rfl⟩
      · split
        · exact ⟨rfl, rfl, rfl, rfl⟩
        · exact SamePlace.refl t
  | start =>
    refine key _ (portRequest_placed _ _ s fun t ht => ?_) h
    unfold takeStart
    split
    · rename_i hx
      exact enterSeeking_placed _ (ht.of ⟨rfl, rfl, rfl, rfl⟩) (Or.inl hx)
    · exact ht
  | acquire a b d e => exact key _ (portRequest_placed _ _ s fun t => (takeAcquire_place a b d e t).kept) h
  | release a b => exact key _ (portRequest_placed _ _ s fun t => (takeRelease_place a b t).kept) h
  | renew a b => exact key _ (portRequest_placed _ _ s fun t => (takeRenew_place a b t).kept) h
  | readLease a =>
    refine key _ (portRequest_placed _ _ s fun t => ?_) h
    unfold takeReadLease
    split
    · exact same t
    · split <;> exact same t
  | readRoster =>
    refine key _ (portRequest_placed _ _ s fun t => ?_) h
    unfold takeReadRoster
    split <;> exact same t
  | takeNotice =>
    refine key _ (portRequest_placed _ _ s fun t => SamePlace.kept ?_) h
    unfold takeTakeNotice
    split
    · exact SamePlace.refl t
    · exact ⟨rfl, rfl, rfl, rfl⟩
  | leave =>
    refine key _ (portRequest_placed _ _ s fun t ht => ?_) h
    unfold takeLeave
    split
    · rename_i hx
      exact enterLeaving_placed t ht hx
    all_goals exact ht
  | rejoin =>
    refine key _ (portRequest_placed _ _ s fun t ht => ?_) h
    unfold takeRejoin
    split
    · rename_i hx
      exact enterSeeking_placed t ht (Or.inr hx)
    · exact ht
  | reset => exact key _ (portRequest_placed _ _ s same) h
  | unknownRequest a => exact key _ (portRequest_placed _ _ s same) h
  | softReset => exact key _ (guarded_placed _ s fun t _ => takeReset_placed t) h
  | attemptStart o => exact key _ (guarded_placed _ s fun t => (startAttempt_place o t).kept) h
  | frameEnd cells =>
    refine key (driveOutputs (if s.resetLow then s else endFrame cells s)) (fun hs => ?_) h
    refine (driveOutputs_place _).placed ?_
    split
    · exact hs
    · exact endFrame_placed cells s hs (hc cells rfl).1 (hc cells rfl).2
  | tickTimerExpiry =>
    refine key _ (guarded_placed _ s fun t => SamePlace.kept ?_) h
    unfold expireTick
    split
    · exact ⟨rfl, rfl, rfl, rfl⟩
    · exact SamePlace.refl t
  | silenceTimerExpiry =>
    refine key _ (guarded_placed _ s fun t ht => ?_) h
    unfold expireSilence
    split
    · dsimp only
      split
      · exact teardown_placed _ _
      · exact ht.of ⟨rfl, rfl, rfl, rfl⟩
    · exact ht
  | foundingTimerExpiry =>
    refine key _ (guarded_placed _ s fun t ht => ?_) h
    unfold expireFounding
    split
    · exact (foundingTest_local _).place.placed (ht.of ⟨rfl, rfl, rfl, rfl⟩)
    · exact ht
  | pacingTimerExpiry =>
    refine key _ (guarded_placed _ s fun t ht => ?_) h
    unfold expirePacing
    split
    · exact (foundingTest_local _).place.placed (ht.of ⟨rfl, rfl, rfl, rfl⟩)
    · exact ht
  | holdOffTimerExpiry =>
    refine key _ (guarded_placed _ s fun t ht => ?_) h
    unfold expireHoldOff
    split
    · exact (joinTest_local _).place.placed (ht.of ⟨rfl, rfl, rfl, rfl⟩)
    · exact ht
  | claimAsserted c =>
    refine key _ (guarded_placed _ s fun t ht => ?_) h
    unfold claimAsserted
    split
    · exact ht.of ⟨rfl, rfl, rfl, rfl⟩
    · exact (takeClaimAsserted_local c _).place.placed (ht.of ⟨rfl, rfl, rfl, rfl⟩)
  | claimReleased c =>
    refine key _ (guarded_placed _ s fun t ht => ?_) h
    unfold claimReleased
    split
    · exact (takeClaimReleased_local c _).place.placed (ht.of ⟨rfl, rfl, rfl, rfl⟩)
    · exact ht.of ⟨rfl, rfl, rfl, rfl⟩
  | frameStartBit =>
    refine key _ (guarded_placed _ s fun t ht => ?_) h
    unfold receiveStartBit
    split
    · exact ht
    · split <;> exact ht.of ⟨rfl, rfl, rfl, rfl⟩
  | quietGapComplete =>
    exact key _ (guarded_placed _ s fun t => (startAttempt_place .quietGap t).kept) h
  | tickoutPulseEnd => exact key _ (guarded_placed (fun s => { s with tickout := none }) s fun t ht => ht.of ⟨rfl, rfl, rfl, rfl⟩) h

theorem clockCycle_placed (s : State) : PlacedKept s (clockCycle s) := by
  refine SamePlace.kept ?_
  unfold clockCycle
  split
  · exact SamePlace.refl s
  · unfold cycleGap cycleClaims
    split <;> split <;> (try split) <;> exact ⟨rfl, rfl, rfl, rfl⟩

end Sys2Proof.Machine
end

