-- ==== Sys2Proof/Laws/PortWires.lean ====
section
/-! SUPPORT. The wires of the local port: what an edge leaves alone, and which commands an empty queue brings (R162 to
R165, log entries 3, 8 and 34). -/

namespace Sys2Proof.Machine

/-- Nothing but the exchange, the serial side of the port and what the controller does next has changed. -/
def WiresOnly (s t : State) : Prop :=
  t = { s with exchange := t.exchange, serial := t.serial, portInput := t.portInput }

theorem dropInput_wires (s : State) : WiresOnly s (dropInput s) := rfl

theorem portEdge_wires (e : PortInput) (s : State) : WiresOnly s (portEdge e s) := by
  unfold portEdge
  split <;> rfl

/-- The phase does not read what the controller does next. -/
theorem portPhase_dropInput (s : State) : portPhase (dropInput s) = portPhase s := rfl

/-- No request is a frame end. -/
theorem requestOfBytes_not_frameEnd (bs : List Byte) (cells : List LineCell) :
    requestOfBytes bs ≠ some (.frameEnd cells) := by
  unfold requestOfBytes
  repeat' split
  all_goals simp

/-- No frame ends at an edge of the port. -/
theorem portCommand_not_frameEnd (e : PortInput) (s : State) (cells : List LineCell) :
    portCommand e s ≠ some (.frameEnd cells) := by
  have h : ∀ p : SerialPort, (if p.bits = [] then requestOfBytes p.bytes else none) ≠ some (.frameEnd cells) := by
    intro p
    split
    · exact requestOfBytes_not_frameEnd _ cells
    · simp
  unfold portCommand
  split
  · exact h _
  · exact h _
  all_goals first | (split <;> simp) | simp

/-- LSEL deasserted. -/
theorem portPhase_free {s : State} (h : s.serial.selected = false) : portPhase s = .free := by
  unfold portPhase
  rw [h]

/-- LSEL asserted, before the take. -/
theorem portPhase_begun {s : State} (h : s.serial.selected = true) (hx : s.exchange = none) :
    portPhase s = .code ∨ ∃ due, portPhase s = .arguments due := by
  unfold portPhase
  rw [h, hx]
  cases s.serial.bytes
  · exact Or.inl rfl
  · exact Or.inr ⟨_, rfl⟩

/-- LSEL asserted, after the take. -/
theorem portPhase_taken {s : State} {x : Exchange} (h : s.serial.selected = true) (hx : s.exchange = some x) :
    portPhase s = .taken ∨ portPhase s = .response ∨ portPhase s = .filler := by
  unfold portPhase
  rw [h, hx]
  dsimp only
  split
  · exact Or.inl rfl
  · split
    · exact Or.inr (Or.inl rfl)
    · exact Or.inr (Or.inr rfl)

/-- With LSEL deasserted no edge completes a command. -/
theorem portCommand_free {s : State} (e : PortInput) (h : s.serial.selected = false) : portCommand e s = none := by
  unfold portCommand
  rw [portPhase_free h]

/-- With LSEL deasserted only its assertion acts. -/
theorem portEdge_free {s : State} (e : PortInput) (h : s.serial.selected = false) :
    portEdge e s = if e = .lselHigh then { s with exchange := none, serial := SerialPort.begun } else s := by
  unfold portEdge
  rw [portPhase_free h]
  cases e <;> rfl

/-- The edges before the take. -/
theorem portCommand_begun {s : State} (e : PortInput) (h : s.serial.selected = true) (hx : s.exchange = none) :
    portCommand e s =
      match e with
      | .lclkRise ldi =>
        if (shiftIn ldi s.serial false).bits = [] then requestOfBytes (shiftIn ldi s.serial false).bytes else none
      | .lselLow => some (.exchangeDiscarded s.serial.bytes)
      | _ => none := by
  unfold portCommand
  rcases portPhase_begun h hx with hp | ⟨due, hp⟩ <;> rw [hp] <;> cases e <;> rfl

/-- The edges after the take. -/
theorem portCommand_taken {s : State} {x : Exchange} (e : PortInput) (h : s.serial.selected = true)
    (hx : s.exchange = some x) :
    portCommand e s = if e = .lselLow ∧ x.code = resetRequest then some .softReset else none := by
  unfold portCommand
  rcases portPhase_taken h hx with hp | hp | hp <;> rw [hp, hx] <;> cases e <;> simp

/-- What an edge does while LSEL is asserted, where it completes no command. -/
theorem portEdge_selected {s : State} (e : PortInput) (h : s.serial.selected = true) :
    portEdge e s =
      match e with
      | .lselLow => { s with exchange := none, serial := SerialPort.free }
      | .lclkRise ldi => { s with serial := shiftIn ldi s.serial s.exchange.isSome }
      | .lclkFall => { s with serial := { s.serial with ldo := some (nextLdo s) } }
      | .lselHigh | .pause => s := by
  unfold portEdge
  cases hx : s.exchange with
  | none => rcases portPhase_begun h hx with hp | ⟨due, hp⟩ <;> rw [hp] <;> cases e <;> rfl
  | some x => rcases portPhase_taken h hx with hp | hp | hp <;> rw [hp] <;> cases e <;> rfl

/-- A rising edge of LCLK (R162, R163). -/
theorem shiftIn_eq (ldi : Bool) (p : SerialPort) (taken : Bool) :
    shiftIn ldi p taken =
      if p.bits.length < 7 then { p with bits := p.bits ++ [ldi] }
      else if taken then { p with bits := [], shifted := p.shifted + 1 }
      else { p with bits := [], bytes := p.bytes ++ [byteOfBits (p.bits ++ [ldi])] } := by
  unfold shiftIn
  dsimp only
  rw [List.length_append]
  simp only [List.length_singleton, show p.bits.length + 1 < 8 ↔ p.bits.length < 7 by omega]

/-- The next edge, where RESETn is high and the controller does not pause. -/
theorem nextEdge_cons (s : State) (e : PortInput) (rest : List PortInput) (h : s.resetLow = false)
    (hi : s.portInput = e :: rest) (he : e ≠ .pause) : nextEdge s = some e := by
  unfold nextEdge
  rw [if_neg (by rw [h]; decide), hi]
  cases e <;> first | rfl | exact absurd rfl he

/-- No edge, where the controller does nothing or pauses. -/
theorem nextEdge_none (s : State) (h : s.portInput = [] ∨ ∃ rest, s.portInput = .pause :: rest) :
    nextEdge s = none := by
  unfold nextEdge
  split
  · rfl
  · rcases h with h | ⟨rest, h⟩ <;> rw [h]

/-- The command of an empty queue is a timed event or comes from an edge, and acts on the state, or on the state with
the edge dropped; it is no frame end. -/
theorem idleCommand_some {s t : State} {c : Instr} (h : idleCommand s = some (c, t)) :
    (t = s ∨ t = dropInput s) ∧ ∀ cells, c ≠ .frameEnd cells := by
  unfold idleCommand at h
  split at h
  · rename_i i hd
    cases h
    exact ⟨Or.inl rfl, fun cells hc => dueEvent_not_frameEnd s cells (by rw [hd, hc])⟩
  · split at h
    · cases h
    · rename_i e he
      obtain ⟨i, hi, heq⟩ := Option.map_eq_some_iff.1 h
      cases heq
      exact ⟨Or.inr rfl, fun cells hc => portCommand_not_frameEnd e s cells (by rw [hi, hc])⟩

/-- What an empty queue does without a command: nothing, one cycle of CLKIN, or an edge. -/
theorem idleChange_cases (s : State) : idleChange s = s ∨ idleChange s = clockCycle (dropInput s) ∨
    ∃ e, idleChange s = portEdge e (dropInput s) := by
  unfold idleChange
  split
  · exact Or.inl rfl
  · split
    · exact Or.inr (Or.inl rfl)
    · exact Or.inr (Or.inr ⟨_, rfl⟩)

/-- A property that a cycle of CLKIN keeps and that does not read the wires is kept where no command comes. -/
theorem idleChange_keeps (P : State → Prop) (hw : ∀ s t, WiresOnly s t → P s → P t)
    (hc : ∀ s, P s → P (clockCycle s)) (s : State) (h : P s) : P (idleChange s) := by
  have hd : P (dropInput s) := hw s _ (dropInput_wires s) h
  rcases idleChange_cases s with he | he | ⟨e, he⟩ <;> rw [he]
  · exact h
  · exact hc _ hd
  · exact hw _ _ (portEdge_wires e _) hd

/-- The step of an empty queue where a timed event is due. -/
theorem idleStep_due (s : State) (c : Instr) (h : dueEvent s = some c) : idleStep s = exec c s := by
  unfold idleStep idleCommand
  rw [h]

/-- The step of an empty queue where nothing is due and no edge comes: one cycle of CLKIN. -/
theorem idleStep_cycle (s : State) (h : dueEvent s = none) (hr : s.resetLow = false) (hi : nextEdge s = none) :
    idleStep s = .next (clockCycle (dropInput s)) := by
  unfold idleStep idleCommand idleChange
  rw [h, hi, if_neg (by rw [hr]; decide)]

/-- The step of an empty queue where nothing is due and an edge comes. -/
theorem idleStep_edge (s : State) (e : PortInput) (h : dueEvent s = none) (hr : s.resetLow = false)
    (hi : nextEdge s = some e) :
    idleStep s =
      match portCommand e s with
      | some c => exec c (dropInput s)
      | none => .next (portEdge e (dropInput s)) := by
  unfold idleStep idleCommand idleChange
  rw [h, hi, if_neg (by rw [hr]; decide)]
  dsimp only
  cases portCommand e s <;> rfl

end Sys2Proof.Machine
end

