-- ==== Sys2Proof/Laws/QueueLaw.lean ====
section
/-! SUPPORT. Every operation on the outbound queue keeps its law: at most one ACQUIRE and one RELEASE of a pair, both
only while the ACQUIRE is in attempt, and each slot of its own kinds (R111, R112). -/

namespace Sys2Proof.Machine

/-! ### The three ways a slot changes -/

/-- The content may stand in slot `k` (R111). -/
def KindFits (k : Fin 8) (c : SlotContent) : Prop :=
  (k.val < 6 → slotKind c = .acquire ∨ slotKind c = .release ∨ slotKind c = .renew) ∧
    (k = 6 → slotKind c = .tick) ∧
    (k = 7 → slotKind c = .found ∨ slotKind c = .join ∨ slotKind c = .leave ∨ slotKind c = .snap)

theorem isAcquireFor_iff (x : SlotContent) (l : Lease) (c : Client) :
    x.isAcquireFor l c = true ↔ ∃ m t p, x = .acquire l c m t p := by
  cases x <;> simp [SlotContent.isAcquireFor]

theorem isReleaseFor_iff (x : SlotContent) (l : Lease) (c : Client) :
    x.isReleaseFor l c = true ↔ x = .release l c := by
  cases x <;> simp [SlotContent.isReleaseFor]

/-- Slots that only empty keep the law. -/
theorem QueueLegal.shrink {p q : OutboundQueue} (h : QueueLegal p)
    (hs : ∀ (k : Fin 8) (x : Slot), q.slots[k] = some x → p.slots[k] = some x) : QueueLegal q :=
  ⟨fun j k x y l c hx hy => h.1 j k x y l c (hs j x hx) (hs k y hy), fun k x hx => h.2 k x (hs k x hx)⟩

/-- One slot is written. -/
theorem QueueLegal.write {p q : OutboundQueue} (k : Fin 8) (x : Slot) (h : QueueLegal p)
    (hq : q.slots = p.slots.set k (some x)) (hk : KindFits k x.content)
    (ha : ∀ l c, x.content.isAcquireFor l c = true → ∀ (j : Fin 8) (y : Slot), j ≠ k → p.slots[j] = some y →
      y.content.isAcquireFor l c = false ∧ (y.content.isReleaseFor l c = true → x.inAttempt = true))
    (hr : ∀ l c, x.content.isReleaseFor l c = true → ∀ (j : Fin 8) (y : Slot), j ≠ k → p.slots[j] = some y →
      y.content.isReleaseFor l c = false ∧ (y.content.isAcquireFor l c = true → y.inAttempt = true)) :
    QueueLegal q := by
  have get : ∀ (j : Fin 8) (y : Slot), q.slots[j] = some y → (j = k ∧ y = x) ∨ (j ≠ k ∧ p.slots[j] = some y) := by
    intro j y hy
    rw [hq, slots_set_get] at hy
    split at hy
    · rename_i hjk
      exact Or.inl ⟨hjk.symm, (Option.some.inj hy).symm⟩
    · rename_i hjk
      exact Or.inr ⟨fun hh => hjk hh.symm, hy⟩
  have both : ∀ l c, x.content.isAcquireFor l c = true → x.content.isReleaseFor l c = true → False := by
    intro l c h1 h2
    rw [(isReleaseFor_iff _ _ _).1 h2] at h1
    cases h1
  refine ⟨fun i j y z l c hy hz => ?_, fun j y hy => ?_⟩
  · rcases get i y hy with ⟨hi, rfl⟩ | ⟨hi, hy⟩ <;> rcases get j z hz with ⟨hj, rfl⟩ | ⟨hj, hz⟩
    · exact ⟨fun _ _ => hi.trans hj.symm, fun _ _ => hi.trans hj.symm, fun h1 h2 => (both l c h1 h2).elim⟩
    · refine ⟨fun h1 h2 => ?_, fun h1 h2 => ?_, fun h1 h2 => (ha l c h1 j z hj hz).2 h2⟩
      · rw [(ha l c h1 j z hj hz).1] at h2; cases h2
      · rw [(hr l c h1 j z hj hz).1] at h2; cases h2
    · refine ⟨fun h1 h2 => ?_, fun h1 h2 => ?_, fun h1 h2 => (hr l c h2 i y hi hy).2 h1⟩
      · rw [(ha l c h2 i y hi hy).1] at h1; cases h1
      · rw [(hr l c h2 i y hi hy).1] at h1; cases h1
    · exact h.1 i j y z l c hy hz
  · rcases get j y hy with ⟨hj, rfl⟩ | ⟨-, hy⟩
    · rw [hj]
      exact hk
    · exact h.2 j y hy

theorem removeSlot_legal (k : Fin 8) (q : OutboundQueue) (h : QueueLegal q) : QueueLegal (removeSlot k q) := by
  refine h.shrink fun j x hx => ?_
  unfold removeSlot at hx
  rw [slots_set_get] at hx
  split at hx
  · cases hx
  · exact hx

theorem empty_legal : QueueLegal OutboundQueue.empty := by
  have : ∀ k : Fin 8, OutboundQueue.empty.slots[k] = none := by decide
  refine ⟨fun j k x y l c h => ?_, fun k x h => ?_⟩ <;> rw [this] at h <;> cases h

/-- An ACQUIRE or a RELEASE stands in a general slot. -/
theorem QueueLegal.general {q : OutboundQueue} (h : QueueLegal q) (k : Fin 8) (x : Slot) (hx : q.slots[k] = some x)
    (l : Lease) (c : Client) (hc : x.content.isAcquireFor l c = true ∨ x.content.isReleaseFor l c = true) :
    k.val < 6 := by
  by_contra hk
  have hkind : slotKind x.content = .acquire ∨ slotKind x.content = .release := by
    rcases hc with hc | hc
    · obtain ⟨m, t, p, he⟩ := (isAcquireFor_iff _ _ _).1 hc
      rw [he]; exact Or.inl rfl
    · rw [(isReleaseFor_iff _ _ _).1 hc]; exact Or.inr rfl
  have h67 : k = 6 ∨ k = 7 := by
    rcases k with ⟨k, hk8⟩
    simp only [Fin.ext_iff]
    show k = 6 ∨ k = 7
    simp only at hk
    omega
  rcases h67 with h6 | h7
  · rw [(h.2 k x hx).2.1 h6] at hkind
    rcases hkind with hkind | hkind <;> cases hkind
  · rcases (h.2 k x hx).2.2 h7 with h' | h' | h' | h' <;> rw [h'] at hkind <;> rcases hkind with hkind | hkind <;>
      cases hkind

/-- A slot keeps its content; it may be marked in attempt. -/
theorem updateSlot_mark_legal (k : Fin 8) (f : Slot → Slot) (q : OutboundQueue) (h : QueueLegal q)
    (hc : ∀ x, q.slots[k] = some x → slotKind (f x).content = slotKind x.content)
    (ha : ∀ x l c, q.slots[k] = some x → (f x).content.isAcquireFor l c = x.content.isAcquireFor l c)
    (hr : ∀ x l c, q.slots[k] = some x → (f x).content.isReleaseFor l c = x.content.isReleaseFor l c)
    (hi : ∀ x, q.slots[k] = some x → x.inAttempt = true → (f x).inAttempt = true) :
    QueueLegal (updateSlot k f q) := by
  cases hx : q.slots[k] with
  | none =>
    refine h.shrink fun j y hy => ?_
    unfold updateSlot at hy
    rw [slots_set_get, hx] at hy
    split at hy
    · cases hy
    · exact hy
  | some x =>
    refine h.write k (f x) (by unfold updateSlot; rw [hx]; rfl) ?_ ?_ ?_
    · have := h.2 k x hx
      unfold KindFits
      rw [hc x hx]
      exact this
    · intro l c hl j y hj hy
      rw [ha x l c hx] at hl
      refine ⟨?_, fun hh => hi x hx ((h.1 k j x y l c hx hy).2.2 hl hh)⟩
      cases hh : y.content.isAcquireFor l c with
      | false => rfl
      | true => exact absurd ((h.1 k j x y l c hx hy).1 hl hh).symm hj
    · intro l c hl j y hj hy
      rw [hr x l c hx] at hl
      refine ⟨?_, fun hh => (h.1 j k y x l c hy hx).2.2 hh hl⟩
      cases hh : y.content.isReleaseFor l c with
      | false => rfl
      | true => exact absurd ((h.1 k j x y l c hx hy).2.1 hl hh).symm hj

/-! ### Placing -/

/-- A content that is neither ACQUIRE nor RELEASE may be placed wherever its kind fits. -/
theorem placeSlot_legal (k : Fin 8) (c : SlotContent) (q : OutboundQueue) (h : QueueLegal q) (hk : KindFits k c)
    (ha : ∀ l d, c.isAcquireFor l d = false) (hr : ∀ l d, c.isReleaseFor l d = false) :
    QueueLegal (placeSlot k c q) := by
  refine h.write k _ rfl hk (fun l d hl => ?_) (fun l d hl => ?_)
  · rw [show _ = false from ha l d] at hl; cases hl
  · rw [show _ = false from hr l d] at hl; cases hl

theorem freeGeneralSlot_lt {q : OutboundQueue} {k : Fin 8} (h : freeGeneralSlot q = some k) : k.val < 6 :=
  ((freeGeneralSlot_some q k).1 h).1

theorem placeAcquire_legal (l : Lease) (c : Client) (m : Mode) (t p : Nat) (q : OutboundQueue) (h : QueueLegal q) :
    QueueLegal (placeAcquire l c m t p q).2 := by
  unfold placeAcquire
  split
  · exact h
  · rename_i hn
    simp only [Bool.or_eq_true, not_or, Bool.not_eq_true, Option.isSome_eq_false_iff, Option.isNone_iff_eq_none] at hn
    unfold placeGeneral
    split
    · exact h
    · rename_i k hk
      refine h.write k _ rfl ⟨fun _ => Or.inl rfl, ?_, ?_⟩ ?_ ?_
      · intro h6
        have := freeGeneralSlot_lt hk
        rw [h6] at this
        exact absurd this (by decide)
      · intro h7
        have := freeGeneralSlot_lt hk
        rw [h7] at this
        exact absurd this (by decide)
      · intro l' c' hl j y _ hy
        obtain ⟨m', t', p', he⟩ := (isAcquireFor_iff _ _ _).1 hl
        cases he
        have hA : y.content.isAcquireFor l c = false := by
          cases hh : y.content.isAcquireFor l c with
          | false => rfl
          | true =>
            have := (acquireSlot_none l c q).1 hn.1 j y (h.general j y hy l c (Or.inl hh)) hy
            rw [this] at hh; cases hh
        have hR : y.content.isReleaseFor l c = false := by
          cases hh : y.content.isReleaseFor l c with
          | false => rfl
          | true =>
            have := (releaseSlot_none l c q).1 hn.2 j y (h.general j y hy l c (Or.inr hh)) hy
            rw [this] at hh; cases hh
        exact ⟨hA, fun hh => by rw [hR] at hh; cases hh⟩
      · intro l' c' hl
        have := (isReleaseFor_iff _ _ _).1 hl
        cases this

/-- A RELEASE is placed beside nothing, or beside an ACQUIRE in attempt. -/
theorem placeGeneral_release_legal (l : Lease) (c : Client) (q : OutboundQueue) (h : QueueLegal q)
    (hr : releaseSlot l c q = none)
    (ha : ∀ (j : Fin 8) (y : Slot), q.slots[j] = some y → y.content.isAcquireFor l c = true → y.inAttempt = true) :
    QueueLegal (placeGeneral (.release l c) q).2 := by
  unfold placeGeneral
  split
  · exact h
  · rename_i k hk
    refine h.write k _ rfl ⟨fun _ => Or.inr (Or.inl rfl), ?_, ?_⟩ ?_ ?_
    · intro h6
      have := freeGeneralSlot_lt hk
      rw [h6] at this
      exact absurd this (by decide)
    · intro h7
      have := freeGeneralSlot_lt hk
      rw [h7] at this
      exact absurd this (by decide)
    · intro l' c' hl
      obtain ⟨m', t', p', he⟩ := (isAcquireFor_iff _ _ _).1 hl
      cases he
    · intro l' c' hl j y _ hy
      have he := (isReleaseFor_iff _ _ _).1 hl
      cases he
      refine ⟨?_, ha j y hy⟩
      cases hh : y.content.isReleaseFor l c with
      | false => rfl
      | true =>
        have := (releaseSlot_none l c q).1 hr j y (h.general j y hy l c (Or.inr hh)) hy
        rw [this] at hh; cases hh

theorem placeRelease_legal (l : Lease) (c : Client) (present : Bool) (q : OutboundQueue) (h : QueueLegal q) :
    QueueLegal (placeRelease l c present q).2 := by
  unfold placeRelease
  split
  · exact h
  · rename_i hn
    simp only [Bool.not_eq_true, Option.isSome_eq_false_iff, Option.isNone_iff_eq_none] at hn
    split
    · rename_i k hk
      split
      · rename_i hi
        refine placeGeneral_release_legal l c q h hn fun j y hy hh => ?_
        obtain ⟨h1, x, hx, hxa⟩ := generalSlotsWith_head_spec _ q k hk
        have hjk : j = k := (h.1 j k y x l c hy hx).1 hh hxa
        rw [hjk, hx] at hy
        cases hy
        unfold slotInAttempt at hi
        rw [hx] at hi
        exact hi
      · exact removeSlot_legal k q h
    · rename_i hk
      split
      · refine placeGeneral_release_legal l c q h hn fun j y hy hh => ?_
        have := (acquireSlot_none l c q).1 hk j y (h.general j y hy l c (Or.inl hh)) hy
        rw [this] at hh; cases hh
      · exact h

theorem placeRenew_legal (l : Lease) (c : Client) (q : OutboundQueue) (h : QueueLegal q) :
    QueueLegal (placeRenew l c q).2 := by
  unfold placeRenew
  split
  · rename_i k entries hk
    split
    · exact h
    · split
      · have hx := openedRenew_spec q k entries hk
        obtain ⟨x, hx, hc⟩ := hx
        refine updateSlot_mark_legal k _ q h ?_ ?_ ?_ ?_
        · intro y hy; rw [hx] at hy; cases hy; rw [hc]; rfl
        · intro y l' c' hy; rw [hx] at hy; cases hy; rw [hc]; rfl
        · intro y l' c' hy; rw [hx] at hy; cases hy; rw [hc]; rfl
        · intro y hy hi; exact hi
      · exact h
  · unfold placeGeneral
    split
    · exact h
    · rename_i k hk
      refine placeSlot_legal k _ q h ⟨fun _ => Or.inr (Or.inr rfl), ?_, ?_⟩ (fun _ _ => rfl) (fun _ _ => rfl)
      · intro h6
        have := freeGeneralSlot_lt hk
        rw [h6] at this
        exact absurd this (by decide)
      · intro h7
        have := freeGeneralSlot_lt hk
        rw [h7] at this
        exact absurd this (by decide)

end Sys2Proof.Machine
end

