-- ==== Sys2Proof/Laws/QueueStep.lean ====
section
/-! SUPPORT. Every step keeps the law of the outbound queue: operation by operation, over the whole state. -/

namespace Sys2Proof.Machine

/-- The law of the queue is kept. -/
def QueueKept (s t : State) : Prop := QueueLegal s.queue → QueueLegal t.queue

namespace QueueKept

theorem refl (s : State) : QueueKept s s := id

theorem trans {s t u : State} (h : QueueKept s t) (k : QueueKept t u) : QueueKept s u := fun hs => k (h hs)

theorem ofSlots {s t : State} (h : t.queue.slots = s.queue.slots) : QueueKept s t := by
  intro hs
  refine hs.shrink fun k x hx => ?_
  rw [← h]
  exact hx

/-- An operation after a change that touches no slot. -/
theorem via {s t u : State} (k : QueueKept t u) (h : t.queue.slots = s.queue.slots) : QueueKept s u :=
  (ofSlots h).trans k

theorem foldl {α : Type} (f : State → α → State) (hf : ∀ s a, QueueKept s (f s a)) (xs : List α) (s : State) :
    QueueKept s (xs.foldl f s) := by
  induction xs generalizing s with
  | nil => exact refl s
  | cons a xs ih => exact (hf s a).trans (ih _)

end QueueKept

/-! ### The client unit -/

theorem notify_kept (b : NoticeBody) (s : State) : QueueKept s (notify b s) := QueueKept.ofSlots rfl

theorem notifyAll_kept (bs : List NoticeBody) (s : State) : QueueKept s (notifyAll bs s) :=
  QueueKept.foldl _ (fun s b => notify_kept b s) bs s

theorem raiseAcquire_kept (c : Client) (s : State) : QueueKept s (raiseAcquire c s) := by
  unfold raiseAcquire
  split
  · exact QueueKept.refl s
  · dsimp only
    split
    · exact QueueKept.ofSlots rfl
    · exact fun h => placeAcquire_legal _ _ _ _ _ _ h

theorem requestRelease_kept (l : Lease) (c : Client) (s : State) : QueueKept s (requestRelease l c s).2 := by
  intro h
  have h' := placeRelease_legal l c (tagPresent s l (ownTag s c)) s.queue h
  unfold requestRelease
  dsimp only
  split
  · exact h'
  · exact h'

theorem raiseRelease_kept (c : Client) (s : State) : QueueKept s (raiseRelease c s) := by
  unfold raiseRelease
  split
  · exact QueueKept.refl s
  · dsimp only
    split
    · exact QueueKept.ofSlots rfl
    · exact requestRelease_kept _ _ s

theorem setNeed_kept (c : Client) (n : Option NeedKind) (s : State) : QueueKept s (setNeed c n s) :=
  QueueKept.ofSlots rfl

theorem serveNeed_kept (s : State) (c : Client) : QueueKept s (serveNeed s c) := by
  unfold serveNeed
  split
  · exact (setNeed_kept c none s).trans (raiseAcquire_kept c _)
  · exact (setNeed_kept c none s).trans (raiseRelease_kept c _)
  · exact QueueKept.refl s

theorem concludeClient_kept (s : State) (c : Client) : QueueKept s (concludeClient s c) := by
  unfold concludeClient
  split
  · exact QueueKept.refl s
  · split
    · split
      · exact QueueKept.via (raiseAcquire_kept c _) rfl
      · exact QueueKept.ofSlots rfl
    · exact QueueKept.refl s

theorem serveNeeds_kept (s : State) : QueueKept s (serveNeeds s) := QueueKept.foldl _ serveNeed_kept _ s

theorem concludeClients_kept (s : State) : QueueKept s (concludeClients s) :=
  QueueKept.foldl _ concludeClient_kept _ s

theorem settleQueue_kept (s : State) : QueueKept s (settleQueue s) :=
  (serveNeeds_kept s).trans (concludeClients_kept _)

theorem takeClaimAsserted_kept (c : Client) (s : State) : QueueKept s (takeClaimAsserted c s) := by
  unfold takeClaimAsserted
  split
  · exact QueueKept.refl s
  · split
    · split
      · exact QueueKept.via (raiseAcquire_kept c _) rfl
      · exact QueueKept.refl s
    · exact QueueKept.ofSlots rfl
    all_goals exact QueueKept.refl s

theorem releaseAsking_kept (l : Lease) (c : Client) (s : State) : QueueKept s (releaseAsking l c s) := by
  unfold releaseAsking
  split
  · exact QueueKept.ofSlots rfl
  · split
    · exact QueueKept.via (raiseRelease_kept c _) rfl
    · refine QueueKept.trans ?_ (settleQueue_kept _)
      exact QueueKept.via (raiseRelease_kept c _) rfl

theorem takeClaimReleased_kept (c : Client) (s : State) : QueueKept s (takeClaimReleased c s) := by
  unfold takeClaimReleased
  split
  · exact QueueKept.refl s
  · split
    · exact QueueKept.refl s
    · exact releaseAsking_kept _ c s
    · refine QueueKept.trans ?_ (concludeClients_kept _)
      exact QueueKept.via (raiseRelease_kept c _) rfl
    · refine QueueKept.trans ?_ (concludeClients_kept _)
      exact QueueKept.via (raiseRelease_kept c _) rfl
    · exact QueueKept.ofSlots rfl
    · exact QueueKept.ofSlots rfl
    · exact QueueKept.ofSlots rfl

theorem takeSendFailed_kept (x : SlotContent) (s : State) : QueueKept s (takeSendFailed x s) := by
  unfold takeSendFailed
  split
  · split
    · exact raiseAcquire_kept _ s
    · exact QueueKept.refl s
  · split
    · exact raiseRelease_kept _ s
    · exact QueueKept.refl s
  · exact QueueKept.refl s

theorem askAllAtEntry_kept (s : State) : QueueKept s (askAllAtEntry s) := by
  refine QueueKept.foldl _ (fun s c => ?_) _ s
  unfold askAtEntry
  split
  · exact QueueKept.refl s
  · split
    · exact QueueKept.via (raiseAcquire_kept c _) rfl
    · exact QueueKept.refl s

theorem autoRenew_kept (s : State) : QueueKept s (autoRenew s) := by
  unfold autoRenew
  split
  · refine QueueKept.foldl _ (fun s c => ?_) _ s
    unfold renewClient
    split
    · exact QueueKept.refl s
    · split
      · exact QueueKept.refl s
      · split
        · exact fun h => placeRenew_legal _ _ _ h
        · exact QueueKept.refl s
  · exact QueueKept.refl s

theorem handOver_kept (s : State) (ev : TableEvent) : QueueKept s (handOver s ev) := by
  unfold handOver
  refine (notifyAll_kept (eventNotices s ev) s).trans ?_
  unfold takeResult
  split
  · split
    · exact QueueKept.refl _
    · split
      · exact QueueKept.ofSlots rfl
      · exact QueueKept.refl _
  · exact QueueKept.refl _

/-! ### The membership slot and the tick slot -/

/-- The kinds of the membership slot. -/
def isMembership (c : SlotContent) : Prop := c = .found ∨ c = .join ∨ c = .leave ∨ c = .snap

theorem placeMembership_kept (c : SlotContent) (hc : isMembership c) (s : State) :
    QueueKept s (placeMembership c s) := by
  intro h
  refine placeSlot_legal membershipSlot c s.queue h ⟨fun hk => absurd hk (by decide), fun hk => absurd hk (by decide),
    fun _ => ?_⟩ ?_ ?_
  · rcases hc with rfl | rfl | rfl | rfl
    · exact Or.inl rfl
    · exact Or.inr (Or.inl rfl)
    · exact Or.inr (Or.inr (Or.inl rfl))
    · exact Or.inr (Or.inr (Or.inr rfl))
  · rcases hc with rfl | rfl | rfl | rfl <;> exact fun _ _ => rfl
  · rcases hc with rfl | rfl | rfl | rfl <;> exact fun _ _ => rfl

theorem dropMembership_kept (c : SlotContent) (s : State) : QueueKept s (dropMembership c s) := by
  unfold dropMembership
  split
  · exact fun h => removeSlot_legal _ _ h
  · exact QueueKept.refl s

theorem foundingTest_kept (s : State) : QueueKept s (foundingTest s) := by
  unfold foundingTest
  split
  · exact placeMembership_kept _ (Or.inl rfl) s
  · exact QueueKept.refl s

theorem joinTest_kept (s : State) : QueueKept s (joinTest s) := by
  unfold joinTest
  split
  · exact placeMembership_kept _ (Or.inr (Or.inl rfl)) s
  · exact QueueKept.refl s

theorem transferUnit_kept (s : State) : QueueKept s (transferUnit s) := by
  unfold transferUnit
  dsimp only
  split
  · split
    · exact QueueKept.via (placeMembership_kept _ (Or.inr (Or.inr (Or.inr rfl))) _) rfl
    · exact QueueKept.ofSlots rfl
  · exact QueueKept.via (dropMembership_kept _ _) rfl

theorem leaveHandshake_kept (s : State) : QueueKept s (leaveHandshake s) := by
  have hs : ∀ (s : State) (lc : Lease × Client), QueueKept s (handshakeRelease s lc) := by
    intro s lc
    unfold handshakeRelease
    split
    · exact QueueKept.refl s
    · split
      · exact QueueKept.refl s
      · exact requestRelease_kept _ _ s
  unfold leaveHandshake
  split
  · dsimp only
    have h := QueueKept.foldl _ hs (handshakePairs s) s
    split
    · exact h.trans (placeMembership_kept _ (Or.inr (Or.inr (Or.inl rfl))) _)
    · exact h
  · exact QueueKept.refl s

theorem slotFreed_kept (s : State) : QueueKept s (slotFreed s) := (settleQueue_kept s).trans (leaveHandshake_kept _)

theorem placeTick_legal (q : OutboundQueue) (h : QueueLegal q) : QueueLegal (placeSlot tickSlot .tick q) :=
  placeSlot_legal tickSlot .tick q h
    ⟨fun hk => absurd hk (by decide), fun _ => rfl, fun hk => absurd hk (by decide)⟩ (fun _ _ => rfl) (fun _ _ => rfl)

/-! ### Station control -/

theorem enterLeaving_kept (s : State) : QueueKept s (enterLeaving s) := by
  have hw : ∀ (s : State) (k : Fin 8), QueueKept s (withdrawAcquire s k) := by
    intro s k
    unfold withdrawAcquire
    split
    · exact QueueKept.refl s
    · split
      · split
        · exact QueueKept.refl s
        · exact QueueKept.trans (t := { s with queue := removeSlot k s.queue }) (fun h => removeSlot_legal _ _ h)
            (notify_kept _ _)
      · exact QueueKept.refl s
  have h1 : QueueKept s (revokeClients { s with localState := .leaving }) := QueueKept.ofSlots rfl
  unfold enterLeaving
  generalize revokeClients { s with localState := .leaving } = s1 at h1
  dsimp only
  refine h1.trans ?_
  refine (notifyAll_kept (revokedNotices s1 .leaving) s1).trans ?_
  generalize notifyAll (revokedNotices s1 .leaving) s1 = s2
  refine (QueueKept.foldl withdrawAcquire hw generalSlots s2).trans ?_
  generalize generalSlots.foldl withdrawAcquire s2 = s3
  have h3 : QueueKept s3 (dropAcquireNeeds s3) := QueueKept.ofSlots rfl
  exact (h3.trans (slotFreed_kept _)).trans (notify_kept _ _)

theorem teardown_kept (cause : TeardownCause) (s : State) : QueueKept s (teardown cause s) := by
  intro _
  unfold teardown
  dsimp only
  split <;> exact empty_legal

theorem takeReset_kept (s : State) : QueueKept s (takeReset s) := by
  intro _
  unfold takeReset
  dsimp only
  split <;> exact empty_legal

theorem enterMember_kept (s : State) : QueueKept s (enterMember s) := by
  unfold enterMember
  dsimp only
  refine QueueKept.trans ?_ (notify_kept _ _)
  exact QueueKept.via (askAllAtEntry_kept _) rfl

/-! ### Attempts -/

theorem markAttempt_kept (k : Fin 8) (b : FrameBody) (s : State) : QueueKept s (markAttempt k b s) := by
  intro h
  have ha : ∀ c : SlotContent, slotKind (assembledContent c b) = slotKind c ∧
      (∀ l d, (assembledContent c b).isAcquireFor l d = c.isAcquireFor l d) ∧
      (∀ l d, (assembledContent c b).isReleaseFor l d = c.isReleaseFor l d) := by
    intro c
    cases c <;> cases b <;> exact ⟨rfl, fun _ _ => rfl, fun _ _ => rfl⟩
  exact updateSlot_mark_legal k _ s.queue h (fun x _ => (ha _).1) (fun x l c _ => (ha _).2.1 l c)
    (fun x l c _ => (ha _).2.2 l c) (fun _ _ _ => rfl)

theorem tryHead_kept (fuel : Nat) (s : State) : QueueKept s (tryHead fuel s) := by
  induction fuel generalizing s with
  | zero => exact QueueKept.ofSlots rfl
  | succ fuel ih =>
    unfold tryHead
    split
    · exact QueueKept.ofSlots rfl
    · split
      · exact QueueKept.ofSlots rfl
      · split
        · unfold sendFrame
          exact (markAttempt_kept _ _ s).trans (QueueKept.ofSlots rfl)
        · refine QueueKept.trans ?_ (ih _)
          unfold dropSlot
          refine QueueKept.trans ?_ (slotFreed_kept _)
          refine QueueKept.trans (t := { s with queue := removeSlot _ s.queue }) ?_ (notifyAll_kept _ _)
          exact fun h => removeSlot_legal _ _ h

theorem startAttempt_kept (o : Opportunity) (s : State) : QueueKept s (startAttempt o s) := by
  unfold startAttempt
  split
  · exact QueueKept.via (tryHead_kept 16 _) rfl
  · exact QueueKept.refl s

/-- A slot leaves its attempt, where no RELEASE stands beside it. -/
theorem keepSlot_kept (k : Fin 8) (a : Nat) (s : State)
    (hn : ∀ x l c, s.queue.slots[k] = some x → x.content.isAcquireFor l c = true →
      ∀ (j : Fin 8) (y : Slot), s.queue.slots[j] = some y → y.content.isReleaseFor l c = false) :
    QueueKept s (keepSlot k a s) := by
  intro h
  show QueueLegal (updateSlot k _ s.queue)
  cases hx : s.queue.slots[k] with
  | none =>
    refine h.shrink fun j y hy => ?_
    unfold updateSlot at hy
    rw [slots_set_get, hx] at hy
    split at hy
    · cases hy
    · exact hy
  | some x =>
    refine h.write k { x with attempts := a, inAttempt := false } (by unfold updateSlot; rw [hx]; rfl) ?_ ?_ ?_
    · exact h.2 k x hx
    · intro l c hl j y hj hy
      refine ⟨?_, fun hh => ?_⟩
      · cases hh : y.content.isAcquireFor l c with
        | false => rfl
        | true => exact absurd ((h.1 k j x y l c hx hy).1 hl hh).symm hj
      · rw [hn x l c hx hl j y hy] at hh; cases hh
    · intro l c hl j y hj hy
      refine ⟨?_, fun hh => (h.1 j k y x l c hy hx).2.2 hh hl⟩
      cases hh : y.content.isReleaseFor l c with
      | false => rfl
      | true => exact absurd ((h.1 k j x y l c hx hy).2.1 hl hh).symm hj

theorem emptySlot_kept (k : Fin 8) (s : State) : QueueKept s (emptySlot k s) := fun h => removeSlot_legal _ _ h

theorem countAttempt_kept (k : Fin 8) (x : Slot) (o : AttemptOutcome) (s : State)
    (hn : ∀ x l c, s.queue.slots[k] = some x → x.content.isAcquireFor l c = true →
      ∀ (j : Fin 8) (y : Slot), s.queue.slots[j] = some y → y.content.isReleaseFor l c = false) :
    QueueKept s (countAttempt k x o s).1 := by
  unfold countAttempt
  dsimp only
  generalize (if attemptCounts o x.content then min (x.attempts + 1) Config.attemptLimit else x.attempts) = n
  split
  · split
    · unfold discardSlot
      refine (emptySlot_kept k s).trans ?_
      exact QueueKept.ofSlots rfl
    · exact keepSlot_kept k _ s hn
  · exact keepSlot_kept k _ s hn

theorem takeOutcome_kept (k : Fin 8) (o : AttemptOutcome) (s : State) : QueueKept s (takeOutcome k o s).1 := by
  intro h
  revert h
  show QueueKept s _
  unfold takeOutcome
  split
  · exact QueueKept.refl s
  · rename_i x hx
    have hfail : ∀ o, QueueKept s (failAttempt k x o s).1 := by
      intro o h
      unfold failAttempt
      split
      · rename_i l c m t p hc
        unfold failAcquire
        split
        · exact ((emptySlot_kept k s).trans (emptySlot_kept _ _)) h
        · rename_i hr
          split
          · exact emptySlot_kept k s h
          · dsimp only
            have hk : QueueKept s (countAttempt k x o s).1 := by
              refine countAttempt_kept k x o s fun y l' c' hy hl j z hz => ?_
              rw [hx] at hy
              cases hy
              rw [hc] at hl
              obtain ⟨m', t', p', he⟩ := (isAcquireFor_iff _ _ _).1 hl
              cases he
              cases hh : z.content.isReleaseFor l c with
              | false => rfl
              | true =>
                have := (releaseSlot_none l c s.queue).1 hr j z (h.general j z hz l c (Or.inr hh)) hz
                rw [this] at hh; cases hh
            split
            · exact (hk.trans (QueueKept.trans (emptySlot_kept k _) (setNeed_kept c none _))) h
            · exact hk h
      · rename_i hc
        unfold failFound
        split
        · refine countAttempt_kept k x o s (fun y l' c' hy hl => ?_) h
          rw [hx] at hy
          cases hy
          rw [hc] at hl
          cases hl
        · exact QueueKept.via (emptySlot_kept k s) rfl h
      · rename_i hc _
        refine countAttempt_kept k x o s (fun y l' c' hy hl => ?_) h
        rw [hx] at hy
        cases hy
        obtain ⟨m', t', p', he⟩ := (isAcquireFor_iff _ _ _).1 hl
        exact absurd he (hc l' c' m' t' p')
    split
    · unfold commitAttempt
      exact (emptySlot_kept k s).trans (QueueKept.ofSlots rfl)
    · unfold refuseAttempt
      exact (emptySlot_kept k s).trans (QueueKept.ofSlots rfl)
    all_goals exact hfail _

/-! ### The frame end -/

theorem takeVerdict_kept (rep : FrameReport) (s : State) : QueueKept s (takeVerdict rep s) := by
  unfold takeVerdict
  split
  · split
    · exact QueueKept.via (dropMembership_kept _ _) rfl
    · split
      · exact QueueKept.via (dropMembership_kept _ _) rfl
      · exact QueueKept.refl s
  all_goals first
    | exact QueueKept.refl s
    | (split
       · exact QueueKept.ofSlots rfl
       · exact QueueKept.refl s)

theorem timeUnitEffect_kept (fx : FrameEffect) (s : State) : QueueKept s (timeUnitEffect fx s) := by
  unfold timeUnitEffect
  split
  · unfold afterTick
    dsimp only
    split
    · exact fun h => removeSlot_legal _ _ h
    · exact QueueKept.ofSlots rfl
  · split
    · unfold afterRemoval
      split
      · exact fun h => removeSlot_legal _ _ h
      · exact QueueKept.refl s
    · exact QueueKept.refl s

theorem serveClients_kept (fx : FrameEffect) (own : OwnOutcome) (s : State) : QueueKept s (serveClients fx own s) := by
  have h : QueueKept s (concludeClients (freshNeed own.discarded (serveNeeds s))) := by
    refine QueueKept.trans ?_ (concludeClients_kept _)
    refine (serveNeeds_kept s).trans ?_
    unfold freshNeed
    split
    · exact QueueKept.refl _
    · exact takeSendFailed_kept _ _
  unfold serveClients
  dsimp only
  split
  · exact h.trans (autoRenew_kept _)
  · exact h

theorem settleFrameEnd_kept (fx : FrameEffect) (own : OwnOutcome) (s : State) : QueueKept s (settleFrameEnd fx own s) := by
  unfold settleFrameEnd
  split
  · exact teardown_kept _ s
  · have ha : QueueKept s (applyAdmission fx own s) := by
      unfold applyAdmission
      split
      · exact QueueKept.ofSlots rfl
      · split
        · exact enterMember_kept s
        · exact QueueKept.refl s
    unfold placeUnlessDiscarded
    split
    · exact ha.trans (QueueKept.ofSlots rfl)
    · unfold placeAtFrameEnd
      exact (((ha.trans (transferUnit_kept _)).trans (foundingTest_kept _)).trans (joinTest_kept _)).trans
        (leaveHandshake_kept _)

theorem frameEndSteps_kept (slot : Option (Fin 8)) (rep : FrameReport) (s : State) :
    QueueKept s (frameEndSteps slot rep s) := by
  unfold frameEndSteps
  dsimp only
  refine QueueKept.trans ?_ (settleFrameEnd_kept _ _ _)
  refine QueueKept.trans ?_ (serveClients_kept _ _ _)
  refine QueueKept.trans ?_ (timeUnitEffect_kept _ _)
  refine QueueKept.trans ?_ (QueueKept.foldl _ handOver_kept _ _)
  refine QueueKept.trans ?_ (notifyAll_kept _ _)
  have h1 : QueueKept s (ownOutcome slot rep s).1 := by
    unfold ownOutcome
    split
    · exact takeOutcome_kept _ _ s
    · exact QueueKept.refl s
  refine (h1.trans (takeVerdict_kept rep _)).trans ?_
  refine QueueKept.ofSlots ?_
  rw [(applyFrame_step rep _).same]

theorem endFrame_kept (cells : List LineCell) (s : State) : QueueKept s (endFrame cells s) := by
  unfold endFrame
  split
  · exact QueueKept.refl s
  · exact QueueKept.refl s
  · dsimp only
    split
    · exact QueueKept.via (frameEndSteps_kept _ _ _) rfl
    · exact QueueKept.ofSlots rfl
  · exact QueueKept.via (frameEndSteps_kept _ _ _) rfl

/-! ### Commands -/

theorem guarded_kept (f : State → State) (s : State) (hf : ∀ t, QueueKept t (f t)) :
    QueueKept s (driveOutputs (if s.resetLow then s else f s)) := by
  refine QueueKept.trans ?_ (QueueKept.ofSlots rfl)
  split
  · exact QueueKept.refl s
  · exact hf s

theorem endExchange_kept (s : State) : QueueKept s (endExchange s) := by
  unfold endExchange
  split
  · exact QueueKept.refl s
  · split
    · exact takeReset_kept s
    · exact QueueKept.ofSlots rfl

theorem portRequest_kept (code : Byte) (act : State → List Byte × State) (s : State)
    (ha : ∀ t, QueueKept t (act t).2) : QueueKept s (portRequest code act s) := by
  unfold portRequest
  refine QueueKept.trans ?_ (QueueKept.ofSlots rfl)
  split
  · exact QueueKept.refl s
  · unfold takeRequest
    exact ((endExchange_kept s).trans (ha _)).trans (QueueKept.ofSlots rfl)

theorem takeAcquire_kept (a b c d : Byte) (s : State) : QueueKept s (takeAcquire a b c d s).2 := by
  unfold takeAcquire
  split
  · exact QueueKept.refl s
  · split
    · exact QueueKept.refl s
    · split
      · exact QueueKept.refl s
      · unfold placeAcquireRequest
        split
        · exact QueueKept.refl s
        · split
          · exact QueueKept.refl s
          · exact fun h => placeAcquire_legal _ _ _ _ _ _ h

theorem takeRelease_kept (a b : Byte) (s : State) : QueueKept s (takeRelease a b s).2 := by
  unfold takeRelease
  split
  · exact QueueKept.refl s
  · split
    · unfold placeReleaseRequest
      split
      · exact QueueKept.refl s
      · dsimp only
        split
        · exact (requestRelease_kept _ _ s).trans (slotFreed_kept _)
        · exact requestRelease_kept _ _ s
    · exact QueueKept.refl s

theorem takeRenew_kept (a b : Byte) (s : State) : QueueKept s (takeRenew a b s).2 := by
  unfold takeRenew
  split
  · exact QueueKept.refl s
  · split
    · unfold placeRenewRequest
      split
      · exact QueueKept.refl s
      · split
        · exact QueueKept.refl s
        · exact fun h => placeRenew_legal _ _ _ h
    · exact QueueKept.refl s

theorem exec_kept (c : Instr) (s t : State) (h : exec c s = .next t) : QueueKept s t := by
  have key : ∀ u : State, QueueKept s u → (Host.Outcome.next u : Host.Outcome State Fault Refusal) = .next t →
      QueueKept s t := by
    intro u hu he
    cases he
    exact hu
  cases c with
  | pinReset => exact key _ (fun _ => empty_legal) h
  | pinResetRelease pins =>
    refine key (driveOutputs (takeReset { s with straps := pins, resetLow := false })) ?_ h
    refine QueueKept.trans (t := takeReset { s with straps := pins, resetLow := false }) ?_ (QueueKept.ofSlots rfl)
    exact QueueKept.via (takeReset_kept _) rfl
  | exchangeDiscarded bs =>
    exact key _ (guarded_kept discardExchange s fun t =>
      (endExchange_kept t).trans (QueueKept.ofSlots rfl)) h
  | status => exact key _ (portRequest_kept _ _ s fun t => QueueKept.refl t) h
  | configureClient a b d e =>
    refine key _ (portRequest_kept _ _ s fun t => ?_) h
    unfold takeConfigureClient
    split
    · exact QueueKept.refl t
    · split
      · exact QueueKept.ofSlots rfl
      · exact QueueKept.refl t
  | configureWatch m =>
    refine key _ (portRequest_kept _ _ s fun t => ?_) h
    unfold takeConfigureWatch
    split
    · exact QueueKept.refl t
    · exact QueueKept.ofSlots rfl
  | configureOptions a =>
    refine key _ (portRequest_kept _ _ s fun t => ?_) h
    unfold takeConfigureOptions
    split
    · exact QueueKept.refl t
    · split
      · exact QueueKept.ofSlots rfl
      · split
        · exact QueueKept.ofSlots rfl
        · exact QueueKept.refl t
  | start =>
    refine key _ (portRequest_kept _ _ s fun t => ?_) h
    unfold takeStart
    split
    · exact QueueKept.ofSlots rfl
    · exact QueueKept.refl t
  | acquire a b d e => exact key _ (portRequest_kept _ _ s (takeAcquire_kept a b d e)) h
  | release a b => exact key _ (portRequest_kept _ _ s (takeRelease_kept a b)) h
  | renew a b => exact key _ (portRequest_kept _ _ s (takeRenew_kept a b)) h
  | readLease a =>
    refine key _ (portRequest_kept _ _ s fun t => ?_) h
    unfold takeReadLease
    split
    · exact QueueKept.refl t
    · split <;> exact QueueKept.refl t
  | readRoster =>
    refine key _ (portRequest_kept _ _ s fun t => ?_) h
    unfold takeReadRoster
    split <;> exact QueueKept.refl t
  | takeNotice =>
    refine key _ (portRequest_kept _ _ s fun t => ?_) h
    unfold takeTakeNotice
    split
    · exact QueueKept.refl t
    · exact QueueKept.ofSlots rfl
  | leave =>
    refine key _ (portRequest_kept _ _ s fun t => ?_) h
    unfold takeLeave
    split
    · exact enterLeaving_kept t
    all_goals exact QueueKept.refl t
  | rejoin =>
    refine key _ (portRequest_kept _ _ s fun t => ?_) h
    unfold takeRejoin
    split
    · exact QueueKept.ofSlots rfl
    · exact QueueKept.refl t
  | reset => exact key _ (portRequest_kept _ _ s fun t => QueueKept.refl t) h
  | unknownRequest a => exact key _ (portRequest_kept _ _ s fun t => QueueKept.refl t) h
  | softReset => exact key _ (guarded_kept _ s takeReset_kept) h
  | attemptStart o => exact key _ (guarded_kept _ s (startAttempt_kept o)) h
  | frameEnd cells => exact key _ (guarded_kept _ s (endFrame_kept cells)) h
  | tickTimerExpiry =>
    refine key _ (guarded_kept _ s fun t => ?_) h
    unfold expireTick
    split
    · intro ht
      dsimp only
      split
      · exact placeTick_legal _ ht
      · exact ht
    · exact QueueKept.refl t
  | silenceTimerExpiry =>
    refine key _ (guarded_kept _ s fun t => ?_) h
    unfold expireSilence
    split
    · dsimp only
      split
      · exact QueueKept.via (teardown_kept _ _) rfl
      · exact QueueKept.ofSlots rfl
    · exact QueueKept.refl t
  | foundingTimerExpiry =>
    refine key _ (guarded_kept _ s fun t => ?_) h
    unfold expireFounding
    split
    · exact QueueKept.via (foundingTest_kept _) rfl
    · exact QueueKept.refl t
  | pacingTimerExpiry =>
    refine key _ (guarded_kept _ s fun t => ?_) h
    unfold expirePacing
    split
    · exact QueueKept.via (foundingTest_kept _) rfl
    · exact QueueKept.refl t
  | holdOffTimerExpiry =>
    refine key _ (guarded_kept _ s fun t => ?_) h
    unfold expireHoldOff
    split
    · exact QueueKept.via (joinTest_kept _) rfl
    · exact QueueKept.refl t
  | claimAsserted c =>
    refine key _ (guarded_kept _ s fun t => ?_) h
    unfold claimAsserted
    split
    · exact QueueKept.ofSlots rfl
    · exact QueueKept.via (takeClaimAsserted_kept c _) rfl
  | claimReleased c =>
    refine key _ (guarded_kept _ s fun t => ?_) h
    unfold claimReleased
    split
    · exact QueueKept.via (takeClaimReleased_kept c _) rfl
    · exact QueueKept.ofSlots rfl
  | frameStartBit =>
    refine key _ (guarded_kept _ s fun t => ?_) h
    unfold receiveStartBit
    split
    · exact QueueKept.refl t
    · split <;> exact QueueKept.ofSlots rfl
  | quietGapComplete =>
    exact key _ (guarded_kept _ s (startAttempt_kept .quietGap)) h
  | tickoutPulseEnd => exact key _ (guarded_kept (fun s => { s with tickout := none }) s fun t => QueueKept.ofSlots rfl) h

theorem clockCycle_kept (s : State) : QueueKept s (clockCycle s) := by
  refine QueueKept.ofSlots ?_
  unfold clockCycle
  split
  · rfl
  · unfold cycleGap cycleClaims
    split <;> split <;> (try split) <;> rfl

end Sys2Proof.Machine
end

