-- ==== Sys2Proof/Laws/Steps.lean ====
section
/-! SUPPORT. From one command to one step: a property that every command and the clock keep, and that does not read
the waiting commands or the wires of the port, is kept by every step; and what FRAME_END and the other commands keep,
together. -/

namespace Sys2Proof.Machine

/-- A property that no command and no clock cycle breaks, and that does not read the wires, is kept by a step. -/
theorem step_keeps (P : State → Prop) (hp : ∀ s rest, P s → P { s with pending := rest })
    (he : ∀ c s t, P s → exec c s = .next t → P t) (hc : ∀ s, P s → P (clockCycle s))
    (hw : ∀ s t, WiresOnly s t → P s → P t) (s t : State) (hs : P s) (h : step s = .next t) : P t := by
  unfold step idleStep at h
  split at h
  · split at h
    · rename_i c u hi
      refine he c u t ?_ h
      rcases (idleCommand_some hi).1 with hu | hu <;> rw [hu]
      · exact hs
      · exact hw s _ (dropInput_wires s) hs
    · cases h
      exact idleChange_keeps P hw hc s hs
  · exact he _ _ t (hp s _ hs) h

/-- Every command keeps the legality of the notification queue. -/
theorem exec_notices (c : Instr) (s t : State) (h : exec c s = .next t) (hs : NoticesLegal s.notices) :
    NoticesLegal t.notices := by
  cases c with
  | frameEnd cells =>
    have ht : t = driveOutputs (if s.resetLow then s else endFrame cells s) := by cases h; rfl
    rw [ht]
    show NoticesLegal (if s.resetLow then s else endFrame cells s).notices
    split
    · exact hs
    · rcases endFrame_step cells s with h | h
      · rw [h]; exact hs
      · exact h.notices hs
  | _ => exact (exec_command _ s t (by intro cells; simp) h).notices hs

/-- Every command keeps the lease entries within their ranges and limits. -/
theorem exec_entries (c : Instr) (s t : State) (h : exec c s = .next t) (hs : EntriesLegal s) : EntriesLegal t := by
  cases c with
  | frameEnd cells =>
    have ht : t = driveOutputs (if s.resetLow then s else endFrame cells s) := by cases h; rfl
    rw [ht]
    have hd : ∀ u, EntriesLegal u → EntriesLegal (driveOutputs u) := fun u hu => hu
    refine hd _ ?_
    split
    · exact hs
    · rcases endFrame_step cells s with h | h
      · rw [h]; exact hs
      · exact h.legal hs
  | _ => exact (exec_command _ s t (by intro cells; simp) h).legal hs

end Sys2Proof.Machine
end

