-- ==== Sys2Proof/Tests/Slice0.lean ====
section
/-! SUPPORT. Tests on small states: the checks of WellFormed, the worked examples of the spec, and for every
statement with hypotheses a concrete case that meets them. -/

-- One theorem at a time: many evaluations at once take more memory than the check gives.
set_option Elab.async false

namespace Sys2Proof.Tests

open Sys2Proof Sys2Proof.Machine

/-! ### Small states and frames -/

/-- A station in STANDBY, every strap 0: station 0, expected size 16, 1 ms. -/
def standby : Machine.State :=
  { State.reset with
    straps := { stn := 0, nsz := 0, tpr := 0, brt := 0, auto := 0 }
    config := Configuration.portOnly
    localState := .standby
    timers := Timers.allStopped
    notices := []
    notice := false }

/-- The same station in another local state, without a replica. -/
def at_ (x : LocalState) : Machine.State := { standby with localState := x }

/-- A roster of the stations 0 and 1. -/
def pair : Roster := foundedRoster 2 [0, 1]

/-- The station as a MEMBER of that roster. -/
def member : Machine.State := { standby with localState := .member, roster := some pair, leases := foundedLeases }

/-- Client 0 LINE-bound to lease 3. -/
def lined (s : Machine.State) : Machine.State :=
  { s with config := { s.config with bindings := s.config.bindings.set 0 (.line 3 .exclusive 16) } }

/-- Client 0 in a line-client state, its claim recognised or not. -/
def clientIn (x : ClientState) (claim : Bool) (s : Machine.State) : Machine.State :=
  { s with clients := s.clients.set 0 { recognised := claim, deglitch := 0, state := x, reclaim := false } }

/-- One entry of the lease table. -/
def withLease (l : Lease) (e : Option LeaseEntry) (s : Machine.State) : Machine.State :=
  { s with leases := s.leases.set l e }

/-- A queue with every slot alike. -/
def uniform (x : Option Slot) : OutboundQueue := { OutboundQueue.empty with slots := Vector.replicate 8 x, nextAge := 8 }

/-- A queue with one slot. -/
def single (k : Fin 8) (x : Slot) : OutboundQueue :=
  { OutboundQueue.empty with slots := (Vector.replicate 8 none).set k (some x), nextAge := 1 }

/-- A slot with its content, in attempt or not. -/
def slotOf (c : SlotContent) (going : Bool := false) : Slot :=
  { content := c, age := 0, attempts := 0, inAttempt := going, opened := false }

/-- An opened RENEW slot. -/
def openSlot (entries : List (Lease × Client)) : Slot := { slotOf (.renew entries) with opened := true }

/-- An ACQUIRE of client 0 for lease 3. -/
def asked : SlotContent := .acquire 3 0 .exclusive 16 255

/-- A holder of client 0 of this station. -/
def held (x : HolderStatus) : LeaseEntry :=
  { counter := 1
    holders := [{ tag := { station := 0, client := 0 }, mode := .exclusive, status := x, term := 16, remaining := 16, grant := 1 }]
    waiters := [] }

/-- The cells of a whole frame of `station` with its tail. -/
def cellsOf (station : Station) (check : Byte) (b : FrameBody) (ack : BitVec 16) (verdict : Byte) : List LineCell :=
  (frameBytes station check b ++ bytesOf16 ack ++ [verdict]).map fun d => { markDominant := true, data := d }

/-- The station receives, with the role its state gives. -/
def hearing (s : Machine.State) : Machine.State := { s with line := { s.line with phase := .receiving (roleNow s) } }

/-- The line is idle, with no courtesy gap pending. -/
def idle (s : Machine.State) : Machine.State := { s with line := { s.line with phase := .idle, gapBits := 11 } }

/-- Station 0 sends `b` from slot `k`, the one slot of its queue. -/
def sending (k : Fin 8) (x : Slot) (b : FrameBody) (s : Machine.State) : Machine.State :=
  { s with
    queue := single k x
    line := { s.line with phase := .sending (roleNow s) { slot := k, bytes := frameBytes 0 0 b } } }

theorem ready_of {s : Machine.State} (h1 : s.resetLow = false) (h2 : s.exchange = none) : PortReady s :=
  ⟨h1, fun x h => by rw [h2] at h; cases h⟩

theorem uniform_get (x : Option Slot) (k : Fin 8) : (uniform x).slots[k] = x := by
  simp [uniform]

theorem single_get (k j : Fin 8) (x : Slot) : (single k x).slots[j] = if k = j then some x else none := by
  unfold single
  rw [slots_set_get]
  simp

theorem single_some {k j : Fin 8} {x y : Slot} (h : (single k x).slots[j] = some y) : k = j ∧ y = x := by
  rw [single_get] at h
  split at h
  · cases h; exact ⟨by assumption, rfl⟩
  · cases h

theorem empty_some {j : Fin 8} {y : Slot} (h : OutboundQueue.empty.slots[j] = some y) : False := by
  simp [OutboundQueue.empty] at h

/-! ### WellFormed refuses what is ill-formed -/

theorem test_wellFormed_discarded_after_its_take : (Instr.exchangeDiscarded [0x01]).wellFormed = false := by decide
theorem test_wellFormed_discarded_before_its_take :
    (Instr.exchangeDiscarded [0x20, 1, 2, 3]).wellFormed = true ∧ (Instr.exchangeDiscarded []).wellFormed = true := by
  decide
theorem test_wellFormed_unknown_of_assigned_code : (Instr.unknownRequest 0x4F).wellFormed = false := by decide
theorem test_wellFormed_unknown : (Instr.unknownRequest 0x02).wellFormed = true := by decide
theorem test_wellFormed_frame_cut_short :
    (Instr.frameEnd [⟨true, 0x10⟩, ⟨true, 0⟩, ⟨true, 0⟩]).wellFormed = false := by decide
theorem test_wellFormed_frame : (Instr.frameEnd (cellsOf 0 0 .tick 0xFFFC 0x00)).wellFormed = true := by decide

/-! ### Worked examples of the spec -/

/-- The CRC of the nine characters 1 to 9 (11.1). -/
theorem test_crc_of_the_nine_characters :
    crc16 [0x31, 0x32, 0x33, 0x34, 0x35, 0x36, 0x37, 0x38, 0x39] = 0x29B1 := by decide +kernel

def tag (i : Station) (c : Client) : Tag := { station := i, client := c }
def live (i : Station) (c : Client) (m : Mode) (term remaining : Nat) (g : BitVec 16) : Holder :=
  { tag := tag i c, mode := m, status := .live, term := term, remaining := remaining, grant := g }
def waits (i : Station) (c : Client) (m : Mode) (term : Nat) (p : Patience) : Waiter :=
  { tag := tag i c, mode := m, term := term, patience := p }

/-- Lease 20: one run of the advance procedure (1.3). -/
theorem test_lease_20 :
    releaseEntry 20 (tag 6 0)
        { counter := 311
          holders := [live 6 0 .exclusive 9 9 311]
          waiters :=
            [waits 2 5 .shared 8 .unlimited, waits 9 1 .shared 7 .unlimited, waits 4 4 .exclusive 6 .unlimited,
              waits 3 2 .shared 5 .unlimited] } =
      ({ counter := 313
         holders := [live 2 5 .shared 8 8 312, live 9 1 .shared 7 7 313]
         waiters := [waits 4 4 .exclusive 6 .unlimited, waits 3 2 .shared 5 .unlimited] },
        [.released 20 (tag 6 0) 311 0, .granted 20 (tag 2 5) 312 1, .granted 20 (tag 9 1) 313 2]) := by decide +kernel

/-- Lease 12: one committed TICK (1.7). -/
theorem test_lease_12 :
    tickEntry 12
        { counter := 41
          holders := [{ live 3 1 .shared 9 1 40 with status := .fenced }, live 2 0 .shared 8 1 41]
          waiters :=
            [waits 5 2 .exclusive 20 .unlimited, waits 1 4 .shared 6 (.ticks 1), waits 2 3 .shared 10 (.ticks 30)] } =
      ({ counter := 42
         holders := [live 5 2 .exclusive 20 20 42]
         waiters := [waits 2 3 .shared 10 (.ticks 29)] },
        [.fenceEnded 12 (tag 3 1) 40 1, .expired 12 (tag 2 0) 41 0, .timedOut 12 (tag 1 4),
          .granted 12 (tag 5 2) 42 1]) := by decide +kernel

/-- Lease 7: removal of station 4, and the fence to its end (1.8). -/
theorem test_lease_7 :
    let purged := removalPurge [4] 7
      { counter := 7
        holders := [live 4 0 .exclusive 30 10 7]
        waiters :=
          [waits 4 1 .shared 5 .unlimited, waits 6 2 .shared 12 (.ticks 50), waits 0 3 .exclusive 5 (.ticks 10)] }
    let third := (tickEntry 7 (tickEntry 7 (tickEntry 7 purged.1).1).1).1
    purged.2 = [] ∧ third.holders.map (·.remaining) = [1] ∧
      tickEntry 7 third =
        ({ counter := 8
           holders := [live 6 2 .shared 12 12 8]
           waiters := [waits 0 3 .exclusive 5 (.ticks 6)] },
          [.fenceEnded 7 (tag 4 0) 7 0, .granted 7 (tag 6 2) 8 1]) := by decide +kernel

/-- Lease 17 of sequence 12.1 at F6: BUSY comes before the queue's length. -/
theorem test_lease_17_busy :
    acquireEntry 17 (tag 4 5) .exclusive 9 0
        { counter := 2, holders := [live 9 3 .exclusive 16 16 2], waiters := [waits 1 2 .shared 10 (.ticks 5)] } =
      ({ counter := 2, holders := [live 9 3 .exclusive 16 16 2], waiters := [waits 1 2 .shared 10 (.ticks 5)] },
        [.deniedBusy 17 (tag 4 5)]) := by decide +kernel

/-- A discarded LEAVE leaves the membership slot to the next frame end (R61, R141). -/
theorem test_discarded_leave_waits (s : State) :
    (placeUnlessDiscarded { discarded := some .leave } s).queue = s.queue := rfl

/-- After nine recessive bits an edge is no start bit: the gap is counted again (R88). -/
theorem test_edge_after_nine_bits :
    ∃ t, exec .frameStartBit { standby with line := { standby.line with gapBits := 9 } } = .next t ∧
      t.line.phase = .counting ∧ t.line.gapBits = 0 ∧ t.lineInput = [true] := ⟨_, rfl, rfl, rfl, rfl⟩

/-- A mark and eight dominant data bits have one edge and hold the gap at 0; the bit after them is the first (R88). -/
theorem test_dominant_run_holds_the_gap :
    let s := { standby with lineInput := List.replicate 9 true }
    let bits := fun n : Nat => ((passBit^[n]) s).line.gapBits
    bits 1 = 0 ∧ bits 9 = 0 ∧ bits 10 = 1 ∧ bits 20 = 11 := by
  decide +kernel

/-- A dominant level after ten recessive bits is a start bit, and is the frame's own (R88). -/
theorem test_edge_after_ten_bits :
    let s := { standby with line := { standby.line with gapBits := 10 }, lineInput := [true, false] }
    dueLine s = some .frameStartBit ∧ (receiveStartBit s).line.phase = .receiving (roleNow s) ∧
      (receiveStartBit s).lineInput = [false] := by
  decide +kernel

/-- A sender of four payload cells that read length 0 and aborted: 36 bits to the extent it sent; its first mark then
starts the gap again (R90, R92). -/
theorem test_marks_of_an_aborted_frame :
    let tx : Transmission := { slot := 0, bytes := frameBytes 0 0 (.acquire 3 0 .exclusive 16 255) }
    let cells := (cellsOf 0 0 (.acquire 3 0 .exclusive 16 255) 0xFFFC 0xFF).set 2 ⟨true, 0⟩
    senderCourse tx.bytes cells = .aborted ∧ bitsToSentExtent (some tx) cells = 36 ∧
      drivesMark { standby with line := { standby.line with markBits := 36 } } = true := by
  decide +kernel

/-- A sender with the source duty that aborted drives no verdict, whatever kind it reads (R92, R99). -/
theorem test_aborted_sender_drives_no_verdict :
    (frameReport member { roleNow member with duty := true }
        (some { slot := 6, bytes := frameBytes 0 0 .tick }) (cellsOf 0 1 .join 0xFFFC 0x00)).verdictDriven = none := by
  decide +kernel

/-! ### The hypotheses of each statement are met -/

theorem witness_StepRunsTheFrontCommand :
    ∃ (s : Machine.State) (c : Instr) (rest : List Instr), s.pending = c :: rest :=
  ⟨{ standby with pending := [.status] }, .status, [], rfl⟩

theorem witness_EmptyQueueRunsTheClock_due :
    let s := { standby with timers := { standby.timers with tick := .running 0 } }
    s.pending = [] ∧ dueEvent s = some .tickTimerExpiry := by decide

theorem witness_EmptyQueueRunsTheClock_cycle :
    let s := { standby with
      timers := { tick := .running 1, silence := .running 1, founding := .running 1, pacing := .running 1
                  holdOff := .running 1 } }
    s.pending = [] ∧ dueEvent s = none ∧ s.resetLow = false := by decide

theorem witness_EmptyQueueRunsTheClock_claim :
    let s := { standby with
      sampleCycles := 31
      claimPins := standby.claimPins.set 1 true
      clients := standby.clients.set 1 { recognised := false, deglitch := 7, state := .idle, reclaim := false } }
    s.pending = [] ∧ s.resetLow = false ∧ dueExpiry s.timers = none ∧ s.sampleCycles = 31 ∧
      s.clients[(1 : Fin 8)].deglitch = 7 ∧ s.claimPins[(1 : Fin 8)] ≠ s.clients[(1 : Fin 8)].recognised ∧
      ∀ d : Client, d.val < 1 → s.clients[d].deglitch ≠ 7 ∨ s.claimPins[d] = s.clients[d].recognised := by decide

/-- Client 1 after seven samples of an asserted claim, the eighth due, with its pin at `pin` and levels listed. -/
def sampled (pin : Bool) (listed : List (Vector Bool 8)) : Machine.State :=
  { standby with
    sampleCycles := 31
    claimPins := standby.claimPins.set 1 pin
    claimInput := listed
    clients := standby.clients.set 1 { recognised := false, deglitch := 7, state := .idle, reclaim := false } }

/-- The eighth sample is that of the level listed for its cycle, not of the level before it. -/
theorem witness_EmptyQueueRunsTheClock_listed :
    let pins : Vector Bool 8 := (Vector.replicate 8 false).set 1 true
    let s := sampled false [pins]
    s.pending = [] ∧ s.resetLow = false ∧ dueExpiry s.timers = none ∧ s.sampleCycles = 31 ∧
      s.claimInput.head?.getD s.claimPins = pins ∧ s.clients[(1 : Fin 8)].deglitch = 7 ∧
      pins[(1 : Fin 8)] ≠ s.clients[(1 : Fin 8)].recognised ∧ dueEvent s = some (.claimAsserted 1) := by decide

/-- A pulse that ends before its eighth sample is not recognised: no event is due, and the count returns to 0 (R149). -/
theorem test_short_pulse_is_not_recognised :
    let s := sampled true [Vector.replicate 8 false]
    dueEvent s = none ∧ (clockCycle s).clients[(1 : Fin 8)].deglitch = 0 ∧
      (clockCycle s).clients[(1 : Fin 8)].recognised = false ∧
      (clockCycle s).claimPins[(1 : Fin 8)] = false := by decide

/-- A claim held through a reset is dropped after it, by the levels listed or by a command: the pin follows, and the
claim stays RELEASED (R149). -/
theorem test_claim_dropped_after_a_reset :
    let held := resetBlocks { standby with claimPins := standby.claimPins.set 1 true }
    (movePins { held with claimInput := [Vector.replicate 8 false] }).claimPins[(1 : Fin 8)] = false ∧
      (claimReleased 1 held).claimPins[(1 : Fin 8)] = false ∧ held.claimPins[(1 : Fin 8)] = true ∧
      held.clients[(1 : Fin 8)].recognised = false := by decide

/-- Nothing next on the wires, and a pause. -/
theorem witness_EmptyQueueRunsTheClock_wires :
    let s := { standby with portInput := [.pause, .lselHigh] }
    standby.portInput = [] ∧ s.portInput.head? = some .pause ∧ s.pending = [] ∧ dueEvent s = none ∧ s.resetLow = false ∧
      s.tickout ≠ some 0 := by decide

/-- The quiet gap is full; the courtesy gap is over. -/
theorem witness_EmptyQueueRunsTheClock_gaps :
    let s := { standby with line := { standby.line with gapBits := 11 } }
    let t := { standby with line := { standby.line with phase := .idle, gapBits := 22, courtesyPending := true } }
    s.pending = [] ∧ s.resetLow = false ∧ dueExpiry s.timers = none ∧ s.line.phase = .counting ∧ s.sampleCycles ≠ 31 ∧
      t.line.phase = .idle ∧ t.line.courtesyPending = true ∧ 22 ≤ t.line.gapBits := by decide

/-- Another station's start bit is due, at ten recessive bits and at an idle line. -/
theorem witness_EmptyQueueRunsTheClock_edge :
    let s := { standby with line := { standby.line with gapBits := 10 }, lineInput := [true] }
    let t := { idle standby with lineInput := [true] }
    s.pending = [] ∧ s.resetLow = false ∧ dueExpiry s.timers = none ∧ s.sampleCycles ≠ 31 ∧ LineQuiet s ∧
      s.line.gapBits < 11 ∧ s.lineInput.head? = some true ∧ 10 ≤ s.line.gapBits ∧
      t.line.phase = .idle ∧ t.line.courtesyPending = false ∧ t.lineInput.head? = some true ∧ 10 ≤ t.line.gapBits :=
  ⟨rfl, rfl, by decide, by decide, Or.inl rfl, by decide, rfl, by decide, rfl, rfl, rfl, by decide⟩

theorem witness_ResetsGiveTheResetValues :
    standby.resetLow = false ∧ ∃ off on : StrapPins, off.auto = 0 ∧ on.auto = 1 :=
  ⟨rfl, { stn := 0, nsz := 0, tpr := 0, brt := 0, auto := 0 }, { stn := 0, nsz := 0, tpr := 0, brt := 0, auto := 1 }, rfl,
    rfl⟩

theorem witness_CommandsWithoutEffect_low :
    let s := { standby with resetLow := true }
    s.resetLow = true ∧ Instr.status ≠ .pinReset ∧ ∀ pins, Instr.status ≠ .pinResetRelease pins :=
  ⟨rfl, by decide, fun _ h => by cases h⟩

/-- PortReady, for every statement about a port request. -/
theorem witness_PortReady : PortReady standby ∧ PortReady member ∧ PortReady (at_ .leaving) ∧ PortReady (at_ .detached) :=
  ⟨ready_of rfl rfl, ready_of rfl rfl, ready_of rfl rfl, ready_of rfl rfl⟩

theorem witness_ReadsAnswer_lease :
    64 ≤ (64 : Byte).toNat ∧ standby.leases[(63 : Fin 64)] = none ∧
      member.leases[(63 : Fin 64)] = some { counter := 0, holders := [], waiters := [] } := by decide

theorem witness_ReadsAnswer_roster : standby.roster = none ∧ member.roster = some pair := ⟨rfl, rfl⟩

theorem witness_TakeNoticeTakesTheHead :
    standby.notices = [] ∧ State.reset.notices = { stamp := 0, body := .state .seeking } :: [] ∧
      PortReady State.reset := ⟨rfl, rfl, ready_of rfl rfl⟩

theorem witness_ConfigurationRequests :
    standby.localState = .standby ∧ standby.config.locked = false ∧ (1 : Byte) ≠ 0 ∧ 8 ≤ (8 : Byte).toNat ∧
      3 ≤ (3 : Byte).toNat ∧ 64 ≤ (64 : Byte).toNat ∧ 2 ≤ (2 : Byte).toNat ∧ member.localState ≠ .standby ∧
      { standby with config := { standby.config with locked := true } }.config.locked = true := by decide

theorem witness_StartAndRejoinSeek :
    standby.localState = .standby ∧ (at_ .detached).localState = .detached ∧ member.localState ≠ .standby ∧
      member.localState ≠ .detached := by decide

theorem witness_LeaveEntersLeaving :
    member.localState = .member ∧ (at_ .leaving).localState = .leaving ∧ standby.localState ≠ .member ∧
      standby.localState ≠ .leaving ∧ (∀ c : Client, member.queue.needs[c] ≠ some .release) ∧
      (single 5 (slotOf (.renew [(3, 0)]))).slots[(5 : Fin 8)] = some (slotOf (.renew [(3, 0)])) := by decide

theorem witness_ExchangeEnds :
    let s := { standby with exchange := some { code := 0x4F, response := [0x00] } }
    s.resetLow = false ∧ s.exchange = some { code := 0x4F, response := [0x00] } ∧
      bytesOfRequest .status = some [0x01] ∧ Instr.exchangeDiscarded [] = .exchangeDiscarded [] := by decide

/-- The station with `p` at the wires, the exchange `x` and one act of the controller next. -/
def wired (p : SerialPort) (x : Option Exchange) (e : PortInput) : Machine.State :=
  { standby with serial := p, exchange := x, portInput := [e] }

/-- Seven bits of a byte are clocked in. -/
def sevenBits (bits : List Bool) (bytes : List Byte) : SerialPort :=
  { SerialPort.begun with bits := bits, bytes := bytes }

/-- Every edge: LSEL deasserted and asserted, before the take and after it, at a bit, at a byte, and at the take. -/
theorem witness_PortEdges :
    let open_ : Exchange := { code := 0x30, response := [0x00] }
    let reset : Exchange := { code := 0x4F, response := [0x00] }
    let low := wired SerialPort.free none .lselHigh
    let seven := sevenBits (List.replicate 7 false)
    let completed := fun p : SerialPort => requestOfBytes (p.bytes ++ [byteOfBits (p.bits ++ [true])])
    (∀ p x e, (wired p x e).pending = [] ∧ (wired p x e).resetLow = false ∧ (wired p x e).portInput.head? = some e) ∧
      dueEvent low = none ∧ low.serial.selected = false ∧ PortInput.lclkFall ≠ .lselHigh ∧ PortInput.lclkFall ≠ .pause ∧
      dueEvent (wired SerialPort.begun none .lselLow) = none ∧ SerialPort.begun.selected = true ∧
      dueEvent (wired SerialPort.begun (some open_) .lclkFall) = none ∧
      dueEvent (wired SerialPort.begun (some reset) .lselLow) = none ∧ reset.code = 0x4F ∧ open_.code ≠ 0x4F ∧
      dueEvent (wired (seven []) none (.lclkRise true)) = none ∧ SerialPort.begun.bits.length < 7 ∧
      7 ≤ (seven []).bits.length ∧ completed (seven []) = some .status ∧
      completed (seven [0x30]) = some (.readLease 1) ∧ completed (seven [0x20]) = none ∧
      ({ SerialPort.begun with shifted := 1 } : SerialPort).shifted < [(0 : Byte), 0].length := by
  refine ⟨fun _ _ _ => ⟨rfl, rfl, rfl⟩, ?_⟩
  decide

/-- STATUS clocked in bit by bit is taken at the eighth rising edge (R163). -/
theorem test_status_is_clocked_in :
    let clocked := fun (bits : List Bool) (s : Machine.State) =>
      bits.foldl (fun s b => portEdge .lclkFall (portEdge (.lclkRise b) s)) s
    let s := clocked [false, false, false, false, false, false, false] (portEdge .lselHigh standby)
    portPhase s = .code ∧ s.serial.ldo = some true ∧ portCommand (.lclkRise true) s = some .status := by
  decide +kernel

/-- The first bits of a response 0x87 and the filler after it on LDO; LSEL low then ends the exchange (R162, R163). -/
theorem test_response_is_clocked_out :
    let taken := wired SerialPort.begun (some { code := 0x40, response := [0x87] }) .lclkFall
    let clocked := fun n : Nat => ((fun s => portEdge (.lclkRise false) (portEdge .lclkFall s))^[n]) taken
    let ldo := fun n => (portEdge .lclkFall (clocked n)).serial.ldo
    let spent := clocked 8
    [0, 1, 4, 5, 7, 8, 9].map ldo = [some true, some false, some false, some true, some true, some true, some true] ∧
      portPhase spent = .filler ∧ portCommand .lselLow spent = none ∧ (portEdge .lselLow spent).exchange = none ∧
      (portEdge .lselLow spent).serial.ldo = none := by
  decide +kernel

theorem witness_UnknownRequestHasNoEffect : requestArgumentCount 0x00 = none ∧ requestArgumentCount 0xFF = none := by
  decide

/-! #### Lease requests -/

theorem pairAbsent_empty (l : Lease) (c : Client) : PairAbsent OutboundQueue.empty l c :=
  fun _ _ _ h => (empty_some h).elim

theorem lowestFree_empty : LowestFree OutboundQueue.empty 0 := ⟨by decide, by decide, fun _ h => absurd h (Nat.not_lt_zero _)⟩

/-- All slots but the last general one hold a RENEW of nothing. -/
theorem lowestFree_last : LowestFree { uniform (some (slotOf (.renew []))) with
    slots := (uniform (some (slotOf (.renew [])))).slots.set 5 none } 5 := by
  refine ⟨by decide, by decide, ?_⟩
  decide

theorem full_none (x : Slot) : NoneFree (uniform (some x)) := fun k _ h => by rw [uniform_get] at h; cases h

theorem full_absent (l : Lease) (c : Client) : PairAbsent (uniform (some (slotOf (.renew [])))) l c := by
  intro k x _ h
  rw [uniform_get] at h
  cases h
  exact ⟨rfl, rfl⟩

theorem witness_AcquireRequests_placed :
    PortReady member ∧ member.localState = .member ∧ (1 : Byte) ≠ 0 ∧
      member.config.bindings[clientOfLowBits 0x87] = .port ∧
      (∀ e, member.leases[(63 : Fin 64)] = some e →
        (∀ h ∈ e.holders, h.tag ≠ ownTag member 7) ∧ ∀ w ∈ e.waiters, w.tag ≠ ownTag member 7) ∧
      PairAbsent member.queue 63 7 ∧ LowestFree member.queue 0 := by
  refine ⟨ready_of rfl rfl, rfl, by decide, by decide, fun e he => ?_, pairAbsent_empty _ _, lowestFree_empty⟩
  have : member.leases[(63 : Fin 64)] = some { counter := 0, holders := [], waiters := [] } := by decide
  rw [this] at he
  cases he
  constructor
  · intro h hm; cases hm
  · intro w hm; cases hm

/-- The refusals of ACQUIRE: LINE-bound, tag present, pair in the queue, no slot free. -/
theorem witness_AcquireRequests_refused :
    (at_ .leaving).localState = .leaving ∧ standby.localState ≠ .member ∧ standby.localState ≠ .leaving ∧
      64 ≤ (64 : Byte).toNat ∧ (lined member).config.bindings[(0 : Fin 8)] ≠ .port ∧
      (withLease 3 (some (held .live)) member).leases[(3 : Fin 64)] = some (held .live) ∧
      (∃ h ∈ (held .live).holders, h.tag = ownTag member 0) ∧
      ¬ PairAbsent (single 0 (slotOf asked)) 3 0 ∧ PairAbsent (uniform (some (slotOf (.renew [])))) 3 0 ∧
      NoneFree (uniform (some (slotOf (.renew [])))) := by
  refine ⟨rfl, by decide, by decide, by decide, by decide, by decide, ⟨_, List.mem_singleton.2 rfl, by decide⟩,
    fun h => ?_, full_absent _ _, full_none _⟩
  have := (h 0 (slotOf asked) (by decide) (by rw [single_get]; rfl)).1
  exact absurd this (by decide)

theorem witness_ReleaseRequests_placed :
    let s := withLease 3 (some (held .live)) member
    PortReady s ∧ s.localState = .member ∧ s.config.bindings[(0 : Fin 8)] = .port ∧ LowestFree s.queue 0 ∧
      (∀ (j : Fin 8) (x : Slot), j.val < 6 → s.queue.slots[j] = some x → x.content.isReleaseFor 3 0 = false) ∧
      PairAbsent s.queue 3 0 ∧ s.leases[(3 : Fin 64)] = some (held .live) ∧
      ∃ h ∈ (held .live).holders, h.tag = ownTag s 0 := by
  refine ⟨ready_of rfl rfl, rfl, by decide, lowestFree_empty, fun j x _ h => (empty_some h).elim,
    pairAbsent_empty _ _, by decide, ⟨_, List.mem_singleton.2 rfl, by decide⟩⟩

/-- Beside an ACQUIRE in attempt. -/
theorem witness_ReleaseRequests_beside :
    let q := single 0 (slotOf asked true)
    LowestFree q 1 ∧ q.slots[(0 : Fin 8)] = some (slotOf asked true) ∧ asked.isAcquireFor 3 0 = true ∧
      (∀ (j : Fin 8) (x : Slot), j.val < 6 → q.slots[j] = some x → x.content.isReleaseFor 3 0 = false) := by
  refine ⟨⟨by decide, by decide, by decide⟩, by decide, by decide, fun j x _ h => ?_⟩
  rw [(single_some h).2]; rfl

theorem witness_ReleaseRequests_cancelled :
    let s := { member with queue := single 5 (slotOf asked) }
    PortReady s ∧ s.localState = .member ∧ s.config.bindings[(0 : Fin 8)] = .port ∧
      s.queue.slots[(5 : Fin 8)] = some (slotOf asked) ∧ (slotOf asked).content.isAcquireFor 3 0 = true ∧
      (slotOf asked).inAttempt = false ∧ NothingWaits s ∧
      (∀ (j : Fin 8) (y : Slot), j.val < 6 → s.queue.slots[j] = some y → y.content.isReleaseFor 3 0 = false) ∧
      ∀ (j : Fin 8) (y : Slot), j.val < 5 → s.queue.slots[j] = some y → y.content.isAcquireFor 3 0 = false := by
  refine ⟨ready_of rfl rfl, rfl, by decide, by decide, by decide, rfl, ⟨by decide, by decide⟩, fun j y _ h => ?_,
    fun j y hj h => ?_⟩
  · rw [(single_some h).2]; rfl
  · have := (single_some h).1
    subst this
    exact absurd hj (by decide)

/-- Every general slot is taken, the last by an ACQUIRE that is not in attempt; client 1 has an ACQUIRE need that waits,
and client 2 is RELEASING with its reclaim flag set. -/
def contended (x : LocalState) : Machine.State :=
  let full := uniform (some (slotOf (.renew [])))
  { member with
    localState := x
    config := { member.config with
      bindings := (member.config.bindings.set 1 (.line 4 .exclusive 16)).set 2 (.line 5 .shared 8) }
    clients := member.clients.set 2 { recognised := true, deglitch := 0, state := .releasing, reclaim := true }
    queue := { full with slots := full.slots.set 5 (some (slotOf asked)), needs := full.needs.set 1 (some .acquire) } }

theorem contended_slot {x : LocalState} {k : Fin 8} {y : Slot} (h : (contended x).queue.slots[k] = some y) :
    k = 5 ∧ y = slotOf asked ∨ k ≠ 5 ∧ y = slotOf (.renew []) := by
  have e : ∀ k : Fin 8, (contended .member).queue.slots[k] =
      if (5 : Fin 8) = k then some (slotOf asked) else some (slotOf (.renew [])) := by decide
  rw [show (contended x).queue.slots[k] = (contended .member).queue.slots[k] from rfl, e] at h
  split at h
  · rename_i hk
    cases h
    exact Or.inl ⟨hk.symm, rfl⟩
  · rename_i hk
    cases h
    exact Or.inr ⟨fun hh => hk hh.symm, rfl⟩

/-- A cancellation with a waiting need and a RELEASING client, in MEMBER and in LEAVING. -/
theorem witness_ReleaseRequests_contended (x : LocalState) (hx : x = .member ∨ x = .leaving) :
    let s := contended x
    PortReady s ∧ (s.localState = .member ∨ s.localState = .leaving) ∧ s.config.bindings[(0 : Fin 8)] = .port ∧
      s.queue.slots[(5 : Fin 8)] = some (slotOf asked) ∧ (slotOf asked).content.isAcquireFor 3 0 = true ∧
      s.queue.needs[(1 : Fin 8)] = some .acquire ∧ s.clients[(2 : Fin 8)].state = .releasing ∧
      (∀ (j : Fin 8) (y : Slot), j.val < 6 → s.queue.slots[j] = some y → y.content.isReleaseFor 3 0 = false) ∧
      ∀ (j : Fin 8) (y : Slot), j.val < 5 → s.queue.slots[j] = some y → y.content.isAcquireFor 3 0 = false := by
  refine ⟨ready_of rfl rfl, hx, ?_, ?_, by decide, ?_, ?_, fun j y _ h => ?_, fun j y hj h => ?_⟩
  · show (contended .member).config.bindings[(0 : Fin 8)] = .port
    decide
  · show (contended .member).queue.slots[(5 : Fin 8)] = some (slotOf asked)
    decide
  · show (contended .member).queue.needs[(1 : Fin 8)] = some .acquire
    decide
  · show (contended .member).clients[(2 : Fin 8)].state = .releasing
    decide
  · rcases contended_slot h with ⟨-, h⟩ | ⟨-, h⟩ <;> rw [h] <;> rfl
  · rcases contended_slot h with ⟨h, -⟩ | ⟨-, h⟩
    · subst h; exact absurd hj (by decide)
    · rw [h]; rfl

/-- The waiting need takes the freed slot; the reclaim ACQUIRE of the concluded client waits (log entries 30, 33). -/
theorem test_need_comes_before_the_reclaim :
    let t := (portRequest 0x21 (takeRelease 3 0) (contended .member))
    t.queue.slots[(5 : Fin 8)].map (·.content) = some (.acquire 4 1 .exclusive 16 255) ∧
      t.clients[(2 : Fin 8)].state = .asking ∧ t.queue.needs[(2 : Fin 8)] = some .acquire := by
  decide +kernel

theorem witness_ReleaseRequests_refused :
    8 ≤ (8 : Byte).toNat ∧ (lined member).config.bindings[(0 : Fin 8)] ≠ .port ∧
      (single 0 (slotOf (.release 3 0))).slots[(0 : Fin 8)] = some (slotOf (.release 3 0)) ∧
      (SlotContent.release 3 0).isReleaseFor 3 0 = true ∧ PairAbsent member.queue 3 0 ∧
      (∀ e, standby.leases[(3 : Fin 64)] = some e → False) ∧ NoneFree (uniform (some (slotOf (.renew [])))) ∧
      NoneFree (uniform (some (slotOf asked true))) ∧
      ∀ (j : Fin 8) (y : Slot), j.val < 6 → (uniform (some (slotOf asked true))).slots[j] = some y →
        y.content.isReleaseFor 3 0 = false ∧ (j.val < 0 → y.content.isAcquireFor 3 0 = false) := by
  refine ⟨by decide, by decide, by decide, by decide, pairAbsent_empty _ _, fun e h => ?_, full_none _, full_none _,
    fun j y _ h => ?_⟩
  · have : standby.leases[(3 : Fin 64)] = none := by decide
    rw [this] at h; cases h
  · rw [uniform_get] at h; cases h
    exact ⟨rfl, fun h => absurd h (Nat.not_lt_zero _)⟩

theorem witness_RenewRequests_placed :
    let s := withLease 3 (some (held .live)) member
    PortReady s ∧ s.localState = .member ∧ s.config.bindings[(0 : Fin 8)] = .port ∧
      s.leases[(3 : Fin 64)] = some (held .live) ∧
      (∃ h ∈ (held .live).holders, h.tag = ownTag s 0 ∧ h.status = .live) ∧ NoneOpened s.queue ∧
      LowestFree s.queue 0 := by
  refine ⟨ready_of rfl rfl, rfl, by decide, by decide, ⟨_, List.mem_singleton.2 rfl, by decide, rfl⟩,
    fun k x _ _ h => (empty_some h).elim, lowestFree_empty⟩

/-- An opened slot with the entry, without it, and with eight others. -/
theorem witness_RenewRequests_opened (entries : List (Lease × Client)) :
    let q := single 2 (openSlot entries)
    q.slots[(2 : Fin 8)] = some (openSlot entries) ∧ (openSlot entries).content = .renew entries ∧
      (openSlot entries).opened = true ∧
      (∀ (j : Fin 8) (y : Slot) (ys : List (Lease × Client)), j.val < 2 → q.slots[j] = some y →
        y.content = .renew ys → y.opened = false) ∧
      ((3 : Lease), (0 : Client)) ∈ [((3 : Lease), (0 : Client))] ∧
      ((3 : Lease), (0 : Client)) ∉ (List.replicate 8 ((4 : Lease), (0 : Client))) ∧
      ((3 : Lease), (0 : Client)) ∉ (List.replicate 7 ((4 : Lease), (0 : Client))) := by
  refine ⟨by rw [single_get]; rfl, rfl, rfl, fun j y ys hj h => ?_, by decide, by decide, by decide⟩
  have := (single_some h).1
  subst this
  exact absurd hj (by decide)

theorem witness_RenewRequests_refused :
    (∀ h ∈ (held .fenced).holders, h.tag = ownTag member 0 → h.status = .fenced) ∧
      (∃ h ∈ (held .live).holders, h.tag = ownTag member 0 ∧ h.status = .live) ∧
      NoneOpened (uniform (some (slotOf asked))) ∧ NoneFree (uniform (some (slotOf asked))) := by
  refine ⟨by decide, ⟨_, List.mem_singleton.2 rfl, by decide, rfl⟩, fun k x es _ h hc => ?_, full_none _⟩
  rw [uniform_get] at h; cases h; cases hc

/-! #### Timers, teardown, claims -/

/-- A timer with the others stopped. -/
def withTimers (t : Timers) (s : Machine.State) : Machine.State := { s with timers := t }

theorem witness_TimersExpire_tick :
    let s := withTimers { Timers.allStopped with tick := .running 0 } member
    s.resetLow = false ∧ s.timers.tick = .running 0 ∧ s.queue.slots[(6 : Fin 8)] = none ∧
      { s with queue := single 6 (slotOf .tick) }.queue.slots[(6 : Fin 8)] ≠ none := by decide

theorem witness_TimersExpire_silence :
    let s := withTimers { Timers.allStopped with silence := .running 0 } member
    s.resetLow = false ∧ s.timers.silence = .running 0 ∧ LineQuiet s ∧ s.localState = .member ∧
      ¬ LineQuiet (hearing s) ∧ (at_ .detached).localState = .detached := by
  refine ⟨rfl, rfl, Or.inl rfl, rfl, fun h => ?_, rfl⟩
  rcases h with h | h <;> cases h

/-- Both ends of a teardown. -/
theorem witness_TeardownLeaves :
    let s := { member with config := { member.config with autoRejoin := true } }
    ((∃ x, TeardownCause.trigger .isolated = .trigger x) ∧ s.config.autoRejoin = true ∧ s.localState ≠ .leaving) ∧
      ¬ ((∃ x, TeardownCause.leaveCompleted = .trigger x) ∧ s.config.autoRejoin = true ∧ s.localState ≠ .leaving) :=
  ⟨⟨⟨_, rfl⟩, rfl, by decide⟩, fun h => by obtain ⟨⟨x, hx⟩, -⟩ := h; cases hx⟩

theorem witness_TimersExpire_founding :
    let s := withTimers { Timers.allStopped with founding := .running 0 } (at_ .seeking)
    s.resetLow = false ∧ s.timers.founding = .running 0 ∧ s.localState = .seeking ∧
      (∀ m, s.timers.pacing ≠ .running m) ∧ MembershipOpen s.queue .join ∧ standby.localState ≠ .seeking :=
  ⟨rfl, rfl, rfl, fun m h => (by cases h), Or.inl rfl, by decide⟩

theorem witness_TimersExpire_pacing :
    let s := withTimers { Timers.allStopped with founding := .expired, pacing := .running 0 } (at_ .seeking)
    s.timers.pacing = .running 0 ∧ s.localState = .seeking ∧ s.timers.founding = .expired ∧
      MembershipOpen (single 7 (slotOf .join)) .join :=
  ⟨rfl, rfl, rfl, Or.inr ⟨slotOf .join, by decide, rfl, rfl⟩⟩

theorem witness_TimersExpire_holdOff :
    let s := { withTimers { Timers.allStopped with founding := .running 9, holdOff := .running 0 } (at_ .seeking) with
      joinEvidence := true }
    s.timers.holdOff = .running 0 ∧ s.localState = .seeking ∧ s.joinEvidence = true ∧
      (∃ m, s.timers.founding = .running m) ∧ MembershipOpen s.queue .found :=
  ⟨rfl, rfl, rfl, ⟨9, rfl⟩, Or.inl rfl⟩

theorem witness_CommandsWithoutEffect :
    (∀ n, standby.timers.tick ≠ .running n) ∧ (clientIn .idle true standby).clients[(0 : Fin 8)].recognised = true ∧
      standby.clients[(0 : Fin 8)].recognised = false ∧ ¬ LineQuiet (hearing member) ∧
      (hearing member).line.phase ≠ .counting ∧ LineQuiet standby ∧ ¬ OpportunityComes standby .lineIdle ∧
      ¬ OpportunityComes (idle member) .quietGap ∧ ¬ OpportunityComes (idle member) .courtesyGap := by
  refine ⟨fun n h => (by cases h), by decide, by decide, fun h => ?_, fun h => (by cases h), Or.inl rfl, fun h => ?_,
    fun h => ?_, fun h => ?_⟩
  · rcases h with h | h <;> cases h
  · have := h.2.1 (by decide); cases this
  · have := h.1 rfl; cases this
  · have := h.2.2 rfl; cases this

/-- The claim is asserted: PORT-bound, not in MEMBER, RELEASING, and in MEMBER with a slot free and with none. -/
theorem witness_ClaimEvents_asserted :
    let s := lined member
    s.resetLow = false ∧ s.clients[(0 : Fin 8)].recognised = false ∧ standby.config.bindings[(0 : Fin 8)] = .port ∧
      s.config.bindings[(0 : Fin 8)] = .line 3 .exclusive 16 ∧ s.clients[(0 : Fin 8)].state = .idle ∧
      s.localState = .member ∧ PairAbsent s.queue 3 0 ∧ LowestFree s.queue 0 ∧
      (lined (at_ .seeking)).localState ≠ .member ∧
      (clientIn .releasing false s).clients[(0 : Fin 8)].state = .releasing ∧
      (clientIn .waiting false s).clients[(0 : Fin 8)].state ≠ .releasing ∧
      NoneFree (uniform (some (slotOf (.renew [])))) ∧ PairAbsent (uniform (some (slotOf (.renew [])))) 3 0 :=
  ⟨rfl, by decide, by decide, by decide, by decide, rfl, pairAbsent_empty _ _, lowestFree_empty, by decide, by decide,
    by decide, full_none _, full_absent _ _⟩

/-- The claim is released in HOLDING, with the hold in the replica. -/
theorem witness_ClaimEvents_released :
    let s := clientIn .holding true (lined (withLease 3 (some (held .live)) member))
    s.resetLow = false ∧ s.clients[(0 : Fin 8)].recognised = true ∧
      s.config.bindings[(0 : Fin 8)] = .line 3 .exclusive 16 ∧ s.clients[(0 : Fin 8)].state = .holding ∧
      (∀ d : Client, s.clients[d].state ≠ .releasing) ∧ PairAbsent s.queue 3 0 ∧ TagIn s 3 (ownTag s 0) ∧
      LowestFree s.queue 0 := by
  refine ⟨rfl, by decide, by decide, by decide, by decide, pairAbsent_empty _ _, ?_, lowestFree_empty⟩
  exact ⟨held .live, by decide, Or.inl ⟨_, List.mem_singleton.2 rfl, by decide⟩⟩

/-- The claim is released in the other states, and in ASKING with its ACQUIRE in the queue or only wanted. -/
theorem witness_ClaimEvents_others (going : Bool) :
    let s := { clientIn .asking true (lined member) with queue := single 0 (slotOf asked going) }
    s.resetLow = false ∧ s.clients[(0 : Fin 8)].recognised = true ∧ s.clients[(0 : Fin 8)].state = .asking ∧
      s.queue.slots[(0 : Fin 8)] = some (slotOf asked going) ∧ asked.isAcquireFor 3 0 = true ∧ NothingWaits s ∧
      LowestFree s.queue 1 ∧
      (∀ (j : Fin 8) (y : Slot), j.val < 6 → s.queue.slots[j] = some y →
        y.content.isReleaseFor 3 0 = false ∧ (y.content.isAcquireFor 3 0 = true → j = 0)) ∧
      (clientIn .idle true s).clients[(0 : Fin 8)].state = .idle ∧
      (clientIn .revoked true s).clients[(0 : Fin 8)].state = .revoked ∧
      (clientIn .releasing true s).clients[(0 : Fin 8)].state = .releasing := by
  refine ⟨rfl, by cases going <;> decide, by cases going <;> decide, by cases going <;> decide, by decide,
    ⟨by cases going <;> decide, by cases going <;> decide⟩,
    ⟨by decide, by cases going <;> decide, by cases going <;> decide⟩, fun j y _ h => ?_,
    by cases going <;> decide, by cases going <;> decide, by cases going <;> decide⟩
  obtain ⟨hj, hy⟩ := single_some h
  subst hj
  subst hy
  exact ⟨rfl, fun _ => rfl⟩

/-- The claim is released in ASKING while the need only waits, and where no slot is free for the RELEASE. -/
theorem witness_ClaimEvents_wanted :
    let s := clientIn .asking true (lined member)
    s.clients[(0 : Fin 8)].state = .asking ∧ PairAbsent s.queue 3 0 ∧ NoneFree (uniform (some (slotOf (.renew [])))) ∧
      PairAbsent (uniform (some (slotOf (.renew [])))) 3 0 :=
  ⟨by decide, pairAbsent_empty _ _, full_none _, full_absent _ _⟩

/-- A need is served, dropped or kept; a RELEASING client is concluded, or waits for its slot. -/
theorem witness_NeedsAndConclusions :
    let s := lined (withLease 3 (some (held .live)) member)
    let beside := { OutboundQueue.empty with slots := (single 0 (slotOf asked true)).slots }
    s.config.bindings[(0 : Fin 8)] = .line 3 .exclusive 16 ∧ PairAbsent s.queue 3 0 ∧ LowestFree s.queue 0 ∧
      { s with queue := { s.queue with needs := s.queue.needs.set 0 (some .acquire) } }.queue.needs[(0 : Fin 8)] = some .acquire ∧
      TagIn s 3 (ownTag s 0) ∧ ¬ TagIn standby 3 (ownTag standby 0) ∧ LowestFree beside 1 ∧
      beside.slots[(0 : Fin 8)] = some (slotOf asked true) ∧ asked.isAcquireFor 3 0 = true ∧
      (clientIn .releasing true s).clients[(0 : Fin 8)].state = .releasing ∧
      (clientIn .releasing true s).clients[(0 : Fin 8)].reclaim = false ∧ s.queue.needs[(0 : Fin 8)] = none ∧
      (clientIn .asking true s).clients[(0 : Fin 8)].state = .asking ∧ NoneFree (uniform (some (slotOf (.renew [])))) ∧
      standby.config.bindings[(0 : Fin 8)] = .port := by
  refine ⟨by decide, pairAbsent_empty _ _, lowestFree_empty, by decide,
    ⟨held .live, by decide, Or.inl ⟨_, List.mem_singleton.2 rfl, by decide⟩⟩, ?_, ⟨by decide, by decide, by decide⟩,
    by decide, by decide, by decide, by decide, by decide, by decide, full_none _, by decide⟩
  rintro ⟨e, he, -⟩
  have : standby.leases[(3 : Fin 64)] = none := by decide
  rw [this] at he
  cases he

/-- A LIVE hold with half its term left is due; a client that is IDLE with its claim asks. -/
theorem witness_ClientsRenewAndAsk :
    let half : LeaseEntry := { counter := 1, holders := [live 0 0 .exclusive 16 8 1], waiters := [] }
    let s := clientIn .holding true (lined (withLease 3 (some half) member))
    s.localState = .member ∧ s.config.bindings[(0 : Fin 8)] = .line 3 .exclusive 16 ∧
      s.leases[(3 : Fin 64)] = some half ∧ half.holders = [] ++ live 0 0 .exclusive 16 8 1 :: [] ∧
      (live 0 0 .exclusive 16 8 1).tag = ownTag s 0 ∧ s.clients[(0 : Fin 8)].state = .holding ∧ 8 ≤ (16 + 1) / 2 ∧
      NoneOpened s.queue ∧ LowestFree s.queue 0 ∧ PairAbsent s.queue 3 0 ∧
      (clientIn .idle true s).clients[(0 : Fin 8)].state = .idle ∧
      (clientIn .idle true s).clients[(0 : Fin 8)].recognised = true ∧
      (single 2 (openSlot [(4, 0)])).slots[(2 : Fin 8)] = some (openSlot [(4, 0)]) ∧
      ((3 : Lease), (0 : Client)) ∉ [((4 : Lease), (0 : Client))] :=
  ⟨rfl, by decide, by decide, rfl, by decide, by decide, by decide, fun _ _ _ _ h => (empty_some h).elim,
    lowestFree_empty, pairAbsent_empty _ _, by decide, by decide, by decide, by decide⟩

/-! #### The line -/

theorem witness_StartBitAndListener :
    standby.resetLow = false ∧ LineQuiet standby ∧ standby.line.gapBits < 10 ∧ LineQuiet (idle standby) ∧
      10 ≤ (idle standby).line.gapBits ∧ (hearing standby).line.phase = .receiving (roleNow standby) ∧
      (roleNow standby).localState = .standby :=
  ⟨rfl, Or.inl rfl, by decide, Or.inr rfl, by decide, rfl, rfl⟩

theorem offered_single {s : Machine.State} {k j : Fin 8} {x y : Slot} (hs : s.queue = single k x)
    (h : Offered s j y) : j = k ∧ y = x := by
  have := h.1
  rw [hs] at this
  exact ⟨(single_some this).1.symm, (single_some this).2⟩

/-- A MEMBER with one slot: that slot is the head. -/
theorem head_single (c : SlotContent) (hc : kindPermitted .member (slotKind c) = true) (k : Fin 8) :
    IsHead { member with queue := single k (slotOf c) } k (slotOf c) :=
  ⟨⟨by rw [single_get]; simp, hc⟩, fun j _ h hj => absurd (offered_single rfl h).1 hj⟩

theorem comes_quietGap (s : Machine.State) (h : s.line.phase = .counting) : OpportunityComes s .quietGap :=
  ⟨fun _ => h, fun hx => absurd rfl hx, fun hx => by cases hx⟩

theorem comes_lineIdle (s : Machine.State) (h : s.line.phase = .idle) : OpportunityComes s .lineIdle :=
  ⟨fun hx => (by cases hx), fun _ => h, fun hx => by cases hx⟩

theorem comes_courtesyGap (s : Machine.State) (h : s.line.phase = .idle) (hc : s.line.courtesyPending = true) :
    OpportunityComes s .courtesyGap :=
  ⟨fun hx => (by cases hx), fun _ => h, fun _ => hc⟩

/-- Nothing is offered; an ordinary head waits for the courtesy gap, and goes out at its end. -/
theorem witness_OpportunityWithoutAttempt :
    let s := { idle member with
      queue := single 0 (slotOf asked)
      line := { (idle member).line with courtesyPending := true } }
    member.resetLow = false ∧ OpportunityComes member .quietGap ∧ (∀ k x, ¬ Offered member k x) ∧
      OpportunityComes s .lineIdle ∧ OpportunityComes s .courtesyGap ∧ IsHead s 0 (slotOf asked) ∧
      6 ≤ (kindCode (slotKind asked)).toNat ∧ s.line.courtesyPending = true :=
  ⟨rfl, comes_quietGap _ rfl, fun _ _ h => (empty_some h.1).elim, comes_lineIdle _ rfl, comes_courtesyGap _ rfl rfl,
    head_single asked (by decide) 0, by decide, rfl⟩

theorem witness_AttemptSendsTheHead :
    let s := { member with queue := single 0 (slotOf asked) }
    s.resetLow = false ∧ OpportunityComes s .quietGap ∧ IsHead s 0 (slotOf asked) ∧
      assemble s asked = some (.acquire 3 0 .exclusive 16 255) ∧ s.line.courtesyPending = false :=
  ⟨rfl, comes_quietGap _ rfl, head_single asked (by decide) 0, rfl, rfl⟩

/-- A TICK goes out as soon as it is offered. -/
theorem witness_AttemptSendsTheHead_tick :
    let s := { member with queue := single 6 (slotOf .tick), line := { member.line with courtesyPending := true } }
    IsHead s 6 (slotOf .tick) ∧ assemble s .tick = some .tick ∧ (kindCode (slotKind SlotContent.tick)).toNat < 6 :=
  ⟨head_single .tick (by decide) 6, rfl, by decide⟩

theorem witness_AssembledFrames :
    let s := withLease 3 (some (held .live)) member
    TagIn s 3 (ownTag s 0) ∧ ¬ TagIn standby 3 (ownTag standby 0) ∧ standby.roster = none ∧ member.roster = some pair ∧
      (∀ i : Fin 16, pair.records[i].state ≠ .joining) ∧
      (∃ i : Fin 16, (joinRecord 5 pair).records[i].state = .joining) ∧ (joinRecord 5 pair).cursor.val = 0 ∧
      ({ pair with cursor := 64 }).cursor.val = (63 : Lease).val + 1 := by
  refine ⟨⟨held .live, by decide, Or.inl ⟨_, List.mem_singleton.2 rfl, by decide⟩⟩, ?_, rfl, rfl, by decide,
    ⟨5, by decide⟩, by decide, rfl⟩
  rintro ⟨e, he, -⟩
  have : standby.leases[(3 : Fin 64)] = none := by decide
  rw [this] at he
  cases he

theorem witness_OpportunityWithoutAttempt_stale :
    let s := { member with queue := single 0 (slotOf (.release 3 0)) }
    s.resetLow = false ∧ OpportunityComes s .quietGap ∧ s.localState = .member ∧ s.line.courtesyPending = false ∧
      NothingWaits s ∧
      s.queue.slots[(0 : Fin 8)] = some (slotOf (.release 3 0)) ∧ (slotOf (.release 3 0)).content = .release 3 0 ∧
      (∀ (j : Fin 8) (y : Slot), Offered s j y → j = 0) ∧ ¬ TagIn s 3 (ownTag s 0) := by
  refine ⟨rfl, comes_quietGap _ rfl, rfl, rfl, ⟨by decide, by decide⟩, by decide, rfl, fun j y h => (offered_single rfl h).1, ?_⟩
  rintro ⟨e, he, h⟩
  have : member.leases[(3 : Fin 64)] = some { counter := 0, holders := [], waiters := [] } := by decide
  have he' : member.leases[(3 : Fin 64)] = some e := he
  rw [this] at he'
  cases he'
  rcases h with ⟨x, hx, -⟩ | ⟨x, hx, -⟩ <;> cases hx

/-! #### Frame ends: station 0 sends, and hears frames of station 1 -/

/-- An ACQUIRE of this station that is committed, loses to a RELEASE, is voided, and aborts. -/
theorem witness_SenderFrameEnds :
    let body : FrameBody := .acquire 3 0 .exclusive 16 255
    let s := sending 0 (slotOf asked true) body member
    let rep := fun cells => frameReport s (roleNow member) (some { slot := 0, bytes := frameBytes 0 0 body }) cells
    let won := rep (cellsOf 0 0 body 0xFFFC 0x00)
    let lost := rep (cellsOf 1 0 (.release 63 7) 0xFFFC 0x00)
    PlainMember s pair ∧ s.queue.slots[(0 : Fin 8)] = some (slotOf asked true) ∧
      6 ≤ (kindCode (slotKind asked)).toNat ∧ (slotOf asked true).attempts < 15 ∧
      ReadsCommitted won pair [0, 1] body ∧ won.attempt = some .committed ∧
      ReadsCommitted lost pair [0, 1] (.release 63 7) ∧ lost.attempt = some .lost ∧
      (rep (cellsOf 0 0 body 0xFFFE 0x0F)).attempt = some .voided ∧ (rep (cellsOf 0 0 body 0xFFFE 0x0F)).verdict = .void ∧
      (rep (cellsOf 0 1 body 0xFFFF 0xFF)).attempt = some .aborted ∧
      (rep (cellsOf 0 1 body 0xFFFF 0xFF)).verdict = .abandoned ∧ s.timers.silence ≠ .expired ∧
      ∀ i : Fin 16, pair.records[i].miss.val < 2 :=
  ⟨⟨⟨rfl, rfl, rfl, by decide, by decide, by decide⟩, by decide⟩, by decide, by decide, by decide,
    ⟨by decide +kernel, by decide +kernel, by decide +kernel, by decide +kernel, by decide +kernel, by decide +kernel⟩,
    by decide +kernel,
    ⟨by decide +kernel, by decide +kernel, by decide +kernel, by decide +kernel, by decide +kernel, by decide +kernel⟩,
    by decide +kernel, by decide +kernel, by decide +kernel, by decide +kernel, by decide +kernel, by decide, by decide⟩

/-- The three courses of an own frame. -/
theorem witness_AttemptsAreRead :
    let body : FrameBody := .acquire 3 0 .exclusive 16 255
    let bytes := frameBytes 0 0 body
    senderCourse bytes (cellsOf 0 0 body 0xFFFC 0x00) = .sent ∧
      senderCourse bytes (cellsOf 1 0 (.release 63 7) 0xFFFC 0x00) = .lost ∧
      senderCourse bytes (cellsOf 0 1 body 0xFFFF 0xFF) = .aborted := by decide +kernel

/-- Every end of a frame end: a LEAVE that completes, a trigger, the silence timer, and none of them. -/
theorem witness_FrameEndTakesItsSteps :
    let leaving := { member with localState := .leaving }
    let own := frameReport leaving (roleNow leaving) none (cellsOf 0 0 .leave 0xFFFC 0x00)
    let torn := frameReport (hearing member) (roleNow member) none (cellsOf 1 0 .tick 0xFFFC 0x01)
    let quiet := frameReport (hearing member) (roleNow member) none (cellsOf 1 0 .tick 0xFFFC 0xFF)
    let effect := fun (rep : FrameReport) (s : Machine.State) => (applyFrame rep (takeVerdict rep s)).2
    (effect own leaving).leaveCompleted = true ∧ (effect torn member).leaveCompleted = false ∧
      (effect torn member).trigger = some .tailError ∧ effect quiet member = {} ∧
      (sending 0 (slotOf asked true) .tick member).line.phase =
        .sending (roleNow member) { slot := 0, bytes := frameBytes 0 0 .tick } ∧
      (roleNow member).localState ≠ .standby ∧ (roleNow member).localState ≠ .detached := by decide +kernel

/-- A JOIN of station 2, committed and refused. -/
theorem witness_JoinFramesAtAMember :
    let rep := fun v => frameReport (hearing member) (roleNow member) none (cellsOf 2 0 .join 0xFFFC v)
    (rep 0x00).payload = some .join ∧ (rep 0x00).acknowledged = true ∧ (rep 0x00).divergence = false ∧
      (rep 0x00).required = some [0, 1] ∧ (rep 0x00).sender ≠ stationNumber member ∧ (rep 0x00).verdict = .commit ∧
      (rep 0x33).verdict = .refuse := by decide +kernel

theorem witness_JoinAtItsSeeker :
    let s := sending 7 (slotOf .join true) .join (at_ .seeking)
    let rep := fun v => frameReport s (roleNow (at_ .seeking)) (some { slot := 7, bytes := frameBytes 0 0 .join })
      (cellsOf 0 0 .join 0xFFFC v)
    s.queue.slots[(7 : Fin 8)] = some (slotOf .join true) ∧ s.roster = none ∧ (roleNow (at_ .seeking)).required = none ∧
      NothingWaits s ∧ (rep 0x00).payload = some .join ∧ (rep 0x00).attempt = some .committed ∧
      (rep 0x00).verdict = .commit ∧ (rep 0x33).attempt = some .refused ∧ (rep 0x33).verdict = .refuse :=
  ⟨by decide, rfl, rfl, ⟨by decide, by decide⟩, by decide +kernel, by decide +kernel, by decide +kernel,
    by decide +kernel, by decide +kernel⟩

/-- The LEAVE of station 1 at this one, and this station's own. -/
theorem witness_LeaveFrames :
    let s := sending 7 (slotOf .leave true) .leave { member with localState := .leaving }
    let rep := frameReport s (roleNow { member with localState := .leaving })
      (some { slot := 7, bytes := frameBytes 0 0 .leave }) (cellsOf 0 0 .leave 0xFFFC 0x00)
    ReadsCommitted (frameReport (hearing member) (roleNow member) none (cellsOf 1 0 .leave 0xFFFC 0x00)) pair [0, 1] .leave ∧
      ReadsCommitted rep pair [0, 1] .leave ∧ rep.sender = stationNumber s ∧ rep.attempt = some .committed ∧
      s.queue.slots[(7 : Fin 8)] = some (slotOf .leave true) ∧ NothingWaits s ∧
      s.leases[(63 : Fin 64)] = some { counter := 0, holders := [], waiters := [] } :=
  ⟨⟨by decide +kernel, by decide +kernel, by decide +kernel, by decide +kernel, by decide +kernel, by decide +kernel⟩,
    ⟨by decide +kernel, by decide +kernel, by decide +kernel, by decide +kernel, by decide +kernel, by decide +kernel⟩,
    by decide +kernel, by decide +kernel, by decide, ⟨by decide, by decide⟩, by decide⟩

/-- The roster of a transfer, its joiner at `p`. -/
def transfer (members : List Station) (joiner : Station) (p : Progress) : Roster :=
  let r := foundedRoster 3 members
  { r with records := r.records.set joiner { state := .joining, miss := 0, progress := some p } }

/-- A FREE entry. -/
def free : LeaseEntry := { counter := 0, holders := [], waiters := [] }

/-- The lease item 63 of station 1 at a MEMBER, the joiner being station 5. -/
theorem witness_SnapFramesAtAMember :
    let r := transfer [0, 1] 5 (.remaining 1)
    let s := { member with roster := some r }
    MemberAtRest (hearing s) r ∧
      ReadsCommitted (frameReport (hearing s) (roleNow s) none (cellsOf 1 0 (.snap (.lease 63 free)) 0xFFDC 0x00)) r
        [0, 1, 5] (.snap (.lease 63 free)) :=
  ⟨⟨rfl, rfl, rfl, by decide, by decide, by decide⟩, by decide +kernel, by decide +kernel, by decide +kernel,
    by decide +kernel, by decide +kernel, by decide +kernel⟩

/-- The roster item at a joiner that awaits it, that is ABSENT in it, and that is already a MEMBER in it. -/
theorem witness_SnapFramesAtAJoiner_roster :
    let s := hearing (at_ .joining)
    let rep := fun r : Roster => frameReport s (roleNow (at_ .joining)) none
      (cellsOf 1 0 (.snap (.roster 3 0 0 r.records)) 0xFFFC 0x00)
    let awaited := transfer [1] 0 .awaitingRoster
    (rep awaited).verdict = .commit ∧ (rep awaited).payload = some (.snap (.roster 3 0 0 awaited.records)) ∧
      (rep awaited).acknowledged = true ∧ awaited.records[stationNumber s].progress = some .awaitingRoster ∧
      (foundedRoster 3 [1]).records[stationNumber s].state = .absent ∧
      (foundedRoster 3 [0, 1]).records[stationNumber s].state = .member ∧
      s.roster = none ∧ s.queue.slots[(7 : Fin 8)] = none := by decide +kernel

/-- A lease item at a joiner with 2 items to come, and with 1. -/
theorem witness_SnapFramesAtAJoiner_lease :
    let s := fun n => { at_ .joining with roster := some (transfer [1] 0 (.remaining n)) }
    let rep := fun n => frameReport (hearing (s n)) (roleNow (s n)) none (cellsOf 1 0 (.snap (.lease 63 free)) 0xFFFC 0x00)
    ReadsCommitted (rep 2) (transfer [1] 0 (.remaining 2)) [0, 1] (.snap (.lease 63 free)) ∧
      ReadsCommitted (rep 1) (transfer [1] 0 (.remaining 1)) [0, 1] (.snap (.lease 63 free)) ∧
      (snapProgress 64 (transfer [1] 0 (.remaining 2))).records[(0 : Fin 16)].state ≠ .member ∧
      (snapProgress 64 (transfer [1] 0 (.remaining 1))).records[(0 : Fin 16)].state = .member :=
  ⟨⟨by decide +kernel, by decide +kernel, by decide +kernel, by decide +kernel, by decide +kernel, by decide +kernel⟩,
    ⟨by decide +kernel, by decide +kernel, by decide +kernel, by decide +kernel, by decide +kernel, by decide +kernel⟩,
    by decide, by decide⟩

theorem plain_member : PlainMember (hearing member) pair :=
  ⟨⟨rfl, rfl, rfl, by decide, by decide, by decide⟩, by decide⟩

theorem witness_CommittedTickIsApplied :
    (hearing member).line.phase = .receiving (roleNow member) ∧ PlainMember (hearing member) pair ∧
      ReadsCommitted (frameReport (hearing member) (roleNow member) none (cellsOf 1 0 .tick 0xFFFC 0x00)) pair [0, 1]
        .tick :=
  ⟨rfl, plain_member, by decide +kernel, by decide +kernel, by decide +kernel, by decide +kernel, by decide +kernel,
    by decide +kernel⟩

/-- An ACQUIRE of station 1. -/
theorem witness_CommittedOrdinaryFrameIsApplied_acquire :
    6 ≤ (kindCode (bodyKind (.acquire 63 7 .shared 255 255))).toNat ∧
      ReadsCommitted (frameReport (hearing member) (roleNow member) none
        (cellsOf 1 0 (.acquire 63 7 .shared 255 255) 0xFFFC 0x00)) pair [0, 1] (.acquire 63 7 .shared 255 255) :=
  ⟨by decide, by decide +kernel, by decide +kernel, by decide +kernel, by decide +kernel, by decide +kernel,
    by decide +kernel⟩

/-- A RELEASE of station 1. -/
theorem witness_CommittedOrdinaryFrameIsApplied_release :
    6 ≤ (kindCode (bodyKind (.release 63 7))).toNat ∧
      ReadsCommitted (frameReport (hearing member) (roleNow member) none (cellsOf 1 0 (.release 63 7) 0xFFFC 0x00)) pair
        [0, 1] (.release 63 7) :=
  ⟨by decide, by decide +kernel, by decide +kernel, by decide +kernel, by decide +kernel, by decide +kernel,
    by decide +kernel⟩

/-- A RENEW of station 1. -/
theorem witness_CommittedOrdinaryFrameIsApplied_renew :
    6 ≤ (kindCode (bodyKind (.renew [(3, 0)]))).toNat ∧
      ReadsCommitted (frameReport (hearing member) (roleNow member) none (cellsOf 1 0 (.renew [(3, 0)]) 0xFFFC 0x00)) pair
        [0, 1] (.renew [(3, 0)]) :=
  ⟨by decide, by decide +kernel, by decide +kernel, by decide +kernel, by decide +kernel, by decide +kernel,
    by decide +kernel⟩

theorem witness_CommittedFoundMakesAMember :
    let s := hearing (at_ .seeking)
    let rep := frameReport s (roleNow (at_ .seeking)) none (cellsOf 1 0 (.found 2) 0xFFFC 0x00)
    s.resetLow = false ∧ s.line.phase = .receiving (roleNow (at_ .seeking)) ∧ s.localState = .seeking ∧ s.roster = none ∧
      (∀ c : Client, s.clients[c].recognised = false) ∧ NothingWaits s ∧ s.queue.slots[(7 : Fin 8)] = none ∧
      rep.verdict = .commit ∧ rep.payload = some (.found 2) ∧ rep.acknowledged = true ∧
      stationNumber s ∈ ((List.finRange 16).filter fun i : Fin 16 => rep.ackMap.getLsbD i.val = false).take 2 :=
  ⟨rfl, rfl, rfl, rfl, by decide, ⟨by decide, by decide⟩, by decide, by decide +kernel, by decide +kernel,
    by decide +kernel, by decide +kernel⟩

theorem witness_EjectionsWithoutTheFrame :
    let rep := frameReport (hearing member) (roleNow member) none (cellsOf 1 0 .tick 0xFFFC 0x01)
    (hearing member).resetLow = false ∧ (roleNow member).localState ≠ .standby ∧ (roleNow member).localState ≠ .detached ∧
      NothingWaits (hearing member) ∧ rep.verdict = .unreadable ∧ rep.selfRequired = true :=
  ⟨rfl, by decide, by decide, ⟨by decide, by decide⟩, by decide +kernel, by decide +kernel⟩

/-- A frame that this station did not acknowledge, and a FOUND, both committed. -/
theorem witness_EjectionsWithoutTheFrame_committed :
    let broken := frameReport (hearing member) (roleNow member) none ((cellsOf 1 0 .tick 0xFFFC 0x00).set 1 ⟨true, 7⟩)
    let found := frameReport (hearing member) (roleNow member) none (cellsOf 1 0 (.found 2) 0xFFFC 0x00)
    broken.verdict = .commit ∧ broken.kindCode ≠ 2 ∧ broken.selfRequired = true ∧ broken.acknowledged = false ∧
      found.verdict = .commit ∧ found.payload = some (.found 2) := by decide +kernel

/-- A divergence, a frame of a station that is no MEMBER, and a VOID that removes this station. -/
theorem witness_EjectionsAfterTheFrame :
    let rep := fun cells => frameReport (hearing member) (roleNow member) none cells
    let diverged := rep (cellsOf 1 7 (.release 63 7) 0xFFFC 0x00)
    let foreign := fun b => rep (cellsOf 5 0 b 0xFFFC 0x00)
    let three := foundedRoster 3 [0, 1, 2]
    let r := { three with records := three.records.set 0 { state := .member, miss := 2, progress := none } }
    let late := frameReport (hearing { member with roster := some r }) (roleNow { member with roster := some r }) none
      (cellsOf 1 0 .tick 0xFFF9 0x0F)
    diverged.verdict = .commit ∧ diverged.acknowledged = true ∧ diverged.divergence = true ∧
      pair.records[diverged.sender].state = .member ∧ (foreign .leave).verdict = .commit ∧
      (foreign .leave).payload = some .leave ∧ (foreign .leave).acknowledged = true ∧
      (foreign .tick).payload = some .tick ∧ pair.records[(foreign .tick).sender].state ≠ .member ∧
      late.verdict = .void ∧ late.required = some [0, 1, 2] ∧ late.ackMap.getLsbD 0 = true ∧ 3 / 2 + 1 + 1 ≤ 3 := by
  decide +kernel

/-- A VOID that removes nobody: station 1 misses once. -/
theorem witness_VoidIsAccounted :
    let rep := frameReport (hearing member) (roleNow member) none (cellsOf 1 0 .tick 0xFFFE 0x0F)
    PlainMember (hearing member) pair ∧ (hearing member).timers.silence ≠ .expired ∧ rep.verdict = .void ∧
      rep.kindCode ≠ 2 ∧ rep.required = some [0, 1] :=
  ⟨plain_member, by decide, by decide +kernel, by decide +kernel, by decide +kernel⟩

/-- A VOID that removes station 2 of three at its third miss. -/
theorem witness_VoidIsAccounted_removal :
    let three := foundedRoster 3 [0, 1, 2]
    let r := { three with records := three.records.set 2 { state := .member, miss := 2, progress := none } }
    let s := hearing { member with roster := some r }
    let rep := frameReport s (roleNow { member with roster := some r }) none (cellsOf 1 0 .tick 0xFFFC 0x0F)
    PlainMember s r ∧ rep.verdict = .void ∧ rep.required = some [0, 1, 2] ∧ rep.ackMap.getLsbD 2 = true ∧
      3 / 2 + 1 + 1 ≤ 3 :=
  ⟨⟨⟨rfl, rfl, rfl, by decide, by decide, by decide⟩, by decide⟩, by decide +kernel, by decide +kernel, by decide +kernel,
    by decide⟩

/-- Verdicts read as COMMIT, REFUSE of a JOIN, VOID, ABANDONED and unreadable. -/
theorem witness_Verdicts_read :
    let read := fun (b : FrameBody) (v : Byte) => (frameReport (hearing member) (roleNow member) none (cellsOf 1 0 b 0xFFFC v)).verdict
    read .tick 0x00 = .commit ∧ read .join 0x33 = .refuse ∧ read .tick 0x33 = .unreadable ∧ read .tick 0x0F = .void ∧
      read .tick 0xFF = .abandoned ∧ read .tick 0x03 = .unreadable := by decide +kernel

/-- A sender of a TICK and of a FOUND, and the source at a JOIN. -/
theorem witness_Verdicts_driven :
    let tx := fun (b : FrameBody) => ({ slot := 6, bytes := frameBytes 0 0 b } : Transmission)
    let role := { roleNow member with duty := true }
    senderCourse (tx .tick).bytes (cellsOf 0 0 .tick 0xFFFC 0x00) = .sent ∧
      (frameReport member role (some (tx .tick)) (cellsOf 0 0 .tick 0xFFFC 0x00)).verdictDriven = some 0x00 ∧
      (frameReport member role (some (tx .tick)) (cellsOf 0 0 .tick 0xFFFE 0x0F)).verdictDriven = some 0x0F ∧
      (frameReport (at_ .seeking) (roleNow (at_ .seeking)) (some (tx (.found 16))) (cellsOf 0 0 (.found 16) 0xFFFC 0x0F)).verdictDriven =
        some 0x0F ∧
      (frameReport member role none (cellsOf 2 0 .join 0xFFFC 0x33)).verdictDriven = some 0x33 ∧
      (frameReport member (roleNow member) none (cellsOf 2 0 .join 0xFFFC 0xFF)).verdictDriven = none := by
  decide +kernel

/-- Slots of every kind whose attempt ends, and an ACQUIRE with a RELEASE beside it. -/
theorem witness_AttemptEnds (c : SlotContent) :
    let s := { member with queue := single 0 { slotOf c true with attempts := 15 } }
    s.queue.slots[(0 : Fin 8)] = some { slotOf c true with attempts := 15 } ∧ min (15 + 1) 16 = 16 ∧
      AttemptOutcome.voided = .voided ∧ s.queue.needs[(0 : Fin 8)] ≠ some .release ∧ s.localState ≠ .leaving := by
  refine ⟨by rw [single_get]; rfl, rfl, rfl, ?_, fun h => (by cases h)⟩
  show OutboundQueue.empty.needs[(0 : Fin 8)] ≠ _
  decide

/-- A FOUND that is aborted in its header, read as another kind: it goes, and the seeker paces (R84, R118, R119). -/
theorem test_misread_found_is_removed :
    let s := { sending 7 (slotOf .found true) (.found 16) (at_ .seeking) with exchange := none }
    let cells := cellsOf 0 0 .join 0xFFFF 0xFF
    let rep := frameReport s (roleNow s) (some { slot := 7, bytes := frameBytes 0 0 (.found 16) }) cells
    let t := endFrame cells s
    rep.attempt = some .aborted ∧ isFoundCode rep.kindCode = false ∧ t.queue.slots[(7 : Fin 8)] = none ∧
      t.timers.pacing = .running 16000 ∧ t.notices = [] := by
  decide +kernel

theorem witness_AttemptEnds_beside :
    let q := { single 0 (slotOf asked true) with slots := (single 0 (slotOf asked true)).slots.set 1 (some (slotOf (.release 3 0))) }
    q.slots[(0 : Fin 8)] = some (slotOf asked true) ∧ q.slots[(1 : Fin 8)] = some (slotOf (.release 3 0)) ∧
      ∀ (i : Fin 8) (z : Slot), i.val < 1 → q.slots[i] = some z → z.content ≠ .release 3 0 := by
  refine ⟨by decide, by decide, fun i z hi h => ?_⟩
  have hi0 : i = 0 := Fin.ext (by omega)
  subst hi0
  have : some (slotOf asked true) = some z := h
  cases this
  decide

/-- The source with a joiner and an empty slot, a SNAP without the duty, and a handshake with a hold and with none. -/
theorem witness_PlacingAtAFrameEnd :
    let s := { member with roster := some (transfer [0, 1] 5 .awaitingRoster) }
    let t := withLease 3 (some (held .live)) { member with localState := .leaving }
    firstMember (transfer [0, 1] 5 .awaitingRoster) = some (stationNumber s) ∧
      (transfer [0, 1] 5 .awaitingRoster).records[(5 : Fin 16)].state = .joining ∧ s.queue.slots[(7 : Fin 8)] = none ∧
      (single 7 (slotOf .snap)).slots[(7 : Fin 8)] = some (slotOf .snap) ∧ standby.localState ≠ .member ∧
      t.localState = .leaving ∧ PairAbsent t.queue 3 0 ∧ TagIn t 3 (ownTag t 0) ∧ LowestFree t.queue 0 ∧
      MembershipOpen t.queue .snap ∧ (∀ h ∈ free.holders, h.tag.station ≠ stationNumber t) ∧
      (single 0 (slotOf (.release 3 0))).slots[(0 : Fin 8)] = some (slotOf (.release 3 0)) ∧
      NoneFree (uniform (some (slotOf (.renew [])))) :=
  ⟨by decide, by decide, by decide, by decide, by decide, rfl, pairAbsent_empty _ _,
    ⟨held .live, by decide, Or.inl ⟨_, List.mem_singleton.2 rfl, by decide⟩⟩, lowestFree_empty, Or.inl (by decide),
    (fun _ h => by cases h), by decide, full_none _⟩

/-! #### Roster, lease table, invariants -/

theorem witness_JoinAndSnapChangeTheRecords :
    (joinRecord 5 pair).records[(5 : Fin 16)].state = .joining ∧
      (joinRecord 5 pair).records[(5 : Fin 16)].progress = some .awaitingRoster ∧
      (snapProgress 0 (joinRecord 5 pair)).records[(5 : Fin 16)].progress = some (.remaining 64) ∧
      (snapProgress 64 { pair with records := pair.records.set 5 { state := .joining, miss := 0, progress := some (.remaining 1) } }).records[(5 : Fin 16)].state =
        .member := by decide

theorem witness_AcquireOutcomes :
    (∃ h ∈ (held .live).holders, h.tag = tag 0 0) ∧ ¬ ((∃ h ∈ (held .live).holders, h.tag = tag 1 0) ∨ ∃ w ∈ (held .live).waiters, w.tag = tag 1 0) ∧
      (held .live).waiters = [] ∧ (held .live).holders ≠ [] ∧ 8 ≤ (List.replicate 8 (waits 1 1 .shared 1 .unlimited)).length := by
  decide

theorem witness_AdvanceGrantsFromTheHead :
    let e : LeaseEntry := { counter := 0xFFFF, holders := [], waiters := [waits 1 1 .shared 1 .unlimited] }
    e.waiters = waits 1 1 .shared 1 .unlimited :: [] ∧ e.holders = [] ∧
      ¬ ((held .live).holders = [] ∨ Mode.shared = .shared ∧ (∀ h ∈ (held .live).holders, h.mode = .shared) ∧ (held .live).holders.length < 4) := by
  decide

theorem witness_ReleaseRenewAndPurgeOutcomes :
    (held .live).holders = [] ++ (held .live).holders.head (by decide) :: [] ∧
      ((held .live).holders.head (by decide)).tag = tag 0 0 ∧ ((held .live).holders.head (by decide)).status = .live ∧
      (∀ h ∈ (held .fenced).holders, h.tag = tag 0 0 → h.status = .fenced) ∧
      ([waits 0 0 .shared 1 .unlimited] : List Waiter) = [] ++ waits 0 0 .shared 1 .unlimited :: [] := by decide

/-- Station 0 has a LIVE hold in the entry, station 5 nothing. -/
theorem witness_ReleaseRenewAndPurgeOutcomes_purge :
    ((held .live).holders.filter fun h => h.status = .live ∧ h.tag.station = 0) ≠ [] ∧
      ((held .live).holders.filter fun h => h.status = .live ∧ h.tag.station = 5) = [] ∧
      (held .live).waiters.filter (fun w => w.tag.station ≠ 5) = (held .live).waiters := by decide

/-- An own tag and one of another station; a lease that is watched; a client bound to the lease. -/
theorem witness_ResultsAreHandedOver :
    let s := lined { member with config := { member.config with watch := 8 } }
    (tag 0 0).station = stationNumber s ∧ (tag 1 0).station ≠ stationNumber s ∧
      s.config.watch.getLsbD (3 : Lease).val = true ∧ s.localState = .member ∧
      s.config.bindings[(0 : Fin 8)] = .line 3 .exclusive 16 ∧
      (TableEvent.granted 3 (tag 0 0) 1 1).lease = 3 ∧ (TableEvent.granted 3 (tag 0 0) 1 1).tag = tag 0 0 := by decide

/-- Payloads in range at the ends of their ranges. -/
theorem witness_PayloadsReadBack :
    BodyInRange (.found 16) ∧ BodyInRange (.acquire 63 7 .shared 255 255) ∧
      BodyInRange (.renew (List.replicate 8 (63, 7))) ∧ BodyInRange (.snap (.lease 63 (held .live))) ∧
      BodyInRange (.snap (.roster 3 0xFFFFFFFF 0 (transfer [1] 15 (.remaining 64)).records)) :=
  ⟨by constructor <;> decide, ⟨by decide, by decide, by decide⟩, ⟨by decide, by decide⟩,
    (entryInRange_fits (held .live)).1 (by decide),
    ⟨by decide, by decide, fun i => (recordInRange_fits _).1 (by revert i; decide), by decide⟩⟩

/-- What is not read: a FOUND of 0 or 17, an odd or empty RENEW, an ACQUIRE of term 0 or of lease 64, a RELEASE of
client 8, a state code 11, a lease item with two EXCLUSIVE holders, a TICK with a byte. -/
theorem witness_PayloadsReadBack_refused :
    let found := fun n => readPayload .found [n]
    found 0 = none ∧ found 17 = none ∧ found 16 = some (.found 16) ∧
      readPayload .renew [] = none ∧ readPayload .renew [63, 7, 63] = none ∧
      readPayload .acquire [63, 0x87, 0, 255] = none ∧ readPayload .acquire [64, 0x87, 1, 255] = none ∧
      readPayload .acquire [63, 0xFF, 255, 255] = some (.acquire 63 7 .shared 255 255) ∧
      readPayload .release [63, 8] = none ∧ readPayload .tick [0] = none ∧
      readPayload .snap ([0, 1, 0, 0, 0, 0, 0, 0, 0, 0, 0xC0, 0] ++ List.replicate 30 0) = none ∧
      readPayload .snap [1, 0, 2, 0x20, 0x10, 0, 1, 1, 0, 1, 0x20, 0, 1, 1, 0, 2] = none := by decide

theorem witness_TickCountsDown :
    let e : LeaseEntry := { counter := 0, holders := [live 1 1 .shared 9 1 1], waiters := [waits 2 2 .exclusive 9 (.ticks 1)] }
    ((held .live).holders.map fun h => { h with remaining := h.remaining - 1 }).filter (fun h => h.remaining = 0) = [] ∧
      (e.holders.map fun h => { h with remaining := h.remaining - 1 }).filter (fun h => h.remaining = 0) ≠ [] := by
  decide

theorem witness_RequestBytesSpellTheRequest :
    (Instr.acquire 63 0x87 255 255).wellFormed = true ∧
      bytesOfRequest (.acquire 63 0x87 255 255) = some [0x20, 63, 0x87, 255, 255] ∧
      requestOfBytes [0x11, 0x80, 0, 0, 0, 0, 0, 0, 0x01] = some (.configureWatch 0x8000000000000001) ∧
      (0xFF : Byte) ∉ ([0x01, 0x10, 0x11, 0x12, 0x13, 0x20, 0x21, 0x22, 0x30, 0x31, 0x32, 0x40, 0x41, 0x4F] : List Byte) ∧
      requestOfBytes [0x21, 63] = none ∧ requestOfBytes [0x21, 63, 7, 0] = none := by decide

theorem witness_NoticeArrives :
    let n : Notice := { stamp := 0, body := .state .member }
    (∀ m ∈ List.replicate 30 n, m.isOverflow = false) ∧ (List.replicate 30 n).length < 31 ∧
      (∀ m ∈ List.replicate 31 n, m.isOverflow = false) ∧ (List.replicate 31 n).length = 31 := by decide

theorem notices_legal : NoticesLegal member.notices := Or.inr ⟨by decide, by decide⟩

/-- The premises of the invariants, in a MEMBER, which answers a next state at every step. -/
theorem witness_Invariants :
    EntriesLegal member ∧ HeadsBlocked member ∧ RecordsLegal member ∧ ReplicaPlaced member ∧ TransferCovers member ∧
      NextItemIsNew member ∧ NoticesLegal member.notices ∧ QueueLegal member.queue ∧ FrameAgrees (hearing member) ∧
      OutputsSettled (driveOutputs member) ∧ ∃ t, step member = .next t := by
  have hl : ∀ (l : Lease) (e : LeaseEntry), member.leases[l] = some e → e = free := by
    intro l e h
    have h1 : foundedLeases[l] = some free := by simp [foundedLeases, free]
    have h2 : foundedLeases[l] = some e := h
    rw [h1] at h2
    cases h2
    rfl
  refine ⟨fun l e h => ?_, fun l e h w rest hw => ?_, fun r i h => ?_, ⟨fun h => ?_, fun _ => ⟨rfl, fun l => ?_⟩⟩,
    fun r n h => (by cases h), fun cells rest l e h => (by cases h), notices_legal, ?_, ⟨rfl, rfl⟩,
    ⟨fun c => ?_, rfl, rfl⟩, ⟨_, rfl⟩⟩
  · rw [hl l e h]; decide
  · rw [hl l e h] at hw; cases hw
  · cases h; revert i; decide
  · rcases h with h | h | h <;> cases h
  · show (foundedLeases[l]).isSome = true
    simp [foundedLeases]
  · exact ⟨fun j _ x _ _ _ h _ => (empty_some h).elim, fun k x h => (empty_some h).elim⟩
  · revert c
    decide

/-- A joiner with 64 items to come, no entry known, and the first lease item waiting to be read. -/
theorem witness_Invariants_joining :
    let s := { at_ .joining with
      roster := some (transfer [1] 0 (.remaining 64))
      pending := [.frameEnd (cellsOf 1 0 (.snap (.lease 0 free)) 0xFFFC 0x00)] }
    TransferCovers s ∧ NextItemIsNew s ∧ payloadRead (cellsOf 1 0 (.snap (.lease 0 free)) 0xFFFC 0x00) =
      some (.snap (.lease 0 free)) := by
  have hp : payloadRead (cellsOf 1 0 (.snap (.lease 0 free)) 0xFFFC 0x00) = some (.snap (.lease 0 free)) := by
    decide +kernel
  refine ⟨fun r n _ hr _ hn => ?_, fun cells rest l e _ hq hb => ?_, hp⟩
  · cases hr
    have : n = 64 := by
      have h : (transfer [1] 0 (.remaining 64)).records[(0 : Fin 16)].progress = some (.remaining 64) := by decide
      have hn' : (transfer [1] 0 (.remaining 64)).records[(0 : Fin 16)].progress = some (.remaining n) := hn
      rw [h] at hn'
      cases hn'
      rfl
    rw [this]
    exact (List.length_filter_le _ _).trans (by simp)
  · cases hq
    rw [hp] at hb
    cases hb
    exact ⟨by decide, fun w rest h => by cases h⟩

end Sys2Proof.Tests
end

section
/-! PROOFS. The operations on one lease entry: ACQUIRE, the advance procedure, RELEASE, RENEW, the purges and TICK (R7 to
R26). -/

namespace Sys2Proof.Machine

/-! ### ACQUIRE (R11 to R13) -/

theorem acquireEntry_duplicate {l : Lease} {tag : Tag} {m : Mode} {t p : Nat} {e : LeaseEntry}
    (h : e.hasTag tag = true) : acquireEntry l tag m t p e = (e, [.deniedDuplicate l tag]) := by
  rw [acquireEntry, if_pos h]

theorem acquireEntry_granted {l : Lease} {tag : Tag} {m : Mode} {t p : Nat} {e : LeaseEntry}
    (h : ¬ e.hasTag tag = true) (hw : e.waiters = []) (hf : Fits e.holders m) :
    acquireEntry l tag m t p e = (grantTo tag m t e, [grantEvent l tag e]) := by
  rw [acquireEntry, if_neg h, if_pos ⟨hw, (compatible_fits _ _).2 hf⟩]

/-- A new tag that is not granted at once is refused or appended (R11). -/
theorem acquireEntry_not_granted {l : Lease} {tag : Tag} {m : Mode} {t p : Nat} {e : LeaseEntry}
    (h : ¬ e.hasTag tag = true) (hf : ¬ (e.waiters = [] ∧ Fits e.holders m)) :
    acquireEntry l tag m t p e =
      if p = 0 then (e, [.deniedBusy l tag])
      else if 8 ≤ e.waiters.length then (e, [.deniedQueueFull l tag])
      else
        ({ e with waiters := e.waiters ++ [{ tag := tag, mode := m, term := t, patience := patienceOf p }] },
          [.queued l tag (e.waiters.length + 1)]) := by
  rw [← compatible_fits] at hf
  rw [acquireEntry, if_neg h, if_neg hf]
  rfl

/-- Settles O47, by the checks of R11 in their order. -/
theorem acquireOutcomes : Obligations.AcquireOutcomes := by
  intro l tag m t p e present fits number
  have hpresent : e.hasTag tag = true ↔ present := hasTag_true_iff e tag
  refine ⟨fun h => acquireEntry_duplicate (hpresent.2 h),
    fun h hw hf => acquireEntry_granted (mt hpresent.1 h) hw hf, fun h hf => ?_⟩
  rw [acquireEntry_not_granted (mt hpresent.1 h) hf]
  refine ⟨fun hp => if_pos hp, fun hp hfull => ?_, fun hp hroom => ?_⟩
  · rw [if_neg hp, if_pos hfull]
  · rw [if_neg hp, if_neg (Nat.not_le.2 hroom)]
    rfl

/-! ### The advance procedure (R7) -/

/-- The advance procedure reads the queue it is given, not the one that stands in the entry. -/
theorem advanceQueue_setWaiters (l : Lease) (ws vs : List Waiter) (e : LeaseEntry) :
    advanceQueue l ws { e with waiters := vs } = advanceQueue l ws e := by
  induction ws generalizing e with
  | nil => rfl
  | cons w rest ih =>
    have hg : grantTo w.tag w.mode w.term { e with waiters := vs } =
        { grantTo w.tag w.mode w.term e with waiters := vs } := rfl
    unfold advanceQueue
    rw [hg, ih]
    rfl

theorem advance_of_no_waiters {l : Lease} {e : LeaseEntry} (h : e.waiters = []) : advance l e = (e, []) := by
  rw [advance, h, advanceQueue, ← h]

theorem advance_of_head_blocked {l : Lease} {e : LeaseEntry} {w : Waiter} {rest : List Waiter}
    (h : e.waiters = w :: rest) (hf : ¬ Fits e.holders w.mode) : advance l e = (e, []) := by
  rw [← compatible_fits] at hf
  rw [advance, h, advanceQueue, if_neg hf, ← h]

theorem advance_of_head_fits {l : Lease} {e : LeaseEntry} {w : Waiter} {rest : List Waiter}
    (h : e.waiters = w :: rest) (hf : Fits e.holders w.mode) :
    advance l e =
      ((advance l { grantTo w.tag w.mode w.term e with waiters := rest }).1,
        grantEvent l w.tag e :: (advance l { grantTo w.tag w.mode w.term e with waiters := rest }).2) := by
  rw [← compatible_fits] at hf
  have hnext : advance l { grantTo w.tag w.mode w.term e with waiters := rest } =
      advanceQueue l rest (grantTo w.tag w.mode w.term e) := advanceQueue_setWaiters l rest rest _
  rw [hnext, advance, h, advanceQueue, if_pos hf]

/-- Settles O48, by the head of the queue. -/
theorem advanceGrantsFromTheHead : Obligations.AdvanceGrantsFromTheHead := by
  intro l e
  refine ⟨advance_of_no_waiters, fun w rest h => ?_⟩
  exact ⟨nextGrant_ne_zero e.counter, advance_of_head_blocked h, advance_of_head_fits h⟩

/-! ### RELEASE, RENEW, the removal and the leaving of a station (R14 to R17, R22, R26) -/

theorem isLiveOf_iff (tag : Tag) (h : Holder) : Holder.isLiveOf tag h = true ↔ h.tag = tag ∧ h.status = .live := by
  simp [Holder.isLiveOf]

theorem not_isLiveOf_of_tag_ne {tag : Tag} {h : Holder} (ht : h.tag ≠ tag) : ¬ Holder.isLiveOf tag h = true :=
  fun hl => ht ((isLiveOf_iff tag h).1 hl).1

theorem not_isLiveOf_of_fenced {tag : Tag} {h : Holder} (hf : h.tag = tag → h.status = .fenced) :
    ¬ Holder.isLiveOf tag h = true := by
  rw [isLiveOf_iff]
  rintro ⟨ht, hl⟩
  rw [hf ht] at hl
  cases hl

/-- Removing a record closes the gap and keeps the order of the others (R3, R4). -/
theorem eraseP_of_first {α : Type} {p : α → Bool} {front back : List α} {a : α}
    (hfront : ∀ b ∈ front, ¬ p b = true) (ha : p a = true) : (front ++ a :: back).eraseP p = front ++ back := by
  rw [List.eraseP_append_right _ hfront, List.eraseP_cons_of_pos ha]

theorem releaseEntry_of_liveHolder_some {l : Lease} {tag : Tag} {e : LeaseEntry} {h : Holder}
    (hh : e.liveHolder tag = some h) :
    releaseEntry l tag e =
      ((advance l { e with holders := e.holders.eraseP (Holder.isLiveOf tag) }).1,
        .released l tag h.grant (e.holders.length - 1) ::
          (advance l { e with holders := e.holders.eraseP (Holder.isLiveOf tag) }).2) := by
  simp only [releaseEntry, hh]

/-- Without a LIVE holder of the tag a RELEASE looks at the waiters (R15, R16). -/
theorem releaseEntry_of_liveHolder_none {l : Lease} {tag : Tag} {e : LeaseEntry} (hh : e.liveHolder tag = none) :
    releaseEntry l tag e =
      if e.waiters.any (fun w => w.tag = tag) then
        ((advance l { e with waiters := e.waiters.eraseP fun w => w.tag = tag }).1,
          .withdrawn l tag :: (advance l { e with waiters := e.waiters.eraseP fun w => w.tag = tag }).2)
      else (e, []) := by
  simp only [releaseEntry, hh]

theorem releaseEntry_first_liveHolder {l : Lease} {tag : Tag} {e : LeaseEntry} {front back : List Holder} {h : Holder}
    (he : e.holders = front ++ h :: back) (hh : Holder.isLiveOf tag h = true)
    (hfront : ∀ g ∈ front, ¬ Holder.isLiveOf tag g = true) :
    releaseEntry l tag e =
      ((advance l { e with holders := front ++ back }).1,
        .released l tag h.grant (front.length + back.length) :: (advance l { e with holders := front ++ back }).2) := by
  have hfind : e.liveHolder tag = some h := by
    rw [LeaseEntry.liveHolder, he, List.find?_append, List.find?_eq_none.2 hfront, List.find?_cons_of_pos hh]
    rfl
  have hleft : e.holders.length - 1 = front.length + back.length := by
    rw [he, List.length_append, List.length_cons]
    omega
  rw [releaseEntry_of_liveHolder_some hfind, hleft, he, eraseP_of_first hfront hh]

/-- A RENEW leaves the holders that are not LIVE holders of its tag (R17). -/
theorem renewHolders_not_live {tag : Tag} {hs : List Holder} (h : ∀ g ∈ hs, ¬ Holder.isLiveOf tag g = true) :
    (hs.map fun g => if Holder.isLiveOf tag g then { g with remaining := g.term } else g) = hs := by
  conv_rhs => rw [← List.map_id hs]
  exact List.map_congr_left fun g hg => if_neg (h g hg)

theorem renewEntry_only_liveHolder {tag : Tag} {e : LeaseEntry} {front back : List Holder} {h : Holder}
    (he : e.holders = front ++ h :: back) (hh : Holder.isLiveOf tag h = true)
    (hfront : ∀ g ∈ front, ¬ Holder.isLiveOf tag g = true) (hback : ∀ g ∈ back, ¬ Holder.isLiveOf tag g = true) :
    renewEntry tag e = { e with holders := front ++ { h with remaining := h.term } :: back } := by
  rw [renewEntry, he, List.map_append, List.map_cons, renewHolders_not_live hfront, renewHolders_not_live hback,
    if_pos hh]

theorem renewEntry_no_liveHolder {tag : Tag} {e : LeaseEntry} (h : ∀ g ∈ e.holders, ¬ Holder.isLiveOf tag g = true) :
    renewEntry tag e = e := by
  rw [renewEntry, renewHolders_not_live h]

theorem liveHolder_eq_none {tag : Tag} {e : LeaseEntry} (h : ∀ g ∈ e.holders, ¬ Holder.isLiveOf tag g = true) :
    e.liveHolder tag = none := List.find?_eq_none.2 h

theorem releaseEntry_first_waiter {l : Lease} {tag : Tag} {e : LeaseEntry} {front back : List Waiter} {w : Waiter}
    (hh : e.liveHolder tag = none) (he : e.waiters = front ++ w :: back) (hw : w.tag = tag)
    (hfront : ∀ v ∈ front, v.tag ≠ tag) :
    releaseEntry l tag e =
      ((advance l { e with waiters := front ++ back }).1,
        .withdrawn l tag :: (advance l { e with waiters := front ++ back }).2) := by
  have hany : e.waiters.any (fun w => w.tag = tag) = true := by
    rw [he]
    simp [hw]
  have hrest : e.waiters.eraseP (fun w => w.tag = tag) = front ++ back := by
    rw [he]
    exact eraseP_of_first (by simpa using hfront) (by simpa using hw)
  rw [releaseEntry_of_liveHolder_none hh, if_pos hany, hrest]

theorem releaseEntry_no_record {l : Lease} {tag : Tag} {e : LeaseEntry} (hh : e.liveHolder tag = none)
    (hw : ∀ w ∈ e.waiters, w.tag ≠ tag) : releaseEntry l tag e = (e, []) := by
  have hany : ¬ e.waiters.any (fun w => w.tag = tag) = true := by
    simpa using hw
  rw [releaseEntry_of_liveHolder_none hh, if_neg hany]

theorem purgeLeft_no_record {j : Station} {l : Lease} {e : LeaseEntry}
    (hh : (e.holders.filter fun h => h.status = .live ∧ h.tag.station = j) = [])
    (hw : (e.waiters.filter fun w => w.tag.station ≠ j) = e.waiters) : purgeLeft j l e = (e, []) :=
  if_pos ⟨hh, hw⟩

/-- A holder that does not leave with its station is FENCED or of another station (R26). -/
theorem filter_not_live_of (j : Station) (hs : List Holder) :
    (hs.filter fun h => ¬ (h.status = .live ∧ h.tag.station = j)) =
      hs.filter fun h => h.status = .fenced ∨ h.tag.station ≠ j := by
  refine List.filter_congr fun h _ => ?_
  cases h.status <;> simp

/-- Settles O49, by the place of the record in the entry, and by the purges in the words of Safety.lean. -/
theorem releaseRenewAndPurgeOutcomes : Obligations.ReleaseRenewAndPurgeOutcomes := by
  refine ⟨fun l tag e => ⟨?_, ?_⟩, fun l e => ⟨?_, ?_⟩⟩
  · intro front back h he htag hlive hfront hback
    have hh := (isLiveOf_iff tag h).2 ⟨htag, hlive⟩
    have hfront' : ∀ g ∈ front, ¬ Holder.isLiveOf tag g = true := fun g hg => not_isLiveOf_of_tag_ne (hfront g hg)
    have hback' : ∀ g ∈ back, ¬ Holder.isLiveOf tag g = true := fun g hg => not_isLiveOf_of_tag_ne (hback g hg)
    exact ⟨releaseEntry_first_liveHolder he hh hfront', renewEntry_only_liveHolder he hh hfront' hback'⟩
  · intro hfenced
    have hnot : ∀ g ∈ e.holders, ¬ Holder.isLiveOf tag g = true := fun g hg => not_isLiveOf_of_fenced (hfenced g hg)
    have hnone := liveHolder_eq_none hnot
    exact ⟨renewEntry_no_liveHolder hnot, fun front back w he hw hfront => releaseEntry_first_waiter hnone he hw hfront,
      releaseEntry_no_record hnone⟩
  · intro stations holders waiters
    rw [removalPurge_eq]
    exact ⟨fun hh hw => if_pos ⟨hh, hw⟩, fun hchanged => if_neg (not_and_or.2 hchanged)⟩
  · intro j gone holders waiters
    rw [leavePurge_eq]
    refine ⟨purgeLeft_no_record, fun hchanged => ?_⟩
    refine ⟨gone.mapIdx fun i h => .leftWithStation l h.tag h.grant (e.holders.length - (i + 1)), ?_,
      List.length_mapIdx, fun i h hi => ?_⟩
    · refine (if_neg (not_and_or.2 hchanged)).trans ?_
      rw [filter_not_live_of]
    · rw [List.getElem?_mapIdx, hi]
      rfl

/-! ### TICK (R18 to R20) -/

/-- How the record of a holder that reached 0 is reported, with the count of holders left (R19). -/
def endEvent (l : Lease) (h : Holder) (left : Nat) : TableEvent :=
  if h.status = .live then .expired l h.tag h.grant left else .fenceEnded l h.tag h.grant left

theorem expiryEvents_cons (l : Lease) (n : Nat) (h : Holder) (rest : List Holder) :
    expiryEvents l n (h :: rest) = endEvent l h (n - 1) :: expiryEvents l (n - 1) rest := by
  unfold endEvent
  rw [expiryEvents]
  cases h.status <;> rfl

/-- The expiries and ends of fences, each with the count of holders left just after it (R19, R20). -/
theorem expiryEvents_eq (l : Lease) (gone : List Holder) (n : Nat) :
    expiryEvents l n gone = gone.mapIdx fun i h => endEvent l h (n - (i + 1)) := by
  induction gone generalizing n with
  | nil => rfl
  | cons h rest ih =>
    rw [expiryEvents_cons, ih, List.mapIdx_cons]
    refine congrArg _ (List.mapIdx_eq_mapIdx_iff.2 fun i _ => ?_)
    rw [show n - 1 - (i + 1) = n - (i + 1 + 1) by omega]

theorem tickEntry_of_none_gone {l : Lease} {e : LeaseEntry}
    (hg : ((countDown e).holders.filter fun h => h.remaining = 0) = [])
    (hw : (countDown e).waiters.filter outOfPatience = []) : tickEntry l e = (countDown e, []) :=
  if_pos ⟨hg, hw⟩

/-- Settles O50, by whether a record reaches 0. -/
theorem tickCountsDown : Obligations.TickCountsDown := by
  intro l e holders waiters gone late
  refine ⟨tickEntry_of_none_gone, fun hended => ?_⟩
  refine ⟨gone.mapIdx fun i h => endEvent l h (holders.length - (i + 1)), ?_, List.length_mapIdx, fun i h hi => ?_⟩
  · refine (if_neg (not_and_or.2 hended)).trans ?_
    rw [expiryEvents_eq]
    have hlate : (countDown e).waiters.filter (fun w => !outOfPatience w) =
        waiters.filter fun w => w.patience ≠ .ticks 0 := by
      refine List.filter_congr fun w _ => ?_
      simp [outOfPatience]
    rw [hlate]
    rfl
  · rw [List.getElem?_mapIdx, hi]
    rfl

end Sys2Proof.Machine
end

section
/-! PROOFS. The hand-over of results to the notification queue and the client unit (R10, R150, R186). -/

namespace Sys2Proof.Machine

/-! ### The hand-over (R10, R139, R150, R152, R154, R186) -/

theorem eventNotices_of_own {s : State} {ev : TableEvent} (h : ev.tag.station = stationNumber s) :
    eventNotices s ev = ownEventNotices s ev := if_pos h

theorem eventNotices_of_other {s : State} {ev : TableEvent} (h : ev.tag.station ≠ stationNumber s) :
    eventNotices s ev = watchNotices s ev := if_neg h

/-- A holder-set change brings its WATCH notice where the lease is watched (R186). -/
theorem watchNotices_some {s : State} {ev : TableEvent} {b : NoticeBody} (h : watchOf ev = some b) :
    watchNotices s ev =
      if s.config.watch.getLsbD ev.lease.val = true ∧ (s.localState = .member ∨ s.localState = .leaving) then [b]
      else [] := by
  rw [watchNotices, h]
  rfl

/-- Any other hand-over brings none. -/
theorem watchNotices_none {s : State} {ev : TableEvent} (h : watchOf ev = none) : watchNotices s ev = [] := by
  rw [watchNotices, h]
  exact ite_self _

/-- The client unit leaves a result that is not of an own tag on the lease its client is bound to. -/
theorem takeResult_of_not_bound {s : State} {ev : TableEvent}
    (h : ev.tag.station ≠ stationNumber s ∨ ∀ m t, s.config.bindings[ev.tag.client] ≠ .line ev.lease m t) :
    takeResult ev s = s := by
  unfold takeResult
  split
  · rename_i hown
    have hunbound := h.resolve_left (not_not.2 hown)
    cases hb : s.config.bindings[ev.tag.client] with
    | port => rw [lineBinding_port s _ hb]
    | line k m t =>
      rw [lineBinding_line s _ k m t hb]
      refine if_neg ?_
      rintro rfl
      exact hunbound m t hb
  · rfl

theorem takeResult_of_bound {s : State} {ev : TableEvent} {m : Mode} {t : Nat}
    (hown : ev.tag.station = stationNumber s) (hb : s.config.bindings[ev.tag.client] = .line ev.lease m t) :
    takeResult ev s = setClientState ev.tag.client (resultState s.clients[ev.tag.client].state ev) s := by
  unfold takeResult
  rw [if_pos hown, lineBinding_line s _ _ m t hb]
  exact if_pos rfl

theorem handOver_eq (s : State) (ev : TableEvent) :
    handOver s ev =
      takeResult ev { s with notices := arriveInOrder (commitStamp s) (eventNotices s ev) s.notices } := by
  rw [handOver, notifyAll_arrive]

/-- Settles O51, by the kind of result and the binding of the client. -/
theorem resultsAreHandedOver : Obligations.ResultsAreHandedOver := by
  intro s l tag g n p c own watched added gone tells
  refine ⟨fun hown => ?_, fun hother => ?_, ?_⟩
  · have told : ∀ ev : TableEvent, ev.tag = tag → eventNotices s ev = ownEventNotices s ev := by
      rintro ev rfl
      exact eventNotices_of_own hown
    refine ⟨told _ rfl, told _ rfl, told _ rfl, told _ rfl, told _ rfl, told _ rfl, told _ rfl, told _ rfl,
      told _ rfl, (told _ rfl).trans (watchNotices_some rfl), told _ rfl⟩
  · have watch : ∀ (ev : TableEvent) (b : NoticeBody), ev.tag = tag → ev.lease = l → watchOf ev = some b →
        tells ev (watched b) := by
      rintro ev b rfl rfl hb
      exact (eventNotices_of_other hother).trans (watchNotices_some hb)
    have silent : ∀ ev : TableEvent, ev.tag = tag → watchOf ev = none → tells ev [] := by
      rintro ev rfl hb
      exact (eventNotices_of_other hother).trans (watchNotices_none hb)
    exact ⟨watch _ _ rfl rfl rfl, watch _ _ rfl rfl rfl, watch _ _ rfl rfl rfl, watch _ _ rfl rfl rfl,
      watch _ _ rfl rfl rfl, silent _ rfl rfl, silent _ rfl rfl, silent _ rfl rfl, silent _ rfl rfl,
      silent _ rfl rfl, silent _ rfl rfl⟩
  · rintro ev rfl rfl
    refine ⟨handOver_eq s ev, takeResult_of_not_bound, fun m t hown hb => ?_⟩
    rw [takeResult_of_bound hown hb]
    rfl

end Sys2Proof.Machine
end

section
/-! PROOFS. Every step keeps the replica in order (R1, R3 to R5, R31, R32, R52, R53, R70). -/

namespace Sys2Proof.Machine

/-! ### What a step is -/

/-- A step is the front command on the rest of the queue; on an empty queue it is a command that is no frame end, on
the state but for the wires of the port, or the change of an idle station. -/
theorem step_cases {s t : State} (h : step s = .next t) :
    (∃ c rest, s.pending = c :: rest ∧ exec c { s with pending := rest } = .next t) ∨
      (∃ c u, WiresOnly s u ∧ (∀ cells, c ≠ .frameEnd cells) ∧ exec c u = .next t) ∨ t = idleChange s := by
  unfold step at h
  split at h
  · unfold idleStep at h
    split at h
    · rename_i c u hi
      obtain ⟨hu, hc⟩ := idleCommand_some hi
      refine .inr (.inl ⟨c, u, ?_, hc, h⟩)
      obtain rfl | rfl := hu
      · rfl
      · exact dropInput_wires s
    · cases h
      exact .inr (.inr rfl)
  · rename_i c rest hq
    exact .inl ⟨c, rest, hq, h⟩

theorem WiresOnly.place {s t : State} (h : WiresOnly s t) : SamePlace s t := by
  rw [h]
  exact ⟨rfl, rfl, rfl, rfl⟩

theorem idleChange_placed (s : State) (hs : ReplicaInOrder s) : ReplicaInOrder (idleChange s) :=
  idleChange_keeps ReplicaInOrder (fun _ _ hw h => hw.place.placed h) clockCycle_placed s hs

/-- A command other than FRAME_END asks nothing of the state for the replica to stay in order. -/
theorem frameFits_of_not_frameEnd {c : Instr} (hc : ∀ cells, c ≠ .frameEnd cells) (s : State) : FrameFits c s :=
  fun cells h => absurd h (hc cells)

/-- A frame end at the front of the queue finds the frame in agreement with the roster, and a lease item only for an
entry still unknown. -/
theorem frameFits_front {s : State} {c : Instr} {rest : List Instr} (hq : s.pending = c :: rest) (hf : FrameAgrees s)
    (hn : NextItemIsNew s) : FrameFits c { s with pending := rest } := by
  rintro cells rfl
  refine ⟨hf, ?_⟩
  rintro _ hb l e hj rfl
  exact hn cells rest l e hj hq hb

/-- A step keeps the replica in order. -/
theorem step_placed {s t : State} (hf : FrameAgrees s) (hn : NextItemIsNew s) (h : step s = .next t)
    (hs : ReplicaInOrder s) : ReplicaInOrder t := by
  obtain ⟨c, rest, hq, hx⟩ | ⟨c, u, hw, hc, hx⟩ | rfl := step_cases h
  · have hs' : ReplicaInOrder { s with pending := rest } := hs.of ⟨rfl, rfl, rfl, rfl⟩
    exact exec_placed c _ t hx (frameFits_front hq hf hn) hs'
  · exact exec_placed c u t hx (frameFits_of_not_frameEnd hc u) (hs.of hw.place)
  · exact idleChange_placed s hs

theorem SamePlace.entries {s t : State} (h : SamePlace s t) (hs : EntriesLegal s) : EntriesLegal t := by
  unfold EntriesLegal at hs ⊢
  rw [h.leases]
  exact hs

/-- A step keeps every known entry within its ranges and limits. -/
theorem step_entries {s t : State} (h : step s = .next t) (hs : EntriesLegal s) : EntriesLegal t :=
  step_keeps EntriesLegal (fun _ _ hs => hs) (fun c s t hs hx => exec_entries c s t hx hs)
    (fun s => (clockCycle_command s).legal) (fun _ _ hw => hw.place.entries) s t hs h

/-- Settles O54, by what a step is and what each command keeps. -/
theorem stepKeepsTheReplica : Obligations.StepKeepsTheReplica := by
  intro s t hEntries hHeads hRecords hPlaced hCovers hAgrees hNew h
  have hInOrder := step_placed hAgrees hNew h ⟨hHeads, hRecords, hPlaced, hCovers⟩
  exact ⟨step_entries h hEntries, hInOrder.heads, hInOrder.records, hInOrder.placed, hInOrder.covers⟩

end Sys2Proof.Machine
end

section
/-! PROOFS. Every step keeps what a frame in progress fixed of the roster in agreement with it (R36, R96). -/

namespace Sys2Proof.Machine

/-- The wires of the port are no part of the agreement. -/
theorem WiresOnly.frameAgrees {s t : State} (h : WiresOnly s t) (hs : FrameAgrees s) : FrameAgrees t := by
  rw [h]
  exact hs

/-- Every command keeps the frame in agreement: a frame end leaves none in progress, and no other command changes the
roster under one. -/
theorem exec_frameAgrees {c : Instr} {s t : State} (h : exec c s = .next t) (hs : FrameAgrees s) : FrameAgrees t := by
  cases c with
  | frameEnd cells =>
    have ht : t = driveOutputs (if s.resetLow then s else endFrame cells s) := by cases h; rfl
    rw [ht]
    refine (driveOutputs_command _).frame ?_
    split
    · exact hs
    · obtain hsame | hend := endFrame_step cells s
      · rw [hsame]
        exact hs
      · exact hend.frame
  | _ => exact (exec_command _ s t (by intro cells; simp) h).frame hs

/-- Settles O58, by what every command and every cycle of the clock keeps. -/
theorem stepKeepsTheFrameInAgreement : Obligations.StepKeepsTheFrameInAgreement := by
  intro s t hs h
  exact step_keeps FrameAgrees (fun _ _ hs => hs) (fun _ _ _ hs hx => exec_frameAgrees hx hs)
    (fun s => (clockCycle_command s).frame) (fun _ _ hw => hw.frameAgrees) s t hs h

end Sys2Proof.Machine
end

section
/-! PROOFS. JOIN, LEAVE and SNAP frames at a MEMBER, and the LEAVE of the station itself (R39, R48 to R53). -/

namespace Sys2Proof.Machine

/-! ### How a JOIN and a SNAP change the records (R48, R52, R53) -/

/-- A JOIN starts a transfer afresh unless another record is JOINING (R48). -/
theorem joinRecord_eq (j : Station) (r : Roster) :
    joinRecord j r =
      { r with
        cursor := if ∃ i : Fin 16, i ≠ j ∧ r.records[i].state = .joining then r.cursor else 0
        records := r.records.set j awaitingRecord } := by
  have hother : (joiningStations r).any (fun i => i ≠ j) = true ↔
      ∃ i : Fin 16, i ≠ j ∧ r.records[i].state = .joining := by
    simp [joiningStations, allStations, and_comm]
  unfold joinRecord
  simp only [hother]
  rfl

theorem snapProgress_cursor_val (item : Fin 65) (r : Roster) :
    (snapProgress item r).cursor.val = (item.val + 1) % 65 := Fin.val_add item 1

theorem progressRecord_not_joining {item : Fin 65} {x : StationRecord} (h : x.state ≠ .joining) :
    progressRecord item x = x := if_neg h

theorem progressRecord_awaiting {item : Fin 65} {x : StationRecord} (h : x.state = .joining)
    (hp : x.progress = some .awaitingRoster) :
    progressRecord item x = if item = 0 then { x with progress := some (.remaining 64) } else x := by
  rw [progressRecord, if_pos h, hp]

theorem progressRecord_remaining {item : Fin 65} {x : StationRecord} {n : Nat} (h : x.state = .joining)
    (hp : x.progress = some (.remaining n)) :
    progressRecord item x =
      if item = 0 then x else if n ≤ 1 then memberRecord else { x with progress := some (.remaining (n - 1)) } := by
  rw [progressRecord, if_pos h, hp]

/-- Settles O46, by the state and the progress of the record. -/
theorem joinAndSnapChangeTheRecords : Obligations.JoinAndSnapChangeTheRecords := by
  intro r j item
  obtain ⟨hexpected, hcommits, hticks⟩ := snapProgress_counts item r
  refine ⟨joinRecord_eq j r, snapProgress_cursor_val item r, hexpected, hcommits, hticks, ?_⟩
  intro i x y
  have hy : y = progressRecord item x := snapProgress_get item r i
  rw [hy]
  refine ⟨progressRecord_not_joining, progressRecord_awaiting, fun n hjoining hp hn => ?_⟩
  have hlast : n ≤ 1 ↔ n = 1 := ⟨fun h => Nat.le_antisymm h hn, Nat.le_of_eq⟩
  rw [progressRecord_remaining hjoining hp]
  simp only [hlast]
  rfl

/-! ### A frame applied at a MEMBER (R39, R104) -/

theorem exec_frameEnd_high {s : State} (h : s.resetLow = false) (cells : List LineCell) :
    exec (.frameEnd cells) s = .next (driveOutputs (endFrame cells s)) := by
  show execFrameEnd cells s = _
  rw [execFrameEnd, h]
  rfl

/-- A frame end at a receiver that is engaged in the frame. -/
theorem exec_frameEnd_receiving {s : State} {role : Role} {cells : List LineCell} (hreset : s.resetLow = false)
    (hphase : s.line.phase = .receiving role) (hengaged : role.engaged = true) :
    let rep := frameReport s role none cells
    exec (.frameEnd cells) s = .next (driveOutputs (frameEndSteps none rep { s with line := lineAfter s 0 rep })) := by
  rw [exec_frameEnd_high hreset, endFrame_receiving cells s role hphase hengaged]
  rfl

/-- A COMMIT or REFUSE that reports and hands over, at a MEMBER at rest: the replica as the kind leaves it, the counts
and the silence timer as at any commit, the source duty by the new roster, and the SNAP of its holder. -/
theorem exec_frameEnd_applied {s : State} {role : Role} {cells : List LineCell} {r after : Roster} {req : List Station}
    {b : FrameBody} {table : LeaseTable} {told : List NoticeBody} {events : List TableEvent}
    (hphase : s.line.phase = .receiving role) (hrest : MemberAtRest s r) :
    let rep := frameReport s role none cells
    rep.verdict = .commit ∨ rep.verdict = .refuse → rep.payload = some b → rep.acknowledged = true →
    rep.required = some req → (∀ n, b ≠ .found n) → commitTrigger rep b r = none →
    applyKind (stationNumber s) .member rep b r s.leases =
      { roster := after, leases := table, effect := { rosterNotices := told, events := events } } →
    after.commits = r.commits →
    let duty := decide (firstMember after = some (stationNumber s))
    exec (.frameEnd cells) s = .next (driveOutputs
      { s with
        line := lineAfter s 0 rep
        leases := table
        roster := some (afterCommit req after)
        sourceDuty := duty
        timers := { s.timers with silence := ticking s 3 }
        queue := if duty ∧ ∃ i : Fin 16, after.records[i].state = .joining then placeSlot 7 .snap s.queue else s.queue
        notices :=
          arriveInOrder ((r.commits + 1).setWidth 16) (told ++ events.flatMap (eventNotices s)) s.notices }) := by
  obtain ⟨hreset, hmember, hroster, hports, hneeds, hslot⟩ := hrest
  intro rep hverdict hbody hack hreq hfound htrigger hkind hcommits duty
  rw [exec_frameEnd_receiving hreset hphase (engaged_of_payload s role cells b hbody)]
  have hverdictTaken := takeVerdict_restarts rep { s with line := lineAfter s 0 rep } (.inr (.inl hmember)) hverdict
  have happlied := applyFrame_at rep { s with line := lineAfter s 0 rep } _ r req b _ hverdict hbody hack hreq hfound
    hverdictTaken hroster ((congrArg (fun x => applyKind (stationNumber s) x rep b r s.leases) hmember).trans hkind)
  rw [frameEndSteps_member none rep _ _ _ ({ s with line := lineAfter s 0 rep }, {}) (afterCommit req after) rfl
    happlied rfl rfl hports hneeds rfl hmember hslot rfl htrigger (by simp [ticking]) rfl rfl rfl]
  simp only [firstMember_afterCommit, afterCommit_state, List.nil_append, ← hcommits]
  rfl

/-! ### JOIN (R48, R49, R185) -/

/-- Settles O37, by what a JOIN and its refusal do at a MEMBER. -/
theorem joinFramesAtAMember : Obligations.JoinFramesAtAMember := by
  intro s role cells r req hphase hplain rep j own hbody hack hdiv hreq hother base stamp purged joined duty
  obtain ⟨hrest, hquiet⟩ := hplain
  have htrigger : commitTrigger rep .join r = none := commitTrigger_none rep .join r hdiv (.inl rfl)
  have hfound : ∀ n, FrameBody.join ≠ .found n := fun n => FrameBody.noConfusion
  refine ⟨fun hv => ?_, fun hv => ?_⟩
  · have hkind : applyKind own .member rep .join r s.leases =
        { roster := joined
          leases := purged.1
          effect :=
            { rosterNotices :=
                if r.records[j].state = .member then [.roster j .removed, .roster j .joined] else [.roster j .joined]
              events := purged.2 } } := by
      rw [applyKind, if_neg (by rw [hv]; simp)]
      exact applyJoin_plain own j r s.leases hquiet hother
    rw [exec_frameEnd_applied hphase hrest (.inl hv) hbody hack hreq hfound htrigger hkind rfl]
    have hjoining : ∃ i : Fin 16, joined.records[i].state = .joining := ⟨j, by simp [joined]⟩
    simp only [hjoining, and_true]
    rfl
  · have hkind : applyKind own .member rep .join r s.leases =
        { roster := r, leases := s.leases, effect := { rosterNotices := [.roster j .deniedFull], events := [] } } := by
      rw [applyKind, if_pos hv, applyRefusal, rosterNotice, if_neg hother]
    rw [exec_frameEnd_applied hphase hrest (.inr hv) hbody hack hreq hfound htrigger hkind rfl,
      if_neg (fun h => h.2.elim hquiet)]
    rfl

/-! ### SNAP (R52, R53, R57, R58) -/

/-- Settles O40, by what a SNAP does at a MEMBER. -/
theorem snapFramesAtAMember : Obligations.SnapFramesAtAMember := by
  intro s role cells r req item hphase hrest rep hread moved duty
  obtain ⟨hv, hbody, hack, hdiv, hreq, hsender⟩ := hread
  have htrigger := commitTrigger_none rep (.snap item) r hdiv (.inr hsender)
  have hkind : applyKind (stationNumber s) .member rep (.snap item) r s.leases = _ :=
    applySnap_member (stationNumber s) rep.sender item r moved s.leases hsender rfl
  rw [exec_frameEnd_applied hphase hrest (.inl hv) hbody hack hreq (fun n => FrameBody.noConfusion) htrigger hkind
    (snapProgress_counts (itemNumber item) r).2.1]
  simp only [List.flatMap_nil, List.append_nil]
  rfl

/-! ### LEAVE (R26, R51, R141, R142, R144) -/

theorem setAbsent_not_joining {r : Roster} (j : Station) (h : ∀ i : Station, r.records[i].state ≠ .joining)
    (i : Station) : (setRecord j absentRecord r).records[i].state ≠ .joining := by
  unfold setRecord absentRecord
  simp only [Fin.getElem_fin, Vector.getElem_set]
  split
  · simp
  · exact h i

/-- A LEAVE of another MEMBER at a receiver in MEMBER. -/
theorem leaveFrames_of_another {s : State} {role : Role} {cells : List LineCell} {r : Roster} {req : List Station}
    (hphase : s.line.phase = .receiving role) (hplain : PlainMember s r) :
    let rep := frameReport s role none cells
    let j := rep.sender
    ReadsCommitted rep r req .leave → j ≠ stationNumber s →
    let left := onEveryEntry (purgeLeft j) s.leases
    let without := setRecord j absentRecord r
    exec (.frameEnd cells) s = .next (driveOutputs
      { s with
        line := lineAfter s 0 rep
        leases := left.1
        roster := some (afterCommit req without)
        sourceDuty := firstMember without = some (stationNumber s)
        timers := { s.timers with silence := ticking s 3 }
        notices := arriveInOrder ((r.commits + 1).setWidth 16)
          (.roster j .left :: left.2.flatMap (eventNotices s)) s.notices }) := by
  intro rep j hread hother left without
  obtain ⟨hrest, hquiet⟩ := hplain
  obtain ⟨hv, hbody, hack, hdiv, hreq, hsender⟩ := hread
  have htrigger := commitTrigger_none rep .leave r hdiv (.inr hsender)
  have hkind : applyKind (stationNumber s) .member rep .leave r s.leases =
      { roster := without, leases := left.1, effect := { rosterNotices := [.roster j .left], events := left.2 } } := by
    refine (applyLeave_member (stationNumber s) j r s.leases hsender).trans ?_
    rw [if_neg hother, decide_eq_false hother]
    rfl
  rw [exec_frameEnd_applied hphase hrest (.inl hv) hbody hack hreq (fun n => FrameBody.noConfusion) htrigger hkind rfl,
    if_neg (fun h => h.2.elim (setAbsent_not_joining j hquiet))]
  rfl

/-- A station that stands in no known entry leaves none (R26). -/
theorem onEveryEntry_purgeLeft_absent {j : Station} {t : LeaseTable}
    (h : ∀ (l : Lease) (e : LeaseEntry), t[l] = some e →
      (∀ h ∈ e.holders, h.tag.station ≠ j) ∧ ∀ w ∈ e.waiters, w.tag.station ≠ j) :
    onEveryEntry (purgeLeft j) t = (t, []) := by
  have hkept : ∀ (l : Lease) (e : LeaseEntry), t[l] = some e → purgeLeft j l e = (e, []) := by
    intro l e he
    obtain ⟨hholders, hwaiters⟩ := h l e he
    refine purgeLeft_no_record (List.filter_eq_nil_iff.2 fun g hg => ?_) (List.filter_eq_self.2 fun w hw => ?_)
    · simp [hholders g hg]
    · simp [hwaiters w hw]
  refine Prod.ext (Vector.ext fun i hi => ?_) (List.flatMap_eq_nil_iff.2 fun l _ => ?_)
  · have hentry := hkept ⟨i, hi⟩
    show (Vector.ofFn _)[i] = t[i]
    rw [Vector.getElem_ofFn]
    cases he : t[i] with
    | none => rfl
    | some e => exact congrArg (fun out => some out.1) (hentry e he)
  · cases he : t[l] with
    | none => rfl
    | some e => simp [hkept l e he]

theorem ownOutcome_of_attempt {k : Fin 8} {o : AttemptOutcome} {rep : FrameReport} {s : State}
    (h : rep.attempt = some o) : ownOutcome (some k) rep s = takeOutcome k o s := by
  simp only [ownOutcome, h]

/-- The attempt of a LEAVE that committed empties its slot (R118). -/
theorem takeOutcome_leave {k : Fin 8} {s : State} {x : Slot} (hx : s.queue.slots[k] = some x)
    (hleave : x.content = .leave) : takeOutcome k .committed s = (emptySlot k s, {}) := by
  rw [takeOutcome, hx]
  simp only [commitAttempt, hleave, slotKind, isOrdinary, Bool.or_false]
  rfl

/-- The completion of a leave ends in DETACHED, with no REVOKED notice (R142, R144, R145). -/
theorem teardown_leaveCompleted {s : State} (h : s.localState = .leaving) :
    teardown .leaveCompleted s =
      notifyStamped (commitStamp s) (.state .detached)
        { clearParticipation (revokeClients s) with localState := .detached } := by
  have hquiet : s.localState ≠ .member := by rw [h]; exact LocalState.noConfusion
  simp only [teardown, if_neg hquiet]
  rfl

/-- A frame end that completes the leave tears down (R51, R142). -/
theorem settleFrameEnd_leaveCompleted {fx : FrameEffect} (own : OwnOutcome) (s : State)
    (h : fx.leaveCompleted = true) : settleFrameEnd fx own s = teardown .leaveCompleted s := by
  rw [settleFrameEnd, teardownDue, if_pos h]

/-- The commit of its own LEAVE at a station in LEAVING, of which no record is left (R51, R142). -/
theorem frameEndSteps_ownLeave {s : State} {rep : FrameReport} {r : Roster} {req : List Station} {k : Fin 8} {x : Slot}
    (hleaving : s.localState = .leaving) (hroster : s.roster = some r) (hx : s.queue.slots[k] = some x)
    (hleave : x.content = .leave) (hwaits : NothingWaits s)
    (habsent : ∀ (l : Lease) (e : LeaseEntry), s.leases[l] = some e →
      (∀ h ∈ e.holders, h.tag.station ≠ stationNumber s) ∧ ∀ w ∈ e.waiters, w.tag.station ≠ stationNumber s)
    (hread : ReadsCommitted rep r req .leave) (hown : rep.sender = stationNumber s)
    (hcommitted : rep.attempt = some .committed) :
    frameEndSteps (some k) rep s =
      teardown .leaveCompleted
        { s with roster := some (afterCommit req (setRecord (stationNumber s) absentRecord r)) } := by
  obtain ⟨hv, hbody, hack, hdiv, hreq, hsender⟩ := hread
  have hsent : ownOutcome (some k) rep s = (emptySlot k s, {}) :=
    (ownOutcome_of_attempt hcommitted).trans (takeOutcome_leave hx hleave)
  have hverdictTaken := takeVerdict_restarts rep (emptySlot k s) (.inr (.inr hleaving)) (.inl hv)
  have hkind : applyKind (stationNumber s) s.localState rep .leave r s.leases =
      { roster := setRecord (stationNumber s) absentRecord r
        leases := s.leases
        effect := { leaveCompleted := true } } := by
    refine (applyLeave_member (stationNumber s) rep.sender r s.leases hsender).trans ?_
    rw [hown, onEveryEntry_purgeLeft_absent habsent, if_pos rfl, decide_eq_true rfl]
    rfl
  have happlied := applyFrame_at rep (emptySlot k s) _ r req .leave _ (.inl hv) hbody hack hreq
    (fun n => FrameBody.noConfusion) hverdictTaken hroster hkind
  rw [frameEndSteps_quiet (some k) rep s _ _ _ hsent happlied rfl rfl rfl hwaits, timeUnitEffect_idle _ _ rfl rfl,
    settleFrameEnd_leaveCompleted _ _ rfl]
  exact teardown_fresh .leaveCompleted
    { s with roster := some (afterCommit req (setRecord (stationNumber s) absentRecord r)) } _ _

/-- Settles O39, by what a LEAVE does at another station and at its own. -/
theorem leaveFrames : Obligations.LeaveFrames := by
  refine ⟨fun s role cells r req hphase hplain => leaveFrames_of_another hphase hplain, ?_⟩
  intro s role tx cells r req x hreset hphase hleaving hroster hx hleave hwaits habsent rep hread hown hcommitted
  rw [exec_frameEnd_high hreset, endFrame_sending cells s role tx hphase,
    frameEndSteps_ownLeave (s := closeFrame (marksLeft tx cells) rep s) hleaving hroster hx hleave hwaits habsent hread
      hown hcommitted,
    teardown_leaveCompleted (by exact hleaving)]
  rfl

end Sys2Proof.Machine
end

section
/-! PROOFS. FOUND at a founder, and a VOID with the removals it brings (R27, R40 to R47, R77). -/

namespace Sys2Proof.Machine

/-! ### FOUND at a founder (R27, R46, R138) -/

/-- The founders are the lowest-numbered stations whose acknowledgement is dominant (R46). -/
theorem founders_eq (n : Nat) (ackMap : BitVec 16) :
    founders n ackMap = ((List.finRange 16).filter fun i : Fin 16 => ackMap.getLsbD i.val = false).take n := by
  unfold founders allStations acked
  simp

/-- The founders are the stations among them, in ascending order. -/
theorem filter_founders (n : Nat) (ackMap : BitVec 16) :
    (List.finRange 16).filter (fun i => (founders n ackMap).contains i) = founders n ackMap := by
  have hnodup : (allStations.filter (acked ackMap)).Nodup := (List.nodup_finRange 16).filter _
  refine (hnodup.take_eq_filter_mem.trans ?_).symm
  rw [List.filter_filter]
  refine List.filter_congr fun i _ => Bool.and_eq_left_iff_imp.2 fun hi => ?_
  exact (List.mem_filter.1 (List.mem_of_mem_take (List.elem_iff.1 hi))).2

theorem foundedRoster_state (n : Nat) (members : List Station) (i : Fin 16) :
    (foundedRoster n members).records[i].state = if members.contains i then .member else .absent := by
  unfold foundedRoster
  simp only [Fin.getElem_fin, Vector.getElem_ofFn]
  split <;> rfl

theorem foundedRoster_not_joining (n : Nat) (members : List Station) (i : Fin 16) :
    (foundedRoster n members).records[i].state ≠ .joining := by
  rw [foundedRoster_state]
  split <;> simp

/-- The source of a founded roster is its first founder (R38, R46). -/
theorem firstMember_foundedRoster (n m : Nat) (ackMap : BitVec 16) :
    firstMember (foundedRoster m (founders n ackMap)) = (founders n ackMap).head? := by
  have hmember : ∀ i : Fin 16, decide ((foundedRoster m (founders n ackMap)).records[i].state = .member) =
      (founders n ackMap).contains i := by
    intro i
    rw [foundedRoster_state]
    split <;> simp_all
  unfold firstMember
  simp only [hmember]
  rw [← head_filter, filter_founders]

/-- A committed FOUND at a founder (R27, R46). -/
theorem applyFrame_founder {rep : FrameReport} {s : State} {n : Nat} (hv : rep.verdict = .commit)
    (hbody : rep.payload = some (.found n)) (hack : rep.acknowledged = true) (hroster : s.roster = none)
    (hseeking : s.localState = .seeking) (hfounder : stationNumber s ∈ founders n rep.ackMap) :
    applyFrame rep s =
      ({ s with roster := some (foundedRoster n (founders n rep.ackMap)), leases := foundedLeases },
        { admitted := true }) := by
  have hcommitted : applyFrame rep s = applyUnknown rep (.found n) s := by
    simp [applyFrame, hv, applyCommit, hack, hbody, applyCommitted, hroster]
  rw [hcommitted]
  simp [applyUnknown, hseeking, takesTriggers, hack, found, hfounder]

/-- Entry into MEMBER from SEEKING with no claim ASSERTED (R73, R138). -/
theorem enterMember_seeking {s : State} (hseeking : s.localState = .seeking)
    (hclaims : ∀ c : Client, s.clients[c].recognised = false) :
    enterMember s =
      notify (.state .member)
        { s with
          localState := .member
          timers :=
            { tick := ticking s 1
              silence := ticking s 3
              founding := .stopped
              pacing := .stopped
              holdOff := .stopped } } := by
  have hasks := askAllAtEntry_none { s with timers := memberTimers s, localState := .member } hclaims
  rw [enterMember, hasks, memberTimers, hseeking]
  rfl

/-- The last step of a frame end that admits a seeker with a roster on which nobody is JOINING (R57, R138). -/
theorem settleFrameEnd_founder {s : State} {r : Roster} (hseeking : s.localState = .seeking)
    (hroster : s.roster = some r) (hquiet : ∀ i : Fin 16, r.records[i].state ≠ .joining)
    (hclaims : ∀ c : Client, s.clients[c].recognised = false) (hslot : s.queue.slots[(7 : Fin 8)] = none) :
    settleFrameEnd { admitted := true } {} s =
      { s with
        localState := .member
        sourceDuty := firstMember r = some (stationNumber s)
        timers :=
          { tick := ticking s 1
            silence := ticking s 3
            founding := .stopped
            pacing := .stopped
            holdOff := .stopped }
        notices := arrive { stamp := commitStamp s, body := .state .member } s.notices } := by
  have hadmitted : applyAdmission { admitted := true } {} s = enterMember s := by
    rw [applyAdmission, if_neg (by simp), if_pos rfl]
  rw [settleFrameEnd_untaken _ _ s rfl (by rw [hseeking]; rfl) rfl, hadmitted, enterMember_seeking hseeking hclaims]
  refine (placeAtFrameEnd_member _ r (by exact hroster) rfl (by exact hslot)).trans ?_
  rw [if_neg (fun h => h.2.elim hquiet)]
  rfl

/-- The frame end of a committed FOUND at a founder where nothing waits. -/
theorem frameEndSteps_founder {rep : FrameReport} {s : State} {n : Nat} (hv : rep.verdict = .commit)
    (hbody : rep.payload = some (.found n)) (hack : rep.acknowledged = true) (hroster : s.roster = none)
    (hseeking : s.localState = .seeking) (hclaims : ∀ c : Client, s.clients[c].recognised = false)
    (hwaits : NothingWaits s) (hslot : s.queue.slots[(7 : Fin 8)] = none)
    (hfounder : stationNumber s ∈ founders n rep.ackMap) :
    frameEndSteps none rep s =
      { s with
        localState := .member
        joinEvidence := true
        leases := foundedLeases
        roster := some (foundedRoster n (founders n rep.ackMap))
        sourceDuty := (founders n rep.ackMap).head? = some (stationNumber s)
        timers :=
          { tick := ticking s 1
            silence := ticking s 3
            founding := .stopped
            pacing := .stopped
            holdOff := .stopped }
        notices := arrive { stamp := 0, body := .state .member } s.notices } := by
  have hverdictTaken := takeVerdict_seeker rep s hseeking (.inl hv) hslot
  have happlied := (congrArg (applyFrame rep) hverdictTaken).trans
    (applyFrame_founder hv hbody hack hroster hseeking hfounder)
  rw [frameEndSteps_quiet none rep s _ _ (s, {}) rfl happlied rfl rfl rfl hwaits, timeUnitEffect_idle _ _ rfl rfl,
    ← firstMember_foundedRoster n n rep.ackMap]
  exact settleFrameEnd_founder hseeking rfl (foundedRoster_not_joining n _) hclaims hslot

/-- Settles O36, by the frame end of a founder. -/
theorem committedFoundMakesAMember : Obligations.CommittedFoundMakesAMember := by
  intro s role cells n hreset hphase hseeking hroster hclaims hwaits hslot rep hv hbody hack members hfounder
  have hmembers : founders n rep.ackMap = members := founders_eq n rep.ackMap
  rw [exec_frameEnd_receiving hreset hphase (engaged_of_payload s role cells _ hbody),
    frameEndSteps_founder (s := { s with line := lineAfter s 0 rep }) hv hbody hack hroster hseeking hclaims hwaits
      hslot (by rw [hmembers]; exact hfounder),
    hmembers]
  rfl

/-! ### A VOID and its removals (R41 to R44, R77) -/

theorem removeStations_get (stations : List Station) (r : Roster) (i : Fin 16) :
    (removeStations stations r).records[i] = if stations.contains i then absentRecord else r.records[i] := by
  unfold removeStations mapRecords
  simp

theorem removeStations_not_joining {r : Roster} (stations : List Station)
    (h : ∀ i : Station, r.records[i].state ≠ .joining) (i : Station) :
    (removeStations stations r).records[i].state ≠ .joining := by
  rw [removeStations_get]
  split
  · exact RecordState.noConfusion
  · exact h i

/-- The source after a removal is the lowest MEMBER that is left (R38, R44). -/
theorem firstMember_removeStations (stations : List Station) (r : Roster) :
    firstMember (removeStations stations r) =
      (List.finRange 16).find? fun i : Fin 16 => r.records[i].state = .member && !stations.contains i := by
  unfold firstMember
  simp only [removeStations_get]
  refine congrArg (fun p => (List.finRange 16).find? p) (funext fun i => ?_)
  split <;> simp_all [absentRecord]

/-- The members a VOID removes: those it brings to three misses, if the quorum is left without them (R43). -/
theorem membersToRemove_counted (req : List Station) (ackMap : BitVec 16) (r : Roster) :
    membersToRemove (accountMisses req ackMap r) =
      let members := (List.finRange 16).filter fun i : Fin 16 => r.records[i].state = .member
      let late := members.filter fun i => (accountMisses req ackMap r).records[i].miss = 3
      if r.expected / 2 + 1 + late.length ≤ members.length then late else [] := by
  have hexpected : (accountMisses req ackMap r).expected = r.expected := rfl
  unfold membersToRemove membersAtLimit memberCount memberStations quorum allStations
  simp only [accountMisses_state, hexpected]

/-- A VOID that does not remove this station, with no record JOINING: the members at the limit go together, and leave
the lease table by the removal purge (R41 to R44). -/
theorem accountVoid_member {rep : FrameReport} {r : Roster} {req : List Station} {s : State} {removed : List Station}
    (hreq : rep.required = some req) (hquiet : ∀ i : Station, r.records[i].state ≠ .joining)
    (hremoved : membersToRemove (accountMisses req rep.ackMap r) = removed) (hown : stationNumber s ∉ removed) :
    accountVoid rep r s =
      ({ s with
          roster := some (removeStations removed (accountMisses req rep.ackMap r))
          leases := if removed = [] then s.leases else (onEveryEntry (purgeRemoved removed) s.leases).1 },
        { rosterNotices := removed.map fun i => .roster i .removed
          events := if removed = [] then [] else (onEveryEntry (purgeRemoved removed) s.leases).2
          membersRemoved := decide (removed ≠ []) }) := by
  have hothers : removed.filter (fun i => i ≠ stationNumber s) = removed :=
    List.filter_eq_self.2 fun i hi => decide_eq_true fun h => hown (h ▸ hi)
  have hgoes : removalsOf (accountMisses req rep.ackMap r) = removed :=
    (removalsOf_plain req rep.ackMap r hquiet).trans hremoved
  unfold accountVoid
  rw [hreq, Option.getD_some]
  simp only [hgoes, hremoved, rosterNotices_eq, hothers, List.contains_iff_mem, if_neg hown, updateAllLeases_eq,
    removalPurge_eq]
  by_cases hnone : removed = []
  · simp [hnone]
  · simp [hnone]

/-- After a removal a MEMBER starts its tick timer afresh and empties its tick slot (R77). -/
theorem timeUnitEffect_removal {fx : FrameEffect} {s : State} (hmember : s.localState = .member)
    (htick : fx.tickApplied = false) (hremoved : fx.membersRemoved = true) :
    timeUnitEffect fx s =
      { s with
        queue := removeSlot 6 s.queue
        timers := { s.timers with tick := ticking s 1 } } := by
  rw [timeUnitEffect, htick, hremoved, if_neg Bool.false_ne_true, if_pos rfl, afterRemoval, if_pos (.inl hmember)]
  rfl

/-- Time unit and last step of a frame end that removes the stations of a list at a MEMBER that goes on, nobody
JOINING: after a removal the tick timer afresh, and the source duty by the roster (R57, R77). -/
theorem settleFrameEnd_removal {fx : FrameEffect} {s : State} {r : Roster} {removed : List Station}
    (hmember : s.localState = .member) (hroster : s.roster = some r)
    (hquiet : ∀ i : Station, r.records[i].state ≠ .joining) (hslot : s.queue.slots[(7 : Fin 8)] = none)
    (hsilence : s.timers.silence ≠ .expired) (hleft : fx.leaveCompleted = false) (htrigger : fx.trigger = none)
    (hadmitted : fx.admitted = false) (htick : fx.tickApplied = false)
    (hremoved : fx.membersRemoved = decide (removed ≠ [])) :
    settleFrameEnd fx {} (timeUnitEffect fx s) =
      { s with
        sourceDuty := firstMember r = some (stationNumber s)
        timers := if removed = [] then s.timers else { s.timers with tick := ticking s 1 }
        queue := if removed = [] then s.queue else removeSlot 6 s.queue } := by
  by_cases hnone : removed = []
  · rw [timeUnitEffect_idle fx s htick (by simp [hremoved, hnone]), settleFrameEnd_plain fx s hleft htrigger hsilence
      hadmitted, placeAtFrameEnd_plain s r hroster hmember hquiet hslot, dutyNow_find s r hroster hmember]
    simp only [if_pos hnone]
    rfl
  · have hslot' : (removeSlot 6 s.queue).slots[(7 : Fin 8)] = none := by simpa [removeSlot] using hslot
    rw [timeUnitEffect_removal hmember htick (by simp [hremoved, hnone]), settleFrameEnd_plain fx _ hleft htrigger
      (by exact hsilence) hadmitted, placeAtFrameEnd_plain _ r (by exact hroster) (by exact hmember) hquiet hslot',
      dutyNow_find _ r (by exact hroster) (by exact hmember)]
    simp only [if_neg hnone]
    rfl

/-- The frame end of a plain MEMBER whose roster loses the stations of a list: the notices, then what the removal brings
(R42 to R44, R77). -/
theorem frameEndSteps_removal {rep : FrameReport} {s : State} {r after : Roster} {table : LeaseTable}
    {removed : List Station} {told : List NoticeBody} {events : List TableEvent} (hrest : MemberAtRest s r)
    (hsilence : s.timers.silence ≠ .expired) (hquiet : ∀ i : Station, after.records[i].state ≠ .joining)
    (happlied : applyFrame rep (takeVerdict rep s) =
      ({ s with roster := some after, leases := table },
        { rosterNotices := told, events := events, membersRemoved := decide (removed ≠ []) })) :
    frameEndSteps none rep s =
      { s with
        leases := table
        roster := some after
        sourceDuty := firstMember after = some (stationNumber s)
        timers := if removed = [] then s.timers else { s.timers with tick := ticking s 1 }
        queue := if removed = [] then s.queue else removeSlot 6 s.queue
        notices := arriveInOrder (after.commits.setWidth 16) (told ++ events.flatMap (eventNotices s)) s.notices } := by
  obtain ⟨-, hmember, hroster, hports, hneeds, hslot⟩ := hrest
  have htells : eventNotices { s with roster := some after, leases := table } = eventNotices s :=
    eventNotices_same _ s rfl rfl rfl
  rw [frameEndSteps_ports none rep s _ _ (s, {}) rfl happlied rfl hports hneeds, htells]
  refine (settleFrameEnd_removal (removed := removed) (by exact hmember) (by rfl) hquiet (by exact hslot)
    (by exact hsilence) (by rfl) (by rfl) (by rfl) (by rfl) (by rfl)).trans ?_
  rfl

/-- What a VOID does at a plain MEMBER that it does not remove. -/
theorem applyFrame_void_member {rep : FrameReport} {s : State} {r : Roster} {req removed : List Station}
    (hplain : PlainMember s r) (hv : rep.verdict = .void) (hkind : rep.kindCode ≠ 2) (hreq : rep.required = some req)
    (hremoved : membersToRemove (accountMisses req rep.ackMap r) = removed) (hown : stationNumber s ∉ removed) :
    applyFrame rep (takeVerdict rep s) =
      ({ s with
          roster := some (removeStations removed (accountMisses req rep.ackMap r))
          leases := if removed = [] then s.leases else (onEveryEntry (purgeRemoved removed) s.leases).1 },
        { rosterNotices := removed.map fun i => .roster i .removed
          events := if removed = [] then [] else (onEveryEntry (purgeRemoved removed) s.leases).2
          membersRemoved := decide (removed ≠ []) }) := by
  obtain ⟨⟨-, hmember, hroster, -⟩, hquiet⟩ := hplain
  have hverdictTaken : takeVerdict rep s = s :=
    takeVerdict_quiet rep s (.inr (.inl hmember)) (by rw [hv]; exact Verdict.noConfusion)
      (by rw [hv]; exact Verdict.noConfusion)
  rw [hverdictTaken, applyFrame_void rep s r hv hkind hroster]
  exact accountVoid_member hreq hquiet hremoved hown

/-- The notices of the hand-overs of a removal, lease by lease (R20, R186). -/
theorem removal_notices (removed : List Station) (t : LeaseTable) (tell : TableEvent → List NoticeBody) :
    (if removed = [] then [] else (onEveryEntry (purgeRemoved removed) t).2).flatMap tell =
      if removed = [] then []
      else (List.finRange 64).flatMap fun l : Fin 64 =>
        (t[l]).toList.flatMap fun e => (purgeRemoved removed l e).2.flatMap tell := by
  split
  · rfl
  · exact onEveryEntry_notices (purgeRemoved removed) t tell

/-- Settles O44, by what a VOID removes at a plain MEMBER. -/
theorem voidIsAccounted : Obligations.VoidIsAccounted := by
  intro s role cells r req hphase hstandby hdetached hplain hsilence rep hv hkind hreq counted members late removed hown
    purge
  have hcounted : ∀ i : Fin 16, (accountMisses req rep.ackMap r).records[i] = counted i :=
    accountMisses_get req rep.ackMap r
  have hremoved : membersToRemove (accountMisses req rep.ackMap r) = removed := by
    rw [membersToRemove_counted]
    simp only [hcounted]
    rfl
  have hafter : removeStations removed (accountMisses req rep.ackMap r) =
      { r with
        records := Vector.ofFn fun i : Fin 16 =>
          if removed.contains i then { state := .absent, miss := 0, progress := none } else counted i } := by
    simp only [removeStations, mapRecords, hcounted]
    rfl
  have hquiet : ∀ i : Station, (removeStations removed (accountMisses req rep.ackMap r)).records[i].state ≠ .joining :=
    removeStations_not_joining removed fun i => by rw [accountMisses_state]; exact hplain.2 i
  have happlied := applyFrame_void_member (s := { s with line := lineAfter s 0 rep }) hplain hv hkind hreq hremoved hown
  rw [exec_frameEnd_receiving hplain.1.1 hphase (engaged_of_state role hstandby hdetached),
    frameEndSteps_removal (s := { s with line := lineAfter s 0 rep }) hplain.1 hsilence hquiet happlied,
    firstMember_removeStations, hafter, removal_notices,
    eventNotices_same { s with line := lineAfter s 0 rep } s rfl rfl rfl]
  simp only [accountMisses_state]
  rfl

end Sys2Proof.Machine
end

section
/-! PROOFS. A SNAP item at a joiner, and what a station places at a frame end (R52 to R61, R68 to R71, R82, R134, R138,
R140, R141). -/

namespace Sys2Proof.Machine

/-! ### SNAP at a joiner (R52, R53, R68, R70, R71, R138) -/

/-- A committed roster item at a joiner with an unknown roster, whatever its sender (R68, R104). -/
theorem applyFrame_rosterItem {rep : FrameReport} {s : State} {n : Nat} {commits ticks : BitVec 32}
    {records : Vector StationRecord 16} (hv : rep.verdict = .commit)
    (hbody : rep.payload = some (.snap (.roster n commits ticks records))) (hack : rep.acknowledged = true)
    (hroster : s.roster = none) (hjoining : s.localState = .joining) :
    applyFrame rep s =
      loadRoster { expected := n, commits := commits, ticks := ticks, cursor := 0, records := records } s := by
  have hcommitted : applyFrame rep s = applyUnknown rep (.snap (.roster n commits ticks records)) s := by
    simp [applyFrame, hv, applyCommit, hack, hbody, applyCommitted, hroster]
  rw [hcommitted, applyUnknown, if_pos hjoining]

theorem loadRoster_removed {loaded : Roster} {s : State} (h : loaded.records[stationNumber s].state = .absent) :
    loadRoster loaded s = (s, { trigger := some .removed }) := by
  rw [loadRoster, if_pos h]

theorem loadRoster_diverged {loaded : Roster} {s : State} (hpresent : loaded.records[stationNumber s].state ≠ .absent)
    (h : ¬ (loaded.records[stationNumber s].state = .joining ∧
      loaded.records[stationNumber s].progress = some .awaitingRoster)) :
    loadRoster loaded s = (s, { trigger := some .diverged }) := by
  rw [loadRoster, if_neg hpresent, if_neg h]

theorem loadRoster_loaded {loaded : Roster} {s : State}
    (h : loaded.records[stationNumber s].state = .joining ∧
      loaded.records[stationNumber s].progress = some .awaitingRoster) :
    loadRoster loaded s =
      ({ s with roster := some (afterCommit (requiredSet loaded) (snapProgress 0 loaded)) }, {}) := by
  have hpresent : loaded.records[stationNumber s].state ≠ .absent := by
    rw [h.1]
    exact RecordState.noConfusion
  rw [loadRoster, if_neg hpresent, if_pos h]
  rfl

/-- Entry into MEMBER by a transfer, with no claim ASSERTED (R73, R138). -/
theorem enterMember_joining {s : State} (hjoining : s.localState = .joining)
    (hclaims : ∀ c : Client, s.clients[c].recognised = false) :
    enterMember s =
      notify (.state .member)
        { s with localState := .member, timers := { s.timers with tick := ticking s 1 } } := by
  have hasks := askAllAtEntry_none { s with timers := memberTimers s, localState := .member } hclaims
  rw [enterMember, hasks, memberTimers, hjoining]
  rfl

/-- The last step of a frame end that leaves a joiner in JOINING (R57). -/
theorem settleFrameEnd_joiner {fx : FrameEffect} {s : State} (hjoining : s.localState = .joining)
    (hslot : s.queue.slots[(7 : Fin 8)] = none) (hsilence : s.timers.silence ≠ .expired)
    (hleave : fx.leaveCompleted = false) (htrigger : fx.trigger = none) (hadmitted : fx.admitted = false) :
    settleFrameEnd fx {} s = { s with sourceDuty := false } := by
  rw [settleFrameEnd_plain fx s hleave htrigger hsilence hadmitted]
  exact placeAtFrameEnd_joining s hjoining hslot

/-- The last step of a frame end that ends a joiner's transfer: it is admitted, and takes the source duty if it is the
lowest MEMBER (R53, R57, R58, R138). -/
theorem settleFrameEnd_admitted {fx : FrameEffect} {s : State} {r : Roster} {stamp : BitVec 16}
    (hstamp : commitStamp s = stamp) (hjoining : s.localState = .joining)
    (hroster : s.roster = some r) (hclaims : ∀ c : Client, s.clients[c].recognised = false)
    (hslot : s.queue.slots[(7 : Fin 8)] = none) (hsilence : s.timers.silence ≠ .expired)
    (hleave : fx.leaveCompleted = false) (htrigger : fx.trigger = none) (hadmitted : fx.admitted = true) :
    settleFrameEnd fx {} s =
      { s with
        localState := .member
        sourceDuty := decide (firstMember r = some (stationNumber s))
        timers := { s.timers with tick := ticking s 1 }
        queue := if decide (firstMember r = some (stationNumber s)) ∧ ∃ i : Fin 16, r.records[i].state = .joining then
            placeSlot 7 .snap s.queue
          else s.queue
        notices := arrive { stamp := stamp, body := .state .member } s.notices } := by
  subst hstamp
  have henters : applyAdmission fx {} s = enterMember s := by
    rw [applyAdmission, if_neg (by simp), if_pos hadmitted]
  rw [settleFrameEnd_goesOn fx {} s hleave htrigger hsilence rfl, henters, enterMember_joining hjoining hclaims]
  exact placeAtFrameEnd_member _ r hroster rfl hslot

/-- A trigger that the roster item brings tears the joiner down (R68, R144). -/
theorem frameEndSteps_rosterItem_ejected {rep : FrameReport} {s v : State} {loaded : Roster} {x : Trigger}
    (happlied : applyFrame rep (takeVerdict rep s) = loadRoster loaded v)
    (hloaded : loadRoster loaded v = (v, { trigger := some x })) (hjoining : v.localState = .joining)
    (hwaits : NothingWaits v) :
    frameEndSteps none rep s = teardown (.trigger x) { v with sourceDuty := false } := by
  have htakes : takesTriggers v.localState = true := by
    rw [hjoining]
    rfl
  rw [frameEndSteps_ejected rep s v x (happlied.trans hloaded) hwaits htakes, ← teardown_duty _ v false]

/-- The roster item is loaded, and the joiner stays in JOINING (R57, R68). -/
theorem frameEndSteps_rosterItem_loaded {rep : FrameReport} {s v : State} {loaded : Roster}
    (happlied : applyFrame rep (takeVerdict rep s) = loadRoster loaded v)
    (hawaits : loaded.records[stationNumber v].state = .joining ∧
      loaded.records[stationNumber v].progress = some .awaitingRoster)
    (hjoining : v.localState = .joining) (hwaits : NothingWaits v) (hslot : v.queue.slots[(7 : Fin 8)] = none)
    (hsilence : v.timers.silence ≠ .expired) :
    frameEndSteps none rep s =
      { v with
        sourceDuty := false
        roster := some (afterCommit (requiredSet loaded) (snapProgress 0 loaded)) } := by
  rw [frameEndSteps_quiet none rep s _ _ (s, {}) rfl (happlied.trans (loadRoster_loaded hawaits)) rfl rfl rfl hwaits,
    timeUnitEffect_idle _ _ rfl rfl,
    settleFrameEnd_joiner (by exact hjoining) (by exact hslot) (by exact hsilence) rfl rfl rfl]
  rfl

/-- A lease item of a MEMBER at a joiner with a known roster, before the last step of the frame end (R52, R53, R70). -/
theorem frameEndSteps_leaseItem {rep : FrameReport} {s : State} {r moved : Roster} {req : List Station} {l : Lease}
    {e : LeaseEntry} (hjoining : s.localState = .joining) (hroster : s.roster = some r) (hwaits : NothingWaits s)
    (hread : ReadsCommitted rep r req (.snap (.lease l e))) (hmoved : snapProgress l.succ r = moved) :
    let told := ((List.finRange 16).filter fun i : Fin 16 =>
        r.records[i].state = .joining ∧ moved.records[i].state = .member ∧ i ≠ stationNumber s).map
      fun i => NoticeBody.roster i .member
    let admitted := decide (r.records[stationNumber s].state = .joining ∧ moved.records[stationNumber s].state = .member)
    frameEndSteps none rep s =
      settleFrameEnd { rosterNotices := told, admitted := admitted } {}
        { s with
          leases := s.leases.set l (some e)
          roster := some (afterCommit req moved)
          timers := { s.timers with silence := ticking s 3 }
          notices := arriveInOrder ((r.commits + 1).setWidth 16) told s.notices } := by
  intro told admitted
  obtain ⟨hv, hbody, hack, hdiv, hreq, hsender⟩ := hread
  have hverdict := takeVerdict_restarts rep s (.inl hjoining) (.inl hv)
  have hkind := (congrArg (fun x => applyKind (stationNumber s) x rep (.snap (.lease l e)) r s.leases) hjoining).trans
    (applySnap_joiner (stationNumber s) rep.sender l e r moved s.leases hsender hmoved)
  have happlied := applyFrame_at rep s _ r req _ _ (.inl hv) hbody hack hreq (fun n => FrameBody.noConfusion) hverdict
    hroster hkind
  have hcommits : moved.commits = r.commits := by
    rw [← hmoved]
    exact (snapProgress_counts l.succ r).2.1
  rw [commitTrigger_none rep _ r hdiv (.inr hsender)] at happlied
  rw [frameEndSteps_quiet none rep s _ _ (s, {}) rfl happlied rfl rfl rfl hwaits, timeUnitEffect_idle _ _ rfl rfl,
    ← hcommits]
  rfl

/-- Settles O41, by the own record in the roster item, and by whether the lease item ends the own transfer. -/
theorem snapFramesAtAJoiner : Obligations.SnapFramesAtAJoiner := by
  intro s role cells hreset hphase hstandby hdetached hjoining hwaits hslot hclaims rep own base
  have hend : ∀ t, frameEndSteps none rep { s with line := lineAfter s 0 rep } = t →
      exec (.frameEnd cells) s = .next (driveOutputs t) := fun t ht =>
    ht ▸ exec_frameEnd_receiving hreset hphase (engaged_of_state role hstandby hdetached)
  have hsilence : base.timers.silence ≠ .expired := Timer.noConfusion
  refine ⟨?_, ?_⟩
  · intro n commits ticks records hroster hv hbody hack ejects present awaits
    have hverdict : takeVerdict rep { s with line := lineAfter s 0 rep } = { base with sourceDuty := s.sourceDuty } :=
      takeVerdict_restarts rep _ (.inl hjoining) (.inl hv)
    have happlied := (congrArg (applyFrame rep) hverdict).trans
      (applyFrame_rosterItem (by exact hv) (by exact hbody) (by exact hack) (by exact hroster) (by exact hjoining))
    refine ⟨fun habsent => ?_, fun hpresent hother => ?_, fun hawaits => ?_⟩
    · exact hend _ (frameEndSteps_rosterItem_ejected happlied (loadRoster_removed habsent) hjoining hwaits)
    · exact hend _ (frameEndSteps_rosterItem_ejected happlied (loadRoster_diverged hpresent hother) hjoining hwaits)
    · exact hend _ (frameEndSteps_rosterItem_loaded (v := { base with sourceDuty := s.sourceDuty }) happlied hawaits
        hjoining hwaits hslot hsilence)
  · intro r req l e hroster hread moved admitted others learnt stamp duty
    have hitem := frameEndSteps_leaseItem (s := { s with line := lineAfter s 0 rep }) hjoining hroster hwaits hread rfl
    refine ⟨fun hstays => hend _ (hitem.trans ?_), fun hends => hend _ (hitem.trans ?_)⟩
    · exact settleFrameEnd_joiner hjoining hslot hsilence rfl rfl (decide_eq_false hstays)
    · have hstamp : ((moved.commits + 1).setWidth 16 : BitVec 16) = stamp :=
        congrArg (fun n => (n + 1).setWidth 16) (snapProgress_counts l.succ r).2.1
      refine (settleFrameEnd_admitted (by exact hstamp) (by exact hjoining) rfl (by exact hclaims) (by exact hslot)
        (by exact hsilence) rfl rfl (decide_eq_true hends)).trans ?_
      rw [arriveInOrder_append]
      simp only [firstMember_afterCommit, afterCommit_state]
      rfl

/-! ### The transfer unit's placing (R57, R58, R61) -/

theorem sourceStation_eq (r : Roster) : sourceStation r = firstMember r := head_filter _ _

theorem dutyNow_iff (s : State) :
    dutyNow s = true ↔ (∃ r, s.roster = some r ∧ firstMember r = some (stationNumber s)) ∧
      (s.localState = .member ∨ s.localState = .leaving) := by
  unfold dutyNow
  cases s.roster with
  | none => simp
  | some r => simp [sourceStation_eq]

theorem anyJoining_iff (r : Roster) : anyJoining r = true ↔ ∃ i : Fin 16, r.records[i].state = .joining := by
  simp [anyJoining, joiningStations, allStations, List.filter_eq_nil_iff]

theorem transferRunning_iff (s : State) :
    transferRunning s = true ↔ ∃ (r : Roster) (i : Fin 16), s.roster = some r ∧ r.records[i].state = .joining := by
  unfold transferRunning
  cases s.roster with
  | none => simp
  | some r => simp [anyJoining_iff]

theorem membershipHolds_iff (q : OutboundQueue) (c : SlotContent) :
    membershipHolds q c = true ↔ ∃ x, q.slots[(7 : Fin 8)] = some x ∧ x.content = c := by
  unfold membershipHolds
  rw [show q.slots[membershipSlot] = q.slots[(7 : Fin 8)] from rfl]
  cases q.slots[(7 : Fin 8)] <;> simp

theorem transferUnit_of_duty {s : State} (h : dutyNow s = true) :
    transferUnit s =
      if transferRunning s && slotFree s.queue membershipSlot then placeMembership .snap { s with sourceDuty := true }
      else { s with sourceDuty := true } := by
  unfold transferUnit
  rw [h]
  rfl

theorem transferUnit_of_no_duty {s : State} (h : dutyNow s = false) :
    transferUnit s = dropMembership .snap { s with sourceDuty := false } := by
  unfold transferUnit
  rw [h]
  rfl

/-! ### The leave handshake (R140, R141) -/

theorem leaveHandshake_of_leaving {s : State} (h : s.localState = .leaving) :
    leaveHandshake s =
      if leaveConditions ((handshakePairs s).foldl handshakeRelease s) then
        placeMembership .leave ((handshakePairs s).foldl handshakeRelease s)
      else (handshakePairs s).foldl handshakeRelease s := if_pos h

theorem liveOrWaiting_eq (e : LeaseEntry) (t : Tag) :
    e.liveOrWaiting t =
      ((e.holders.any fun h => h.tag = t && h.status = .live) || e.waiters.any fun w => w.tag = t) := by
  unfold LeaseEntry.liveOrWaiting LeaseEntry.liveHolder
  rw [List.isSome_find?]
  rfl

theorem hasStation_false_iff (e : LeaseEntry) (i : Station) :
    e.hasStation i = false ↔ (∀ h ∈ e.holders, h.tag.station ≠ i) ∧ ∀ w ∈ e.waiters, w.tag.station ≠ i := by
  simp [LeaseEntry.hasStation]

theorem replicaHoldsOwn_false_iff (s : State) :
    replicaHoldsOwn s = false ↔ ∀ (l : Lease) (e : LeaseEntry), s.leases[l] = some e →
      (∀ h ∈ e.holders, h.tag.station ≠ stationNumber s) ∧ ∀ w ∈ e.waiters, w.tag.station ≠ stationNumber s := by
  unfold replicaHoldsOwn allLeases
  rw [List.any_eq_false]
  refine ⟨fun h l e he => ?_, fun h l _ => ?_⟩
  · have hl := h l (List.mem_finRange l)
    rw [he, Bool.not_eq_true] at hl
    exact (hasStation_false_iff e _).1 hl
  · cases he : s.leases[l] with
    | none => exact Bool.false_ne_true
    | some e => exact Bool.eq_false_iff.1 ((hasStation_false_iff e _).2 (h l e he))

theorem generalSlotsWith_isEmpty_iff (p : SlotContent → Bool) (q : OutboundQueue) :
    (generalSlotsWith p q).isEmpty = true ↔
      ∀ (k : Fin 8) (x : Slot), k.val < 6 → q.slots[k] = some x → p x.content = false := by
  rw [← generalSlotsWith_head_none, List.isEmpty_iff, List.head?_eq_none_iff]

/-- The conditions of LEAVE: nothing of the station is left in the replica, no ACQUIRE, RELEASE or need in the queue,
and the membership slot yields (R141). -/
theorem leaveConditions_iff (t : State) :
    leaveConditions t = true ↔
      (∀ (l : Lease) (e : LeaseEntry), t.leases[l] = some e →
        (∀ h ∈ e.holders, h.tag.station ≠ stationNumber t) ∧ ∀ w ∈ e.waiters, w.tag.station ≠ stationNumber t) ∧
      (∀ (k : Fin 8) (x : Slot), k.val < 6 → t.queue.slots[k] = some x →
        x.content.isAcquire = false ∧ x.content.isRelease = false) ∧
      (∀ c : Client, t.queue.needs[c] = none) ∧ MembershipOpen t.queue .snap := by
  have hneeds : allClients.all (fun c => t.queue.needs[c].isNone) = true ↔ ∀ c : Client, t.queue.needs[c] = none := by
    simp [allClients]
  unfold leaveConditions
  rw [Bool.and_eq_true, Bool.and_eq_true, Bool.and_eq_true, Bool.not_eq_true', replicaHoldsOwn_false_iff,
    generalSlotsWith_isEmpty_iff, hneeds, membershipYields_iff, and_assoc, and_assoc]
  simp only [Bool.or_eq_false_iff]

theorem releaseSlot_none_iff_content_ne (l : Lease) (c : Client) (q : OutboundQueue) :
    releaseSlot l c q = none ↔
      ∀ (k : Fin 8) (x : Slot), k.val < 6 → q.slots[k] = some x → x.content ≠ .release l c := by
  simp only [releaseSlot_none, ← Bool.not_eq_true, isReleaseFor_iff, ne_eq]

theorem handshakeRelease_held {s : State} {l : Lease} {c : Client} (h : releaseSlot l c s.queue ≠ none) :
    handshakeRelease s (l, c) = s := if_pos (Option.isSome_iff_ne_none.2 h)

theorem handshakeRelease_full {s : State} (l : Lease) (c : Client) (h : NoneFree s.queue) :
    handshakeRelease s (l, c) = s := by
  unfold handshakeRelease
  rw [(freeGeneralSlot_none s.queue).2 h]
  exact ite_self s

theorem handshakeRelease_free {s : State} {l : Lease} {c : Client} {k : Fin 8} (hk : LowestFree s.queue k)
    (h : releaseSlot l c s.queue = none) : handshakeRelease s (l, c) = (requestRelease l c s).2 := by
  unfold handshakeRelease
  rw [h, (freeGeneralSlot_some s.queue k).2 hk]
  rfl

/-- A RELEASE of the handshake takes the lowest free slot: that of a tag in the replica without an ACQUIRE, or that of a
pair whose ACQUIRE is in attempt (R122, R140). -/
theorem handshakeRelease_placed {s : State} {l : Lease} {c : Client} {k : Fin 8} (hk : LowestFree s.queue k)
    (hnone : ∀ (j : Fin 8) (x : Slot), j.val < 6 → s.queue.slots[j] = some x → x.content ≠ .release l c)
    (hcase : PairAbsent s.queue l c ∧ TagIn s l (ownTag s c) ∨
      ∃ (j : Fin 8) (x : Slot), j.val < 6 ∧ s.queue.slots[j] = some x ∧ x.content.isAcquireFor l c = true ∧
        x.inAttempt = true ∧
        ∀ (i : Fin 8) (y : Slot), i.val < j.val → s.queue.slots[i] = some y → y.content.isAcquireFor l c = false) :
    handshakeRelease s (l, c) = { s with queue := placeSlot k (.release l c) s.queue } := by
  have hrelease : releaseSlot l c s.queue = none := (releaseSlot_none_iff_content_ne l c s.queue).2 hnone
  rw [handshakeRelease_free hk hrelease]
  rcases hcase with ⟨habsent, htag⟩ | ⟨j, x, hj, hx, hacquire, hattempt, hfirst⟩
  · rw [requestRelease_placed s l c k habsent htag hk]
  · rw [requestRelease_beside s l c k j x hk hj hx hacquire hattempt fun i y hi hy =>
      ⟨(releaseSlot_none l c s.queue).1 hrelease i y hi hy, fun hij => hfirst i y hij hy⟩]

/-- Settles O45, by the conditions of each placing. -/
theorem placingAtAFrameEnd : Obligations.PlacingAtAFrameEnd := by
  refine ⟨?_, ?_, ?_⟩
  · intro s duty joining snap placed founds joins
    have hduty : dutyNow s = true ↔ duty := dutyNow_iff s
    have hjoining : transferRunning s = true ↔ joining := transferRunning_iff s
    have hsnap : membershipHolds s.queue .snap = true ↔ snap := membershipHolds_iff s.queue .snap
    have hfree : slotFree s.queue membershipSlot = true ↔ s.queue.slots[(7 : Fin 8)] = none := slotFree_iff _ _
    refine ⟨fun hd hj h7 => ?_, fun hd hn => ?_, fun hd hs => ?_, fun hd hs => ?_, fun h => ?_, fun h => ?_, fun h => ?_,
      fun h => ?_⟩
    · rw [transferUnit_of_duty (hduty.2 hd), if_pos (by rw [hjoining.2 hj, hfree.2 h7]; rfl)]
      rfl
    · refine (transferUnit_of_duty (hduty.2 hd)).trans (if_neg fun hplaces => ?_)
      obtain ⟨hruns, hempty⟩ := Bool.and_eq_true_iff.1 hplaces
      exact hn.elim (fun hnone => hnone (hjoining.1 hruns)) fun hfull => hfull (hfree.1 hempty)
    · rw [transferUnit_of_no_duty (Bool.eq_false_iff.2 (mt hduty.1 hd))]
      exact if_pos (hsnap.2 hs)
    · rw [transferUnit_of_no_duty (Bool.eq_false_iff.2 (mt hduty.1 hd))]
      exact if_neg (mt hsnap.1 hs)
    · exact (foundingTest_eq s).trans (if_pos h)
    · exact (foundingTest_eq s).trans (if_neg h)
    · exact (joinTest_eq s).trans (if_pos h)
    · exact (joinTest_eq s).trans (if_neg h)
  · intro s
    refine ⟨fun h => if_neg h, ?_⟩
    intro hleaving pairs t done
    have hpairs : handshakePairs s = pairs := by
      refine List.flatMap_congr fun l _ => ?_
      cases s.leases[l] with
      | none => rfl
      | some e => simp only [liveOrWaiting_eq]; rfl
    have hdone : leaveConditions t = true ↔ done := leaveConditions_iff t
    rw [leaveHandshake_of_leaving hleaving, hpairs]
    exact ⟨fun h => if_neg (mt hdone.1 h), fun h => if_pos (hdone.2 h)⟩
  · intro s l c
    refine ⟨?_, fun k hk hnone hcase => handshakeRelease_placed hk hnone hcase⟩
    rintro (⟨k, x, hk, hx, hrelease⟩ | hfull)
    · exact handshakeRelease_held fun hnone =>
        (releaseSlot_none_iff_content_ne l c s.queue).1 hnone k x hk hx hrelease
    · exact handshakeRelease_full l c hfull

end Sys2Proof.Machine
end

section
/-! PROOFS. The expiries of the five timers, and what the clock does on an empty queue (R73 to R85, R88, R89, R114,
R149). -/

namespace Sys2Proof.Machine

/-! ### The expiries (R75, R79, R81, R82, R84, R85) -/

theorem expireTick_running {s : State} {n : Nat} (h : s.timers.tick = .running n) :
    expireTick s =
      { s with
        timers := { s.timers with tick := .expired }
        queue := if slotFree s.queue tickSlot then placeSlot tickSlot .tick s.queue else s.queue } :=
  if_pos ((isRunning_iff _).2 ⟨n, h⟩)

theorem expireSilence_running {s : State} {n : Nat} (h : s.timers.silence = .running n) :
    expireSilence s =
      if !frameInProgress s && takesTriggers s.localState then
        teardown (.trigger .isolated) { s with timers := { s.timers with silence := .expired } }
      else { s with timers := { s.timers with silence := .expired } } :=
  if_pos ((isRunning_iff _).2 ⟨n, h⟩)

theorem expireFounding_running {s : State} {n : Nat} (h : s.timers.founding = .running n) :
    expireFounding s = foundingTest { s with timers := { s.timers with founding := .expired } } :=
  if_pos ((isRunning_iff _).2 ⟨n, h⟩)

theorem expirePacing_running {s : State} {n : Nat} (h : s.timers.pacing = .running n) :
    expirePacing s = foundingTest { s with timers := { s.timers with pacing := .expired } } :=
  if_pos ((isRunning_iff _).2 ⟨n, h⟩)

theorem expireHoldOff_running {s : State} {n : Nat} (h : s.timers.holdOff = .running n) :
    expireHoldOff s = joinTest { s with timers := { s.timers with holdOff := .expired } } :=
  if_pos ((isRunning_iff _).2 ⟨n, h⟩)

/-- The states a self-ejection trigger tears down (R143). -/
theorem takesTriggers_iff (x : LocalState) : takesTriggers x = true ↔ x = .joining ∨ x = .member ∨ x = .leaving := by
  cases x <;> decide

/-- A silence timer that expires between frames isolates a station that takes triggers (R81, R143). -/
theorem expireSilence_isolates {s : State} {n : Nat} (h : s.timers.silence = .running n) (hquiet : LineQuiet s)
    (hstate : s.localState = .joining ∨ s.localState = .member ∨ s.localState = .leaving) :
    expireSilence s = teardown (.trigger .isolated) { s with timers := { s.timers with silence := .expired } } := by
  rw [expireSilence_running h, (frameInProgress_false_iff s).2 hquiet, (takesTriggers_iff _).2 hstate]
  rfl

/-- Within a frame the expiry is held, and a station that takes no trigger only marks it (R81). -/
theorem expireSilence_held {s : State} {n : Nat} (h : s.timers.silence = .running n)
    (hstays : ¬ LineQuiet s ∨ s.localState = .standby ∨ s.localState = .seeking ∨ s.localState = .detached) :
    expireSilence s = { s with timers := { s.timers with silence := .expired } } := by
  rw [expireSilence_running h, if_neg]
  rw [Bool.and_eq_true, Bool.not_eq_true', frameInProgress_false_iff, takesTriggers_iff]
  rintro ⟨hquiet, htakes⟩
  rcases hstays with hframe | hstate
  · exact hframe hquiet
  · rcases hstate with hstate | hstate | hstate <;> simp [hstate] at htakes

/-- Settles O19, by what each expiry tests once its timer is EXPIRED. -/
theorem timersExpire : Obligations.TimersExpire := by
  refine ⟨⟨fun s hr => guarded_high (fun s => { s with tickout := none }) hr, fun s n hr ht => ?_⟩,
    fun s n hr ht => ?_, fun s n hr => ?_⟩
  · have hexec : exec .tickTimerExpiry s = .next (driveOutputs (expireTick s)) := guarded_high expireTick hr
    have hfree : slotFree s.queue tickSlot = true ↔ s.queue.slots[(6 : Fin 8)] = none := slotFree_iff _ _
    rw [hexec, expireTick_running ht]
    refine ⟨fun hempty => ?_, fun hfull => ?_⟩
    · rw [if_pos (hfree.2 hempty)]
      rfl
    · rw [if_neg (mt hfree.1 hfull)]
  · have hexec : exec .silenceTimerExpiry s = .next (driveOutputs (expireSilence s)) := guarded_high expireSilence hr
    rw [hexec]
    exact ⟨fun hquiet hstate => by rw [expireSilence_isolates ht hquiet hstate],
      fun hstays => by rw [expireSilence_held ht hstays]⟩
  · intro placed
    refine ⟨?_, ?_, ?_⟩
    · intro ht wants
      have hexec : exec .foundingTimerExpiry s = .next (driveOutputs (expireFounding s)) :=
        guarded_high expireFounding hr
      rw [hexec, expireFounding_running ht, foundingTest_eq]
      refine ⟨fun ⟨hseeks, hpaced, hopen⟩ => ?_, fun hno => ?_⟩
      · rw [if_pos ⟨hseeks, rfl, hpaced, hopen⟩]
        rfl
      · rw [if_neg fun ⟨hseeks, _, hpaced, hopen⟩ => hno ⟨hseeks, hpaced, hopen⟩]
    · intro ht wants
      have hexec : exec .pacingTimerExpiry s = .next (driveOutputs (expirePacing s)) := guarded_high expirePacing hr
      rw [hexec, expirePacing_running ht, foundingTest_eq]
      refine ⟨fun ⟨hseeks, hfounds, hopen⟩ => ?_, fun hno => ?_⟩
      · rw [if_pos ⟨hseeks, hfounds, nofun, hopen⟩]
        rfl
      · rw [if_neg fun ⟨hseeks, hfounds, _, hopen⟩ => hno ⟨hseeks, hfounds, hopen⟩]
    · intro ht joins
      have hexec : exec .holdOffTimerExpiry s = .next (driveOutputs (expireHoldOff s)) :=
        guarded_high expireHoldOff hr
      rw [hexec, expireHoldOff_running ht, joinTest_eq]
      refine ⟨fun ⟨hseeks, hevidence, hruns, hopen⟩ => ?_, fun hno => ?_⟩
      · rw [if_pos ⟨hseeks, hevidence, hruns, nofun, hopen⟩]
        rfl
      · rw [if_neg fun ⟨hseeks, hevidence, hruns, _, hopen⟩ => hno ⟨hseeks, hevidence, hruns, hopen⟩]

/-! ### The timed event that is due (R73, R88, R89, R114, R149; log entry 3) -/

/-- The first timer that is at 0 expires. -/
theorem dueExpiry_eq (t : Timers) : dueExpiry t =
    if t.tick = .running 0 then some .tickTimerExpiry
    else if t.silence = .running 0 then some .silenceTimerExpiry
    else if t.founding = .running 0 then some .foundingTimerExpiry
    else if t.pacing = .running 0 then some .pacingTimerExpiry
    else if t.holdOff = .running 0 then some .holdOffTimerExpiry
    else none := by
  simp only [dueExpiry, timerDue_iff]

/-- The lowest client whose claim is settled brings its claim event. -/
theorem dueClaim_first {s : State} {c : Client} (hc : claimSettled s c = true)
    (hlowest : ∀ d : Client, d.val < c.val → ¬ claimSettled s d = true) :
    dueClaim s = some (if (claimLevels s)[c] then .claimAsserted c else .claimReleased c) := by
  rw [dueClaim, claimSettled_first s c hc hlowest]

theorem dueClaim_none {s : State} (h : ∀ c, ¬ claimSettled s c = true) : dueClaim s = none := by
  rw [dueClaim, List.find?_eq_none.2 fun c _ => h c]

theorem dueLine_counting {s : State} (h : s.line.phase = .counting) :
    dueLine s = if 11 ≤ s.line.gapBits then some .quietGapComplete else dueEdge s := by
  rw [dueLine, h]
  rfl

theorem heldByCourtesy_iff (s : State) (x : Slot) : heldByCourtesy s x = true ↔
    6 ≤ (kindCode (slotKind x.content)).toNat ∧ s.line.courtesyPending = true := by
  rw [heldByCourtesy, Bool.and_eq_true, isOrdinary_iff, and_comm]

theorem dueLine_courtesyOver {s : State} (h : s.line.phase = .idle)
    (hover : s.line.courtesyPending = true ∧ 22 ≤ s.line.gapBits) :
    dueLine s = some (.attemptStart .courtesyGap) := by
  rw [dueLine, h]
  exact if_pos hover

/-- An idle line whose courtesy gap is not over is left to the head of the queue (R114). -/
theorem dueLine_idle {s : State} (h : s.line.phase = .idle)
    (hover : ¬ (s.line.courtesyPending = true ∧ 22 ≤ s.line.gapBits)) :
    dueLine s =
      match headSlot s with
      | none => dueEdge s
      | some x => if heldByCourtesy s x.2 then dueEdge s else some (.attemptStart .lineIdle) := by
  rw [dueLine, h]
  exact if_neg hover

theorem dueLine_head {s : State} {k : Fin 8} {x : Slot} (h : s.line.phase = .idle)
    (hover : ¬ (s.line.courtesyPending = true ∧ 22 ≤ s.line.gapBits)) (hhead : IsHead s k x)
    (hfree : ¬ heldByCourtesy s x = true) : dueLine s = some (.attemptStart .lineIdle) := by
  rw [dueLine_idle h hover, headSlot_some s k x hhead]
  exact if_neg hfree

/-- No head, or one that waits for the courtesy gap, leaves an idle line to the other stations. -/
theorem dueLine_no_start {s : State} (h : s.line.phase = .idle)
    (hover : ¬ (s.line.courtesyPending = true ∧ 22 ≤ s.line.gapBits))
    (hhead : (∀ k x, ¬ Offered s k x) ∨ ∃ k x, IsHead s k x ∧ heldByCourtesy s x = true) :
    dueLine s = dueEdge s := by
  rw [dueLine_idle h hover]
  rcases hhead with hnone | ⟨k, x, hx, hheld⟩
  · rw [headSlot_none s hnone]
  · rw [headSlot_some s k x hx]
    exact if_pos hheld

/-- Between frames, where the station itself starts nothing, only the start bit of another station can be due (R88). -/
theorem dueLine_quiet {s : State} (hquiet : LineQuiet s) (hcounting : s.line.phase = .counting → s.line.gapBits < 11)
    (hidle : s.line.phase = .idle → ¬ (s.line.courtesyPending = true ∧ 22 ≤ s.line.gapBits) ∧
      ((∀ k x, ¬ Offered s k x) ∨ ∃ k x, IsHead s k x ∧ heldByCourtesy s x = true)) :
    dueLine s = dueEdge s := by
  rcases hquiet with hphase | hphase
  · rw [dueLine_counting hphase, if_neg (Nat.not_le.2 (hcounting hphase))]
  · exact dueLine_no_start hphase (hidle hphase).1 (hidle hphase).2

theorem dueLine_inFrame {s : State} (h : ¬ LineQuiet s) : dueLine s = none := by
  rw [dueLine]
  cases hphase : s.line.phase with
  | counting => exact absurd (Or.inl hphase) h
  | idle => exact absurd (Or.inr hphase) h
  | receiving role => rfl
  | sending role tx => rfl

theorem dueEvent_of_expiry {s : State} {c : Instr} (hr : s.resetLow = false) (h : dueExpiry s.timers = some c) :
    dueEvent s = some c := by
  rw [dueEvent, hr, h]
  rfl

theorem dueEvent_of_claim {s : State} {c : Instr} (hr : s.resetLow = false) (he : dueExpiry s.timers = none)
    (h : dueClaim s = some c) : dueEvent s = some c := by
  rw [dueEvent, hr, he, h]
  rfl

theorem dueEvent_of_line {s : State} {c : Instr} (hr : s.resetLow = false) (he : dueExpiry s.timers = none)
    (hc : dueClaim s = none) (h : dueLine s = some c) : dueEvent s = some c := by
  rw [dueEvent, hr, he, hc, h]
  rfl

theorem dueEvent_of_pulse {s : State} (hr : s.resetLow = false) (he : dueExpiry s.timers = none)
    (hc : dueClaim s = none) (hl : dueLine s = none) : dueEvent s = duePulse s := by
  rw [dueEvent, hr, he, hc, hl]
  rfl

/-! ### The cycle of CLKIN that passes (R74, R149) -/

/-- What one cycle does to the claim pins and their samples. -/
theorem cycleClaims_eq (s : State) : cycleClaims s =
    { s with
      sampleCycles := if s.sampleCycles < 31 then s.sampleCycles + 1 else 0
      clients := if s.sampleCycles < 31 then s.clients
        else Vector.ofFn fun c : Fin 8 => sampleClaim s.claimPins[c] s.clients[c] } := by
  have hlast : s.sampleCycles + 1 < Config.sampleCycles ↔ s.sampleCycles < 31 := Nat.succ_lt_succ_iff
  rw [cycleClaims]
  by_cases h : s.sampleCycles < 31
  · rw [if_pos (hlast.2 h), if_pos h, if_pos h]
  · rw [if_neg (mt hlast.1 h), if_neg h, if_neg h]

theorem clockCycle_high {s : State} (h : s.resetLow = false) :
    clockCycle s =
      cycleGap (cycleClaims (movePins { s with timers := s.timers.cycle, tickout := s.tickout.map fun n => n - 1 })) :=
  if_neg (by rw [h]; decide)

/-! ### The step on an empty queue -/

theorem step_empty {s : State} (h : s.pending = []) : step s = idleStep s := by
  rw [step, h]

theorem step_due {s : State} {c : Instr} (hp : s.pending = []) (h : dueEvent s = some c) : step s = exec c s :=
  (step_empty hp).trans (idleStep_due s c h)

/-- While RESETn is low nothing is due and nothing passes. -/
theorem step_resetLow {s : State} (hp : s.pending = []) (hr : s.resetLow = true) : step s = .next s := by
  have hdue : dueEvent s = none := if_pos hr
  have hedge : nextEdge s = none := if_pos hr
  rw [step_empty hp, idleStep, idleCommand, hdue, hedge, idleChange, if_pos hr]

theorem step_cycle {s : State} (hp : s.pending = []) (hr : s.resetLow = false) (hdue : dueEvent s = none)
    (hwires : s.portInput = [] ∨ s.portInput.head? = some .pause) :
    step s = .next (clockCycle (dropInput s)) := by
  refine (step_empty hp).trans (idleStep_cycle s hdue hr (nextEdge_none s (hwires.imp_right fun hpause => ?_)))
  exact List.head?_eq_some_iff.1 hpause

/-- Settles O2, by the first event that is due, and by the cycle of CLKIN where none is. -/
theorem emptyQueueRunsTheClock : Obligations.EmptyQueueRunsTheClock := by
  refine ⟨fun s hp hr => step_resetLow hp hr, ?_⟩
  intro s hp hr noExpiry pins settled held courtesyOver edge inFrame bitPasses dominant count
  have hexpiry : ∀ {c}, dueExpiry s.timers = some c → step s = exec c s :=
    fun h => step_due hp (dueEvent_of_expiry hr h)
  have hnone : noExpiry → dueExpiry s.timers = none := fun ⟨ht, hs, hf, hpace, hh⟩ => by
    rw [dueExpiry_eq, if_neg ht, if_neg hs, if_neg hf, if_neg hpace, if_neg hh]
  have hsettled : ∀ c, claimSettled s c = true ↔ settled c := claimSettled_iff s
  have hheld : ∀ x, heldByCourtesy s x = true ↔ held x := heldByCourtesy_iff s
  refine ⟨fun ht => hexpiry ?_, fun ht hs => hexpiry ?_, fun ht hs hf => hexpiry ?_,
    fun ht hs hf hpace => hexpiry ?_, fun ht hs hf hpace hh => hexpiry ?_, fun hno c hc hlowest => ?_,
    fun hno hunsettled => ?_⟩
  · rw [dueExpiry_eq, if_pos ht]
  · rw [dueExpiry_eq, if_neg ht, if_pos hs]
  · rw [dueExpiry_eq, if_neg ht, if_neg hs, if_pos hf]
  · rw [dueExpiry_eq, if_neg ht, if_neg hs, if_neg hf, if_pos hpace]
  · rw [dueExpiry_eq, if_neg ht, if_neg hs, if_neg hf, if_neg hpace, if_pos hh]
  · exact step_due hp (dueEvent_of_claim hr (hnone hno)
      (dueClaim_first ((hsettled c).2 hc) fun d hd => mt (hsettled d).1 (hlowest d hd)))
  · have hclaim : dueClaim s = none := dueClaim_none fun c => mt (hsettled c).1 (hunsettled c)
    have hline : ∀ {c}, dueLine s = some c → step s = exec c s :=
      fun h => step_due hp (dueEvent_of_line hr (hnone hno) hclaim h)
    refine ⟨fun hcount hgap => hline ?_, fun hidle hover => hline (dueLine_courtesyOver hidle hover),
      fun k x hidle hover hx hfree => hline (dueLine_head hidle hover hx (mt (hheld x).1 hfree)),
      fun hcount hidle => ?_⟩
    · rw [dueLine_counting hcount, if_pos hgap]
    · simp only [← hheld] at hidle
      have hquiet : LineQuiet s → dueLine s = dueEdge s := fun hq => dueLine_quiet hq hcount hidle
      refine ⟨fun hq ⟨hlevel, hbits⟩ => hline ((hquiet hq).trans (dueEdge_some s hlevel hbits)), fun hedge => ?_⟩
      have hsilent : dueLine s = none := by
        by_cases hq : LineQuiet s
        · exact (hquiet hq).trans (dueEdge_none s (hedge hq))
        · exact dueLine_inFrame hq
      have hpulse : dueEvent s = duePulse s := dueEvent_of_pulse hr (hnone hno) hclaim hsilent
      refine ⟨fun hend => step_due hp (hpulse.trans (if_pos hend)), fun hend hwires => ?_⟩
      have htimer : ∀ t : Timer, t.cycle = count t := fun t => by cases t <;> rfl
      have htimers : s.timers.cycle = ⟨count s.timers.tick, count s.timers.silence, count s.timers.founding,
          count s.timers.pacing, count s.timers.holdOff⟩ := by
        simp only [Timers.cycle, htimer]
      rw [step_cycle hp hr (hpulse.trans (if_neg hend)) hwires, clockCycle_high (s := dropInput s) hr,
        cycleClaims_eq, cycleGap_eq, ← htimers]
      rfl

end Sys2Proof.Machine
end

section
/-! PROOFS. The steps of a frame end, and the frames that end in a self-ejection (R54, R76 to R84, R104, R143). -/

namespace Sys2Proof.Machine

/-! ### The line after a frame (R87, R88, R92) -/

/-- A frame end at a sender. -/
theorem exec_frameEnd_sending {s : State} {role : Role} {tx : Transmission} {cells : List LineCell}
    (hreset : s.resetLow = false) (hphase : s.line.phase = .sending role tx) :
    let rep := frameReport s role (some tx) cells
    exec (.frameEnd cells) s = .next (driveOutputs
      (frameEndSteps (some tx.slot) rep { s with line := lineAfter s (marksLeft tx cells) rep })) := by
  rw [exec_frameEnd_high hreset, endFrame_sending cells s role tx hphase]
  rfl

/-! ### The verdict at the time unit (R80, R83, R84) -/

theorem committedVerdict_iff (v : Verdict) : committedVerdict v = true ↔ v = .commit ∨ v = .refuse := by
  simp [committedVerdict]

/-- A FOUND in the membership slot goes, whatever its attempt (R83, R84). -/
theorem dropMembership_found (s : State) :
    dropMembership .found s =
      { s with
        queue :=
          match s.queue.slots[(7 : Fin 8)] with
          | some { content := .found, .. } => { s.queue with slots := s.queue.slots.set 7 none }
          | _ => s.queue } := by
  have hslot : s.queue.slots[membershipSlot] = s.queue.slots[(7 : Fin 8)] := rfl
  unfold dropMembership membershipHolds
  rw [hslot]
  cases s.queue.slots[(7 : Fin 8)] with
  | none => rfl
  | some x =>
    obtain ⟨content, _, _, _, _⟩ := x
    cases content <;> rfl

theorem takeVerdict_seeking_committed {rep : FrameReport} {s : State} (h : s.localState = .seeking)
    (hv : rep.verdict = .commit ∨ rep.verdict = .refuse) : takeVerdict rep s = seekerReadsCommit s := by
  rw [takeVerdict, h]
  exact if_pos ((committedVerdict_iff _).2 hv)

/-- A seeker that reads no committed verdict acts on a FOUND only (R84). -/
theorem takeVerdict_seeking_failed {rep : FrameReport} {s : State} (h : s.localState = .seeking)
    (hv : ¬ (rep.verdict = .commit ∨ rep.verdict = .refuse)) :
    takeVerdict rep s = if rep.kindCode = 2 then seekerReadsFailedFound s else s := by
  have hfound : isFoundCode rep.kindCode = true ↔ rep.kindCode = 2 := decide_eq_true_iff
  simp only [takeVerdict, h, if_neg (mt (committedVerdict_iff _).1 hv), hfound]

theorem takeVerdict_idle {rep : FrameReport} {s : State} (h : s.localState = .standby ∨ s.localState = .detached) :
    takeVerdict rep s = s := by
  unfold takeVerdict
  rcases h with h | h <;> rw [h]

/-! ### The time unit and the last step (R76, R77, R79, R81, R143) -/

/-- The tick timer runs afresh and the tick slot is emptied, in MEMBER and LEAVING (R76, R77). -/
theorem afterRemoval_eq (s : State) :
    afterRemoval s =
      if s.localState = .member ∨ s.localState = .leaving then
        { s with timers := { s.timers with tick := ticking s 1 }, queue := removeSlot 6 s.queue }
      else s := rfl

/-- An applied TICK does what a removal does, and TICKOUT goes high (R76, R79). -/
theorem afterTick_eq (s : State) : afterTick s = { afterRemoval s with tickout := some 16 } := by
  rw [afterTick, afterRemoval]
  dsimp only
  split <;> rfl

/-- What the time unit does: at a TICK and at a removal of members the tick timer and the tick slot in MEMBER and
LEAVING, and at a TICK the TICKOUT pulse (R76, R77, R79). -/
theorem timeUnitEffect_eq (fx : FrameEffect) (s : State) :
    let restarted : State :=
      { s with timers := { s.timers with tick := ticking s 1 }, queue := removeSlot 6 s.queue }
    let follows := s.localState = .member ∨ s.localState = .leaving
    timeUnitEffect fx s =
      if fx.tickApplied then { (if follows then restarted else s) with tickout := some 16 }
      else if fx.membersRemoved ∧ follows then restarted
      else s := by
  intro restarted follows
  rw [timeUnitEffect, afterTick_eq, afterRemoval_eq, ite_and]

/-- A held silence expiry ejects where nothing else does (R81, R143; log entry 27). -/
theorem settleFrameEnd_isolated {fx : FrameEffect} (own : OwnOutcome) {s : State} (hleave : fx.leaveCompleted = false)
    (htakes : takesTriggers s.localState = true) (htrigger : fx.trigger = none) (hsilence : s.timers.silence = .expired) :
    settleFrameEnd fx own s = teardown (.trigger .isolated) s := by
  have hdue : teardownDue fx s = some (.trigger .isolated) := by
    simp only [teardownDue, hleave, htakes, htrigger, if_pos hsilence]
    rfl
  rw [settleFrameEnd, hdue]

/-- A frame end without a teardown admits and places. -/
theorem settleFrameEnd_stays {fx : FrameEffect} (own : OwnOutcome) {s : State} (hleave : fx.leaveCompleted = false)
    (h : takesTriggers s.localState ≠ true ∨ fx.trigger = none ∧ s.timers.silence ≠ .expired) :
    settleFrameEnd fx own s = placeUnlessDiscarded own (applyAdmission fx own s) := by
  have hdue : teardownDue fx s = none := by
    rw [teardownDue, hleave, if_neg Bool.false_ne_true]
    rcases h with huntaken | ⟨htrigger, hsilence⟩
    · exact if_neg huntaken
    · simp only [htrigger, if_neg hsilence, ite_self]
  rw [settleFrameEnd, hdue]

/-- Settles O28, step by step: the line, the verdict at the time unit, and the last step by what the frame brought. -/
theorem frameEndTakesItsSteps : Obligations.FrameEndTakesItsSteps := by
  refine ⟨?_, ?_, ?_, ?_⟩
  · intro s role cells hreset hphase hstandby hdetached
    exact exec_frameEnd_receiving hreset hphase (engaged_of_state role hstandby hdetached)
  · intro s role tx cells hreset hphase
    exact exec_frameEnd_sending hreset hphase
  · intro rep s committed unfound
    refine ⟨fun hs hv => ?_, fun hs hv hk => ?_, fun hs hv hk => ?_, fun hs => ?_, takeVerdict_idle⟩
    · rw [takeVerdict_seeking_committed hs hv, seekerReadsCommit, dropMembership_found]
      rfl
    · rw [takeVerdict_seeking_failed hs hv, if_pos hk, seekerReadsFailedFound, dropMembership_found]
      rfl
    · rw [takeVerdict_seeking_failed hs hv, if_neg hk]
    · by_cases hv : committed
      · rw [takeVerdict_restarts rep s hs hv, if_pos hv]
      · rw [takeVerdict_quiet rep s hs (fun h => hv (.inl h)) (fun h => hv (.inr h)), if_neg hv]
  · intro slot rep s own out fx told handed tickStarts follows timed served t takes admitted ends
    have hown : ownOutcome slot rep s = own := rfl
    have hsteps : frameEndSteps slot rep s = settleFrameEnd fx own.2 t := by
      rw [frameEndSteps_reported slot rep s out.1 fx own hown rfl, timeUnitEffect_eq]
      rfl
    have htakes : takesTriggers t.localState = true ↔ takes := takesTriggers_iff _
    refine ⟨fun hl => ?_, fun hl ht x hx => ?_, fun hl ht hx hsilence => ?_, fun hl hstays => ?_⟩
    · exact hsteps.trans (settleFrameEnd_leaveCompleted own.2 t hl)
    · exact hsteps.trans (settleFrameEnd_trigger fx own.2 t x hl hx (htakes.2 ht))
    · exact hsteps.trans (settleFrameEnd_isolated own.2 hl (htakes.2 ht) hx hsilence)
    · have hplaces := hsteps.trans (settleFrameEnd_stays own.2 hl (hstays.imp_left (mt htakes.1)))
      exact ⟨fun hd => hplaces.trans (if_neg hd), fun hd => hplaces.trans (if_pos hd)⟩

/-! ### Self-ejections without the frame (R47, R54, R105, R143) -/

/-- An unreadable tail at a required station (R105). -/
theorem applyFrame_tailError {rep : FrameReport} (s : State) (hv : rep.verdict = .unreadable)
    (hrequired : rep.selfRequired = true) : applyFrame rep s = (s, { trigger := some .tailError }) := by
  simp only [applyFrame, hv, hrequired, if_true]

/-- A COMMIT or REFUSE that a required station did not acknowledge, of any kind but FOUND (R54). -/
theorem applyFrame_unacknowledged {rep : FrameReport} (s : State) (hv : rep.verdict = .commit ∨ rep.verdict = .refuse)
    (hkind : rep.kindCode ≠ 2) (hrequired : rep.selfRequired = true) (hack : rep.acknowledged = false) :
    applyFrame rep s = (s, { trigger := some .diverged }) := by
  have hfound : isFoundCode rep.kindCode = false := decide_eq_false hkind
  have hcommit : applyFrame rep s = applyCommit rep s := by
    rcases hv with h | h <;> simp only [applyFrame, h]
  rw [hcommit, applyCommit, hfound, hrequired, hack]
  rfl

/-- A committed FOUND at a station that is of a line already (R47, R143). -/
theorem applyFrame_foreignFound {rep : FrameReport} {s : State} {n : Nat} (hv : rep.verdict = .commit)
    (hkind : rep.kindCode = 2) (hbody : rep.payload = some (.found n)) (htakes : takesTriggers s.localState = true) :
    applyFrame rep s = (s, { trigger := some .foreign }) := by
  have hfound : isFoundCode rep.kindCode = true := decide_eq_true hkind
  simp only [applyFrame, hv, applyCommit, hfound, hbody, Bool.not_true, Bool.false_and, Bool.false_eq_true, if_false,
    applyCommitted]
  cases s.roster with
  | none => exact if_pos htakes
  | some r => rfl

/-- A teardown of the state after the frame, whatever the verdict did to the silence timer (R80, R144). -/
theorem exec_frameEnd_ejected {s : State} {role : Role} {cells : List LineCell} {x : Trigger} {tm : Timers}
    (hreset : s.resetLow = false) (hphase : s.line.phase = .receiving role) (hengaged : role.engaged = true)
    (htakes : takesTriggers s.localState = true) (hwaits : NothingWaits s) :
    let rep := frameReport s role none cells
    let closed : State := { s with line := lineAfter s 0 rep }
    takeVerdict rep closed = { closed with timers := tm } →
    applyFrame rep { closed with timers := tm } = ({ closed with timers := tm }, { trigger := some x }) →
    exec (.frameEnd cells) s = .next (driveOutputs (teardown (.trigger x) closed)) := by
  intro rep closed hverdict happlied
  rw [exec_frameEnd_receiving hreset hphase hengaged,
    frameEndSteps_ejected rep closed _ x ((congrArg (applyFrame rep) hverdict).trans happlied) hwaits htakes]
  exact congrArg (fun t => Host.Outcome.next (driveOutputs t)) (teardown_fresh (.trigger x) closed tm closed.queue)

/-- Settles O42, by the verdict and the kind of the frame. -/
theorem ejectionsWithoutTheFrame : Obligations.EjectionsWithoutTheFrame := by
  intro s role cells hreset hphase hstandby hdetached hstate hwaits rep ejects
  have hengaged := engaged_of_state role hstandby hdetached
  have htakes := (takesTriggers_iff s.localState).2 hstate
  have heject : ∀ {x tm}, _ → _ → ejects x := fun {x tm} =>
    exec_frameEnd_ejected (cells := cells) (x := x) (tm := tm) hreset hphase hengaged htakes hwaits
  have hrestarts := takeVerdict_restarts rep { s with line := lineAfter s 0 rep } hstate
  refine ⟨fun hv hrequired => ?_, fun hv hkind hrequired hack => ?_, fun n hv hbody => ?_⟩
  · have hquiet := takeVerdict_quiet rep { s with line := lineAfter s 0 rep } hstate
      (by rw [hv]; exact Verdict.noConfusion) (by rw [hv]; exact Verdict.noConfusion)
    exact heject hquiet (applyFrame_tailError _ hv hrequired)
  · exact heject (hrestarts hv) (applyFrame_unacknowledged _ hv hkind hrequired hack)
  · have hkind : rep.kindCode = 2 := (frameReport_payloadRead s role none cells _ hbody).2
    exact heject (hrestarts (.inl hv)) (applyFrame_foreignFound hv hkind hbody htakes)

end Sys2Proof.Machine
end

section
/-! PROOFS. Committed frames at a receiver in MEMBER: the whole next state (R9 to R20, R34, R39, R40, R76, R79). -/

namespace Sys2Proof.Machine

/-- Settles O35, by what an ordinary frame of a MEMBER does to the lease table. -/
theorem committedOrdinaryFrameIsApplied : Obligations.CommittedOrdinaryFrameIsApplied := by
  intro s role cells r req b hphase hplain hordinary rep hread onEntry applied
  obtain ⟨hrest, hquiet⟩ := hplain
  obtain ⟨hv, hbody, hack, hdiv, hreq, hsender⟩ := hread
  have hfound : ∀ n, b ≠ .found n := by
    rintro n rfl
    exact absurd (show 6 ≤ 2 from hordinary) (by decide)
  have htrigger := commitTrigger_none rep b r hdiv (.inr hsender)
  have hkind := applyKind_ordinary (stationNumber s) .member rep b r s.leases hordinary hsender
  rw [exec_frameEnd_applied hphase hrest (.inl hv) hbody hack hreq hfound htrigger hkind rfl,
    if_neg (fun h => h.2.elim hquiet)]
  have happlied : ordinaryEffect rep.sender b s.leases = applied := by
    cases b <;> rfl
  rw [happlied]
  rfl

/-- The frame end of a MEMBER that goes on after a TICK: the notices, the tick timer and slot, TICKOUT and the source
duty (R57, R76, R79). -/
theorem frameEndSteps_tick {rep : FrameReport} {s u : State} {r after : Roster} {events : List TableEvent}
    (hrest : MemberAtRest s r) (hquiet : ∀ i : Station, after.records[i].state ≠ .joining)
    (happlied : applyFrame rep (takeVerdict rep s) = (u, { events := events, tickApplied := true })) {table : LeaseTable}
    (hu : u = { s with
      leases := table
      roster := some after
      timers := { s.timers with silence := ticking s 3 } }) :
    frameEndSteps none rep s =
      { s with
        leases := table
        roster := some after
        sourceDuty := decide (firstMember after = some (stationNumber s))
        timers := { s.timers with tick := ticking s 1, silence := ticking s 3 }
        queue := removeSlot 6 s.queue
        notices := arriveInOrder (after.commits.setWidth 16) (events.flatMap (eventNotices s)) s.notices
        tickout := some 16 } := by
  obtain ⟨-, hmember, -, hports, hneeds, hslot⟩ := hrest
  subst hu
  have htimed : ∀ v : State, v.localState = .member → timeUnitEffect { events := events, tickApplied := true } v =
      { v with timers := { v.timers with tick := ticking v 1 }, queue := removeSlot 6 v.queue, tickout := some 16 } := by
    intro v hv
    rw [timeUnitEffect_eq, if_pos rfl, if_pos (.inl hv)]
  have hslot' : (removeSlot 6 s.queue).slots[(7 : Fin 8)] = none := by
    simpa [removeSlot] using hslot
  rw [frameEndSteps_plain rep s _ _ happlied hports hneeds rfl rfl rfl _ rfl _ rfl
      (by rw [htimed _ (by exact hmember)]; exact Timer.noConfusion),
    htimed _ (by exact hmember), placeAtFrameEnd_plain _ after (by rfl) (by exact hmember) hquiet hslot',
    dutyNow_find _ after (by rfl) (by exact hmember)]
  rfl

theorem onEveryEntry_table (f : Lease → LeaseEntry → LeaseEntry × List TableEvent) (t : LeaseTable) :
    (onEveryEntry f t).1 = Vector.ofFn fun l : Fin 64 => (t[l]).map fun e => (f l e).1 := rfl

/-- A TICK acts on the tick count and on every known entry, whatever its sender (R9, R18, R79). -/
theorem applyKind_tick (own : Station) (x : LocalState) (rep : FrameReport) (r : Roster) (t : LeaseTable) :
    applyKind own x rep .tick r t =
      { roster := { r with ticks := r.ticks + 1 }
        leases := (onEveryEntry tickEntry t).1
        effect := { events := (onEveryEntry tickEntry t).2, tickApplied := true } } := by
  rw [applyKind, applyTick, updateAllLeases_eq]

/-- Settles O34, by what a TICK does to every known entry. -/
theorem committedTickIsApplied : Obligations.CommittedTickIsApplied := by
  intro s role cells r req hphase hplain rep hread
  obtain ⟨hrest, hquiet⟩ := hplain
  have ⟨hreset, hmember, hroster, _⟩ := hrest
  obtain ⟨hv, hbody, hack, hdiv, hreq, hsender⟩ := hread
  have hverdict := takeVerdict_restarts rep { s with line := lineAfter s 0 rep } (.inr (.inl hmember)) (.inl hv)
  have happlied := applyFrame_at rep _ _ r req .tick _ (.inl hv) hbody hack hreq (fun n => FrameBody.noConfusion)
    hverdict hroster (applyKind_tick _ _ rep r s.leases)
  rw [commitTrigger_none rep .tick r hdiv (.inr hsender)] at happlied
  rw [exec_frameEnd_receiving hreset hphase (engaged_of_payload s role cells _ hbody),
    frameEndSteps_tick (s := { s with line := lineAfter s 0 rep }) (r := r) hrest
      (fun i => by rw [afterCommit_state]; exact hquiet i) happlied rfl,
    firstMember_afterCommit, onEveryEntry_notices, onEveryEntry_table]
  rfl

/-! ### Self-ejections after the frame (R42 to R45, R54, R104, R143) -/

/-- The time unit writes timers, queue and TICKOUT only (R76, R77, R79). -/
theorem timeUnitEffect_writes (fx : FrameEffect) (s : State) : ∃ (tm : Timers) (q : OutboundQueue),
    timeUnitEffect fx s =
      { s with timers := tm, queue := q, tickout := if fx.tickApplied then some 16 else s.tickout } := by
  rw [timeUnitEffect_eq]
  by_cases htick : fx.tickApplied = true
  · rw [if_pos htick, if_pos htick]
    split
    · exact ⟨_, _, rfl⟩
    · exact ⟨s.timers, s.queue, rfl⟩
  · rw [if_neg htick, if_neg htick]
    split
    · exact ⟨_, _, rfl⟩
    · exact ⟨s.timers, s.queue, rfl⟩

/-- The teardown that a trigger of the frame brings at a MEMBER with every client PORT-bound: after the notices of the
frame and the time unit (R104, R144). -/
theorem frameEndSteps_torn {rep : FrameReport} {s u : State} {fx : FrameEffect} {x : Trigger}
    (happlied : applyFrame rep (takeVerdict rep s) = (u, fx)) (hleave : fx.leaveCompleted = false)
    (htrigger : fx.trigger = some x) (hmember : u.localState = .member)
    (hports : ∀ d : Client, u.config.bindings[d] = .port) (hneeds : ∀ d : Client, u.queue.needs[d] = none) :
    frameEndSteps none rep s = teardown (.trigger x)
      { u with
        notices := arriveInOrder (commitStamp u) (fx.rosterNotices ++ fx.events.flatMap (eventNotices u)) u.notices
        tickout := if fx.tickApplied then some 16 else u.tickout } := by
  rw [frameEndSteps_ports none rep s u fx (s, {}) rfl happlied rfl hports hneeds]
  obtain ⟨tm, q, htimed⟩ := timeUnitEffect_writes fx
    { u with
      notices := arriveInOrder (commitStamp u) (fx.rosterNotices ++ fx.events.flatMap (eventNotices u)) u.notices }
  have htakes : takesTriggers u.localState = true := by
    rw [hmember]
    rfl
  refine (congrArg (settleFrameEnd fx {}) htimed).trans
    ((settleFrameEnd_trigger fx {} _ x hleave htrigger (by exact htakes)).trans ?_)
  exact teardown_fresh (.trigger x)
    { u with
      notices := arriveInOrder (commitStamp u) (fx.rosterNotices ++ fx.events.flatMap (eventNotices u)) u.notices
      tickout := if fx.tickApplied then some 16 else u.tickout } tm q

/-- The frame end of a MEMBER at rest that a committed frame ejects: the replica as the kind leaves it and the counts as
at any commit, then the teardown (R54, R104). -/
theorem exec_frameEnd_commitEjected {s : State} {role : Role} {cells : List LineCell} {r after : Roster}
    {req : List Station} {b : FrameBody} {table : LeaseTable} {events : List TableEvent} {tick : Bool} {x : Trigger}
    (hphase : s.line.phase = .receiving role) (hengaged : role.engaged = true) (hrest : MemberAtRest s r) :
    let rep := frameReport s role none cells
    rep.verdict = .commit → rep.payload = some b → rep.acknowledged = true → rep.required = some req →
    (∀ n, b ≠ .found n) → commitTrigger rep b r = some x →
    applyKind (stationNumber s) .member rep b r s.leases =
      { roster := after, leases := table, effect := { events := events, tickApplied := tick } } →
    after.commits = r.commits →
    exec (.frameEnd cells) s = .next (driveOutputs (teardown (.trigger x)
      { s with
        line := lineAfter s 0 rep
        leases := table
        roster := some (afterCommit req after)
        notices := arriveInOrder ((r.commits + 1).setWidth 16) (events.flatMap (eventNotices s)) s.notices
        tickout := if tick then some 16 else s.tickout })) := by
  obtain ⟨hreset, hmember, hroster, hports, hneeds, -⟩ := hrest
  intro rep hv hbody hack hreq hfound htrigger hkind hcommits
  have hverdict := takeVerdict_restarts rep { s with line := lineAfter s 0 rep } (.inr (.inl hmember)) (.inl hv)
  have happlied := applyFrame_at rep _ _ r req b _ (.inl hv) hbody hack hreq hfound hverdict hroster
    ((congrArg (fun y => applyKind (stationNumber s) y rep b r s.leases) hmember).trans hkind)
  rw [exec_frameEnd_receiving hreset hphase hengaged,
    frameEndSteps_torn happlied rfl htrigger hmember hports hneeds, ← hcommits]
  exact congrArg (fun t => Host.Outcome.next (driveOutputs t)) (teardown_fresh (.trigger x)
    { s with
      line := lineAfter s 0 rep
      leases := table
      roster := some (afterCommit req after)
      notices := arriveInOrder ((after.commits + 1).setWidth 16) (events.flatMap (eventNotices s)) s.notices
      tickout := if tick then some 16 else s.tickout } _ s.queue)

/-- A COMMIT that the station acknowledged with a divergence ejects it as DIVERGED (R54). -/
theorem commitTrigger_diverged {rep : FrameReport} (b : FrameBody) (r : Roster) (hv : rep.verdict = .commit)
    (hack : rep.acknowledged = true) (hdiv : rep.divergence = true) : commitTrigger rep b r = some .diverged := by
  rw [commitTrigger, hv, hack, hdiv]
  rfl

/-- A COMMIT of a sender that is no MEMBER ejects as FOREIGN, JOIN alone excepted (R104). -/
theorem commitTrigger_foreign {rep : FrameReport} {b : FrameBody} {r : Roster} (hdiv : rep.divergence = false)
    (hjoin : b ≠ .join) (hsender : r.records[rep.sender].state ≠ .member) : commitTrigger rep b r = some .foreign := by
  have hstranger : isMember r rep.sender = false := decide_eq_false hsender
  simp [commitTrigger, hdiv, hjoin, hstranger]

/-- LEAVE, SNAP and the ordinary frames have an effect only from a MEMBER (R9, R51, R52). -/
theorem applyKind_stranger {own : Station} {x : LocalState} {rep : FrameReport} {b : FrameBody} {r : Roster}
    (t : LeaseTable) (hkind : 4 ≤ (kindCode (bodyKind b)).toNat) (hsender : r.records[rep.sender].state ≠ .member) :
    applyKind own x rep b r t = { roster := r, leases := t } := by
  have hstranger : ¬ isMember r rep.sender = true := mt of_decide_eq_true hsender
  cases b with
  | tick => exact absurd (show 4 ≤ 1 from hkind) (by decide)
  | found n => exact absurd (show 4 ≤ 2 from hkind) (by decide)
  | join => exact absurd (show 4 ≤ 3 from hkind) (by decide)
  | leave => exact if_neg hstranger
  | snap item => exact if_neg hstranger
  | release l c => exact if_neg hstranger
  | renew entries => exact if_neg hstranger
  | acquire l c m term patience => exact if_neg hstranger

/-- A VOID that removes the station's own record: the others that go are reported, and the leases stay (R44, R45). -/
theorem accountVoid_own {rep : FrameReport} {r : Roster} {req removed : List Station} {s : State}
    (hreq : rep.required = some req) (hquiet : ∀ i : Station, r.records[i].state ≠ .joining)
    (hremoved : membersToRemove (accountMisses req rep.ackMap r) = removed) (hown : stationNumber s ∈ removed) :
    accountVoid rep r s =
      ({ s with roster := some (removeStations removed (accountMisses req rep.ackMap r)) },
        { rosterNotices := (removed.filter fun i => i ≠ stationNumber s).map fun i => .roster i .removed
          trigger := some .removed }) := by
  have hgoes : removalsOf (accountMisses req rep.ackMap r) = removed :=
    (removalsOf_plain req rep.ackMap r hquiet).trans hremoved
  unfold accountVoid
  rw [hreq, Option.getD_some]
  simp only [hgoes, rosterNotices_eq, List.contains_iff_mem, if_pos hown]

/-- What a VOID does at a plain MEMBER that it removes. -/
theorem applyFrame_void_own {rep : FrameReport} {s : State} {r : Roster} {req removed : List Station}
    (hplain : PlainMember s r) (hv : rep.verdict = .void) (hkind : rep.kindCode ≠ 2) (hreq : rep.required = some req)
    (hremoved : membersToRemove (accountMisses req rep.ackMap r) = removed) (hown : stationNumber s ∈ removed) :
    applyFrame rep (takeVerdict rep s) =
      ({ s with roster := some (removeStations removed (accountMisses req rep.ackMap r)) },
        { rosterNotices := (removed.filter fun i => i ≠ stationNumber s).map fun i => .roster i .removed
          trigger := some .removed }) := by
  obtain ⟨⟨-, hmember, hroster, -⟩, hquiet⟩ := hplain
  have hverdictTaken : takeVerdict rep s = s :=
    takeVerdict_quiet rep s (.inr (.inl hmember)) (by rw [hv]; exact Verdict.noConfusion)
      (by rw [hv]; exact Verdict.noConfusion)
  rw [hverdictTaken, applyFrame_void rep s r hv hkind hroster]
  exact accountVoid_own hreq hquiet hremoved hown

/-- Settles O43, by what the frame does before the teardown: a commit with a divergence, a commit of a stranger, a VOID
that removes the station itself. -/
theorem ejectionsAfterTheFrame : Obligations.EjectionsAfterTheFrame := by
  intro s role cells r req b hphase hstandby hdetached hplain rep stamp ejects hreq
  have hrest := hplain.1
  have hengaged := engaged_of_state role hstandby hdetached
  refine ⟨fun hv hbody hack => ⟨fun hdiv hsender hordinary => ?_, fun hdiv hsender => ⟨fun hkind => ?_, ?_⟩⟩, ?_⟩
  · have hfound : ∀ n, b ≠ .found n := by
      rintro n rfl
      exact absurd (show 6 ≤ 2 from hordinary) (by decide)
    exact exec_frameEnd_commitEjected (tick := false) hphase hengaged hrest hv hbody hack hreq hfound
      (commitTrigger_diverged b r hv hack hdiv) (applyKind_ordinary _ .member rep b r s.leases hordinary hsender) rfl
  · have hfound : ∀ n, b ≠ .found n := by
      rintro n rfl
      exact absurd (show 4 ≤ 2 from hkind) (by decide)
    have hjoin : b ≠ .join := by
      rintro rfl
      exact absurd (show 4 ≤ 3 from hkind) (by decide)
    exact exec_frameEnd_commitEjected (events := []) (tick := false) hphase hengaged hrest hv hbody hack hreq hfound
      (commitTrigger_foreign hdiv hjoin hsender) (applyKind_stranger s.leases hkind hsender) rfl
  · rintro rfl
    exact exec_frameEnd_commitEjected (tick := true) hphase hengaged hrest hv hbody hack hreq (fun n => FrameBody.noConfusion)
      (commitTrigger_foreign hdiv FrameBody.noConfusion hsender) (applyKind_tick _ .member rep r s.leases) rfl
  · intro hv hkind counted members late removed hown
    obtain ⟨hreset, hmember, -, hports, hneeds, -⟩ := hrest
    have hcounted : ∀ i : Fin 16, (accountMisses req rep.ackMap r).records[i] = counted i :=
      accountMisses_get req rep.ackMap r
    have hremoved : membersToRemove (accountMisses req rep.ackMap r) = removed := by
      rw [membersToRemove_counted]
      simp only [hcounted]
      rfl
    have hafter : removeStations removed (accountMisses req rep.ackMap r) =
        { r with
          records := Vector.ofFn fun i : Fin 16 =>
            if removed.contains i then { state := .absent, miss := 0, progress := none } else counted i } := by
      simp only [removeStations, mapRecords, hcounted]
      rfl
    have happlied := applyFrame_void_own (s := { s with line := lineAfter s 0 rep }) hplain hv hkind hreq hremoved hown
    rw [hafter] at happlied
    refine (exec_frameEnd_receiving hreset hphase hengaged).trans ?_
    rw [frameEndSteps_torn happlied rfl rfl hmember hports hneeds]
    simp only [List.flatMap_nil, List.append_nil]
    rfl

end Sys2Proof.Machine
end

section
/-! PROOFS. The frame end of a MEMBER that sent an ordinary frame (R34, R40, R41, R91, R92, R104, R107, R118). -/

namespace Sys2Proof.Machine

/-- The frame end of a sender in MEMBER at rest, after what the outbound queue made of its attempt: a committed frame of
a MEMBER is applied as at a receiver (R104, R118). -/
theorem frameEndSteps_senderCommit {rep : FrameReport} {s t : State} {slot : Option (Fin 8)} {r : Roster}
    {req : List Station} {b : FrameBody} (ht : PlainMember t r) (hout : ownOutcome slot rep s = (t, {}))
    (hordinary : 6 ≤ (kindCode (bodyKind b)).toNat) (hread : ReadsCommitted rep r req b) :
    frameEndSteps slot rep s =
      { t with
        leases := (ordinaryEffect rep.sender b t.leases).1
        roster := some (afterCommit req r)
        sourceDuty := decide (firstMember r = some (stationNumber t))
        timers := { t.timers with silence := ticking t 3 }
        notices := arriveInOrder ((r.commits + 1).setWidth 16)
          ((ordinaryEffect rep.sender b t.leases).2.flatMap (eventNotices t)) t.notices } := by
  obtain ⟨⟨-, hmember, hroster, hports, hneeds, hslot⟩, hquiet⟩ := ht
  obtain ⟨hv, hbody, hack, hdiv, hreq, hsender⟩ := hread
  have hfound : ∀ n, b ≠ .found n := by
    rintro n rfl
    exact absurd (show 6 ≤ 2 from hordinary) (by decide)
  have hverdict := takeVerdict_restarts rep t (.inr (.inl hmember)) (.inl hv)
  have happlied := applyFrame_at rep t _ r req b _ (.inl hv) hbody hack hreq hfound hverdict hroster
    (applyKind_ordinary (stationNumber t) t.localState rep b r t.leases hordinary hsender)
  have htrigger := commitTrigger_none rep b r hdiv (.inr hsender)
  rw [frameEndSteps_member slot rep s _ _ (t, {}) (afterCommit req r) hout happlied rfl rfl hports hneeds rfl hmember
    hslot rfl htrigger Timer.noConfusion rfl rfl rfl]
  simp only [firstMember_afterCommit, afterCommit_state, hquiet, exists_false, and_false, if_false, List.nil_append]
  rfl

/-- The frame end of a sender in MEMBER at rest whose frame was not committed: its roster may count misses, and nothing
else follows (R104, R118). -/
theorem frameEndSteps_senderFails {rep : FrameReport} {s t u : State} {slot : Option (Fin 8)} {r after : Roster}
    (ht : PlainMember t r) (hout : ownOutcome slot rep s = (t, {})) (hcommit : rep.verdict ≠ .commit)
    (hrefuse : rep.verdict ≠ .refuse) (happlied : applyFrame rep t = (u, {})) (hu : u = { t with roster := some after })
    (hsilence : t.timers.silence ≠ .expired) (hstates : ∀ i : Fin 16, after.records[i].state = r.records[i].state) :
    frameEndSteps slot rep s =
      { t with roster := some after, sourceDuty := decide (firstMember r = some (stationNumber t)) } := by
  subst hu
  obtain ⟨⟨-, hmember, -, hports, hneeds, hslot⟩, hquiet⟩ := ht
  have hverdict := takeVerdict_quiet rep t (.inr (.inl hmember)) hcommit hrefuse
  have hsource : firstMember after = firstMember r := by
    simp only [firstMember, hstates]
  rw [frameEndSteps_member slot rep s _ _ (t, {}) after hout ((congrArg (applyFrame rep) hverdict).trans happlied) rfl
    rfl hports hneeds rfl hmember hslot rfl rfl hsilence rfl rfl rfl]
  simp only [hsource, hstates, hquiet, exists_false, and_false, if_false]
  rfl

/-- A VOID that brings nobody to three misses, at its sender (R41). -/
theorem frameEndSteps_senderVoided {rep : FrameReport} {s t : State} {slot : Option (Fin 8)} {r : Roster}
    {req : List Station} (ht : PlainMember t r) (hout : ownOutcome slot rep s = (t, {})) (hv : rep.verdict = .void)
    (hkind : rep.kindCode ≠ 2) (hreq : rep.required = some req) (hsilence : t.timers.silence ≠ .expired)
    (hmiss : ∀ i : Fin 16, r.records[i].miss.val < 2) :
    frameEndSteps slot rep s =
      { t with
        roster := some
          { r with
            records := Vector.ofFn fun i : Fin 16 =>
              if req.contains i then
                { r.records[i] with miss := if rep.ackMap.getLsbD i.val = false then 0 else r.records[i].miss + 1 }
              else r.records[i] }
        sourceDuty := decide (firstMember r = some (stationNumber t)) } := by
  have ⟨⟨_, _, hroster, _⟩, hquiet⟩ := ht
  have happlied := (applyFrame_void rep t r hv hkind hroster).trans (accountVoid_quiet rep r req t hreq hquiet hmiss)
  refine frameEndSteps_senderFails ht hout ?_ ?_ happlied rfl hsilence fun i => ?_
  · rw [hv]; exact Verdict.noConfusion
  · rw [hv]; exact Verdict.noConfusion
  · simp only [Fin.getElem_fin, Vector.getElem_ofFn]
    split <;> rfl

/-- A frame without a verdict, at its sender (R104). -/
theorem frameEndSteps_senderAbandoned {rep : FrameReport} {s t : State} {slot : Option (Fin 8)} {r : Roster}
    (ht : PlainMember t r) (hout : ownOutcome slot rep s = (t, {})) (hv : rep.verdict = .abandoned)
    (hsilence : t.timers.silence ≠ .expired) :
    frameEndSteps slot rep s = { t with sourceDuty := decide (firstMember r = some (stationNumber t)) } := by
  have ⟨⟨_, _, hroster, _⟩, _⟩ := ht
  have happlied : applyFrame rep t = (t, {}) := by
    simp only [applyFrame, hv]
  have hkeeps : t = { t with roster := some r } := by
    rw [← hroster]
  rw [frameEndSteps_senderFails ht hout (by rw [hv]; exact Verdict.noConfusion) (by rw [hv]; exact Verdict.noConfusion)
    happlied hkeeps hsilence fun _ => rfl, ← hroster]

/-- Settles O33, by the outcome of the attempt. -/
theorem senderFrameEnds : Obligations.SenderFrameEnds := by
  intro s role tx cells r req x hphase hplain hx hgeneral hordinary hattempts halone rep slots kept duty
  obtain ⟨⟨hreset, hmember, hroster, hports, hneeds, hslot⟩, hquiet⟩ := hplain
  have hseven : ∀ y, (slots y).slots[(7 : Fin 8)] = none := by
    intro y
    rw [show (slots y).slots = s.queue.slots.set tx.slot y from rfl, slots_set_get, if_neg (by omega)]
    exact hslot
  have hend : ∀ t, frameEndSteps (some tx.slot) rep { s with line := lineAfter s (marksLeft tx cells) rep } = t →
      exec (.frameEnd cells) s = .next (driveOutputs t) := fun t ht => ht ▸ exec_frameEnd_sending hreset hphase
  have hrest : ∀ (line : LineEngine) (y : Option Slot), MemberAtRest { s with line := line, queue := slots y } r :=
    fun line y => ⟨hreset, hmember, hroster, hports, hneeds, hseven y⟩
  have hstays : ∀ o, rep.attempt = some o → o = .lost ∨ o = .aborted ∨ o = .voided →
      ownOutcome (some tx.slot) rep { s with line := lineAfter s (marksLeft tx cells) rep } =
        ({ s with
            line := lineAfter s (marksLeft tx cells) rep
            queue := kept (if o = .lost then x.attempts else x.attempts + 1) }, {}) := by
    intro o ho hfails
    rw [ownOutcome_of_attempt ho]
    exact takeOutcome_stays tx.slot o _ x hx hordinary hattempts hfails (by rw [hmember]; exact LocalState.noConfusion)
      hneeds halone
  refine ⟨fun b hb hread => ⟨fun hcommitted => ?_, fun hlost => ?_⟩, fun hvoided hv hkind hreq hsilence hmiss => ?_,
    fun haborted hv hsilence => ?_⟩
  · have hgoes := (ownOutcome_of_attempt hcommitted).trans (takeOutcome_ordinary tx.slot
      { s with line := lineAfter s (marksLeft tx cells) rep } x hx hordinary)
    exact hend _ (frameEndSteps_senderCommit ⟨hrest _ none, hquiet⟩ hgoes hb hread)
  · exact hend _ (frameEndSteps_senderCommit ⟨hrest _ _, hquiet⟩ (hstays .lost hlost (.inl rfl)) hb hread)
  · exact hend _ (frameEndSteps_senderVoided ⟨hrest _ _, hquiet⟩ (hstays .voided hvoided (.inr (.inr rfl))) hv hkind
      hreq hsilence hmiss)
  · exact hend _ (frameEndSteps_senderAbandoned ⟨hrest _ _, hquiet⟩ (hstays .aborted haborted (.inr (.inl rfl))) hv
      hsilence)

end Sys2Proof.Machine
end

section
/-! PROOFS. The edge of the line, and the opportunities that start nothing (R87 to R89, R113, R114, R116). -/

namespace Sys2Proof.Machine

/-! ### The edge of another station, and a listener (R87, R88, R103) -/

theorem exec_frameStartBit_quiet {s : State} (hreset : s.resetLow = false) (hquiet : LineQuiet s) :
    exec .frameStartBit s =
      .next (driveOutputs (if 10 ≤ s.line.gapBits then beginFrame (.receiving (roleNow s)) s else restartGap s)) := by
  have hfree : ¬ frameInProgress s = true := Bool.eq_false_iff.1 ((frameInProgress_false_iff s).2 hquiet)
  show execFrameStartBit s = _
  rw [execFrameStartBit, if_neg (Bool.eq_false_iff.1 hreset), receiveStartBit, if_neg hfree]
  rfl

/-- A listener's frame end keeps the report and starts the gap (R87, R103). -/
theorem endFrame_listening {s : State} {role : Role} (cells : List LineCell) (hphase : s.line.phase = .receiving role)
    (hlistens : role.localState = .standby ∨ role.localState = .detached) :
    endFrame cells s = closeFrame 0 (frameReport s role none cells) s := by
  have hengaged : role.engaged = false := by
    unfold Role.engaged
    rcases hlistens with h | h <;> rw [h]
  simp only [endFrame, hphase, hengaged, Bool.false_eq_true, if_false]

/-- Settles O24, by whether the gap has come to 10 recessive bits. -/
theorem startBitAndListener : Obligations.StartBitAndListener := by
  refine ⟨fun s hreset hquiet => ⟨fun hshort => ?_, fun hlong => ?_⟩, ?_⟩
  · rw [exec_frameStartBit_quiet hreset hquiet, if_neg (Nat.not_le.2 hshort), restartGap, inputAtEdge_eq]
  · rw [exec_frameStartBit_quiet hreset hquiet, if_pos hlong, beginFrame, inputAfterStart_eq]
    rfl
  · intro s role cells hreset hphase hlistens
    rw [exec_frameEnd_high hreset, endFrame_listening cells hphase hlistens]
    rfl

/-! ### An opportunity that starts nothing (R88, R89, R113, R114, R116) -/

theorem offersOpportunity_of_comes {s : State} {o : Opportunity} (h : OpportunityComes s o) :
    offersOpportunity o s = true := by
  obtain ⟨hgap, hidle, hcourtesy⟩ := h
  cases o with
  | quietGap => exact decide_eq_true (hgap rfl)
  | lineIdle => exact decide_eq_true (hidle Opportunity.noConfusion)
  | courtesyGap =>
    exact Bool.and_eq_true_iff.2 ⟨decide_eq_true (hidle Opportunity.noConfusion), hcourtesy rfl⟩

/-- An opportunity that comes makes the line idle and looks at the head (R88, R114). -/
theorem exec_attemptStart_comes {s : State} {o : Opportunity} (hreset : s.resetLow = false) (h : OpportunityComes s o) :
    exec (.attemptStart o) s = .next (driveOutputs (tryHead 16 (takeOpportunity o s))) := by
  show execAttemptStart o s = _
  rw [execAttemptStart, if_neg (Bool.eq_false_iff.1 hreset), startAttempt, if_pos (offersOpportunity_of_comes h)]

theorem tryHead_no_head {s : State} (fuel : Nat) (h : headSlot s = none) : tryHead fuel s = waitIdle s := by
  cases fuel with
  | zero => rfl
  | succ n => simp only [tryHead, h]

theorem tryHead_held {s : State} {k : Fin 8} {x : Slot} (fuel : Nat) (h : headSlot s = some (k, x))
    (hheld : heldByCourtesy s x = true) : tryHead fuel s = waitIdle s := by
  cases fuel with
  | zero => rfl
  | succ n => simp only [tryHead, h, hheld, if_true]

/-- A head that assembles to no frame is dropped, and the head is chosen again (R115, R116). -/
theorem tryHead_stale {s : State} {k : Fin 8} {x : Slot} (fuel : Nat) (h : headSlot s = some (k, x))
    (hfree : heldByCourtesy s x = false) (hstale : assemble s x.content = none) :
    tryHead (fuel + 1) s = tryHead fuel (dropSlot k x.content s) := by
  simp only [tryHead, h, hfree, hstale, Bool.false_eq_true, if_false]

/-- The line as an opportunity leaves it is idle already (R88). -/
theorem waitIdle_takeOpportunity (o : Opportunity) (s : State) :
    waitIdle (takeOpportunity o s) = takeOpportunity o s := rfl

theorem takeOpportunity_eq (o : Opportunity) (s : State) :
    takeOpportunity o s =
      { s with
        line :=
          { s.line with
            phase := .idle
            gapBits := max s.line.gapBits (if o = .courtesyGap then 22 else 11)
            courtesyPending := if o = .courtesyGap then false else s.line.courtesyPending
            markBits := 0 } } := by
  cases o <;> rfl

/-- Without a head, or with one that the courtesy gap holds, an opportunity starts nothing (R89, R114). -/
theorem tryHead_starts_nothing {s : State} {o : Opportunity} (fuel : Nat)
    (h : (∀ k x, ¬ Offered s k x) ∨
      ∃ k x, IsHead s k x ∧ 6 ≤ (kindCode (slotKind x.content)).toNat ∧ s.line.courtesyPending = true ∧
        o ≠ .courtesyGap) :
    tryHead fuel (takeOpportunity o s) = takeOpportunity o s := by
  rcases h with hnone | ⟨k, x, hhead, hordinary, hpending, ho⟩
  · rw [tryHead_no_head fuel (headSlot_none (takeOpportunity o s) hnone), waitIdle_takeOpportunity]
  · have hstill : (takeOpportunity o s).line.courtesyPending = true := (if_neg ho).trans hpending
    rw [tryHead_held fuel (headSlot_some (takeOpportunity o s) k x hhead)
      ((heldByCourtesy_iff _ x).2 ⟨hordinary, hstill⟩), waitIdle_takeOpportunity]

/-- With nothing waiting a MEMBER does nothing with a slot that has freed (R125, R140, R155). -/
theorem slotFreed_nothing_waits {s : State} (hmember : s.localState = .member) (h : NothingWaits s) :
    slotFreed s = s := by
  obtain ⟨hneeds, hclients⟩ := h
  rw [slotFreed, settleQueue, serveNeeds_none s hneeds, concludeClients_none s hclients, leaveHandshake, if_neg]
  rw [hmember]
  exact LocalState.noConfusion

/-- A stale RELEASE is dropped with WITHDRAWN, NOT_PRESENT (R116). -/
theorem dropSlot_release {s : State} (k : Fin 8) (l : Lease) (c : Client) (hmember : s.localState = .member)
    (h : NothingWaits s) :
    dropSlot k (.release l c) s =
      { s with
        queue := { s.queue with slots := s.queue.slots.set k none }
        notices := arrive { stamp := commitStamp s, body := .withdrawn l c .notPresent } s.notices } := by
  rw [dropSlot, slotFreed_nothing_waits (by exact hmember) (by exact h)]
  rfl

/-- A stale RELEASE that alone is offered is dropped, and nothing is left to start (R114, R116). -/
theorem tryHead_drops_release {s : State} {k : Fin 8} {x : Slot} {l : Lease} {c : Client} (fuel : Nat)
    (hmember : s.localState = .member) (hpending : s.line.courtesyPending = false) (hwaits : NothingWaits s)
    (hx : s.queue.slots[k] = some x) (hrelease : x.content = .release l c)
    (honly : ∀ (j : Fin 8) (y : Slot), Offered s j y → j = k) (hgone : ¬ TagIn s l (ownTag s c)) :
    tryHead (fuel + 1) s =
      waitIdle
        { s with
          queue := { s.queue with slots := s.queue.slots.set k none }
          notices := arrive { stamp := commitStamp s, body := .withdrawn l c .notPresent } s.notices } := by
  have hoffered : Offered s k x := ⟨hx, by rw [hmember, hrelease]; rfl⟩
  have hhead : IsHead s k x := ⟨hoffered, fun j y hy hj => absurd (honly j y hy) hj⟩
  have hfree : heldByCourtesy s x = false := by
    rw [heldByCourtesy, hpending, Bool.false_and]
  have hstale : assemble s x.content = none := by
    rw [hrelease, assemble, if_neg (mt (tagPresent_iff s l _).1 hgone)]
  rw [tryHead_stale fuel (headSlot_some s k x hhead) hfree hstale, hrelease, dropSlot_release k l c hmember hwaits]
  refine tryHead_no_head fuel (headSlot_none _ fun j y ⟨hy, hpermitted⟩ => ?_)
  have hslot : (s.queue.slots.set k none)[j] = some y := hy
  rw [slots_set_get] at hslot
  split at hslot
  · cases hslot
  · rename_i hother
    exact hother (honly j y ⟨hslot, hpermitted⟩).symm

/-- Settles O25, by the head of the queue. -/
theorem opportunityWithoutAttempt : Obligations.OpportunityWithoutAttempt := by
  refine ⟨fun s hreset => ⟨rfl, fun o hcomes hnothing => ?_⟩, ?_⟩
  · rw [exec_attemptStart_comes hreset hcomes, tryHead_starts_nothing 16 hnothing, takeOpportunity_eq]
  · intro s o k x l c hreset hcomes hmember hpending hwaits hx hrelease honly hgone
    have ho : o ≠ .courtesyGap := by
      rintro rfl
      obtain ⟨-, -, hcourtesy⟩ := hcomes
      rw [hcourtesy rfl] at hpending
      exact Bool.noConfusion hpending
    rw [exec_attemptStart_comes hreset hcomes, takeOpportunity_eq, if_neg ho, if_neg ho]
    exact congrArg (fun t => Host.Outcome.next (driveOutputs t)) (tryHead_drops_release 15 (by exact hmember)
      (by exact hpending) (by exact hwaits) (by exact hx) hrelease (by exact honly) (by exact hgone))

end Sys2Proof.Machine
end

section
/-! PROOFS. What a station reads of a frame: the reception checks, the course of its own attempt, the verdict (R91 to
R103, R107). -/

namespace Sys2Proof.Machine

/-! ### The reception checks (R93 to R97, R103) -/

theorem marksDominant_iff (cells : List LineCell) (first n : Nat) :
    marksDominant cells first n = true ↔ ∀ i : Nat, i < n → (readCell cells (first + i)).markDominant = true := by
  simp [marksDominant]

theorem payloadRead_eq_some (cells : List LineCell) (b : FrameBody) :
    payloadRead cells = some b ↔
      ∃ k, kindCode k = kindCodeRead cells ∧ readPayload k (readBytes cells 3 (payloadCells cells)) = some b := by
  unfold payloadRead
  cases hk : kindOfCode (kindCodeRead cells) with
  | none =>
    refine ⟨fun h => (by cases h), fun ⟨k, hcode, _⟩ => ?_⟩
    rw [(kindOfCode_eq_some _ k).2 hcode] at hk
    cases hk
  | some k =>
    refine ⟨fun h => ⟨k, (kindOfCode_eq_some _ k).1 hk, h⟩, fun ⟨j, hcode, h⟩ => ?_⟩
    rw [(kindOfCode_eq_some _ j).2 hcode] at hk
    cases hk
    exact h

/-- The reception checks: marks, length, CRC, and a payload that is read (R93). -/
theorem receptionWhole_iff (cells : List LineCell) :
    receptionWhole cells = true ↔
      (∀ i : Nat, i < 5 + payloadCells cells → (readCell cells i).markDominant = true) ∧
        (readCell cells 2).data.toNat ≤ 64 ∧ crcRead cells = crc16 (coveredBytes cells) ∧
        ∃ b, payloadRead cells = some b := by
  have hmarks := marksDominant_iff cells 0 (5 + payloadCells cells)
  simp only [Nat.zero_add] at hmarks
  rw [receptionWhole, Bool.and_eq_true, Bool.and_eq_true, Bool.and_eq_true, hmarks, decide_eq_true_iff,
    decide_eq_true_iff, Option.isSome_iff_exists, and_assoc, and_assoc]
  rfl

theorem engaged_iff (role : Role) :
    role.engaged = true ↔ ¬ (role.localState = .standby ∨ role.localState = .detached) := by
  unfold Role.engaged
  cases role.localState <;> simp

theorem isFoundCode_iff (code : BitVec 4) : isFoundCode code = true ↔ code = 2 := decide_eq_true_iff

theorem isJoinCode_iff (code : BitVec 4) : isJoinCode code = true ↔ code = 3 := decide_eq_true_iff

theorem isFoundCode_false_iff (code : BitVec 4) : isFoundCode code = false ↔ code ≠ 2 := decide_eq_false_iff_not

theorem isJoinCode_false_iff (code : BitVec 4) : isJoinCode code = false ↔ code ≠ 3 := decide_eq_false_iff_not

theorem selfRequired_iff (own : Station) (role : Role) (cells : List LineCell) :
    selfRequired own role cells = true ↔
      (∃ req, role.required = some req ∧ own ∈ req) ∨
        role.required = none ∧ role.localState = .joining ∧ ¬ kindCodeRead cells = 2 := by
  unfold selfRequired
  cases role.required with
  | none => simp [isFoundCode_false_iff]
  | some req => simp

theorem receiverAcknowledges_iff (own : Station) (role : Role) (cells : List LineCell) :
    receiverAcknowledges own role cells = true ↔ receptionWhole cells = true ∧
      (role.localState = .seeking ∧ kindCodeRead cells = 2 ∨
        (role.localState = .joining ∨ role.localState = .member ∨ role.localState = .leaving) ∧
          ¬ kindCodeRead cells = 2 ∧
          ((∃ req, role.required = some req ∧ own ∈ req) ∨ role.required = none ∧ role.localState = .joining)) := by
  rw [receiverAcknowledges, Bool.and_eq_true, ← isFoundCode_iff]
  refine and_congr_right fun _ => ?_
  cases hstate : role.localState <;> cases role.required <;> simp

theorem divergenceRead_iff (role : Role) (cells : List LineCell) :
    divergenceRead role cells = true ↔ ∃ n, role.commits = some n ∧ kindCodeRead cells ≠ 2 ∧ kindCodeRead cells ≠ 3 ∧
      (readCell cells 1).data ≠ n.extractLsb' 0 8 := by
  have hlow : ∀ n : BitVec 32, n.extractLsb' 0 8 = n.setWidth 8 := by
    intro n
    ext i hi
    simp
  unfold divergenceRead
  cases role.commits with
  | none => simp
  | some n => simp [hlow, isFoundCode_false_iff, isJoinCode_false_iff, and_assoc]

/-- Settles O29, field by field of the report. -/
theorem receptionChecks : Obligations.ReceptionChecks := by
  intro s role cells rep cell p bytes listens found read checked
  have hread : ∀ b, payloadRead cells = some b ↔ read b := payloadRead_eq_some cells
  have hchecked : receptionWhole cells = true ↔ checked := by
    rw [receptionWhole_iff]
    simp only [hread]
    rfl
  have hwhole : rep.whole = true ↔ ¬ listens ∧ checked := by
    rw [show rep.whole = (role.engaged && receptionWhole cells) from rfl, Bool.and_eq_true, engaged_iff, hchecked]
  refine ⟨rfl, rfl, rfl, rfl, rfl, hwhole, fun b => ?_, ?_, divergenceRead_iff role cells,
    selfRequired_iff (stationNumber s) role cells⟩
  · have hpayload : rep.payload = if rep.whole then payloadRead cells else none := rfl
    rw [hpayload, Option.ite_none_right_eq_some, hwhole, hread, and_assoc]
  · exact (receiverAcknowledges_iff (stationNumber s) role cells).trans (and_congr_left' hchecked)

/-! ### The course and the outcome of an own attempt (R91, R92, R107) -/

/-- A header is read below the one driven exactly where the first bit that differs was driven recessive and read
dominant (R91). -/
theorem headerLost_iff (driven read : Byte) :
    headerLost driven read = true ↔ ∃ i : Fin 8, driven.getLsbD i = true ∧ read.getLsbD i = false ∧
      ∀ j : Fin 8, i.val < j.val → driven.getLsbD j = read.getLsbD j := by
  have habove : ∀ (i : Fin 8) (a b : Byte), (∀ j : Fin 8, i.val < j.val → a.getLsbD j = b.getLsbD j) →
      ∀ j, i.val < j → a.toNat.testBit j = b.toNat.testBit j := by
    intro i a b h j hj
    by_cases hlt : j < 8
    · exact h ⟨j, hlt⟩ hj
    · rw [BitVec.testBit_toNat, BitVec.testBit_toNat, BitVec.getLsbD_of_ge a j (by omega),
        BitVec.getLsbD_of_ge b j (by omega)]
  rw [headerLost, decide_eq_true_iff]
  refine ⟨fun hlt => ?_, fun ⟨i, hdriven, hread, hsame⟩ => ?_⟩
  · have hdiffer : ∃ i : Fin 8, driven.getLsbD i ≠ read.getLsbD i := by
      by_contra hnone
      push Not at hnone
      have hsame : driven = read := BitVec.eq_of_getLsbD_eq fun i hi => hnone ⟨i, hi⟩
      rw [hsame] at hlt
      exact lt_irrefl _ hlt
    obtain ⟨i, hi, hmax⟩ := Finset.exists_max_image (Finset.univ.filter fun i : Fin 8 => driven.getLsbD i ≠ read.getLsbD i)
      Fin.val (hdiffer.imp fun i hi => by simpa using hi)
    have hsame : ∀ j : Fin 8, i.val < j.val → driven.getLsbD j = read.getLsbD j := fun j hj =>
      not_not.1 fun hne => absurd (hmax j (by simpa using hne)) (Nat.not_le.2 hj)
    have hfirst : driven.getLsbD i ≠ read.getLsbD i := by simpa using hi
    cases hdriven : driven.getLsbD i with
    | true => exact ⟨i, hdriven, Bool.eq_false_iff.2 fun hread => hfirst (hdriven.trans hread.symm), hsame⟩
    | false =>
      have hread : read.getLsbD i = true := Bool.ne_false_iff.1 fun hread => hfirst (hdriven.trans hread.symm)
      exact absurd (Nat.lt_of_testBit i.val hdriven hread (habove i driven read hsame)) (Nat.lt_asymm hlt)
  · exact Nat.lt_of_testBit i.val hread hdriven fun j hj => (habove i driven read hsame j hj).symm

/-- All cells of the frame up to the CRC read as driven, their marks dominant (R92). -/
theorem readsAsDriven_iff (driven : List Byte) (cells : List LineCell) :
    readsAsDriven driven cells = true ↔
      ∀ (i : Nat) (d : Byte), driven[i]? = some d → readCell cells i = { markDominant := true, data := d } := by
  rw [readsAsDriven, Bool.and_eq_true, marksDominant_iff, decide_eq_true_iff]
  simp only [Nat.zero_add]
  refine ⟨fun ⟨hmarks, hdata⟩ i d hd => ?_, fun h => ⟨fun i hi => ?_, ?_⟩⟩
  · obtain ⟨hi, -⟩ := List.getElem?_eq_some_iff.1 hd
    have hbyte : (readBytes cells 0 driven.length)[i]? = some (readCell cells i).data := by
      simp [readBytes, hi]
    rw [hdata, hd] at hbyte
    cases hcell : readCell cells i with
    | mk mark data =>
      have hmark := hmarks i hi
      rw [hcell] at hmark hbyte
      cases hbyte
      rw [show mark = true from hmark]
  · rw [h i _ (List.getElem?_eq_getElem hi)]
  · refine readBytes_eq driven cells 0 _ rfl fun i d hd => ?_
    rw [Nat.zero_add, h i d hd]

theorem senderCourse_of_mark_lost {driven : List Byte} {cells : List LineCell}
    (h : (readCell cells 0).markDominant = false) : senderCourse driven cells = .aborted := by
  rw [senderCourse, h]
  rfl

/-- With its first mark read, an attempt goes by the header, then by the cells after it (R91, R92). -/
theorem senderCourse_of_mark {driven : List Byte} {cells : List LineCell}
    (h : (readCell cells 0).markDominant = true) :
    senderCourse driven cells =
      if headerLost (driven.getD 0 0) (readCell cells 0).data then .lost
      else if readsAsDriven driven cells then .sent
      else .aborted := by
  rw [senderCourse, h]
  rfl

/-- The slot of the attempt sends a JOIN. -/
theorem slotSendsJoin_iff (s : State) (k : Fin 8) :
    slotSendsJoin s k = true ↔ ∃ x, s.queue.slots[k] = some x ∧ x.content = .join := by
  unfold slotSendsJoin
  cases s.queue.slots[k] <;> simp

/-- A sender that lost drives a verdict as a receiver does (R91, R99). -/
theorem verdictDriven_lost (s : State) (role : Role) (cells : List LineCell) :
    verdictDriven s role (some .lost) cells = verdictDriven s role none cells := by
  simp [verdictDriven]

/-- A sender that lost reports as a receiver (R91, R103). -/
theorem frameReport_lost {s : State} {role : Role} {tx : Transmission} {cells : List LineCell}
    (h : senderCourse tx.bytes cells = .lost) :
    frameReport s role (some tx) cells = { frameReport s role none cells with attempt := some .lost } := by
  simp [frameReport, h, verdictDriven_lost, attemptOutcome]

/-- The attempt of a frame that was sent, by its verdict (R107). -/
theorem attemptOutcome_sent (join : Bool) (v : Verdict) :
    attemptOutcome join .sent v =
      if v = .commit then .committed else if v = .refuse ∧ join = true then .refused else .voided := by
  cases join <;> cases v <;> rfl

/-- The attempt of a frame that was aborted, by its verdict where it is a JOIN (R107; log entry 36). -/
theorem attemptOutcome_aborted (join : Bool) (v : Verdict) :
    attemptOutcome join .aborted v =
      if join = true ∧ v = .commit then .committed else if join = true ∧ v = .refuse then .refused else .aborted := by
  cases join <;> cases v <;> rfl

/-- The report of a sender that sent its frame to the end (R92, R103, R107). -/
theorem frameReport_sent {s : State} {role : Role} {tx : Transmission} {cells : List LineCell}
    (h : senderCourse tx.bytes cells = .sent) :
    let rep := frameReport s role (some tx) cells
    rep.whole = true ∧ rep.acknowledged = true ∧ rep.divergence = false ∧ rep.payload = payloadRead cells ∧
      rep.attempt = some (attemptOutcome (slotSendsJoin s tx.slot) .sent rep.verdict) := by
  simp [frameReport, h]

/-- The report of a sender that aborted (R92, R103, R107). -/
theorem frameReport_aborted {s : State} {role : Role} {tx : Transmission} {cells : List LineCell}
    (h : senderCourse tx.bytes cells = .aborted) :
    let rep := frameReport s role (some tx) cells
    rep.whole = false ∧ rep.acknowledged = false ∧ rep.divergence = false ∧ rep.payload = none ∧
      rep.verdictDriven = none ∧
      rep.attempt = some (attemptOutcome (slotSendsJoin s tx.slot) .aborted rep.verdict) := by
  simp [frameReport, h, verdictDriven]

/-- Settles O30, by the course of the attempt. -/
theorem attemptsAreRead : Obligations.AttemptsAreRead := by
  refine ⟨?_, ?_⟩
  · intro driven cells first header lost asDriven
    have hlost : headerLost header first.data = true ↔ lost := headerLost_iff header first.data
    have hsent : readsAsDriven driven cells = true ↔ asDriven := readsAsDriven_iff driven cells
    refine ⟨senderCourse_of_mark_lost, fun hmark h => ?_, fun hmark h hd => ?_, fun hmark h hd => ?_⟩
    · rw [senderCourse_of_mark hmark, if_pos (hlost.2 h)]
    · rw [senderCourse_of_mark hmark, if_neg (mt hlost.1 h), if_pos (hsent.2 hd)]
    · rw [senderCourse_of_mark hmark, if_neg (mt hlost.1 h), if_neg (mt hsent.1 hd)]
  · intro s role tx cells rep course join
    have hjoin : slotSendsJoin s tx.slot = true ↔ join := slotSendsJoin_iff s tx.slot
    refine ⟨frameReport_lost, fun hsent => ?_, fun haborted => ?_⟩
    · obtain ⟨hwhole, hack, hdiv, hpayload, hattempt⟩ := frameReport_sent (s := s) (role := role) hsent
      rw [attemptOutcome_sent] at hattempt
      refine ⟨hwhole, hack, hdiv, hpayload, fun hv => ?_, fun hv hj => ?_, fun hv hrefused => ?_⟩
      · rw [hattempt, if_pos hv]
      · rw [hattempt, if_neg (by rw [hv]; exact Verdict.noConfusion), if_pos ⟨hv, hjoin.2 hj⟩]
      · rw [hattempt, if_neg hv, if_neg (mt (And.imp_right hjoin.1) hrefused)]
    · obtain ⟨hwhole, hack, hdiv, hpayload, hdriven, hattempt⟩ :=
        frameReport_aborted (s := s) (role := role) haborted
      rw [attemptOutcome_aborted] at hattempt
      refine ⟨hwhole, hack, hdiv, hpayload, hdriven, fun hj hv => ?_, fun hj hv => ?_, fun hneither => ?_⟩
      · rw [hattempt, if_pos ⟨hjoin.2 hj, hv⟩]
      · rw [hattempt, if_neg fun h => by rw [hv] at h; exact Verdict.noConfusion h.2, if_pos ⟨hjoin.2 hj, hv⟩]
      · rw [hattempt, if_neg, if_neg]
        · exact fun h => hneither.elim (fun hn => hn (hjoin.1 h.1)) fun hv => hv.2 h.2
        · exact fun h => hneither.elim (fun hn => hn (hjoin.1 h.1)) fun hv => hv.1 h.2

/-! ### The verdict (R99 to R102) -/

theorem verdictRead_unmarked {driven : Option Byte} {cells : List LineCell}
    (h : ¬ marksDominant cells (5 + payloadCells cells) 3 = true) : verdictRead driven cells = .unreadable := by
  simp [verdictRead, h]

/-- A value that is not the one driven makes the tail unreadable (R102). -/
theorem verdictRead_differs {v : Byte} {cells : List LineCell} (h : v ≠ (verdictCell cells).data) :
    verdictRead (some v) cells = .unreadable := by
  simp [verdictRead, h]

/-- With its marks read and the value driven, if any, the verdict goes by the value (R102). -/
theorem verdictRead_agrees {driven : Option Byte} {cells : List LineCell}
    (hmarks : marksDominant cells (5 + payloadCells cells) 3 = true)
    (hdriven : driven = none ∨ driven = some (verdictCell cells).data) :
    verdictRead driven cells = classifyVerdict (kindCodeRead cells) (verdictCell cells).data := by
  rcases hdriven with rfl | rfl <;> simp [verdictRead, hmarks]

theorem classifyVerdict_refuse (code : BitVec 4) :
    classifyVerdict code 0x33 = if code = 3 then .refuse else .unreadable := by
  simp only [← isJoinCode_iff]
  rfl

theorem classifyVerdict_unassigned {code : BitVec 4} {value : Byte} (h0 : value ≠ 0x00) (h1 : value ≠ 0x33)
    (h2 : value ≠ 0x0F) (h3 : value ≠ 0xFF) : classifyVerdict code value = .unreadable :=
  (if_neg h0).trans ((if_neg h1).trans ((if_neg h2).trans (if_neg h3)))

/-- An aborted sender drives no verdict (R92). -/
theorem verdictDriven_aborted (s : State) (role : Role) (cells : List LineCell) :
    verdictDriven s role (some .aborted) cells = none := rfl

/-- On a JOIN the holder of the source duty drives the verdict (R99, R100). -/
theorem verdictDriven_join {s : State} {role : Role} {course : Option SenderCourse} {cells : List LineCell}
    (hcode : kindCodeRead cells = 3) (hcourse : course ≠ some .aborted) :
    verdictDriven s role course cells =
      if (role.localState = .member ∨ role.localState = .leaving) ∧ role.duty = true then
        some (decideJoin (role.required.getD []) (hasRoom s (senderRead cells)) (ackMapRead cells))
      else none := by
  have hjoin := (isJoinCode_iff _).2 hcode
  simp [verdictDriven, hcourse, hjoin]

/-- No other station drives the verdict of a JOIN (R99). -/
theorem verdictDriven_join_elsewhere {s : State} {role : Role} {course : Option SenderCourse} {cells : List LineCell}
    (hcode : kindCodeRead cells = 3)
    (h : role.duty = false ∨ role.localState ≠ .member ∧ role.localState ≠ .leaving) :
    verdictDriven s role course cells = none := by
  by_cases hcourse : course = some .aborted
  · rw [hcourse, verdictDriven_aborted]
  · rw [verdictDriven_join hcode hcourse, if_neg]
    rintro ⟨hstate, hduty⟩
    rcases h with hoff | ⟨hmember, hleaving⟩
    · rw [hoff] at hduty
      exact Bool.noConfusion hduty
    · exact hstate.elim hmember hleaving

/-- On any other kind the sender that sent its frame to the end drives it (R99). -/
theorem verdictDriven_sent {s : State} {role : Role} {cells : List LineCell} (hcode : kindCodeRead cells ≠ 3) :
    verdictDriven s role (some .sent) cells =
      if kindCodeRead cells = 2 then some (decideFound (expectedSize s) (ackMapRead cells))
      else some (decideRequired (role.required.getD []) (ackMapRead cells)) := by
  have hjoin := (isJoinCode_false_iff _).2 hcode
  simp [verdictDriven, hjoin, isFoundCode_iff]

theorem verdictDriven_silent {s : State} {role : Role} {course : Option SenderCourse} {cells : List LineCell}
    (hcode : kindCodeRead cells ≠ 3) (hcourse : course ≠ some .sent) : verdictDriven s role course cells = none := by
  have hjoin := (isJoinCode_false_iff _).2 hcode
  simp [verdictDriven, hjoin, hcourse]

theorem acked_iff (ackMap : BitVec 16) (i : Station) : acked ackMap i = true ↔ ackMap.getLsbD i.val = false := by
  simp [acked]

theorem decideFound_eq (n : Nat) (ackMap : BitVec 16) :
    decideFound n ackMap =
      if n / 2 + 1 ≤ ((List.finRange 16).filter fun i : Fin 16 => ackMap.getLsbD i.val = false).length then 0x00
      else 0x0F := by
  have hacked : acked ackMap = fun i : Fin 16 => decide (ackMap.getLsbD i.val = false) :=
    funext fun i => by simp [acked]
  rw [decideFound, hacked]
  rfl

theorem decideRequired_eq (required : List Station) (ackMap : BitVec 16) :
    decideRequired required ackMap = if ∀ i ∈ required, ackMap.getLsbD i.val = false then 0x00 else 0x0F := by
  simp only [decideRequired, List.all_eq_true, acked_iff]
  rfl

/-- The room test counts the stations of the roster but the one that joins (R37, R100). -/
theorem decideJoin_eq {s : State} {r : Roster} (hr : s.roster = some r) (required : List Station) (j : Station)
    (ackMap : BitVec 16) :
    decideJoin required (hasRoom s j) ackMap =
      if ∀ i ∈ required, ackMap.getLsbD i.val = false then
        (if ((List.finRange 16).filter fun i : Fin 16 => r.records[i].state ≠ .absent ∧ i ≠ j).length < r.expected then 0x00
          else 0x33)
      else 0x0F := by
  have hroom : hasRoom s j = true ↔
      ((List.finRange 16).filter fun i : Fin 16 => r.records[i].state ≠ .absent ∧ i ≠ j).length < r.expected := by
    simp only [hasRoom, hr, roomFor, requiredSet, allStations, List.filter_filter, decide_eq_true_iff, and_comm,
      Bool.decide_and]
  simp only [decideJoin, List.all_eq_true, acked_iff, hroom]
  rfl

theorem expectedSize_eq (s : State) : expectedSize s = if s.straps.nsz.toNat = 0 then 16 else s.straps.nsz.toNat := by
  have hzero : s.straps.nsz = 0 ↔ s.straps.nsz.toNat = 0 := by
    rw [← BitVec.toNat_inj]
    rfl
  simp only [expectedSize, hzero]

/-- Settles O31, by the marks and the value of the verdict cell, and by the kind of the frame and who sent it. -/
theorem verdicts : Obligations.Verdicts := by
  refine ⟨?_, ?_⟩
  · intro s role tx cells rep value marked
    have hmarked : marksDominant cells (5 + payloadCells cells) 3 = true ↔ marked := marksDominant_iff cells _ 3
    have hverdict : rep.verdict = verdictRead rep.verdictDriven cells := rfl
    refine ⟨fun h => verdictRead_unmarked (mt hmarked.1 h), fun v hv hne => ?_, fun hm hdriven => ?_⟩
    · rw [hverdict, hv]
      exact verdictRead_differs hne
    · have hclass : rep.verdict = classifyVerdict (kindCodeRead cells) value :=
        verdictRead_agrees (hmarked.2 hm) hdriven
      rw [hclass]
      refine ⟨fun h => ?_, fun h hk => ?_, fun h hk => ?_, fun h => ?_, fun h => ?_, classifyVerdict_unassigned⟩
      · rw [h]; rfl
      · rw [h, classifyVerdict_refuse]; exact if_pos hk
      · rw [h, classifyVerdict_refuse]; exact if_neg hk
      · rw [h]; rfl
      · rw [h]; rfl
  · intro s role tx cells rep dominant sent n
    have hdriven : rep.verdictDriven = verdictDriven s role (tx.map fun t => senderCourse t.bytes cells) cells := rfl
    have hsent : sent ↔ (tx.map fun t => senderCourse t.bytes cells) = some .sent := by
      rw [Option.map_eq_some_iff]
    have haborted : (∀ t, tx = some t → senderCourse t.bytes cells ≠ .aborted) →
        (tx.map fun t => senderCourse t.bytes cells) ≠ some .aborted := fun h hcourse => by
      obtain ⟨t, ht, hc⟩ := Option.map_eq_some_iff.1 hcourse
      exact h t ht hc
    rw [hdriven]
    refine ⟨fun hk hs => ?_, fun req hf hj hs hreq => ?_, fun t ht hc => ?_, fun req r hk hgoes hstate hduty hreq hr => ?_,
      fun hk hnot => ?_, fun hk hs => ?_⟩
    · have hcode : kindCodeRead cells ≠ 3 := by
        rw [show kindCodeRead cells = 2 from hk]
        decide
      rw [hsent.1 hs, verdictDriven_sent hcode, if_pos (by exact hk), decideFound_eq, expectedSize_eq]
      rfl
    · rw [hsent.1 hs, verdictDriven_sent hj, if_neg (by exact hf), hreq, Option.getD_some, decideRequired_eq]
      rfl
    · rw [ht, Option.map_some, hc, verdictDriven_aborted]
    · rw [verdictDriven_join hk (haborted hgoes), if_pos ⟨hstate, hduty⟩, hreq, Option.getD_some, decideJoin_eq hr]
      rfl
    · exact verdictDriven_join_elsewhere hk hnot
    · exact verdictDriven_silent hk (mt hsent.2 hs)

end Sys2Proof.Machine
end

section
/-! PROOFS. The payloads byte by byte, what is read from bytes, and the CRC (R90, R93 to R95, R189, R190). -/

namespace Sys2Proof.Machine

/-! ### The bytes that spell a payload (R94, R190) -/

/-- The bytes are as many as the layout of the payload has, and are its bytes in every bit but the don't-care bits. -/
def SpellsBody (bytes : List Byte) (b : FrameBody) : Prop :=
  bytes.length = (payloadBytes b).length ∧ List.zipWith (· &&& ·) bytes (examinedBits b) = payloadBytes b

/-- A payload without don't-care bits is spelled by its own bytes only. -/
theorem spellsBody_of_examined_whole (bytes : List Byte) (b : FrameBody)
    (h : examinedBits b = List.replicate (payloadBytes b).length 0xFF) : SpellsBody bytes b ↔ bytes = payloadBytes b := by
  rw [SpellsBody, h]
  refine ⟨fun ⟨hl, hz⟩ => ?_, ?_⟩
  · rwa [zipWith_ones bytes _ hl] at hz
  · rintro rfl
    exact ⟨rfl, zipWith_ones _ _ rfl⟩

/-- The mode and client byte of an ACQUIRE, its don't-care bits aside (R190). -/
theorem modeClientByte_iff (cm : Byte) (m : Mode) (c : Client) :
    cm &&& 0x87 = modeBit m ++ (0 : BitVec 4) ++ BitVec.ofNat 3 c.val ↔
      modeOfBit (cm.getLsbD 7) = m ∧ clientOfLowBits cm = c := by
  cases m <;> revert cm c <;> decide

theorem spellsBody_acquire (bytes : List Byte) (l : Lease) (c : Client) (m : Mode) (t p : Nat) :
    SpellsBody bytes (.acquire l c m t p) ↔
      ∃ cm, bytes = [byteOf l.val, cm, byteOf t, byteOf p] ∧
        modeOfBit (cm.getLsbD 7) = m ∧ clientOfLowBits cm = c := by
  simp only [← modeClientByte_iff]
  refine ⟨fun ⟨hl, hz⟩ => ?_, ?_⟩
  · obtain _ | ⟨x, _ | ⟨cm, _ | ⟨y, _ | ⟨z, _ | ⟨_, _⟩⟩⟩⟩⟩ := bytes <;> simp [payloadBytes] at hl
    simp only [payloadBytes, examinedBits, List.zipWith_cons_cons, and_ones, List.cons.injEq] at hz
    obtain ⟨rfl, hcm, rfl, rfl, -⟩ := hz
    exact ⟨cm, rfl, hcm⟩
  · rintro ⟨cm, rfl, hcm⟩
    refine ⟨rfl, ?_⟩
    simp only [payloadBytes, examinedBits, List.zipWith_cons_cons, and_ones, hcm]
    rfl

/-! ### What is read (R56, R93, R94) -/

theorem byteOf_eq_iff {n : Nat} (h : n < 256) (x : Byte) : x = byteOf n ↔ x.toNat = n := by
  rw [← BitVec.toNat_inj, byteOf_toNat n h]

theorem readPayload_found_iff (bytes : List Byte) (n : Nat) :
    readPayload .found bytes = some (.found n) ↔ (1 ≤ n ∧ n ≤ 16) ∧ bytes = [byteOf n] := by
  simp only [readPayload]
  split
  · rename_i x
    rw [Option.ite_none_right_eq_some, Option.some.injEq, FrameBody.found.injEq, List.cons.injEq, eq_self, and_true]
    refine ⟨fun ⟨hrange, hx⟩ => ⟨hx ▸ hrange, hx ▸ (byteOf_self x).symm⟩, fun ⟨hrange, hx⟩ => ?_⟩
    have hvalue := (byteOf_eq_iff (by omega) x).1 hx
    exact ⟨hvalue ▸ hrange, hvalue⟩
  · rename_i hother
    exact ⟨fun h => (by cases h), fun ⟨_, h⟩ => absurd h (hother _)⟩

theorem readPayload_release_iff (bytes : List Byte) (l : Lease) (c : Client) :
    readPayload .release bytes = some (.release l c) ↔ bytes = [byteOf l.val, byteOf c.val] := by
  refine ⟨fun h => ?_, ?_⟩
  · simp only [readPayload] at h
    split at h
    · split at h
      · rename_i hl hc
        cases h
        rw [(leaseOfByte_eq_some _ _).1 hl, (clientOfByte_eq_some _ _).1 hc]
      · cases h
    · cases h
  · rintro rfl
    simp only [readPayload, leaseOfByte_byteOf, clientOfByte_byteOf]

theorem readPayload_renew_iff (bytes : List Byte) (entries : List (Lease × Client)) :
    readPayload .renew bytes = some (.renew entries) ↔
      (entries ≠ [] ∧ entries.length ≤ 8) ∧ bytes = payloadBytes (.renew entries) := by
  have hlength : (payloadBytes (.renew entries)).length = 2 * entries.length := entriesBytes_length entries
  have hread : readPayload .renew bytes =
      if bytes = [] ∨ 16 < bytes.length then none else (readEntries bytes).map .renew := rfl
  rw [hread]
  refine ⟨fun h => ?_, fun ⟨⟨hsome, hfew⟩, hbytes⟩ => ?_⟩
  · obtain ⟨hrange, hentries⟩ := Option.ite_none_left_eq_some.1 h
    obtain ⟨es, hes, heq⟩ := Option.map_eq_some_iff.1 hentries
    cases heq
    have hbytes : bytes = payloadBytes (.renew entries) := readEntries_bytes bytes entries hes
    refine ⟨⟨?_, ?_⟩, hbytes⟩
    · rintro rfl
      exact hrange (.inl hbytes)
    · rw [hbytes, hlength] at hrange
      omega
  · have hrange : ¬ (bytes = [] ∨ 16 < bytes.length) := by
      rw [← List.length_eq_zero_iff, hbytes, hlength]
      have := List.length_pos_iff.2 hsome
      omega
    rw [if_neg hrange, hbytes]
    exact congrArg (Option.map FrameBody.renew) (readEntries_back entries)

theorem readPayload_acquire_iff (bytes : List Byte) (l : Lease) (c : Client) (m : Mode) (t p : Nat) :
    readPayload .acquire bytes = some (.acquire l c m t p) ↔
      (1 ≤ t ∧ t ≤ 255 ∧ p ≤ 255) ∧ ∃ cm, bytes = [byteOf l.val, cm, byteOf t, byteOf p] ∧
        modeOfBit (cm.getLsbD 7) = m ∧ clientOfLowBits cm = c := by
  refine ⟨fun h => ?_, ?_⟩
  · simp only [readPayload] at h
    split at h
    · rename_i lease cm term patience
      split at h
      · cases h
      · rename_i hl
        obtain ⟨hterm, hread⟩ := Option.ite_none_left_eq_some.1 h
        cases hread
        have hpositive : term.toNat ≠ 0 := fun h0 => hterm (BitVec.eq_of_toNat_eq h0)
        refine ⟨⟨by omega, by omega, by omega⟩, cm, ?_, rfl, rfl⟩
        rw [byteOf_self, byteOf_self, (leaseOfByte_eq_some _ _).1 hl]
    · cases h
  · rintro ⟨⟨h1, h2, h3⟩, cm, rfl, rfl, rfl⟩
    have hterm : byteOf t ≠ 0 := fun h0 => by
      have := congrArg BitVec.toNat h0
      rw [byteOf_toNat t (by omega)] at this
      exact absurd this (by simpa using Nat.ne_of_gt h1)
    simp only [readPayload, leaseOfByte_byteOf, if_neg hterm, byteOf_toNat t (by omega), byteOf_toNat p (by omega)]

theorem readRosterItem_first_byte {bytes : List Byte} {x : SnapItem} (h : readRosterItem bytes = some x) :
    ∃ rest, bytes = 0x00 :: rest := by
  unfold readRosterItem at h
  split at h
  · exact ⟨_, rfl⟩
  · cases h

theorem readLeaseItem_zero (rest : List Byte) : readLeaseItem (0x00 :: rest) = none := by
  simp [readLeaseItem]

/-- A SNAP payload is a roster item or a lease item, and no bytes are both (R55). -/
theorem readPayload_snap_cases (bytes : List Byte) (x : SnapItem) :
    readPayload .snap bytes = some (.snap x) ↔ readRosterItem bytes = some x ∨ readLeaseItem bytes = some x := by
  simp only [readPayload]
  cases hroster : readRosterItem bytes with
  | some y =>
    obtain ⟨rest, rfl⟩ := readRosterItem_first_byte hroster
    rw [readLeaseItem_zero]
    simp
  | none => simp

/-- A SNAP payload is read from the bytes that spell its item, with its fields in range (R55, R56, R190). -/
theorem readPayload_snap_iff (bytes : List Byte) (x : SnapItem) :
    readPayload .snap bytes = some (.snap x) ↔ BodyInRange (.snap x) ∧ SpellsBody bytes (.snap x) := by
  rw [readPayload_snap_cases, readRosterItem_eq_some, readLeaseItem_eq_some, ← or_and_right]
  exact and_iff_right (em _)

/-- A payload is read from the bytes of its kind that spell it, with its fields in range, and from no others. -/
theorem readPayload_bodyKind (bytes : List Byte) (b : FrameBody) :
    readPayload (bodyKind b) bytes = some b ↔ BodyInRange b ∧ SpellsBody bytes b := by
  have hempty : ∀ b : FrameBody, (if bytes = [] then some b else none) = some b ↔ bytes = [] := fun b => by
    rw [Option.ite_none_right_eq_some, eq_self, and_true]
  cases b with
  | tick =>
    rw [spellsBody_of_examined_whole bytes .tick rfl, and_iff_right (show BodyInRange .tick from trivial)]
    exact hempty .tick
  | join =>
    rw [spellsBody_of_examined_whole bytes .join rfl, and_iff_right (show BodyInRange .join from trivial)]
    exact hempty .join
  | leave =>
    rw [spellsBody_of_examined_whole bytes .leave rfl, and_iff_right (show BodyInRange .leave from trivial)]
    exact hempty .leave
  | found n =>
    rw [spellsBody_of_examined_whole bytes (.found n) rfl]
    exact readPayload_found_iff bytes n
  | snap x => exact readPayload_snap_iff bytes x
  | release l c =>
    rw [spellsBody_of_examined_whole bytes (.release l c) rfl, and_iff_right (show BodyInRange (.release l c) from trivial)]
    exact readPayload_release_iff bytes l c
  | renew entries =>
    have hwhole : examinedBits (.renew entries) = List.replicate (payloadBytes (.renew entries)).length 0xFF :=
      congrArg (List.replicate · (0xFF : Byte)) (entriesBytes_length entries).symm
    rw [spellsBody_of_examined_whole bytes (.renew entries) hwhole]
    exact readPayload_renew_iff bytes entries
  | acquire l c m t p =>
    rw [spellsBody_acquire]
    exact readPayload_acquire_iff bytes l c m t p

theorem readPayload_eq_some (k : FrameKind) (bytes : List Byte) (b : FrameBody) :
    readPayload k bytes = some b ↔ bodyKind b = k ∧ BodyInRange b ∧ SpellsBody bytes b := by
  refine ⟨fun h => ?_, ?_⟩
  · obtain rfl := readPayload_kind k bytes b h
    exact ⟨rfl, (readPayload_bodyKind bytes b).1 h⟩
  · rintro ⟨rfl, h⟩
    exact (readPayload_bodyKind bytes b).2 h

/-! ### A payload and its frame are read back (R90, R93, R94) -/

theorem readLeaseItem_back (l : Lease) {e : LeaseEntry} (h : EntryFits e) :
    readLeaseItem (payloadBytes (.snap (.lease l e))) = some (.lease l e) := by
  have hlease := l.isLt
  have hnumber := byteOf_toNat (l.val + 1) (by omega)
  have hentry := readEntry_back e ((entryInRange_fits e).2 h)
  show readLeaseItem (byteOf (l.val + 1) :: entryBytes e) = _
  unfold readLeaseItem
  dsimp only
  rw [dif_pos (by omega), hentry]
  simp only [hnumber, Nat.add_sub_cancel]

theorem readPayload_payloadBytes {b : FrameBody} (h : BodyInRange b) :
    readPayload (bodyKind b) (payloadBytes b) = some b := by
  match b with
  | .tick | .join | .leave => rfl
  | .found n => exact (readPayload_found_iff _ n).2 ⟨h, rfl⟩
  | .release l c => exact (readPayload_release_iff _ l c).2 rfl
  | .renew entries => exact (readPayload_renew_iff _ entries).2 ⟨h, rfl⟩
  | .acquire l c m t p =>
    have hmasked : ∀ (m : Mode) (c : Client), (modeBit m ++ (0 : BitVec 4) ++ BitVec.ofNat 3 c.val) &&& 0x87 =
        modeBit m ++ (0 : BitVec 4) ++ BitVec.ofNat 3 c.val := by
      intro m
      cases m <;> decide
    exact (readPayload_acquire_iff _ l c m t p).2 ⟨h, _, rfl, (modeClientByte_iff _ m c).1 (hmasked m c)⟩
  | .snap (.roster n commits ticks records) =>
    obtain ⟨hpositive, hsize, hrecords, hpresent⟩ := h
    exact (readPayload_snap_cases _ _).2 (.inl (readRosterItem_back n commits ticks records hpositive hsize
      (fun i => (recordInRange_fits _).2 (hrecords i)) hpresent))
  | .snap (.lease l e) => exact (readPayload_snap_cases _ _).2 (.inr (readLeaseItem_back l h))

theorem payloadBytes_length_le {b : FrameBody} (h : BodyInRange b) : (payloadBytes b).length ≤ 64 := by
  match b with
  | .tick | .join | .leave => exact Nat.zero_le _
  | .found n => exact (by decide : 1 ≤ 64)
  | .release l c => exact (by decide : 2 ≤ 64)
  | .acquire l c m t p => exact (by decide : 4 ≤ 64)
  | .renew entries =>
    obtain ⟨-, hfew⟩ := h
    rw [show (payloadBytes (.renew entries)).length = 2 * entries.length from entriesBytes_length entries]
    omega
  | .snap (.roster n commits ticks records) =>
    have hrecords := allRecordBytes_length records
    simp only [payloadBytes, bytesOf32, List.length_append, List.length_cons, List.length_nil, hrecords]
    decide
  | .snap (.lease l e) =>
    obtain ⟨hholders, hwaiters, -⟩ := h
    rw [show (payloadBytes (.snap (.lease l e))).length = (entryBytes e).length + 1 from rfl, entryBytes_length]
    omega

/-- Cells that carry the bytes of a frame, their marks dominant, from its first cell on. -/
def CarryBytes (cells : List LineCell) (bytes : List Byte) : Prop :=
  ∀ (i : Nat) (d : Byte), bytes[i]? = some d → readCell cells i = { markDominant := true, data := d }

theorem carryBytes_sent (bytes : List Byte) (tail : List LineCell) :
    CarryBytes (bytes.map (fun d => { markDominant := true, data := d }) ++ tail) bytes := by
  intro i d hd
  obtain ⟨hi, -⟩ := List.getElem?_eq_some_iff.1 hd
  rw [readCell, List.getD_append _ _ _ _ (by simpa using hi), List.getD_eq_getElem?_getD, List.getElem?_map, hd]
  rfl

theorem CarryBytes.marks {cells : List LineCell} {bytes : List Byte} (h : CarryBytes cells bytes) {i : Nat}
    (hi : i < bytes.length) : (readCell cells i).markDominant = true := by
  rw [h i _ (List.getElem?_eq_getElem hi)]

/-- A part of the bytes is read from its place. -/
theorem CarryBytes.readBytes {cells : List LineCell} {front part back : List Byte}
    (h : CarryBytes cells (front ++ (part ++ back))) : readBytes cells front.length part.length = part := by
  refine readBytes_eq part cells _ _ rfl fun i d hd => ?_
  obtain ⟨hi, -⟩ := List.getElem?_eq_some_iff.1 hd
  rw [h (front.length + i) d]
  rw [List.getElem?_append_right (Nat.le_add_right _ _), Nat.add_sub_cancel_left, List.getElem?_append_left hi, hd]

/-- The bytes of a frame that its CRC covers (R95). -/
def frameData (i : Station) (check : Byte) (b : FrameBody) : List Byte :=
  [headerByte (bodyKind b) i, check, byteOf (payloadBytes b).length] ++ payloadBytes b

theorem frameBytes_eq (i : Station) (check : Byte) (b : FrameBody) :
    frameBytes i check b = frameData i check b ++ bytesOf16 (crc16 (frameData i check b)) := rfl

theorem frameData_length (i : Station) (check : Byte) (b : FrameBody) :
    (frameData i check b).length = 3 + (payloadBytes b).length := by
  rw [frameData, List.length_append]
  rfl

section
variable {cells : List LineCell} {i : Station} {check : Byte} {b : FrameBody}

/-- The header cell as read (R90). -/
theorem CarryBytes.header (h : CarryBytes cells (frameBytes i check b)) :
    kindCodeRead cells = kindCode (bodyKind b) ∧ senderRead cells = i := by
  have hcell : readCell cells 0 = { markDominant := true, data := headerByte (bodyKind b) i } := h 0 _ rfl
  rw [kindCodeRead, senderRead, hcell]
  exact headerByte_back (bodyKind b) i

/-- The length cell as read (R90). -/
theorem CarryBytes.length (hrange : BodyInRange b) (h : CarryBytes cells (frameBytes i check b)) :
    (readCell cells 2).data.toNat ≤ 64 ∧ payloadCells cells = (payloadBytes b).length := by
  have hle := payloadBytes_length_le hrange
  have hcell : readCell cells 2 = { markDominant := true, data := byteOf (payloadBytes b).length } := h 2 _ rfl
  have hvalue : (readCell cells 2).data.toNat = (payloadBytes b).length := by
    rw [hcell]
    exact byteOf_toNat _ (by omega)
  exact ⟨hvalue ▸ hle, by rw [payloadCells, hvalue]; exact if_pos hle⟩

theorem CarryBytes.payload (hrange : BodyInRange b) (h : CarryBytes cells (frameBytes i check b)) :
    payloadRead cells = some b := by
  obtain ⟨-, hcount⟩ := h.length hrange
  obtain ⟨hcode, -⟩ := h.header
  have hbytes : Machine.readBytes cells 3 (payloadBytes b).length = payloadBytes b := by
    rw [frameBytes_eq, frameData, List.append_assoc] at h
    exact h.readBytes
  refine (payloadRead_eq_some cells b).2 ⟨bodyKind b, hcode.symm, ?_⟩
  rw [hcount, hbytes]
  exact readPayload_payloadBytes hrange

/-- The CRC read is the CRC of the bytes read before it (R93, R95). -/
theorem CarryBytes.crc (hrange : BodyInRange b) (h : CarryBytes cells (frameBytes i check b)) :
    crcRead cells = crc16 (coveredBytes cells) := by
  obtain ⟨-, hcount⟩ := h.length hrange
  have hlength := frameData_length i check b
  rw [frameBytes_eq] at h
  have hcovered : coveredBytes cells = frameData i check b := by
    rw [coveredBytes, hcount, ← hlength]
    exact CarryBytes.readBytes (front := []) h
  have hhigh := h (3 + (payloadBytes b).length) ((crc16 (frameData i check b)).extractLsb' 8 8) (by
    rw [List.getElem?_append_right (by omega), hlength, Nat.sub_self]
    rfl)
  have hlow := h (4 + (payloadBytes b).length) ((crc16 (frameData i check b)).extractLsb' 0 8) (by
    rw [List.getElem?_append_right (by omega), hlength, Nat.add_sub_add_right]
    rfl)
  rw [crcRead, hcount, hhigh, hlow, hcovered]
  exact word16_back _

/-- The whole frame of a payload in range, read as it was sent, passes the reception checks with that payload
(R90, R93, R95). -/
theorem frame_readBack (hrange : BodyInRange b) (h : CarryBytes cells (frameBytes i check b)) :
    receptionWhole cells = true ∧ payloadRead cells = some b ∧ kindCodeRead cells = kindCode (bodyKind b) ∧
      senderRead cells = i := by
  obtain ⟨hlength, hcount⟩ := h.length hrange
  have hpayload := h.payload hrange
  refine ⟨(receptionWhole_iff cells).2 ⟨fun j hj => h.marks ?_, hlength, h.crc hrange, b, hpayload⟩, hpayload, h.header⟩
  rw [frameBytes_eq, List.length_append, frameData_length]
  rw [hcount] at hj
  calc j < 5 + (payloadBytes b).length := hj
    _ = 3 + (payloadBytes b).length + 2 := by omega

end

/-! ### The payload of each kind (R190) -/

theorem modeBit_eq (m : Mode) : modeBit m = if m = .shared then 1#1 else 0#1 := by
  cases m <;> rfl

theorem statusByte_eq (x : HolderStatus) : statusByte x = if x = .fenced then 0x01 else 0x00 := by
  cases x <;> rfl

/-- A roster item: its head, the two counters, a record of two bytes for each station (R55, R190). -/
theorem payloadBytes_roster (n : Nat) (commits ticks : BitVec 32) (records : Vector StationRecord 16) :
    payloadBytes (.snap (.roster n commits ticks records)) = [0x00, byteOf n] ++ bytesOf32 commits ++ bytesOf32 ticks ++
      (List.finRange 16).flatMap fun i : Fin 16 =>
        [recordStateBits records[i].state ++ (0 : BitVec 4) ++ BitVec.ofNat 2 records[i].miss.val,
          progressByte records[i].progress] := rfl

/-- A lease item: number, counter, counts, then six bytes for each holder and three for each waiter (R55, R190). -/
theorem payloadBytes_lease (l : Lease) (e : LeaseEntry) :
    payloadBytes (.snap (.lease l e)) =
      [byteOf (l.val + 1), e.counter.extractLsb' 8 8, e.counter.extractLsb' 0 8,
          BitVec.ofNat 4 e.holders.length ++ BitVec.ofNat 4 e.waiters.length] ++
        (e.holders.flatMap fun h =>
          [tagByte h.tag h.mode, statusByte h.status, byteOf h.term, byteOf h.remaining, h.grant.extractLsb' 8 8,
            h.grant.extractLsb' 0 8]) ++
        (e.waiters.flatMap fun w => [tagByte w.tag w.mode, byteOf w.term, patienceByte w.patience]) := rfl

/-! ### The CRC (R95) -/

theorem crcBit_eq (register : BitVec 16) (bit : Bool) :
    crcBit register bit =
      if register.getLsbD 15 = bit then register <<< 1 else (register <<< 1) ^^^ 0x1021 := by
  rw [crcBit]
  cases register.getLsbD 15 <;> cases bit <;> rfl

theorem crc16_append (bytes more : List Byte) :
    crc16 (bytes ++ more) = (more.flatMap bitsOf).foldl crcBit (crc16 bytes) := by
  rw [crc16, List.flatMap_append, List.foldl_append]
  rfl

theorem crc16_own_bytes (bytes : List Byte) : crc16 (bytes ++ bytesOf16 (crc16 bytes)) = 0 := by
  rw [crc16_append, ← crc_own_bytes (crc16 bytes)]
  rfl

/-- Settles O52, by the layout of each kind, the bytes that spell a payload, and the frame that carries it. -/
theorem payloadsReadBack : Obligations.PayloadsReadBack := by
  refine ⟨?_, readPayload_eq_some, fun b hrange => ⟨readPayload_payloadBytes hrange, payloadBytes_length_le hrange,
    fun i check tail => frame_readBack hrange (carryBytes_sent _ tail)⟩, crcBit_eq, rfl, fun bytes d => ⟨?_, ?_⟩⟩
  · intro tagged
    have htag : ∀ t m, tagByte t m = tagged t m := fun t m => congrArg
      (fun bit => BitVec.ofNat 4 t.station.val ++ bit ++ BitVec.ofNat 3 t.client.val) (modeBit_eq m)
    refine ⟨rfl, rfl, rfl, fun _ => rfl, fun _ _ => rfl, fun _ => rfl, fun l c m term patience => ?_,
      fun n commits ticks records => ?_, fun l e => ?_⟩
    · rw [payloadBytes, modeBit_eq]
      rfl
    · rw [payloadBytes_roster]
      have hstate : ∀ x : RecordState, recordStateBits x = (match x with
          | .absent => 0b00#2
          | .joining => 0b01#2
          | .member => 0b10#2) := fun x => by cases x <;> rfl
      have hprogress : ∀ p : Option Progress, progressByte p = (match p with
          | none => 0x00
          | some .awaitingRoster => 0x80
          | some (.remaining r) => BitVec.ofNat 8 r) := fun p => by
        rcases p with _ | _ | _ <;> rfl
      simp only [hstate, hprogress]
      rfl
    · rw [payloadBytes_lease]
      simp only [htag, statusByte_eq]
      rfl
  · rw [crc16_append, List.flatMap_singleton]
    rfl
  · exact crc16_own_bytes bytes

end Sys2Proof.Machine
end

section
/-! PROOFS. Every step keeps the law of the outbound queue (R111, R112). -/

namespace Sys2Proof.Machine

/-- The wires of the port are no part of the queue. -/
theorem WiresOnly.queueKept {s t : State} (h : WiresOnly s t) : QueueKept s t := by
  rw [h]
  exact QueueKept.refl s

/-- Settles O57, by what every command and every cycle of the clock keeps. -/
theorem stepKeepsTheQueueLaw : Obligations.StepKeepsTheQueueLaw := by
  intro s t hs h
  exact step_keeps (fun u => QueueLegal u.queue) (fun _ _ hu => hu) (fun c u v hu hx => exec_kept c u v hx hu)
    clockCycle_kept (fun _ _ hw => hw.queueKept) s t hs h

end Sys2Proof.Machine
end

section
/-! PROOFS. The waiting needs, the conclusion of RELEASING clients, and the fresh need after a discard (R125, R152,
R155). -/

namespace Sys2Proof.Machine

/-! ### Waiting needs (R125) -/

theorem serveNeed_without_need {s : State} {c : Client} (h : s.queue.needs[c] = none) : serveNeed s c = s := by
  unfold serveNeed
  rw [h]
  cases freeGeneralSlot s.queue <;> rfl

theorem serveNeed_without_slot {s : State} (c : Client) (h : NoneFree s.queue) : serveNeed s c = s := by
  unfold serveNeed
  rw [(freeGeneralSlot_none s.queue).2 h]

/-- With a slot free, a waiting ACQUIRE need is raised again (R125). -/
theorem serveNeed_acquire {s : State} {c : Client} {k : Fin 8} (hk : LowestFree s.queue k)
    (hn : s.queue.needs[c] = some .acquire) : serveNeed s c = raiseAcquire c (setNeed c none s) := by
  unfold serveNeed
  rw [(freeGeneralSlot_some s.queue k).2 hk, hn]

/-- With a slot free, a waiting RELEASE need is raised again (R125). -/
theorem serveNeed_release {s : State} {c : Client} {k : Fin 8} (hk : LowestFree s.queue k)
    (hn : s.queue.needs[c] = some .release) : serveNeed s c = raiseRelease c (setNeed c none s) := by
  unfold serveNeed
  rw [(freeGeneralSlot_some s.queue k).2 hk, hn]

theorem raiseRelease_of_placed {s t : State} {c : Client} {l : Lease} {m : Mode} {term : Nat} {k : Fin 8}
    (hb : s.config.bindings[c] = .line l m term) (h : requestRelease l c s = (.queued k, t)) :
    raiseRelease c s = t := by
  rw [raiseRelease_line s c l m term hb, h]
  exact if_neg QueueAnswer.noConfusion

/-- A RELEASE need of a tag that has left the replica is dropped (R122, R125). -/
theorem raiseRelease_gone {s : State} {c : Client} {l : Lease} {m : Mode} {term : Nat}
    (hb : s.config.bindings[c] = .line l m term) (hp : PairAbsent s.queue l c) (ht : ¬ TagIn s l (ownTag s c)) :
    raiseRelease c s = s := by
  rw [raiseRelease_line s c l m term hb, requestRelease_gone s l c hp ht]
  exact if_neg QueueAnswer.noConfusion

theorem raiseRelease_full {s : State} {c : Client} {l : Lease} {m : Mode} {term : Nat}
    (hb : s.config.bindings[c] = .line l m term) (hp : PairAbsent s.queue l c) (ht : TagIn s l (ownTag s c))
    (hf : NoneFree s.queue) : raiseRelease c s = setNeed c (some .release) s := by
  rw [raiseRelease_line s c l m term hb, requestRelease_full s l c hp ht hf]
  exact if_pos rfl

/-! ### Conclusions (R155) -/

theorem queueHoldsNothing_iff (s : State) (l : Lease) (c : Client) :
    queueHoldsNothing s l c = true ↔ PairAbsent s.queue l c ∧ s.queue.needs[c] = none := by
  rw [queueHoldsNothing, Bool.and_eq_true, Bool.and_eq_true, Option.isNone_iff_eq_none, Option.isNone_iff_eq_none,
    Option.isNone_iff_eq_none, pairAbsent_iff]

theorem concludeClient_port {s : State} {c : Client} (h : s.config.bindings[c] = .port) : concludeClient s c = s := by
  unfold concludeClient
  rw [lineBinding_port s c h]

theorem concludeClient_not_releasing {s : State} {c : Client} (h : s.clients[c].state ≠ .releasing) :
    concludeClient s c = s := by
  unfold concludeClient
  split
  · rfl
  · exact if_neg fun hc => h hc.1

section
variable {s : State} {c : Client} {l : Lease} {m : Mode} {t : Nat}

/-- A client for which the queue still holds something does not conclude (R155). -/
theorem concludeClient_held (hb : s.config.bindings[c] = .line l m t)
    (h : ¬ (PairAbsent s.queue l c ∧ s.queue.needs[c] = none)) : concludeClient s c = s := by
  unfold concludeClient
  rw [lineBinding_line s c l m t hb]
  exact if_neg fun hc => h ((queueHoldsNothing_iff s l c).1 hc.2)

/-- A RELEASING client for which the queue holds nothing concludes by its reclaim flag (R155). -/
theorem concludeClient_line (hb : s.config.bindings[c] = .line l m t) (hs : s.clients[c].state = .releasing)
    (hp : PairAbsent s.queue l c) (hn : s.queue.needs[c] = none) :
    concludeClient s c =
      if s.clients[c].reclaim then raiseAcquire c (setReclaim c false (setClientState c .asking s))
      else setClientState c .idle s := by
  unfold concludeClient
  rw [lineBinding_line s c l m t hb]
  exact if_pos ⟨hs, (queueHoldsNothing_iff s l c).2 ⟨hp, hn⟩⟩

end

/-- The record of a client that asks again: ASKING with its reclaim flag cleared (R155). -/
theorem setReclaim_asking (c : Client) (s : State) :
    setReclaim c false (setClientState c .asking s) =
      { s with clients := s.clients.set c { s.clients[c] with state := .asking, reclaim := false } } := by
  simp only [setReclaim, setClientState, clients_set_get, clients_set_set, if_true]

/-- Clearing a need that does not wait changes nothing, so a placing with it says as well that no need waits. -/
theorem setNeed_none_of_none {s : State} {c : Client} (h : s.queue.needs[c] = none) : setNeed c none s = s := by
  have hsame : s.queue.needs.set c none = s.queue.needs := by
    rw [← h]
    exact Vector.set_getElem_self c.isLt
  rw [setNeed, hsame]

/-! ### The need after a discard (R152, R155) -/

theorem freshNeed_acquire (l : Lease) (c : Client) (m : Mode) (t p : Nat) (s : State) :
    freshNeed (some (.acquire l c m t p)) s = if s.clients[c].state = .asking then raiseAcquire c s else s := rfl

theorem freshNeed_release (l : Lease) (c : Client) (s : State) :
    freshNeed (some (.release l c)) s = if s.clients[c].state = .releasing then raiseRelease c s else s := rfl

/-- Settles O22, by the need that waits, by what the queue holds for a RELEASING client, and by what was discarded. -/
theorem needsAndConclusions : Obligations.NeedsAndConclusions := by
  refine ⟨fun s => ⟨rfl, rfl⟩, fun s c => ⟨?_, ?_, rfl, ?_⟩⟩
  · rintro (hn | hf)
    · exact serveNeed_without_need hn
    · exact serveNeed_without_slot c hf
  · rintro (hport | hs)
    · exact concludeClient_port hport
    · exact concludeClient_not_releasing hs
  intro l m t hb holding needing again goes
  refine ⟨fun hp k hk => ⟨fun hn => ?_, fun hn ht => ?_, fun hn ht => ?_⟩, ?_, fun hs => ⟨?_, fun hp hn => ⟨?_, ?_⟩⟩,
    fun m' t' p => ⟨fun hs => if_neg hs, fun hs => if_neg hs, fun hp hn => ⟨fun hs => ?_, fun hs ht => ?_⟩⟩⟩
  · rw [serveNeed_acquire hk hn]
    exact raiseAcquire_placed (setNeed c none s) c l m t k hb hp hk
  · rw [serveNeed_release hk hn]
    exact raiseRelease_of_placed hb (requestRelease_placed (setNeed c none s) l c k hp ht hk)
  · rw [serveNeed_release hk hn]
    exact raiseRelease_gone (s := setNeed c none s) hb hp ht
  · intro k j x hk hn hj hx hacquire hattempt hfirst
    rw [serveNeed_release hk hn]
    exact raiseRelease_of_placed hb
      (requestRelease_beside (setNeed c none s) l c k j x hk hj hx hacquire hattempt hfirst)
  · rintro (hp | hn)
    · exact concludeClient_held hb fun h => hp h.1
    · exact concludeClient_held hb fun h => hn h.2
  · intro hreclaim
    rw [concludeClient_line hb hs hp hn, hreclaim]
    rfl
  · intro hreclaim
    have hasks : concludeClient s c = raiseAcquire c (goes again s.queue) := by
      rw [concludeClient_line hb hs hp hn, hreclaim, if_pos rfl, setReclaim_asking]
    have hclear : setNeed c none (goes again s.queue) = goes again s.queue := setNeed_none_of_none hn
    refine ⟨fun k hk => ?_, fun hf => hasks.trans (raiseAcquire_full (goes again s.queue) c l m t hb hp hf)⟩
    rw [hasks, ← hclear]
    exact raiseAcquire_placed (setNeed c none (goes again s.queue)) c l m t k hb hp hk
  · have hraises : freshNeed (some (.acquire l c m' t' p)) s = raiseAcquire c (setNeed c none s) := by
      rw [freshNeed_acquire, if_pos hs, setNeed_none_of_none hn]
    refine ⟨fun k hk => ?_, fun hf => ?_⟩
    · rw [hraises]
      exact raiseAcquire_placed (setNeed c none s) c l m t k hb hp hk
    · rw [hraises, setNeed_none_of_none hn]
      exact raiseAcquire_full s c l m t hb hp hf
  · have hraises : freshNeed (some (.release l c)) s = raiseRelease c (setNeed c none s) := by
      rw [freshNeed_release, if_pos hs, setNeed_none_of_none hn]
    refine ⟨fun k hk => ?_, fun hf => ?_⟩
    · rw [hraises]
      exact raiseRelease_of_placed hb (requestRelease_placed (setNeed c none s) l c k hp ht hk)
    · rw [hraises, setNeed_none_of_none hn]
      exact raiseRelease_full hb hp ht hf

end Sys2Proof.Machine
end

section
/-! PROOFS. What the outbound queue assembles from a slot, and the attempt of the head that assembles (R90, R95, R114 to
R117, R59). -/

namespace Sys2Proof.Machine

/-! ### Assembling (R115 to R117, R59) -/

theorem assemble_release_present {s : State} {l : Lease} {c : Client} (h : TagIn s l (ownTag s c)) :
    assemble s (.release l c) = some (.release l c) := if_pos ((tagPresent_iff s l _).2 h)

theorem assemble_release_gone {s : State} {l : Lease} {c : Client} (h : ¬ TagIn s l (ownTag s c)) :
    assemble s (.release l c) = none := if_neg (mt (tagPresent_iff s l _).1 h)

/-- An entry of a RENEW survives while its tag is a LIVE holder of a known lease (R117). -/
theorem renewEntryLive_eq (s : State) (lc : Lease × Client) :
    renewEntryLive s lc =
      match s.leases[lc.1] with
      | none => false
      | some e => e.holders.any fun h => h.tag = ownTag s lc.2 && h.status = .live := by
  unfold renewEntryLive liveHolderOf
  cases s.leases[lc.1] with
  | none => rfl
  | some e => exact List.isSome_find?

/-- A RENEW keeps its surviving entries, and without one it is dropped (R117). -/
theorem assemble_renew (s : State) (entries : List (Lease × Client)) :
    assemble s (.renew entries) =
      if entries.filter (renewEntryLive s) = [] then none else some (.renew (entries.filter (renewEntryLive s))) := by
  unfold assemble
  dsimp only
  split
  · rename_i hnone
    rw [if_pos hnone]
  · rename_i hsome
    rw [if_neg hsome]

section
variable {s : State} {r : Roster}

theorem assemble_snap_unknown (h : s.roster = none) : assemble s .snap = none := by
  unfold assemble
  rw [h]

theorem assemble_snap_quiet (hr : s.roster = some r) (h : ∀ i : Fin 16, r.records[i].state ≠ .joining) :
    assemble s .snap = none := by
  unfold assemble
  rw [hr]
  exact if_neg (Bool.eq_false_iff.1 (anyJoining_none r h))

/-- While a record is JOINING a SNAP carries the item at the cursor (R59). -/
theorem assemble_snap_joining (hr : s.roster = some r) (h : ∃ i : Fin 16, r.records[i].state = .joining) :
    assemble s .snap = (assembleItem s r).map .snap := by
  unfold assemble
  rw [hr]
  exact if_pos ((anyJoining_iff r).2 h)

theorem assembleItem_roster (s : State) (h : r.cursor.val = 0) :
    assembleItem s r = some (.roster r.expected r.commits r.ticks r.records) := dif_pos h

theorem assembleItem_lease (s : State) {l : Lease} (h : r.cursor.val = l.val + 1) :
    assembleItem s r = (s.leases[l]).map (.lease l) := by
  have hindex : r.cursor.val - 1 = l.val := by omega
  unfold assembleItem
  rw [dif_neg (by omega)]
  simp only [hindex]
  show (match s.leases[l] with | none => none | some e => some (SnapItem.lease l e)) = _
  cases s.leases[l] <;> rfl

end

/-- A frame has the kind of the slot it is assembled from (R115). -/
theorem bodyKind_of_assemble {s : State} {c : SlotContent} {b : FrameBody} (h : assemble s c = some b) :
    bodyKind b = slotKind c := by
  cases c with
  | snap =>
    obtain hnone | ⟨r, hr⟩ := Option.eq_none_or_eq_some s.roster
    · rw [assemble_snap_unknown hnone] at h
      cases h
    · by_cases hjoining : ∃ i : Fin 16, r.records[i].state = .joining
      · rw [assemble_snap_joining hr hjoining, Option.map_eq_some_iff] at h
        obtain ⟨item, -, rfl⟩ := h
        rfl
      · rw [assemble_snap_quiet hr (not_exists.1 hjoining)] at h
        cases h
  | release l c =>
    obtain ⟨-, h⟩ := Option.ite_none_right_eq_some.1 h
    cases h
    rfl
  | renew entries =>
    rw [assemble_renew] at h
    obtain ⟨-, h⟩ := Option.ite_none_left_eq_some.1 h
    cases h
    rfl
  | _ =>
    cases h
    rfl

/-- Settles O27, by the kind of the slot. -/
theorem assembledFrames : Obligations.AssembledFrames := by
  intro s l c
  refine ⟨rfl, rfl, rfl, congrArg (fun n => some (FrameBody.found n)) (expectedSize_eq s), fun _ _ _ => rfl,
    assemble_release_present, assemble_release_gone, ?_, assemble_snap_unknown, fun r hr =>
      ⟨assemble_snap_quiet hr, fun hjoining => ⟨fun hcursor => ?_, fun hcursor => ?_⟩⟩⟩
  · intro entries kept hkept
    have hlive : kept = entries.filter (renewEntryLive s) :=
      hkept.trans (congrArg (fun p => entries.filter p) (funext (renewEntryLive_eq s)).symm)
    rw [hlive]
    exact assemble_renew s entries
  · rw [assemble_snap_joining hr hjoining, assembleItem_roster s hcursor]
    rfl
  · rw [assemble_snap_joining hr hjoining, assembleItem_lease s hcursor, Option.map_map]
    rfl

/-! ### The attempt of the head (R87, R90, R95, R114, R115) -/

/-- A head that the courtesy gap does not hold and that assembles is sent (R114, R115). -/
theorem tryHead_sends {s : State} {k : Fin 8} {x : Slot} {b : FrameBody} (fuel : Nat) (h : headSlot s = some (k, x))
    (hfree : heldByCourtesy s x = false) (hb : assemble s x.content = some b) :
    tryHead (fuel + 1) s = sendFrame k b s := by
  simp only [tryHead, h, hfree, hb, Bool.false_eq_true, if_false]

/-- An opportunity holds no frame that is not ordinary, none without a courtesy gap pending, and none at the end of the
courtesy gap (R89, R114). -/
theorem heldByCourtesy_takeOpportunity {s : State} {o : Opportunity} {x : Slot}
    (h : (kindCode (slotKind x.content)).toNat < 6 ∨ s.line.courtesyPending = false ∨ o = .courtesyGap) :
    heldByCourtesy (takeOpportunity o s) x = false := by
  rw [Bool.eq_false_iff, Ne, heldByCourtesy_iff]
  rintro ⟨hordinary, hpending⟩
  rcases h with hkind | hnone | rfl
  · omega
  · have hstill : (takeOpportunity o s).line.courtesyPending = false := by
      cases o
      · exact hnone
      · exact hnone
      · rfl
    rw [hstill] at hpending
    cases hpending
  · cases hpending

/-- The check field of a frame: 0 in JOIN and FOUND and with the roster unknown, else the low byte of the commit count
(R33, R115). -/
theorem checkField_eq (s : State) (b : FrameBody) :
    checkField s (bodyKind b) =
      match b, s.roster with
      | .join, _ => 0
      | .found _, _ => 0
      | _, none => 0
      | _, some r => r.commits.extractLsb' 0 8 := by
  unfold checkField commitCount
  cases s.roster with
  | none => cases b <;> rfl
  | some r => cases b <;> simp [bodyKind, BitVec.setWidth_eq_extractLsb']

/-- A slot as its attempt starts: in attempt and no more opened, a RENEW with its surviving entries (R115, R117). -/
theorem markAttempt_eq {s : State} {k : Fin 8} {x : Slot} (b : FrameBody) (hx : s.queue.slots[k] = some x) :
    markAttempt k b s =
      { s with
        queue :=
          { s.queue with
            slots := s.queue.slots.set k (some
              { x with content := assembledContent x.content b, inAttempt := true, opened := false }) } } := by
  rw [markAttempt, updateSlot, hx]
  rfl

/-- The content that an attempt keeps goes by the frame alone: only a RENEW assembles to a RENEW (R117). -/
theorem assembledContent_of_assemble (s : State) (c : SlotContent) (b : FrameBody) :
    assemble s c = some b → assembledContent c b =
      match b with
      | .renew kept => .renew kept
      | _ => c := by
  intro h
  cases b with
  | renew kept =>
    have hkind : FrameKind.renew = slotKind c := bodyKind_of_assemble h
    cases c with
    | renew entries => rfl
    | _ => cases hkind
  | _ => cases c <;> rfl

/-- Settles O26, by the head that is sent. -/
theorem attemptSendsTheHead : Obligations.AttemptSendsTheHead := by
  intro s o k x b hreset hcomes hhead hb hfree check data
  have hsends : tryHead 16 (takeOpportunity o s) = sendFrame k b (takeOpportunity o s) :=
    tryHead_sends 15 (headSlot_some (takeOpportunity o s) k x hhead) (heldByCourtesy_takeOpportunity hfree) hb
  have hmark := markAttempt_eq (s := takeOpportunity o s) b hhead.1.1
  rw [exec_attemptStart_comes hreset hcomes, hsends, sendFrame, hmark, beginFrame, inputAfterStart_eq, checkField_eq,
    assembledContent_of_assemble _ _ _ hb]
  rfl

end Sys2Proof.Machine
end

section
/-! PROOFS. What becomes of a slot when its attempt ends (R84, R85, R89, R118, R119, R123, R126, R127). -/

namespace Sys2Proof.Machine

/-- The attempt did not come to its commit or refusal (R107). -/
def AttemptFailed (o : AttemptOutcome) : Prop := o = .lost ∨ o = .aborted ∨ o = .voided

/-- The attempt count that a failed attempt leaves: ABORTED and VOIDED count, except for TICK and SNAP, up to 16 (R118,
R119). -/
def attemptsAfter (x : Slot) (o : AttemptOutcome) : Nat :=
  if o = .lost ∨ slotKind x.content = .tick ∨ slotKind x.content = .snap then x.attempts else min (x.attempts + 1) 16

/-! ### Committed, refused, failed (R118) -/

section
variable {s : State} {k : Fin 8} {x : Slot}

theorem takeOutcome_committed (hx : s.queue.slots[k] = some x) :
    takeOutcome k .committed s =
      ({ s with
          queue := { s.queue with slots := s.queue.slots.set k none }
          line :=
            { s.line with
              courtesyPending := s.line.courtesyPending || decide (6 ≤ (kindCode (slotKind x.content)).toNat) } },
        { joined := slotKind x.content = .join }) := by
  have hordinary : isOrdinary (slotKind x.content) = decide (6 ≤ (kindCode (slotKind x.content)).toNat) :=
    Bool.eq_iff_iff.2 ((isOrdinary_iff x.content).trans decide_eq_true_iff.symm)
  have hjoin : decide (x.content = .join) = decide (slotKind x.content = .join) := by
    cases x.content <;> rfl
  unfold takeOutcome
  rw [hx]
  show commitAttempt k x s = _
  rw [commitAttempt, hordinary, hjoin]
  rfl

theorem takeOutcome_refused (hx : s.queue.slots[k] = some x) :
    takeOutcome k .refused s =
      ({ s with
          queue := { s.queue with slots := s.queue.slots.set k none }
          timers := { s.timers with holdOff := .running (16000 * 8 * tickPeriodMs s) } },
        { notices := [.roster (stationNumber s) .deniedFull] }) := by
  unfold takeOutcome
  rw [hx]
  rfl

theorem takeOutcome_failed {o : AttemptOutcome} (hx : s.queue.slots[k] = some x) (ho : AttemptFailed o) :
    takeOutcome k o s = failAttempt k x o s := by
  unfold takeOutcome
  rw [hx]
  rcases ho with rfl | rfl | rfl <;> rfl

/-! ### The count of attempts (R118, R119) -/

theorem attemptsAfter_eq {o : AttemptOutcome} (x : Slot) (ho : AttemptFailed o) :
    (if attemptCounts o x.content then min (x.attempts + 1) Config.attemptLimit else x.attempts) =
      attemptsAfter x o := by
  have hcounts : attemptCounts o x.content = true ↔
      ¬ (o = .lost ∨ slotKind x.content = .tick ∨ slotKind x.content = .snap) := by
    have hkinds : x.content ≠ .tick ∧ x.content ≠ .snap ↔
        ¬ (slotKind x.content = .tick ∨ slotKind x.content = .snap) := by
      cases x.content <;> simp [slotKind]
    unfold attemptCounts
    rw [not_or, ← hkinds]
    rcases ho with rfl | rfl | rfl <;> simp
  rw [if_congr hcounts rfl rfl, ite_not]
  rfl

theorem keepSlot_eq (n : Nat) (hx : s.queue.slots[k] = some x) :
    keepSlot k n s =
      { s with
        queue :=
          { s.queue with slots := s.queue.slots.set k (some { x with attempts := n, inAttempt := false }) } } := by
  rw [keepSlot, updateSlot, hx]
  rfl

/-- Below the limit the slot stays (R118). -/
theorem countAttempt_stays {o : AttemptOutcome} (k : Fin 8) (s : State) (ho : AttemptFailed o)
    (h : attemptsAfter x o < 16) : countAttempt k x o s = (keepSlot k (attemptsAfter x o) s, {}) := by
  unfold countAttempt
  rw [attemptsAfter_eq x ho]
  exact if_neg (Nat.ne_of_lt h)

/-- At the limit the slot is discarded with the notice of its kind (R119). -/
theorem countAttempt_discards {o : AttemptOutcome} {n : NoticeBody} (k : Fin 8) (s : State) (ho : AttemptFailed o)
    (h : attemptsAfter x o = 16) (hn : discardNotice x.content = some n) :
    countAttempt k x o s = discardSlot k x.content n s := by
  unfold countAttempt
  rw [attemptsAfter_eq x ho, hn]
  exact if_pos h

theorem discardSlot_eq {c : SlotContent} (k : Fin 8) (n : NoticeBody) (s : State) (h : c ≠ .join) :
    discardSlot k c n s = (emptySlot k s, { notices := [n], discarded := some c }) := by
  rw [discardSlot, if_neg h]

/-! ### Slots other than ACQUIRE (R84, R118, R119) -/

/-- A failed slot is counted, but for an ACQUIRE and for a FOUND that was not just lost (R118). -/
theorem failAttempt_counts {o : AttemptOutcome} (hkind : slotKind x.content ≠ .acquire)
    (hfound : x.content = .found → o = .lost) : failAttempt k x o s = countAttempt k x o s := by
  unfold failAttempt
  split
  · rename_i hc
    rw [hc] at hkind
    exact absurd rfl hkind
  · rename_i hc
    exact if_pos (hfound hc)
  · rfl

/-- A discard of a slot other than ACQUIRE, FOUND and JOIN (R119). -/
theorem takeOutcome_discards {o : AttemptOutcome} {n : NoticeBody} (hx : s.queue.slots[k] = some x)
    (ho : AttemptFailed o) (hkind : slotKind x.content ≠ .acquire) (hjoin : x.content ≠ .join)
    (hn : discardNotice x.content = some n) (h : attemptsAfter x o = 16) :
    takeOutcome k o s = (emptySlot k s, { notices := [n], discarded := some x.content }) := by
  have hfound : x.content = .found → o = .lost := fun hc => by
    rw [hc] at hn
    cases hn
  rw [takeOutcome_failed hx ho, failAttempt_counts hkind hfound, countAttempt_discards k s ho h hn,
    discardSlot_eq k n s hjoin]

/-- A discarded JOIN clears the join evidence (R119, R135). -/
theorem takeOutcome_discards_join {o : AttemptOutcome} (hx : s.queue.slots[k] = some x) (ho : AttemptFailed o)
    (hc : x.content = .join) (h : attemptsAfter x o = 16) :
    takeOutcome k o s =
      ({ emptySlot k s with joinEvidence := false },
        { notices := [.sendFailedJoin], discarded := some x.content }) := by
  have hn : discardNotice x.content = some .sendFailedJoin := by rw [hc]; rfl
  rw [takeOutcome_failed hx ho, failAttempt_counts (by simp [hc, slotKind]) (by simp [hc]),
    countAttempt_discards k s ho h hn, discardSlot, if_pos hc]

/-- A FOUND that is aborted or voided goes, and a seeker paces (R84, R119). -/
theorem takeOutcome_found {o : AttemptOutcome} (hx : s.queue.slots[k] = some x) (hc : x.content = .found)
    (ho : o = .aborted ∨ o = .voided) : takeOutcome k o s = (startPacing (emptySlot k s), {}) := by
  have hlost : o ≠ .lost := by rcases ho with rfl | rfl <;> exact AttemptOutcome.noConfusion
  rw [takeOutcome_failed hx (.inr ho), failAttempt, hc]
  exact if_neg hlost

/-! ### ACQUIRE (R118, R119, R123, R126, R127) -/

theorem takeOutcome_acquire {o : AttemptOutcome} {l : Lease} {c : Client} {m : Mode} {t p : Nat}
    (hx : s.queue.slots[k] = some x) (ho : AttemptFailed o) (hc : x.content = .acquire l c m t p) :
    takeOutcome k o s = failAcquire k x l c o s := by
  rw [takeOutcome_failed hx ho, failAttempt, hc]

/-- The RELEASE of a pair is found in its lowest slot. -/
theorem releaseSlot_first {q : OutboundQueue} {l : Lease} {c : Client} {j : Fin 8} {y : Slot} (hj : j.val < 6)
    (hy : q.slots[j] = some y) (hc : y.content = .release l c)
    (hfirst : ∀ (i : Fin 8) (z : Slot), i.val < j.val → q.slots[i] = some z → z.content ≠ .release l c) :
    releaseSlot l c q = some j := by
  refine generalSlotsWith_head_some _ q j y hj hy ((isReleaseFor_iff _ _ _).2 hc) fun i z hi hz => ?_
  rw [Bool.eq_false_iff, Ne, isReleaseFor_iff]
  exact hfirst i z hi hz

/-- The RELEASE need that cancels an ACQUIRE is that of a client bound to its lease (R126). -/
theorem releaseNeedWaits_iff (s : State) (l : Lease) (c : Client) :
    releaseNeedWaits s l c = true ↔
      s.queue.needs[c] = some .release ∧ ∃ m t, s.config.bindings[c] = .line l m t := by
  unfold releaseNeedWaits lineBinding
  rw [Bool.and_eq_true, decide_eq_true_iff]
  refine and_congr_right fun _ => ?_
  cases s.config.bindings[c] <;> simp

section
variable {o : AttemptOutcome} {l : Lease} {c : Client}

/-- With a RELEASE beside it both go (R123). -/
theorem failAcquire_beside {j : Fin 8} (h : releaseSlot l c s.queue = some j) :
    failAcquire k x l c o s = (emptySlot j (emptySlot k s), { notices := [.withdrawn l c .localRequest] }) := by
  unfold failAcquire
  rw [h]

/-- In LEAVING it goes (R127; log entry 37). -/
theorem failAcquire_leaving (h : releaseSlot l c s.queue = none) (hs : s.localState = .leaving) :
    failAcquire k x l c o s = (emptySlot k s, { notices := [.withdrawn l c .localRequest] }) := by
  unfold failAcquire
  rw [h]
  exact if_pos hs

/-- It is counted, and stays where no RELEASE need waits (R118, R126). -/
theorem failAcquire_counts (h : releaseSlot l c s.queue = none) (hs : s.localState ≠ .leaving)
    (hn : (countAttempt k x o s).2.discarded = none → releaseNeedWaits s l c = false) :
    failAcquire k x l c o s = countAttempt k x o s := by
  unfold failAcquire
  rw [h]
  refine (if_neg hs).trans (if_neg fun hw => ?_)
  rw [hn hw.1] at hw
  exact Bool.false_ne_true hw.2

/-- It would stay, but a RELEASE need waits: it goes with that need (R126). -/
theorem failAcquire_cancelled (h : releaseSlot l c s.queue = none) (hs : s.localState ≠ .leaving)
    (hd : (countAttempt k x o s).2.discarded = none) (hn : releaseNeedWaits s l c = true) :
    failAcquire k x l c o s =
      (setNeed c none (emptySlot k (countAttempt k x o s).1), { notices := [.withdrawn l c .localRequest] }) := by
  unfold failAcquire
  rw [h]
  exact (if_neg hs).trans (if_pos ⟨hd, hn⟩)

end

/-- Nothing is left of what was kept in a slot that is then emptied. -/
theorem emptySlot_keepSlot (k : Fin 8) (n : Nat) (s : State) : emptySlot k (keepSlot k n s) = emptySlot k s := by
  have hslots : (s.queue.slots.set k (s.queue.slots[k].map fun x => { x with attempts := n, inAttempt := false })).set k
      none = s.queue.slots.set k none := Vector.set_set ..
  rw [emptySlot, emptySlot, keepSlot, removeSlot, removeSlot, updateSlot, hslots]

end

/-- Settles O32, by the outcome of the attempt and the kind of the slot. -/
theorem attemptEnds : Obligations.AttemptEnds := by
  intro s k x hx failed without kept counts
  have hkeeps : ∀ o, kept (counts o) = keepSlot k (attemptsAfter x o) s := fun o =>
    (keepSlot_eq (attemptsAfter x o) hx).symm
  refine ⟨takeOutcome_committed hx, takeOutcome_refused hx, fun o ho hkind hfound hlimit => ?_,
    fun o hc ho => takeOutcome_found hx hc ho, fun o l c ho hc hlimit => ?_, fun o entries ho hc hlimit => ?_,
    fun o ho hc hlimit => ?_, fun o ho hc hlimit => ?_, fun o l c m t p ho hc => ⟨?_, fun hnone => ?_⟩⟩
  · rw [takeOutcome_failed hx ho, failAttempt_counts hkind hfound, countAttempt_stays k s ho hlimit, hkeeps]
  · exact takeOutcome_discards hx ho (by simp [hc, slotKind]) (by simp [hc]) (by rw [hc]; rfl) hlimit
  · exact takeOutcome_discards hx ho (by simp [hc, slotKind]) (by simp [hc]) (by rw [hc]; rfl) hlimit
  · exact takeOutcome_discards hx ho (by simp [hc, slotKind]) (by simp [hc]) (by rw [hc]; rfl) hlimit
  · exact takeOutcome_discards_join hx ho hc hlimit
  · intro j y hj hy hrelease hfirst
    rw [takeOutcome_acquire hx ho hc, failAcquire_beside (releaseSlot_first hj hy hrelease hfirst)]
    rfl
  · have hrelease := (releaseSlot_none_iff_content_ne l c s.queue).2 hnone
    rw [takeOutcome_acquire hx ho hc]
    refine ⟨failAcquire_leaving hrelease, fun hs => ⟨fun hlimit => ?_, fun hlimit => ?_⟩⟩
    · have hstays := countAttempt_stays k s ho hlimit
      refine ⟨fun hfree => ?_, fun m' t' hn hb => ?_⟩
      · have hneed : releaseNeedWaits s l c = false := by
          rw [Bool.eq_false_iff, Ne, releaseNeedWaits_iff]
          rintro ⟨hn, m', t', hb⟩
          rcases hfree with hother | hunbound
          · exact hother hn
          · exact hunbound m' t' hb
        rw [failAcquire_counts hrelease hs fun _ => hneed, hstays, hkeeps]
      · have hneed : releaseNeedWaits s l c = true := (releaseNeedWaits_iff s l c).2 ⟨hn, m', t', hb⟩
        rw [failAcquire_cancelled hrelease hs (by rw [hstays]) hneed, hstays, emptySlot_keepSlot]
        rfl
    · have hn : discardNotice x.content = some (.sendFailedAcquire l c) := by rw [hc]; rfl
      have hdiscards : countAttempt k x o s =
          (emptySlot k s, { notices := [.sendFailedAcquire l c], discarded := some x.content }) := by
        rw [countAttempt_discards k s ho hlimit hn, discardSlot_eq k _ s (by simp [hc])]
      have hgone : (countAttempt k x o s).2.discarded = none → releaseNeedWaits s l c = false := by
        rw [hdiscards]
        exact fun h => nomatch h
      rw [failAcquire_counts hrelease hs hgone, hdiscards]
      rfl

end Sys2Proof.Machine
end

section
/-! PROOFS. The straps, the resets and the state after reset (R130 to R133, R181, R194). -/

namespace Sys2Proof.Machine

/-! ### Outputs between participations (R129, R157, R184) -/

theorem grantLevel_not_member {s : State} (h : s.localState ≠ .member) (c : Client) : grantLevel s c = false := by
  unfold grantLevel
  cases lineBinding s c with
  | none => rfl
  | some b => simp [h]

/-- Outside MEMBER and LEAVING no lease is granted and the station is not in step with the line (R129, R157). -/
theorem driveOutputs_outside {s : State} (hm : s.localState ≠ .member) (hl : s.localState ≠ .leaving) :
    driveOutputs s =
      { s with grant := Vector.replicate 8 false, sync := false, notice := !s.notices.isEmpty } := by
  have hgrant : (Vector.ofFn fun c : Client => grantLevel s c) = Vector.replicate 8 false := by
    simp only [grantLevel_not_member hm]
    rfl
  have hsync : syncLevel s = false := by simp [syncLevel, hm, hl]
  rw [driveOutputs, hgrant, hsync]
  rfl

/-! ### The resets (R131 to R133) -/

theorem takeReset_standby {s : State} (h : s.straps.auto = 0) :
    takeReset s = { resetBlocks s with config := Configuration.portOnly } := by
  have hauto : autoStart s = false := by rw [autoStart, h]; rfl
  rw [takeReset, hauto]
  rfl

/-- With the auto-start strap on START is taken at once (R131, R133). -/
theorem takeReset_autoStart {s : State} (h : s.straps.auto = 1) :
    takeReset s = startStation { resetBlocks s with config := Configuration.lineBound } := by
  have hauto : autoStart s = true := by rw [autoStart, h]; rfl
  rw [takeReset, hauto]
  rfl

theorem takeReset_straps (s : State) : (takeReset s).straps = s.straps := by
  rcases BitVec.eq_zero_or_eq_one s.straps.auto with h | h
  · rw [takeReset_standby h]; rfl
  · rw [takeReset_autoStart h]; rfl

theorem takeReset_localState (s : State) :
    (takeReset s).localState = if s.straps.auto = 1 then .seeking else .standby := by
  rcases BitVec.eq_zero_or_eq_one s.straps.auto with h | h
  · rw [takeReset_standby h, h]; rfl
  · rw [takeReset_autoStart h, h]; rfl

/-- A soft reset is a release of RESETn with the straps as they stand (R132, R181). -/
theorem exec_softReset_high {s : State} (h : s.resetLow = false) :
    exec .softReset s = .next (driveOutputs (takeReset s)) ∧
      exec (.pinResetRelease s.straps) s = .next (driveOutputs (takeReset s)) := by
  have hsame : ({ s with straps := s.straps, resetLow := false } : State) = s := by rw [← h]
  refine ⟨guarded_high takeReset h, ?_⟩
  show execPinResetRelease s.straps s = _
  rw [execPinResetRelease, hsame]

/-- Settles O5, by the auto-start strap. -/
theorem resetsGiveTheResetValues : Obligations.ResetsGiveTheResetValues := by
  refine ⟨fun s => ?_, ⟨fun pins s h => ?_, fun pins s h => ?_⟩, fun s h => ?_⟩
  · show execPinReset s = _
    rw [execPinReset, driveOutputs_outside LocalState.noConfusion LocalState.noConfusion]
    rfl
  · show execPinResetRelease pins s = _
    rw [execPinResetRelease, takeReset_standby h, driveOutputs_outside LocalState.noConfusion LocalState.noConfusion]
    rfl
  · show execPinResetRelease pins s = _
    rw [execPinResetRelease, takeReset_autoStart h, driveOutputs_outside LocalState.noConfusion LocalState.noConfusion]
    rfl
  · obtain ⟨hsoft, hrelease⟩ := exec_softReset_high h
    exact ⟨_, hsoft, hrelease, takeReset_straps s, takeReset_localState s⟩

/-! ### The straps (R130, R194) -/

theorem tickPeriodMs_table (s : State) :
    some (tickPeriodMs s) = [1, 2, 5, 10, 20, 50, 100, 200][s.straps.tpr.toNat]? := by
  unfold tickPeriodMs
  generalize s.straps.tpr = code
  revert code
  decide

theorem cyclesPerBit_table (s : State) : some (cyclesPerBit s) = [128, 64, 32, 16][s.straps.brt.toNat]? := by
  unfold cyclesPerBit
  generalize s.straps.brt = code
  revert code
  decide

/-! ### The state after reset (R132) -/

/-- A release of RESETn with every strap pin open leaves the state after reset as it is. -/
theorem exec_release_open_reset :
    exec (.pinResetRelease { stn := 15, nsz := 15, tpr := 7, brt := 3, auto := 1 }) State.reset = .next State.reset := by
  show execPinResetRelease _ State.reset = _
  rw [execPinResetRelease, takeReset_autoStart rfl, driveOutputs_outside LocalState.noConfusion LocalState.noConfusion]
  rfl

/-- Settles O4, by the table of each strap and the fields of the state after reset. -/
theorem strapsAndResetState : Obligations.StrapsAndResetState := by
  refine ⟨fun s => ⟨rfl, expectedSize_eq s, tickPeriodMs_table s, cyclesPerBit_table s, decide_eq_true_iff⟩,
    exec_release_open_reset, rfl, rfl, rfl, rfl, fun c => ?_, fun l => ?_, rfl, rfl, fun k => ?_, fun c => ?_, rfl, rfl,
    rfl, rfl, rfl, fun c => ?_, fun c => ?_, rfl, rfl, rfl, rfl, rfl, rfl, rfl, rfl, rfl⟩
  · exact Vector.getElem_ofFn _
  all_goals exact Vector.getElem_replicate _

theorem reset_notices_legal : NoticesLegal State.reset.notices := Or.inr (by decide)

theorem reset_outputs_settled : OutputsSettled State.reset :=
  ⟨fun c => (Vector.getElem_replicate _).trans (grantLevel_not_member LocalState.noConfusion c).symm, rfl, rfl⟩

/-- Settles O60: the replica is unknown, the outbound queue empty, and no frame is in progress. -/
theorem resetIsInOrder : Obligations.ResetIsInOrder := by
  obtain ⟨hheads, hrecords, hplaced, hcovers⟩ := resetBlocks_placed State.reset rfl rfl (Or.inr (Or.inl rfl))
  have hentries : EntriesLegal State.reset := fun l e h => by
    rw [show State.reset.leases[l] = none from unknownLeases_none l] at h
    cases h
  exact ⟨hentries, hheads, hrecords, hplaced, hcovers, fun _ _ _ _ h => LocalState.noConfusion h, reset_notices_legal,
    empty_legal, trivial, reset_outputs_settled⟩

end Sys2Proof.Machine
end

section
/-! PROOFS. Commands under reset, and events that cannot occur as the state stands (R132, R149; log entries 9, 17, 26,
35). -/

namespace Sys2Proof.Machine

/-! ### Commands while RESETn is low (log entry 26) -/

/-- While RESETn is low the effect is not made. -/
theorem guarded_low {s : State} (t : State) (h : s.resetLow = true) :
    (Host.Outcome.next (driveOutputs (if s.resetLow then s else t)) : Host.Outcome State Fault Refusal) =
      .next (driveOutputs s) := by
  rw [if_pos h]

/-- The two commands of the pin apart, no command has an effect while RESETn is low. -/
theorem exec_low {s : State} (c : Instr) (h : s.resetLow = true) (hreset : c ≠ .pinReset)
    (hrelease : ∀ pins, c ≠ .pinResetRelease pins) : exec c s = .next (driveOutputs s) := by
  cases c with
  | pinReset => exact absurd rfl hreset
  | pinResetRelease pins => exact absurd rfl (hrelease pins)
  | _ => exact guarded_low _ h

/-! ### Events that cannot occur (log entries 9, 17, 35) -/

/-- An effect that changes nothing. -/
theorem guarded_still {s t : State} (h : t = s) :
    (Host.Outcome.next (driveOutputs (if s.resetLow then s else t)) : Host.Outcome State Fault Refusal) =
      .next (driveOutputs s) := by
  rw [h, ite_self]

theorem not_isRunning {t : Timer} (h : ∀ n, t ≠ .running n) : ¬ t.isRunning = true :=
  Bool.eq_false_iff.1 ((isRunning_false_iff t).2 h)

theorem receiveStartBit_inFrame {s : State} (h : ¬ LineQuiet s) : receiveStartBit s = s :=
  if_pos (by rw [← Bool.not_eq_false, frameInProgress_false_iff]; exact h)

theorem comes_of_offersOpportunity {s : State} {o : Opportunity} (h : offersOpportunity o s = true) :
    OpportunityComes s o := by
  cases o with
  | quietGap => exact ⟨fun _ => of_decide_eq_true h, fun hne => absurd rfl hne, nofun⟩
  | lineIdle => exact ⟨nofun, fun _ => of_decide_eq_true h, nofun⟩
  | courtesyGap =>
    obtain ⟨hidle, hpending⟩ := Bool.and_eq_true_iff.1 h
    exact ⟨nofun, fun _ => of_decide_eq_true hidle, fun _ => hpending⟩

theorem startAttempt_not_offered {s : State} {o : Opportunity} (h : ¬ OpportunityComes s o) : startAttempt o s = s :=
  if_neg (mt comes_of_offersOpportunity h)

theorem completeQuietGap_not_counting {s : State} (h : s.line.phase ≠ .counting) : completeQuietGap s = s :=
  startAttempt_not_offered fun ⟨hcounting, _, _⟩ => h (hcounting rfl)

theorem endFrame_quiet {s : State} (h : LineQuiet s) (cells : List LineCell) : endFrame cells s = s := by
  rcases h with h | h <;> simp only [endFrame, h]

/-- Settles O6: the test that each event makes first. -/
theorem commandsWithoutEffect : Obligations.CommandsWithoutEffect := by
  refine ⟨fun c s => exec_low c, ?_⟩
  intro s idle
  refine ⟨?_, ?_, ?_, ?_, ?_, fun c hreset => ⟨?_, ?_⟩, ?_, ?_, ?_, ?_⟩
  · exact fun h => guarded_still (if_neg (not_isRunning h))
  · exact fun h => guarded_still (if_neg (not_isRunning h))
  · exact fun h => guarded_still (if_neg (not_isRunning h))
  · exact fun h => guarded_still (if_neg (not_isRunning h))
  · exact fun h => guarded_still (if_neg (not_isRunning h))
  · intro h
    have hpin : claimAsserted c s = settlePin c true s := if_pos h
    exact (guarded_high (claimAsserted c) hreset).trans (by rw [hpin]; rfl)
  · intro h
    have hpin : claimReleased c s = settlePin c false s := if_neg (Bool.eq_false_iff.1 h)
    exact (guarded_high (claimReleased c) hreset).trans (by rw [hpin]; rfl)
  · exact fun h => guarded_still (receiveStartBit_inFrame h)
  · exact fun o h => guarded_still (startAttempt_not_offered h)
  · exact fun h => guarded_still (completeQuietGap_not_counting h)
  · exact fun h cells => guarded_still (endFrame_quiet h cells)

end Sys2Proof.Machine
end

section
/-! PROOFS. The ends of participation: LEAVE at the local port, and the teardown (R127, R139 to R145, R159, R160,
R179). -/

namespace Sys2Proof.Machine

/-! ### What both ends share (R139, R144, R159, R160) -/

/-- The REVOKED notices, by ascending lease and in the order of the holder list (R139, R144). -/
theorem revokedNotices_eq (s : State) (reason : RevokeReason) :
    revokedNotices s reason = (List.finRange 64).flatMap fun l : Lease =>
      match s.leases[l] with
      | none => []
      | some e =>
        (e.holders.filter fun h => h.tag.station = stationNumber s && h.status = .live).map fun h =>
          NoticeBody.revoked l h.tag.client h.grant reason := by
  rw [revokedNotices, ownLiveHolds, List.map_flatMap]
  refine List.flatMap_congr fun l _ => ?_
  cases s.leases[l] with
  | none => rfl
  | some e => exact List.map_map

/-- No client that is moved by its claim is RELEASING (R159, R160). -/
theorem revokeClients_noLineReleasing (s : State) : NoLineReleasing (revokeClients s) := by
  intro c hline
  rw [revokeClients_clients]
  simp only [Fin.getElem_fin, Vector.getElem_ofFn]
  show (revokedRecord s.config.bindings[c] s.clients[c]).state ≠ .releasing
  cases hb : s.config.bindings[c] with
  | port => exact absurd hb hline
  | line l m t =>
    rw [revokedRecord]
    dsimp only
    split <;> exact ClientState.noConfusion

/-! ### Teardown (R144, R145) -/

/-- The REVOKED notices of a teardown, which come from MEMBER only (R144). -/
def teardownNotices (s : State) (cause : TeardownCause) : List NoticeBody :=
  if s.localState = .member then revokedNotices s (causeReason cause) else []

theorem teardown_eq (cause : TeardownCause) (s : State) :
    teardown cause s =
      (let torn := clearParticipation (revokeClients s)
      if seeksAfterTeardown s cause then
        { torn with
          localState := .seeking
          joinEvidence := false
          timers := { Timers.allStopped with founding := ticking s 6 }
          notices := arriveInOrder (commitStamp s) (teardownNotices s cause ++ [.state .seeking]) s.notices }
      else
        { torn with
          localState := .detached
          notices := arriveInOrder (commitStamp s) (teardownNotices s cause ++ [.state .detached]) s.notices }) := by
  have htold : (if s.localState = .member then notifyAll (revokedNotices s (causeReason cause)) s else s) =
      { s with notices := arriveInOrder (commitStamp s) (teardownNotices s cause) s.notices } := by
    rw [teardownNotices]
    split
    · exact notifyAll_arrive _ s
    · rfl
  rw [teardown, htold]
  simp only [arriveInOrder_append]
  rfl

theorem seeksAfterTeardown_iff (s : State) (cause : TeardownCause) :
    seeksAfterTeardown s cause = true ↔
      (∃ x, cause = .trigger x) ∧ s.config.autoRejoin = true ∧ s.localState ≠ .leaving := by
  cases cause <;> simp [seeksAfterTeardown]

/-- Settles O20, by whether the station seeks again. -/
theorem teardownLeaves : Obligations.TeardownLeaves := by
  intro s cause seeks reason revoked torn
  have hreason : causeReason cause = reason := by
    cases cause with
    | leaveCompleted => rfl
    | trigger x => cases x <;> rfl
  have hrevoked : teardownNotices s cause = revoked := by
    refine if_congr Iff.rfl ?_ rfl
    rw [hreason]
    exact revokedNotices_eq s reason
  have hseeks : seeksAfterTeardown s cause = true ↔ seeks := seeksAfterTeardown_iff s cause
  refine ⟨fun h => ?_, fun h => ?_⟩
  · rw [teardown_eq, if_pos (hseeks.2 h), hrevoked]
    rfl
  · rw [teardown_eq, if_neg (mt hseeks.1 h), hrevoked]
    rfl

/-! ### Entry into LEAVING (R127, R139) -/

/-- The station in LEAVING before any need is served: line clients moved by their claims, ACQUIREs and ACQUIRE needs
gone (R127, R159). -/
def enteredLeaving (s : State) : State :=
  dropAcquireNeeds
    { revokeClients s with localState := .leaving, queue := { s.queue with slots := slotsAtLeave s.queue } }

theorem withoutAcquires_general (q : OutboundQueue) :
    withoutAcquires q generalSlots = { q with slots := slotsAtLeave q } := by
  have hgeneral : ∀ k : Fin 8, k ∈ generalSlots ↔ k.val < 6 := by decide
  simp only [withoutAcquires, slotsAtLeave, hgeneral]

theorem slotsAtLeave_acquire {q : OutboundQueue} {k : Fin 8} {x : Slot} (hk : k.val < 6)
    (hx : (slotsAtLeave q)[k] = some x) (hacquire : x.content.isAcquire = true) : x.inAttempt = true := by
  simp only [slotsAtLeave, Fin.getElem_fin, Vector.getElem_ofFn] at hx
  split at hx
  · cases hx
  · split at hx
    · cases hx
    · rename_i hstays
      cases hx
      simpa [hk, hacquire] using hstays

theorem enteredLeaving_acquiresGone (s : State) : AcquiresGone (enteredLeaving s) := by
  refine ⟨fun k x hk hx => slotsAtLeave_acquire hk hx, fun c => ?_, revokeClients_noLineReleasing s⟩
  unfold enteredLeaving dropAcquireNeeds
  simp only [Fin.getElem_fin, Vector.getElem_ofFn]
  split
  · exact nofun
  · assumption

/-- An operation that only lets the queue grow, beside other notices and another exchange. -/
theorem OnlyQueueGrows.beside {f : State → State} {t : State} (h : OnlyQueueGrows f t) (q : List Notice)
    (x : Option Exchange) :
    f { t with notices := q, exchange := x } = { t with queue := (f t).queue, notices := q, exchange := x } :=
  (h.indep q x).trans (congrArg (fun u : State => { u with notices := q, exchange := x }) h.same)

/-- A slot that frees in LEAVING changes the queue only, whatever notices wait (R125, R140). -/
theorem slotFreed_acquiresGone {t : State} (h : AcquiresGone t) (q : List Notice) :
    slotFreed { t with notices := q } =
      { t with queue := (leaveHandshake (serveNeeds t)).queue, notices := q } :=
  (slotFreed_leaving { t with notices := q } h).trans ((slotFreed_onlyQueueGrows t h).beside q t.exchange)

/-- The ACQUIREs withdrawn once the clients have their notices (R127, R139). -/
theorem withdrawAcquires_entered (s : State) :
    dropAcquireNeeds (generalSlots.foldl withdrawAcquire (notifyAll (revokedNotices s .leaving)
        (revokeClients { s with localState := .leaving }))) =
      { enteredLeaving s with
        notices := arriveInOrder (commitStamp s)
          (revokedNotices s .leaving ++ generalSlots.flatMap (withdrawnAt s.queue)) s.notices } := by
  rw [notifyAll_arrive, withdrawAcquires_eq _ _ (by decide), withoutAcquires_general, arriveInOrder_append]
  rfl

/-- A notice that arrives after others of its stamp, whatever the queue has become. -/
theorem notify_last (b : NoticeBody) (bs : List NoticeBody) (t : State) (queue : OutboundQueue) (q : List Notice) :
    notify b { t with queue := queue, notices := arriveInOrder (commitStamp t) bs q } =
      { t with queue := queue, notices := arriveInOrder (commitStamp t) (bs ++ [b]) q } := by
  rw [arriveInOrder_append]
  rfl

theorem enteredLeaving_commitStamp (s : State) : commitStamp (enteredLeaving s) = commitStamp s := rfl

/-- Entry into LEAVING, in the order of R139. -/
theorem enterLeaving_eq (s : State) :
    enterLeaving s =
      { enteredLeaving s with
        queue := (leaveHandshake (serveNeeds (enteredLeaving s))).queue
        notices := arriveInOrder (commitStamp s)
          (revokedNotices s .leaving ++ generalSlots.flatMap (withdrawnAt s.queue) ++ [.state .leaving]) s.notices } := by
  have hrevoked : revokedNotices (revokeClients { s with localState := .leaving }) .leaving =
      revokedNotices s .leaving := rfl
  rw [enterLeaving, hrevoked, withdrawAcquires_entered, slotFreed_acquiresGone (enteredLeaving_acquiresGone s),
    ← enteredLeaving_commitStamp, notify_last]

/-- The exchange at the local port plays no part in what is placed in LEAVING. -/
theorem placedInLeaving_exchange (s : State) (x : Option Exchange) :
    (leaveHandshake (serveNeeds (enteredLeaving { s with exchange := x }))).queue =
      (leaveHandshake (serveNeeds (enteredLeaving s))).queue := by
  have hentered : enteredLeaving { s with exchange := x } =
      { enteredLeaving s with notices := s.notices, exchange := x } := rfl
  have hplaced : leaveHandshake (serveNeeds { enteredLeaving s with notices := s.notices, exchange := x }) =
      { enteredLeaving s with
        queue := (leaveHandshake (serveNeeds (enteredLeaving s))).queue
        notices := s.notices
        exchange := x } :=
    (slotFreed_onlyQueueGrows (enteredLeaving s) (enteredLeaving_acquiresGone s)).beside s.notices x
  rw [hentered, hplaced]

theorem takeLeave_member {s : State} (h : s.localState = .member) : takeLeave s = ([okCode], enterLeaving s) := by
  rw [takeLeave, h]

theorem takeLeave_leaving {s : State} (h : s.localState = .leaving) : takeLeave s = ([leavingCode], s) := by
  rw [takeLeave, h]

theorem takeLeave_refused {s : State} (hm : s.localState ≠ .member) (hl : s.localState ≠ .leaving) :
    takeLeave s = ([wrongStateCode], s) := by
  unfold takeLeave
  cases h : s.localState with
  | member => exact absurd h hm
  | leaving => exact absurd h hl
  | _ => rfl

theorem exec_leave_ready {s t : State} {response : List Byte} (h : PortReady s)
    (ht : takeLeave { s with exchange := none } = (response, t)) : exec .leave s = .next (answered 0x40 response t) := by
  show execLeave s = _
  rw [execLeave, portRequest_ready _ _ s h, ht]

/-- No need waits in LEAVING but those for RELEASE. -/
theorem enteredLeaving_no_needs {s : State} (h : ∀ c : Client, s.queue.needs[c] ≠ some .release) (c : Client) :
    (enteredLeaving s).queue.needs[c] = none := by
  have hneed : (enteredLeaving s).queue.needs[c] =
      if s.queue.needs[c] = some .acquire then none else s.queue.needs[c] := Vector.getElem_ofFn _
  rw [hneed]
  cases hn : s.queue.needs[c] with
  | none => rfl
  | some need =>
    cases need with
    | acquire => rfl
    | release => exact absurd hn (h c)

/-- Settles O12: what is placed in LEAVING only lets the queue grow. -/
theorem leaveEntersLeaving : Obligations.LeaveEntersLeaving := by
  intro s hready
  refine ⟨?_, fun hl => ?_, fun hm hl => ?_⟩
  · intro hmember kept withdrawn revoked entered after
    have hrevoked : revokedNotices s .leaving = revoked := revokedNotices_eq s .leaving
    have hgrew : QueueGrew entered.queue after :=
      (slotFreed_onlyQueueGrows entered (enteredLeaving_acquiresGone s)).grew
    refine ⟨?_, fun hneeds => ?_, hgrew.keep, hgrew.fresh⟩
    · rw [exec_leave_ready hready (takeLeave_member (by exact hmember)), enterLeaving_eq, placedInLeaving_exchange,
        ← hrevoked]
      rfl
    · have hserved : serveNeeds entered = entered := serveNeeds_none entered (enteredLeaving_no_needs hneeds)
      exact congrArg (fun t => (leaveHandshake t).queue) hserved
  · rw [exec_leave_ready hready (takeLeave_leaving (by exact hl))]
    rfl
  · rw [exec_leave_ready hready (takeLeave_refused (by exact hm) (by exact hl))]
    rfl

end Sys2Proof.Machine
end

section
/-! PROOFS. The frame end of the JOIN of a seeker, at that seeker (R82, R84, R85, R107, R118, R134, R135, R137). -/

namespace Sys2Proof.Machine

/-! ### What the frame does at a seeker (R36, R39, R66, R103) -/

/-- A sender that knew no roster and was no joiner at the start bit was not required (R67, R103). -/
theorem frameReport_not_selfRequired {s : State} {role : Role} {tx : Option Transmission} {cells : List LineCell}
    (hseeking : role.localState = .seeking) (hrequired : role.required = none) :
    (frameReport s role tx cells).selfRequired = false := by
  show selfRequired (stationNumber s) role cells = false
  rw [selfRequired, hrequired, hseeking]
  rfl

/-- A JOIN has no effect on an unknown roster, and nor has a frame that was not read (R39, R66). -/
theorem applyFrame_join_unknown {rep : FrameReport} {s : State} (hv : rep.verdict = .commit ∨ rep.verdict = .refuse)
    (hrequired : rep.selfRequired = false) (hbody : rep.payload = some .join ∨ rep.payload = none)
    (hroster : s.roster = none) : applyFrame rep s = (s, {}) := by
  have hcommit : applyFrame rep s = applyCommit rep s := by
    rcases hv with h | h <;> simp only [applyFrame, h]
  have hack : ¬ (!isFoundCode rep.kindCode && rep.selfRequired && !rep.acknowledged) = true := by
    simp [hrequired]
  rw [hcommit, applyCommit, if_neg hack]
  rcases hbody with h | h <;> rw [h]
  show applyCommitted rep .join s = (s, {})
  rw [applyCommitted, hroster]
  rfl

/-- With the roster unknown a notice carries the stamp 0 (R33, R183). -/
theorem commitStamp_unknown {s : State} (h : s.roster = none) : commitStamp s = 0 := by
  rw [commitStamp, commitCount, h]
  rfl

/-- The committed verdict of an attempt of its own at a seeker where nothing waits: the seeker's timers and the notices
of the outcome, then admission and placing (R83, R134). -/
theorem frameEndSteps_seeker {k : Fin 8} {rep : FrameReport} {s t : State} {own : OwnOutcome}
    (hown : ownOutcome (some k) rep s = (t, own)) (hd : own.discarded = none)
    (hseeking : t.localState = .seeking) (hroster : t.roster = none) (hwaits : NothingWaits t)
    (hslot : t.queue.slots[(7 : Fin 8)] = none) (hv : rep.verdict = .commit ∨ rep.verdict = .refuse)
    (hrequired : rep.selfRequired = false) (hbody : rep.payload = some .join ∨ rep.payload = none) :
    frameEndSteps (some k) rep s =
      placeAtFrameEnd (applyAdmission {} own
        { t with
          joinEvidence := true
          timers := { t.timers with founding := ticking t 6, pacing := .stopped }
          notices := arriveInOrder 0 own.notices t.notices }) := by
  have hstamp := commitStamp_unknown hroster
  have happlied := (congrArg (applyFrame rep) (takeVerdict_seeker rep t hseeking hv hslot)).trans
    (applyFrame_join_unknown hv hrequired hbody (by exact hroster))
  rw [frameEndSteps_quiet (some k) rep s _ {} _ hown happlied hd rfl rfl (by exact hwaits),
    timeUnitEffect_idle _ _ rfl rfl, settleFrameEnd_untaken _ _ _ rfl (by exact congrArg takesTriggers hseeking) hd,
    List.append_nil, ← hstamp]
  rfl

/-! ### Committed and refused (R118, R135, R137) -/

/-- The commit of its JOIN makes a seeker JOINING (R137). -/
theorem applyAdmission_joined {fx : FrameEffect} {own : OwnOutcome} {s : State} (hj : own.joined = true)
    (hseeking : s.localState = .seeking) : applyAdmission fx own s = enterJoining s :=
  if_pos ⟨hj, hseeking⟩

section
variable {s : State} {k : Fin 8} {x : Slot} {rep : FrameReport}

/-- The JOIN committed: JOINING, the slot gone (R137). -/
theorem frameEndSteps_joinCommitted (hk : k = 7) (hx : s.queue.slots[(7 : Fin 8)] = some x) (hjoin : x.content = .join)
    (hseeking : s.localState = .seeking) (hroster : s.roster = none) (hwaits : NothingWaits s)
    (hrequired : rep.selfRequired = false) (hbody : rep.payload = some .join ∨ rep.payload = none)
    (hattempt : rep.attempt = some .committed) (hv : rep.verdict = .commit) :
    frameEndSteps (some k) rep s =
      { s with
        localState := .joining
        joinEvidence := true
        sourceDuty := false
        queue := { s.queue with slots := s.queue.slots.set 7 none }
        timers :=
          { s.timers with
            silence := ticking s 3
            founding := .stopped
            pacing := .stopped
            holdOff := .stopped }
        notices := arrive { stamp := 0, body := .state .joining } s.notices } := by
  subst hk
  have hown : ownOutcome (some 7) rep s =
      ({ s with queue := { s.queue with slots := s.queue.slots.set 7 none } }, { joined := true }) := by
    rw [ownOutcome_of_attempt hattempt, takeOutcome_committed hx, hjoin]
    simp [slotKind, kindCode]
  have hempty : (s.queue.slots.set 7 none)[(7 : Fin 8)] = none := Vector.getElem_set_self _
  have hstamp := commitStamp_unknown hroster
  rw [frameEndSteps_seeker hown rfl hseeking hroster hwaits hempty (.inl hv) hrequired hbody,
    applyAdmission_joined rfl (by exact hseeking), placeAtFrameEnd_joining _ rfl hempty, ← hstamp]
  rfl

/-- The JOIN refused: it seeks on, and holds off for eight periods (R85, R135). -/
theorem frameEndSteps_joinRefused (hk : k = 7) (hx : s.queue.slots[(7 : Fin 8)] = some x)
    (hseeking : s.localState = .seeking) (hroster : s.roster = none) (hwaits : NothingWaits s)
    (hrequired : rep.selfRequired = false) (hbody : rep.payload = some .join ∨ rep.payload = none)
    (hattempt : rep.attempt = some .refused) (hv : rep.verdict = .refuse) :
    frameEndSteps (some k) rep s =
      { s with
        joinEvidence := true
        sourceDuty := false
        queue := { s.queue with slots := s.queue.slots.set 7 none }
        timers := { s.timers with founding := ticking s 6, pacing := .stopped, holdOff := ticking s 8 }
        notices := arrive { stamp := 0, body := .roster (stationNumber s) .deniedFull } s.notices } := by
  subst hk
  have hown := (ownOutcome_of_attempt hattempt).trans (takeOutcome_refused hx)
  have hempty : (s.queue.slots.set 7 none)[(7 : Fin 8)] = none := Vector.getElem_set_self _
  rw [frameEndSteps_seeker hown rfl hseeking hroster hwaits hempty (.inr hv) hrequired hbody,
    applyAdmission_none _ _ _ rfl rfl]
  exact placeAtFrameEnd_seeking _ _ _ (by exact hseeking) (by exact hempty) rfl rfl

end

/-- Settles O38, by the outcome of the attempt. -/
theorem joinAtItsSeeker : Obligations.JoinAtItsSeeker := by
  intro s role tx cells x hreset hphase hk hx hjoin hseeking hroster hrole hunknown hwaits rep base hbody
  have hrequired : rep.selfRequired = false := frameReport_not_selfRequired hrole hunknown
  refine ⟨fun hattempt hv => ?_, fun hattempt hv => ?_⟩
  · rw [exec_frameEnd_sending hreset hphase,
      frameEndSteps_joinCommitted (s := { s with line := lineAfter s (marksLeft tx cells) rep }) hk hx hjoin hseeking
        hroster hwaits hrequired hbody hattempt hv]
    rfl
  · rw [exec_frameEnd_sending hreset hphase,
      frameEndSteps_joinRefused (s := { s with line := lineAfter s (marksLeft tx cells) rep }) hk hx hseeking
        hroster hwaits hrequired hbody hattempt hv]
    rfl

end Sys2Proof.Machine
end

section
/-! PROOFS. The output pins after every command, and that every step keeps them at their levels (R129, R157, R184; log
entries 9, 22, 24). -/

namespace Sys2Proof.Machine

/-! ### The level of a GRANT line (R157) -/

theorem liveHolderOf_isSome_iff (s : State) (l : Lease) (t : Tag) : (liveHolderOf s l t).isSome = true ↔
    ∃ (e : LeaseEntry) (h : Holder), s.leases[l] = some e ∧ h ∈ e.holders ∧ h.tag = t ∧ h.status = .live := by
  unfold liveHolderOf
  cases s.leases[l] with
  | none => simp
  | some e => simp [LeaseEntry.liveHolder, isLiveOf_iff]

/-- A LINE-bound client is granted in MEMBER, HOLDING, with a LIVE hold of its lease in the replica (R157). -/
theorem grantLevel_line {s : State} {c : Client} {l : Lease} {m : Mode} {term : Nat}
    (hb : s.config.bindings[c] = .line l m term) : grantLevel s c = true ↔
      s.localState = .member ∧ s.clients[c].state = .holding ∧
        ∃ (e : LeaseEntry) (h : Holder),
          s.leases[l] = some e ∧ h ∈ e.holders ∧ h.tag = ownTag s c ∧ h.status = .live := by
  rw [grantLevel, lineBinding_line s c l m term hb, ← liveHolderOf_isSome_iff]
  simp [and_assoc]

/-- A PORT-bound client is never granted (R148, R157). -/
theorem grantLevel_port {s : State} {c : Client} (hb : s.config.bindings[c] = .port) : grantLevel s c = false := by
  rw [grantLevel, lineBinding_port s c hb]

theorem grantLevel_iff (s : State) (c : Client) : grantLevel s c = true ↔
    s.localState = .member ∧ s.clients[c].state = .holding ∧
      ∃ (l : Lease) (m : Mode) (term : Nat) (e : LeaseEntry) (h : Holder),
        s.config.bindings[c] = .line l m term ∧ s.leases[l] = some e ∧ h ∈ e.holders ∧ h.tag = ownTag s c ∧
          h.status = .live := by
  cases hb : s.config.bindings[c] with
  | port => simp [grantLevel_port hb]
  | line l m term =>
    rw [grantLevel_line hb]
    refine and_congr_right fun _ => and_congr_right fun _ => ⟨fun h => ⟨l, m, term, ?_⟩, ?_⟩
    · obtain ⟨e, h, hold⟩ := h
      exact ⟨e, h, rfl, hold⟩
    · rintro ⟨l', m', term', e, h, hline, hold⟩
      cases hline
      exact ⟨e, h, hold⟩

theorem syncLevel_iff (s : State) : syncLevel s = true ↔ s.localState = .member ∨ s.localState = .leaving := by
  simp [syncLevel]

theorem noticeLevel_iff (s : State) : noticeLevel s = true ↔ s.notices ≠ [] := by
  simp [noticeLevel]

/-! ### After a command (log entries 9, 22, 24) -/

theorem driveOutputs_settled (s : State) : OutputsSettled (driveOutputs s) :=
  ⟨fun _ => Vector.getElem_ofFn _, rfl, rfl⟩

/-- Every command answers a next state, and its last act is to drive the outputs. -/
theorem exec_driven (c : Instr) (s : State) : ∃ u, exec c s = .next (driveOutputs u) := by
  cases c with
  | _ => exact ⟨_, rfl⟩

theorem exec_settled {c : Instr} {s t : State} (h : exec c s = .next t) : OutputsSettled t := by
  obtain ⟨u, hu⟩ := exec_driven c s
  rw [hu] at h
  cases h
  exact driveOutputs_settled u

/-- No command takes one from those that wait, a reset no more than a frame end (log entry 22). -/
theorem exec_pending {c : Instr} {s t : State} (h : exec c s = .next t) : t.pending = s.pending := by
  cases c with
  | frameEnd cells =>
    cases h
    rw [driveOutputs_pending]
    split
    · rfl
    · obtain hsame | hend := endFrame_step cells s
      · rw [hsame]
      · exact hend.pending
  | _ => exact (exec_command _ s t (by intro cells; simp) h).pending

/-- Settles O3: the last act of every command drives the outputs. -/
theorem outputsAfterEveryCommand : Obligations.OutputsAfterEveryCommand := by
  intro c s
  obtain ⟨u, hu⟩ := exec_driven c s
  obtain ⟨hgrant, hsync, hnotice⟩ := exec_settled hu
  refine ⟨driveOutputs u, hu, exec_pending hu, fun d => ?_, ?_, ?_⟩
  · rw [hgrant d]
    exact grantLevel_iff _ d
  · rw [hsync]
    exact syncLevel_iff _
  · rw [hnotice]
    exact noticeLevel_iff _

/-! ### After a step -/

/-- The outputs are settled still where neither they nor their conditions change; of a client only its state counts. -/
theorem OutputsSettled.of_clients {s : State} {xs : Vector LineClient 8}
    (hx : ∀ c : Client, xs[c].state = s.clients[c].state) (hs : OutputsSettled s) :
    OutputsSettled { s with clients := xs } := by
  obtain ⟨hgrant, hsync, hnotice⟩ := hs
  refine ⟨fun c => (hgrant c).trans ?_, hsync, hnotice⟩
  simp only [grantLevel, hx c]
  rfl

/-- A sample of a claim pin counts, and changes the state of no client (R149). -/
theorem sampleClaim_state (pin : Bool) (x : LineClient) : (sampleClaim pin x).state = x.state := rfl

theorem cycleClaims_settled {s : State} (hs : OutputsSettled s) : OutputsSettled (cycleClaims s) := by
  unfold cycleClaims
  split
  · exact hs
  · refine OutputsSettled.of_clients (s := { s with sampleCycles := 0 }) (fun c => ?_) hs
    rw [Fin.getElem_fin, Vector.getElem_ofFn]
    exact sampleClaim_state _ _

theorem cycleGap_settled {s : State} (hs : OutputsSettled s) : OutputsSettled (cycleGap s) := by
  unfold cycleGap
  split
  · exact hs
  · split <;> exact hs

/-- A cycle of CLKIN counts timers, samples and bits, on which no output depends. -/
theorem clockCycle_settled {s : State} (hs : OutputsSettled s) : OutputsSettled (clockCycle s) := by
  unfold clockCycle
  split
  · exact hs
  · exact cycleGap_settled (cycleClaims_settled hs)

/-- The wires of the port are no part of the outputs, nor of their conditions. -/
theorem WiresOnly.settled {s t : State} (h : WiresOnly s t) (hs : OutputsSettled s) : OutputsSettled t := by
  rw [h]
  exact hs

/-- Settles O59: a command settles the outputs, and a cycle of the clock or an edge of the port changes none of their
conditions. -/
theorem stepKeepsTheOutputs : Obligations.StepKeepsTheOutputs := by
  intro s t hs h
  exact step_keeps OutputsSettled (fun _ _ hs => hs) (fun _ _ _ _ hx => exec_settled hx)
    (fun _ hs => clockCycle_settled hs) (fun _ _ hw => hw.settled) s t hs h

end Sys2Proof.Machine
end

section
/-! PROOFS. Auto-renew of line clients, and what they ask at the entry into MEMBER (R121, R138, R151, R158; log entry
28). -/

namespace Sys2Proof.Machine

/-! ### Placing a RENEW (R121) -/

section
variable {q : OutboundQueue} {l : Lease} {c : Client} {k : Fin 8}

/-- With no RENEW slot opened an entry opens one. -/
theorem placeRenew_placed (ho : NoneOpened q) (hk : LowestFree q k) :
    placeRenew l c q = (.queued k, placeSlot k (.renew [(l, c)]) q) := by
  rw [placeRenew, (openedRenew_none q).2 ho]
  dsimp only
  rw [placeGeneral, (freeGeneralSlot_some q k).2 hk]

theorem placeRenew_slotsFull (ho : NoneOpened q) (hf : NoneFree q) : placeRenew l c q = (.slotsFull, q) := by
  rw [placeRenew, (openedRenew_none q).2 ho]
  dsimp only
  rw [placeGeneral, (freeGeneralSlot_none q).2 hf]

variable {x : Slot} {entries : List (Lease × Client)}

/-- An entry that the opened RENEW slot does not hold is appended to it. -/
theorem placeRenew_appended (ho : openedRenew q = some (k, entries)) (hx : q.slots[k] = some x)
    (hnew : (l, c) ∉ entries) (hroom : entries.length < 8) :
    placeRenew l c q =
      (.queued k, { q with slots := q.slots.set k (some { x with content := .renew (entries ++ [(l, c)]) }) }) := by
  rw [placeRenew, ho]
  dsimp only
  rw [if_neg (by simpa using hnew), updateSlot, hx]
  exact if_pos hroom

theorem placeRenew_renewFull (ho : openedRenew q = some (k, entries)) (hnew : (l, c) ∉ entries)
    (hfull : 8 ≤ entries.length) : placeRenew l c q = (.renewFull, q) := by
  rw [placeRenew, ho]
  dsimp only
  rw [if_neg (by simpa using hnew)]
  exact if_neg (Nat.not_lt.2 hfull)

end

/-! ### Auto-renew of one client (R158) -/

/-- No RENEW slot that is opened or in attempt names the entry (log entry 28). -/
def RenewUnasked (q : OutboundQueue) (lc : Lease × Client) : Prop :=
  ∀ (k : Fin 8) (x : Slot) (entries : List (Lease × Client)), k.val < 6 → q.slots[k] = some x →
    x.content = .renew entries → x.opened = true ∨ x.inAttempt = true → lc ∉ entries

theorem renewAsked_iff (q : OutboundQueue) (lc : Lease × Client) : renewAsked q lc = true ↔ ¬ RenewUnasked q lc := by
  unfold RenewUnasked
  rw [renewAsked, List.any_eq_true]
  push Not
  refine exists_congr fun k => ⟨fun ⟨hk, h⟩ => ?_, fun ⟨x, entries, hk, hx, hc, hgoing, hmem⟩ => ?_⟩
  · rw [mem_generalSlots] at hk
    split at h
    · cases h
    · rename_i x hx
      split at h
      · rename_i entries hc
        simp only [Bool.and_eq_true, Bool.or_eq_true, List.contains_iff_mem] at h
        exact ⟨x, entries, hk, hx, hc, h.1, h.2⟩
      · cases h
  · refine ⟨(mem_generalSlots k).2 hk, ?_⟩
    rw [hx]
    dsimp only
    rw [hc]
    simpa using ⟨hgoing, hmem⟩

theorem renewDue_iff (h : Holder) : renewDue h = true ↔ h.remaining ≤ (h.term + 1) / 2 := by
  simp [renewDue]

theorem liveHolderOf_known {s : State} {l : Lease} {e : LeaseEntry} (he : s.leases[l] = some e) (t : Tag) :
    liveHolderOf s l t = e.liveHolder t := by
  rw [liveHolderOf, he]

/-- The replica has no LIVE holder of a tag that is FENCED wherever it stands. -/
theorem liveHolderOf_none {s : State} {l : Lease} {t : Tag}
    (h : ∀ e, s.leases[l] = some e → ∀ g ∈ e.holders, g.tag = t → g.status = .fenced) : liveHolderOf s l t = none := by
  cases he : s.leases[l] with
  | none => rw [liveHolderOf, he]
  | some e =>
    rw [liveHolderOf_known he]
    exact liveHolder_eq_none fun g hg => not_isLiveOf_of_fenced (h e he g hg)

/-- The LIVE hold of a tag: the holders before it are of other tags, or FENCED. -/
theorem liveHolder_of_first {e : LeaseEntry} {t : Tag} {front back : List Holder} {h : Holder}
    (he : e.holders = front ++ h :: back) (ht : h.tag = t) (hl : h.status = .live)
    (hfront : ∀ g ∈ front, g.tag = t → g.status = .fenced) : e.liveHolder t = some h := by
  have hnone : front.find? (Holder.isLiveOf t) = none :=
    List.find?_eq_none.2 fun g hg => not_isLiveOf_of_fenced (hfront g hg)
  rw [LeaseEntry.liveHolder, he, List.find?_append, hnone, List.find?_cons_of_pos ((isLiveOf_iff t h).2 ⟨ht, hl⟩)]
  rfl

theorem renewClient_port {s : State} {c : Client} (hb : s.config.bindings[c] = .port) : renewClient s c = s := by
  rw [renewClient, lineBinding_port s c hb]

section
variable {s : State} {c : Client} {l : Lease} {m : Mode} {t : Nat} {h : Holder}

theorem renewClient_without_hold (hb : s.config.bindings[c] = .line l m t)
    (hh : liveHolderOf s l (ownTag s c) = none) : renewClient s c = s := by
  rw [renewClient, lineBinding_line s c l m t hb]
  dsimp only
  rw [hh]

/-- A LIVE hold is renewed while its client is HOLDING, half its term or less is left, and no RENEW asks for it. -/
theorem renewClient_hold (hb : s.config.bindings[c] = .line l m t)
    (hh : liveHolderOf s l (ownTag s c) = some h) :
    (s.clients[c].state = .holding ∧ h.remaining ≤ (h.term + 1) / 2 ∧ RenewUnasked s.queue (l, c) →
      renewClient s c = { s with queue := (placeRenew l c s.queue).2 }) ∧
    (¬ (s.clients[c].state = .holding ∧ h.remaining ≤ (h.term + 1) / 2 ∧ RenewUnasked s.queue (l, c)) →
      renewClient s c = s) := by
  rw [renewClient, lineBinding_line s c l m t hb]
  dsimp only
  rw [hh]
  dsimp only
  have hiff : (s.clients[c].state = .holding ∧ renewDue h = true ∧ ¬ renewAsked s.queue (l, c) = true) ↔
      s.clients[c].state = .holding ∧ h.remaining ≤ (h.term + 1) / 2 ∧ RenewUnasked s.queue (l, c) := by
    rw [renewDue_iff, renewAsked_iff, not_not]
  exact ⟨fun hdue => if_pos (hiff.2 hdue), fun hdue => if_neg (mt hiff.1 hdue)⟩

end

/-! ### The entry into MEMBER (R138, R151) -/

theorem askAtEntry_port {s : State} {c : Client} (hb : s.config.bindings[c] = .port) : askAtEntry s c = s := by
  rw [askAtEntry, lineBinding_port s c hb]

theorem askAtEntry_unwilling {s : State} {c : Client}
    (h : s.clients[c].state ≠ .idle ∨ s.clients[c].recognised = false) : askAtEntry s c = s := by
  unfold askAtEntry
  split
  · rfl
  · refine if_neg fun ⟨hidle, hclaim⟩ => h.elim (fun hne => hne hidle) fun hreleased => ?_
    rw [hreleased] at hclaim
    cases hclaim

theorem askAtEntry_idle {s : State} {c : Client} {l : Lease} {m : Mode} {t : Nat}
    (hb : s.config.bindings[c] = .line l m t) (hidle : s.clients[c].state = .idle)
    (hclaim : s.clients[c].recognised = true) : askAtEntry s c = raiseAcquire c (setClientState c .asking s) := by
  rw [askAtEntry, lineBinding_line s c l m t hb]
  exact if_pos ⟨hidle, hclaim⟩

/-- The timers of the entry: by founding from SEEKING, by a transfer else (R73). -/
theorem memberTimers_eq (s : State) : memberTimers s =
    match s.localState with
    | .seeking =>
      { tick := ticking s 1, silence := ticking s 3, founding := .stopped, pacing := .stopped, holdOff := .stopped }
    | _ => { s.timers with tick := ticking s 1 } := by
  unfold memberTimers
  cases s.localState <;> rfl

/-- The commit stamp is that of the roster, which no request of a client changes. -/
theorem LocalStep.commitStamp {s t : State} (h : LocalStep s t) : commitStamp t = commitStamp s := by
  rw [Machine.commitStamp, Machine.commitStamp, commitCount, commitCount, h.roster]

theorem enterMember_eq (s : State) :
    enterMember s =
      { askAllAtEntry { s with timers := memberTimers s, localState := .member } with
        notices := arrive { stamp := commitStamp s, body := .state .member }
          (askAllAtEntry { s with timers := memberTimers s, localState := .member }).notices } := by
  have hstamp := (askAllAtEntry_local { s with timers := memberTimers s, localState := .member }).commitStamp
  rw [enterMember, notify, hstamp]
  rfl

/-- Settles O23, by the LIVE hold of the client and the opened RENEW slot, and by the claim of an IDLE client. -/
theorem clientsRenewAndAsk : Obligations.ClientsRenewAndAsk := by
  refine ⟨fun s => ⟨fun hm => if_pos hm, fun hm => if_neg hm, ?_⟩, fun s c => ⟨?_, askAtEntry_unwilling, ?_⟩⟩
  · intro entered asked
    rw [enterMember_eq, memberTimers_eq]
    rfl
  · exact fun hb => ⟨renewClient_port hb, askAtEntry_port hb⟩
  intro l m t hb
  refine ⟨fun hidle hclaim hp => ⟨fun k hk => ?_, fun hf => ?_⟩,
    fun hfenced => renewClient_without_hold hb (liveHolderOf_none hfenced), ?_⟩
  · rw [askAtEntry_idle hb hidle hclaim]
    exact raiseAcquire_placed (setClientState c .asking s) c l m t k hb hp hk
  · rw [askAtEntry_idle hb hidle hclaim]
    exact raiseAcquire_full (setClientState c .asking s) c l m t hb hp hf
  intro e front back h he hholders htag hlive hfront due renewing
  have hhold : liveHolderOf s l (ownTag s c) = some h :=
    (liveHolderOf_known he _).trans (liveHolder_of_first hholders htag hlive hfront)
  obtain ⟨hrenews, hstays⟩ := renewClient_hold hb hhold
  have hplaces : ∀ {a : QueueAnswer} {q : OutboundQueue}, due → placeRenew l c s.queue = (a, q) → renewing q := by
    intro a q hdue hplaced
    exact (hrenews hdue).trans (by rw [hplaced])
  refine ⟨fun hdue => hstays hdue, fun hdue hnone => ⟨fun k hk => ?_, fun hf => ?_⟩, ?_⟩
  · exact hplaces hdue (placeRenew_placed hnone hk)
  · exact hplaces hdue (placeRenew_slotsFull hnone hf)
  intro k x entries hdue hk hx hcontent hopened hfirst
  have hslot : openedRenew s.queue = some (k, entries) :=
    openedRenew_first s.queue k x entries hk hx hcontent hopened hfirst
  have hnew : (l, c) ∉ entries := hdue.2.2 k x entries hk hx hcontent (.inl hopened)
  exact ⟨fun hroom => hplaces hdue (placeRenew_appended hslot hx hnew hroom),
    fun hfull => hplaces hdue (placeRenew_renewFull hslot hnew hfull)⟩

end Sys2Proof.Machine
end

section
/-! PROOFS. Claim events at a line client (R149, R151, R153 to R156; log entry 35). -/

namespace Sys2Proof.Machine

/-! ### The recognised claim (R149) -/

theorem recogniseClaim_client (c : Client) (level : Bool) (s : State) :
    (recogniseClaim c level s).clients[c] = { s.clients[c] with recognised := level, deglitch := 0 } :=
  (clients_set_get _ c c _).trans (if_pos rfl)

theorem recogniseClaim_state (c d : Client) (level : Bool) (s : State) :
    (recogniseClaim c level s).clients[d].state = s.clients[d].state := by
  refine (congrArg LineClient.state (clients_set_get _ c d _)).trans ?_
  split
  · rename_i h
    rw [← h]
    rfl
  · rfl

/-- A claim event makes no client RELEASING by being recognised. -/
theorem recogniseClaim_quiet {s : State} (c : Client) (level : Bool)
    (h : ∀ d : Client, s.clients[d].state ≠ .releasing) (d : Client) :
    (recogniseClaim c level s).clients[d].state ≠ .releasing := by
  rw [recogniseClaim_state]
  exact h d

theorem setClientState_recogniseClaim (c : Client) (x : ClientState) (level : Bool) (s : State) :
    setClientState c x (recogniseClaim c level s) =
      { s with
        claimPins := s.claimPins.set c level
        clients := s.clients.set c { s.clients[c] with recognised := level, deglitch := 0, state := x } } := by
  rw [setClientState, recogniseClaim_client]
  exact congrArg (fun xs => { recogniseClaim c level s with clients := xs }) (clients_set_set _ c _ _)

theorem setReclaim_recogniseClaim (c : Client) (b level : Bool) (s : State) :
    setReclaim c b (recogniseClaim c level s) =
      { s with
        claimPins := s.claimPins.set c level
        clients := s.clients.set c { s.clients[c] with recognised := level, deglitch := 0, reclaim := b } } := by
  rw [setReclaim, recogniseClaim_client]
  exact congrArg (fun xs => { recogniseClaim c level s with clients := xs }) (clients_set_set _ c _ _)

theorem exec_claimAsserted_taken {s t : State} {c : Client} (hreset : s.resetLow = false)
    (hclaim : s.clients[c].recognised = false) (h : takeClaimAsserted c (recogniseClaim c true s) = t) :
    exec (.claimAsserted c) s = .next (driveOutputs t) := by
  rw [← h]
  exact (guarded_high (claimAsserted c) hreset).trans (by rw [claimAsserted, if_neg (Bool.eq_false_iff.1 hclaim)])

theorem exec_claimReleased_taken {s t : State} {c : Client} (hreset : s.resetLow = false)
    (hclaim : s.clients[c].recognised = true) (h : takeClaimReleased c (recogniseClaim c false s) = t) :
    exec (.claimReleased c) s = .next (driveOutputs t) := by
  rw [← h]
  exact (guarded_high (claimReleased c) hreset).trans (by rw [claimReleased, if_pos hclaim])

theorem setClientState_state (c d : Client) (x : ClientState) (s : State) :
    (setClientState c x s).clients[d].state = if c = d then x else s.clients[d].state :=
  (congrArg LineClient.state (clients_set_get _ c d _)).trans (apply_ite _ _ _ _)

theorem setNeed_get (c : Client) (n : Option NeedKind) (s : State) : (setNeed c n s).queue.needs[c] = n :=
  Vector.getElem_set_self _

/-! ### The events by the state of the client (R151, R153 to R156) -/

theorem takeClaimAsserted_port {s : State} {c : Client} (hb : s.config.bindings[c] = .port) :
    takeClaimAsserted c s = s := by
  rw [takeClaimAsserted, lineBinding_port s c hb]

theorem takeClaimReleased_port {s : State} {c : Client} (hb : s.config.bindings[c] = .port) :
    takeClaimReleased c s = s := by
  rw [takeClaimReleased, lineBinding_port s c hb]

section
variable {s : State} {c : Client} {l : Lease} {m : Mode} {t : Nat}

theorem takeClaimAsserted_ask (hb : s.config.bindings[c] = .line l m t) (hs : s.clients[c].state = .idle)
    (hm : s.localState = .member) : takeClaimAsserted c s = raiseAcquire c (setClientState c .asking s) := by
  rw [takeClaimAsserted, lineBinding_line s c l m t hb]
  dsimp only
  rw [hs]
  exact if_pos hm

theorem takeClaimAsserted_reclaim (hb : s.config.bindings[c] = .line l m t) (hs : s.clients[c].state = .releasing) :
    takeClaimAsserted c s = setReclaim c true s := by
  rw [takeClaimAsserted, lineBinding_line s c l m t hb]
  dsimp only
  rw [hs]

/-- A client that is neither to ask nor to reclaim stays as it is. -/
theorem takeClaimAsserted_still (hb : s.config.bindings[c] = .line l m t) (hs : s.clients[c].state ≠ .releasing)
    (hidle : s.clients[c].state = .idle → s.localState ≠ .member) : takeClaimAsserted c s = s := by
  rw [takeClaimAsserted, lineBinding_line s c l m t hb]
  dsimp only
  cases hstate : s.clients[c].state with
  | idle => exact if_neg (hidle hstate)
  | releasing => exact absurd hstate hs
  | _ => rfl

theorem takeClaimReleased_idle (hb : s.config.bindings[c] = .line l m t) (hs : s.clients[c].state = .idle) :
    takeClaimReleased c s = s := by
  rw [takeClaimReleased, lineBinding_line s c l m t hb]
  dsimp only
  rw [hs]

theorem takeClaimReleased_asking (hb : s.config.bindings[c] = .line l m t) (hs : s.clients[c].state = .asking) :
    takeClaimReleased c s = releaseAsking l c s := by
  rw [takeClaimReleased, lineBinding_line s c l m t hb]
  dsimp only
  rw [hs]

theorem takeClaimReleased_present (hb : s.config.bindings[c] = .line l m t)
    (hs : s.clients[c].state = .holding ∨ s.clients[c].state = .waiting) :
    takeClaimReleased c s = concludeClients (raiseRelease c (setClientState c .releasing s)) := by
  rw [takeClaimReleased, lineBinding_line s c l m t hb]
  dsimp only
  rcases hs with hs | hs <;> rw [hs]

theorem takeClaimReleased_releasing (hb : s.config.bindings[c] = .line l m t)
    (hs : s.clients[c].state = .releasing) : takeClaimReleased c s = setReclaim c false s := by
  rw [takeClaimReleased, lineBinding_line s c l m t hb]
  dsimp only
  rw [hs]

theorem takeClaimReleased_over (hb : s.config.bindings[c] = .line l m t)
    (hs : s.clients[c].state = .revoked ∨ s.clients[c].state = .refused) :
    takeClaimReleased c s = setClientState c .idle s := by
  rw [takeClaimReleased, lineBinding_line s c l m t hb]
  dsimp only
  rcases hs with hs | hs <;> rw [hs]

/-! ### A release in HOLDING or WAITING (R125, R154, R155) -/

/-- Where one client alone can be RELEASING, and the queue holds something for it, nobody concludes. -/
theorem concludeClients_held (hb : s.config.bindings[c] = .line l m t)
    (hothers : ∀ d : Client, d ≠ c → s.clients[d].state ≠ .releasing)
    (hheld : ¬ (PairAbsent s.queue l c ∧ s.queue.needs[c] = none)) : concludeClients s = s := by
  refine foldl_fixed _ _ (fun d => ?_) _
  by_cases h : d = c
  · rw [h]
    exact concludeClient_held hb hheld
  · exact concludeClient_not_releasing (hothers d h)

theorem setClientState_releasing_other {d : Client} (h : d ≠ c) (hd : s.clients[d].state ≠ .releasing) :
    (setClientState c .releasing s).clients[d].state ≠ .releasing := by
  rwa [setClientState_state, if_neg (Ne.symm h)]

variable (hb : s.config.bindings[c] = .line l m t) (hothers : ∀ d : Client, s.clients[d].state ≠ .releasing)
  (hp : PairAbsent s.queue l c) (ht : TagIn s l (ownTag s c))
include hb hothers hp ht

/-- A tag that is to be given back has a RELEASE placed, and its client waits for it. -/
theorem givesBack_placed {k : Fin 8} (hk : LowestFree s.queue k) :
    concludeClients (raiseRelease c (setClientState c .releasing s)) =
      { setClientState c .releasing s with queue := placeSlot k (.release l c) s.queue } := by
  have hraised := raiseRelease_of_placed (s := setClientState c .releasing s) hb
    (requestRelease_placed (setClientState c .releasing s) l c k hp ht hk)
  rw [hraised]
  exact concludeClients_held hb (fun d hd => setClientState_releasing_other hd (hothers d)) fun ⟨habsent, _⟩ =>
    releaseSlot_placed s.queue k l c hk.1 ((pairAbsent_iff _ l c).1 habsent).2

/-- Where no slot is free its RELEASE need waits. -/
theorem givesBack_full (hf : NoneFree s.queue) :
    concludeClients (raiseRelease c (setClientState c .releasing s)) =
      setNeed c (some .release) (setClientState c .releasing s) := by
  have hraised := raiseRelease_full (s := setClientState c .releasing s) hb hp ht hf
  rw [hraised]
  refine concludeClients_held hb (fun d hd => setClientState_releasing_other hd (hothers d)) fun ⟨_, hneed⟩ => ?_
  rw [setNeed_get] at hneed
  cases hneed

end

/-! ### A release in ASKING (R122, R123, R153) -/

section
variable {s : State} {c : Client} {l : Lease} {k : Fin 8}

/-- An ACQUIRE that is only wanted is wanted no more. -/
theorem releaseAsking_wanted (h : acquireSlot l c s.queue = none) :
    releaseAsking l c s = setClientState c .idle (setNeed c none s) := by
  rw [releaseAsking, h]

theorem releaseAsking_inAttempt (h : acquireSlot l c s.queue = some k) (hi : slotInAttempt s.queue k = true) :
    releaseAsking l c s = raiseRelease c (setClientState c .releasing s) := by
  rw [releaseAsking, h]
  exact if_pos hi

theorem releaseAsking_queued (h : acquireSlot l c s.queue = some k) (hi : slotInAttempt s.queue k = false) :
    releaseAsking l c s = settleQueue (raiseRelease c (setClientState c .idle s)) := by
  rw [releaseAsking, h]
  exact if_neg (Bool.eq_false_iff.1 hi)

theorem slotInAttempt_some {q : OutboundQueue} {x : Slot} (hx : q.slots[k] = some x) :
    slotInAttempt q k = x.inAttempt := by
  rw [slotInAttempt, hx]

/-- Beside an ACQUIRE in attempt a RELEASE finds no slot free (R122, R125). -/
theorem requestRelease_beside_full (h : acquireSlot l c s.queue = some k) (hr : releaseSlot l c s.queue = none)
    (hi : slotInAttempt s.queue k = true) (hf : NoneFree s.queue) : requestRelease l c s = (.slotsFull, s) := by
  have hplace : ∀ p, placeRelease l c p s.queue = (.slotsFull, s.queue) := by
    intro p
    rw [placeRelease, hr, h]
    refine (if_pos hi).trans ?_
    rw [placeGeneral, (freeGeneralSlot_none _).2 hf]
  simp only [requestRelease, hplace]
  rfl

/-- A RELEASE cancels an ACQUIRE that is not in attempt (R122). -/
theorem requestRelease_cancelled (h : acquireSlot l c s.queue = some k) (hr : releaseSlot l c s.queue = none)
    (hi : slotInAttempt s.queue k = false) :
    requestRelease l c s =
      (.cancelled, notify (.withdrawn l c .localRequest) { s with queue := removeSlot k s.queue }) := by
  have hplace : ∀ p, placeRelease l c p s.queue = (.cancelled, removeSlot k s.queue) := by
    intro p
    rw [placeRelease, hr, h]
    exact if_neg (Bool.eq_false_iff.1 hi)
  simp only [requestRelease, hplace]
  rfl

theorem settleQueue_nothingWaits (h : NothingWaits s) : settleQueue s = s := by
  obtain ⟨hneeds, hreleasing⟩ := h
  rw [settleQueue, serveNeeds_none s hneeds, concludeClients_none s hreleasing]

variable {m : Mode} {t : Nat}

theorem raiseRelease_beside_full (hb : s.config.bindings[c] = .line l m t) (h : acquireSlot l c s.queue = some k)
    (hr : releaseSlot l c s.queue = none) (hi : slotInAttempt s.queue k = true) (hf : NoneFree s.queue) :
    raiseRelease c s = setNeed c (some .release) s := by
  rw [raiseRelease_line s c l m t hb, requestRelease_beside_full h hr hi hf]
  exact if_pos rfl

theorem raiseRelease_cancelled (hb : s.config.bindings[c] = .line l m t) (h : acquireSlot l c s.queue = some k)
    (hr : releaseSlot l c s.queue = none) (hi : slotInAttempt s.queue k = false) :
    raiseRelease c s = notify (.withdrawn l c .localRequest) { s with queue := removeSlot k s.queue } := by
  rw [raiseRelease_line s c l m t hb, requestRelease_cancelled h hr hi]
  exact if_neg QueueAnswer.noConfusion

/-- Where nothing waits the slot that a cancelled ACQUIRE frees serves nobody. -/
theorem releaseAsking_cancels (hb : s.config.bindings[c] = .line l m t) (h : acquireSlot l c s.queue = some k)
    (hr : releaseSlot l c s.queue = none) (hi : slotInAttempt s.queue k = false) (hwaits : NothingWaits s) :
    releaseAsking l c s =
      notify (.withdrawn l c .localRequest) { setClientState c .idle s with queue := removeSlot k s.queue } := by
  have hcancelled := raiseRelease_cancelled (s := setClientState c .idle s) hb h hr hi
  rw [releaseAsking_queued h hi, hcancelled]
  obtain ⟨hneeds, hreleasing⟩ := hwaits
  have hquiet : ∀ d : Client, (setClientState c .idle s).clients[d].state ≠ .releasing := fun d => by
    rw [setClientState_state]
    split
    · exact ClientState.noConfusion
    · exact hreleasing d
  exact settleQueue_nothingWaits ⟨hneeds, hquiet⟩

end

/-- Settles O21, by the binding and the state of the client, and in ASKING by what the queue holds of its ACQUIRE. -/
theorem claimEvents : Obligations.ClaimEvents := by
  refine ⟨fun s c hreset hclaim => ?_, fun s c hreset hclaim => ?_⟩
  · intro after seen
    have htaken := fun u => exec_claimAsserted_taken (t := u) hreset hclaim
    refine ⟨fun hb => htaken _ (takeClaimAsserted_port hb), fun l m t hb => ?_⟩
    have hstate := recogniseClaim_state c c true s
    have hbound : (recogniseClaim c true s).config.bindings[c] = .line l m t := hb
    have hask := fun hs hm => takeClaimAsserted_ask hbound (hstate.trans hs) hm
    refine ⟨fun hs hm => htaken _ (takeClaimAsserted_still hbound ?_ fun _ => hm),
      fun hidle hreleasing => htaken _ (takeClaimAsserted_still hbound ?_ ?_), fun hs => htaken _ ?_,
      fun hs hm hp => ⟨fun k hk => htaken _ ?_, fun hf => htaken _ ?_⟩⟩
    · rw [hstate, hs]
      exact ClientState.noConfusion
    · rwa [hstate]
    · rw [hstate]
      exact fun h => absurd h hidle
    · rw [takeClaimAsserted_reclaim hbound (hstate.trans hs), setReclaim_recogniseClaim]
    · rw [hask hs hm, setClientState_recogniseClaim]
      exact raiseAcquire_placed _ c l m t k hb hp hk
    · rw [hask hs hm, setClientState_recogniseClaim]
      exact raiseAcquire_full _ c l m t hb hp hf
  · intro after seen
    have htaken := fun u => exec_claimReleased_taken (t := u) hreset hclaim
    refine ⟨fun hb => htaken _ (takeClaimReleased_port hb), fun l m t hb => ?_⟩
    intro placed
    have hstate := recogniseClaim_state c c false s
    have hbound : (recogniseClaim c false s).config.bindings[c] = .line l m t := hb
    refine ⟨fun hs => htaken _ (takeClaimReleased_idle hbound (hstate.trans hs)), fun hs => htaken _ ?_,
      fun hs => htaken _ ?_, fun hs hothers hp ht => ?_, fun hs hp => htaken _ ?_, ?_⟩
    · rw [takeClaimReleased_over hbound (by rwa [hstate]), setClientState_recogniseClaim]
    · rw [takeClaimReleased_releasing hbound (hstate.trans hs), setReclaim_recogniseClaim]
    · have hpresent := takeClaimReleased_present hbound (by rwa [hstate])
      have hquiet := recogniseClaim_quiet c false hothers
      refine ⟨fun k hk => htaken _ ?_, fun hf => htaken _ ?_⟩
      · rw [hpresent, givesBack_placed hbound hquiet hp ht hk, setClientState_recogniseClaim]
        rfl
      · rw [hpresent, givesBack_full hbound hquiet hp ht hf, setClientState_recogniseClaim]
        rfl
    · have hwanted := releaseAsking_wanted (s := recogniseClaim c false s) ((pairAbsent_iff s.queue l c).1 hp).1
      rw [takeClaimReleased_asking hbound (hstate.trans hs), hwanted]
      exact congrArg (setNeed c none) (setClientState_recogniseClaim c .idle false s)
    · intro k x hs hk hx hacquire honly
      obtain ⟨hfound, hnone⟩ := acquireSlot_only s.queue l c k x hk hx hacquire honly
      have hasking := takeClaimReleased_asking hbound (hstate.trans hs)
      have hattempt : slotInAttempt s.queue k = x.inAttempt := slotInAttempt_some hx
      refine ⟨fun hi => ?_, fun hi hwaits => htaken _ ?_⟩
      · have hgoing := releaseAsking_inAttempt (s := recogniseClaim c false s) hfound (hattempt.trans hi)
        refine ⟨fun j hj => htaken _ ?_, fun hf => htaken _ ?_⟩
        · rw [hasking, hgoing, setClientState_recogniseClaim]
          refine raiseRelease_of_placed hb (requestRelease_beside _ l c j k x hj hk hx hacquire hi fun i y hi6 hy => ?_)
          obtain ⟨hrelease, hsame⟩ := honly i y hi6 hy
          exact ⟨hrelease, fun hlt => Bool.eq_false_iff.2 fun h => hlt.ne (congrArg Fin.val (hsame h))⟩
        · rw [hasking, hgoing, setClientState_recogniseClaim]
          exact raiseRelease_beside_full hb hfound hnone (hattempt.trans hi) hf
      · obtain ⟨hneeds, hreleasing⟩ := hwaits
        have hquiet : NothingWaits (recogniseClaim c false s) := ⟨hneeds, recogniseClaim_quiet c false hreleasing⟩
        rw [hasking, releaseAsking_cancels hbound hfound hnone (hattempt.trans hi) hquiet,
          setClientState_recogniseClaim]
        rfl

end Sys2Proof.Machine
end

section
/-! PROOFS. Port requests that only read, and the take of a notice (R164, R168, R176 to R178, R190, R192). -/

namespace Sys2Proof.Machine

/-! ### What a request answers (R164) -/

section
variable {code : Byte} {act : State → List Byte × State} {s t : State} {response : List Byte}

/-- In a ready state a request is answered as its act answers with no exchange open. -/
theorem portRequest_answers (h : PortReady s)
    (ha : act { s with exchange := none } = (response, { t with exchange := none })) :
    (Host.Outcome.next (portRequest code act s) : Host.Outcome State Fault Refusal) =
      .next (answered code response t) := by
  rw [portRequest_ready code act s h, ha, answered_forgets_exchange]

end

/-! ### STATUS (R168) -/

/-- The low half of a count is sent high byte first (R189). -/
theorem bytesOf16_lowHalf (x : BitVec 32) :
    bytesOf16 (x.setWidth 16) = [x.extractLsb' 8 8, x.extractLsb' 0 8] := by
  have hbyte : ∀ n, n + 8 ≤ 16 → (x.setWidth 16).extractLsb' n 8 = x.extractLsb' n 8 := fun n hn => by
    refine BitVec.eq_of_getLsbD_eq fun i hi => ?_
    simp only [BitVec.getLsbD_extractLsb', BitVec.getLsbD_setWidth, show n + i < 16 by omega, decide_true,
      Bool.true_and]
  rw [bytesOf16, hbyte 8 (by decide), hbyte 0 (by decide)]

theorem takeStatus_unknown {s : State} (h : s.roster = none) :
    takeStatus s =
      ([0x00, localStateCode s.localState, 0x00, byteOf (freeGeneralCount s.queue), byteOf s.notices.length, 0x00,
          0x00],
        s) := by
  rw [takeStatus, memberCountNow, h, commitStamp_unknown h]
  rfl

theorem takeStatus_known {s : State} {r : Roster} (h : s.roster = some r) :
    takeStatus s =
      ([0x00, localStateCode s.localState, byteOf (memberCount r), byteOf (freeGeneralCount s.queue),
          byteOf s.notices.length, r.commits.extractLsb' 8 8, r.commits.extractLsb' 0 8],
        s) := by
  rw [takeStatus, memberCountNow, h, commitStamp, commitCount, h, bytesOf16_lowHalf]
  rfl

/-! ### READ_LEASE and READ_ROSTER (R177, R178, R190) -/

theorem takeReadLease_none {s : State} {index : Byte} (h : leaseOfByte index = none) :
    takeReadLease index s = ([0x81], s) := by
  rw [takeReadLease, h]
  rfl

theorem takeReadLease_unknown {s : State} {index : Byte} {l : Lease} (h : leaseOfByte index = some l)
    (hl : s.leases[l] = none) : takeReadLease index s = ([0x00, 0x00], s) := by
  rw [takeReadLease, h]
  dsimp only
  rw [hl]
  rfl

theorem takeReadLease_known {s : State} {index : Byte} {l : Lease} {e : LeaseEntry}
    (h : leaseOfByte index = some l) (hl : s.leases[l] = some e) :
    takeReadLease index s = (0x00 :: 0x01 :: entryBytes e, s) := by
  rw [takeReadLease, h]
  dsimp only
  rw [hl]
  rfl

theorem takeReadRoster_unknown {s : State} (h : s.roster = none) : takeReadRoster s = ([0x00, 0x00], s) := by
  rw [takeReadRoster, h]
  rfl

theorem takeReadRoster_known {s : State} {r : Roster} (h : s.roster = some r) :
    takeReadRoster s = (0x00 :: 0x01 :: rosterBytes r, s) := by
  rw [takeReadRoster, h]
  rfl

/-- A lease entry byte by byte (R190). -/
theorem entryBytes_eq (e : LeaseEntry) :
    entryBytes e =
      [e.counter.extractLsb' 8 8, e.counter.extractLsb' 0 8,
          BitVec.ofNat 4 e.holders.length ++ BitVec.ofNat 4 e.waiters.length] ++
        (e.holders.flatMap fun h =>
          [BitVec.ofNat 4 h.tag.station.val ++ modeBit h.mode ++ BitVec.ofNat 3 h.tag.client.val, statusByte h.status,
            byteOf h.term, byteOf h.remaining, h.grant.extractLsb' 8 8, h.grant.extractLsb' 0 8]) ++
        (e.waiters.flatMap fun w =>
          [BitVec.ofNat 4 w.tag.station.val ++ modeBit w.mode ++ BitVec.ofNat 3 w.tag.client.val, byteOf w.term,
            patienceByte w.patience]) := rfl

/-- A station record in its two bytes (R190). -/
theorem recordBytes_eq (x : StationRecord) :
    recordBytes x =
      [(match x.state with
        | .absent => 0b00#2
        | .joining => 0b01#2
        | .member => 0b10#2) ++ 0#4 ++ BitVec.ofNat 2 x.miss.val,
        (match x.progress with
         | none => 0x00
         | some .awaitingRoster => 0x80
         | some (.remaining n) => BitVec.ofNat 8 n)] := by
  obtain ⟨state, miss, progress⟩ := x
  rcases progress with _ | _ | _ <;> cases state <;> rfl

/-- Settles O7, by whether the roster and the lease entry are known. -/
theorem readsAnswer : Obligations.ReadsAnswer := by
  refine ⟨fun s h => ?_, fun s h => ⟨fun index hi => ?_, fun l => ⟨fun hl => ?_, fun e hl => ?_⟩⟩, fun s h => ⟨?_, ?_⟩⟩
  · cases hr : s.roster with
    | none => exact portRequest_answers h (takeStatus_unknown hr)
    | some r => exact portRequest_answers h (takeStatus_known hr)
  · exact portRequest_answers h (takeReadLease_none (leaseOfByte_none index hi))
  · exact portRequest_answers h (takeReadLease_unknown (leaseOfByte_ofNat l) hl)
  · have hread := portRequest_answers (code := 0x30) (t := s) h (takeReadLease_known (leaseOfByte_ofNat l) hl)
    rw [entryBytes_eq] at hread
    simp only [modeBit_eq, statusByte_eq] at hread
    exact hread
  · exact fun hr => portRequest_answers h (takeReadRoster_unknown hr)
  · intro r hr
    have hread := portRequest_answers (code := 0x31) (t := s) h (takeReadRoster_known hr)
    simp only [rosterBytes, allRecordBytes, recordBytes_eq] at hread
    exact hread

/-! ### TAKE_NOTICE (R176) -/

theorem takeTakeNotice_nil {s : State} (h : s.notices = []) : takeTakeNotice s = ([0x00, 0x00], s) := by
  rw [takeTakeNotice, h]
  rfl

theorem takeTakeNotice_cons {s : State} {n : Notice} {rest : List Notice} (h : s.notices = n :: rest) :
    takeTakeNotice s = (0x00 :: noticeBytes n, { s with notices := rest }) := by
  rw [takeTakeNotice, h]
  rfl

/-- Settles O8, by whether the queue holds a record. -/
theorem takeNoticeTakesTheHead : Obligations.TakeNoticeTakesTheHead := by
  refine fun s h => ⟨fun hn => ?_, fun n rest hn => ?_⟩
  · exact portRequest_answers h (takeTakeNotice_nil hn)
  · exact portRequest_answers h (takeTakeNotice_cons hn)

end Sys2Proof.Machine
end

section
/-! PROOFS. The bytes of the port requests (R163, R166, R191). -/

namespace Sys2Proof

/-! ### The watch mask (R191) -/

/-- A byte added at the low end of a word that is laid out in bytes, the lowest first. -/
theorem append_byte_getLsbD {n : Nat} {x : BitVec n} {bytes : List Byte} (b : Byte)
    (h : ∀ j, x.getLsbD j = (bytes.getD (j / 8) 0).getLsbD (j % 8)) (j : Nat) :
    (x ++ b).getLsbD j = ((b :: bytes).getD (j / 8) 0).getLsbD (j % 8) := by
  rw [BitVec.getLsbD_append]
  by_cases hj : j < 8
  · rw [if_pos hj, Nat.div_eq_of_lt hj, Nat.mod_eq_of_lt hj]
    rfl
  · obtain ⟨k, rfl⟩ := Nat.exists_eq_add_of_le' (Nat.not_lt.1 hj)
    rw [if_neg hj, Nat.add_sub_cancel, h, Nat.add_div_right k (by decide), Nat.add_mod_right]
    rfl

/-- Bit j of the watch mask is bit j mod 8 of its byte j div 8, counted from the last. -/
theorem maskOfBytes_getLsbD (b7 b6 b5 b4 b3 b2 b1 b0 : Byte) (j : Nat) :
    (maskOfBytes b7 b6 b5 b4 b3 b2 b1 b0).getLsbD j =
      ([b0, b1, b2, b3, b4, b5, b6, b7].getD (j / 8) 0).getLsbD (j % 8) := by
  have hempty : ∀ j, (0#0).getLsbD j = (([] : List Byte).getD (j / 8) 0).getLsbD (j % 8) := fun j => by simp
  have hfirst : ∀ j, b7.getLsbD j = ([b7].getD (j / 8) 0).getLsbD (j % 8) := fun j => by
    rw [← append_byte_getLsbD b7 hempty, BitVec.zero_width_append]
    rfl
  exact append_byte_getLsbD b0 (append_byte_getLsbD b1 (append_byte_getLsbD b2 (append_byte_getLsbD b3
    (append_byte_getLsbD b4 (append_byte_getLsbD b5 (append_byte_getLsbD b6 hfirst)))))) j

section
variable (b7 b6 b5 b4 b3 b2 b1 b0 : Byte)

/-- Bit 8 k + i of the mask is bit i of its byte k, counted from the last. -/
theorem maskOfBytes_bit (k : Nat) {i : Nat} (hi : i < 8) :
    (maskOfBytes b7 b6 b5 b4 b3 b2 b1 b0).getLsbD (8 * k + i) =
      ([b0, b1, b2, b3, b4, b5, b6, b7].getD k 0).getLsbD i := by
  rw [maskOfBytes_getLsbD, Nat.mul_add_div (by decide), Nat.div_eq_of_lt hi, Nat.mul_add_mod, Nat.mod_eq_of_lt hi]
  rfl

theorem maskOfBytes_extract (k : Nat) :
    (maskOfBytes b7 b6 b5 b4 b3 b2 b1 b0).extractLsb' (8 * k) 8 = [b0, b1, b2, b3, b4, b5, b6, b7].getD k 0 := by
  refine BitVec.eq_of_getLsbD_eq fun i hi => ?_
  rw [BitVec.getLsbD_extractLsb', maskOfBytes_bit _ _ _ _ _ _ _ _ k hi, decide_eq_true hi, Bool.true_and]

end

/-- A mask is read back from its eight bytes. -/
theorem maskOfBytes_back (m : BitVec 64) :
    maskOfBytes (m.extractLsb' 56 8) (m.extractLsb' 48 8) (m.extractLsb' 40 8) (m.extractLsb' 32 8)
      (m.extractLsb' 24 8) (m.extractLsb' 16 8) (m.extractLsb' 8 8) (m.extractLsb' 0 8) = m := by
  have hbytes : ∀ k < 8, [m.extractLsb' 0 8, m.extractLsb' 8 8, m.extractLsb' 16 8, m.extractLsb' 24 8,
      m.extractLsb' 32 8, m.extractLsb' 40 8, m.extractLsb' 48 8, m.extractLsb' 56 8].getD k 0 =
        m.extractLsb' (8 * k) 8 := by
    intro k hk
    interval_cases k <;> rfl
  refine BitVec.eq_of_getLsbD_eq fun j hj => ?_
  rw [maskOfBytes_getLsbD, hbytes (j / 8) (by omega), BitVec.getLsbD_extractLsb', Nat.div_add_mod]
  simp [Nat.mod_lt]

/-! ### Codes (R163, R166) -/

/-- The fourteen assigned request codes (R163). -/
def assignedCodes : List Byte :=
  [0x01, 0x10, 0x11, 0x12, 0x13, 0x20, 0x21, 0x22, 0x30, 0x31, 0x32, 0x40, 0x41, 0x4F]

theorem toNat_unassigned {code : Byte} (h : code ∉ assignedCodes) :
    code.toNat ∉ assignedCodes.map BitVec.toNat := by
  intro hmem
  obtain ⟨c, hc, heq⟩ := List.mem_map.1 hmem
  exact h (BitVec.eq_of_toNat_eq heq ▸ hc)

/-- Only the assigned codes have a count of argument bytes (R163, R166). -/
theorem requestArgumentCount_unassigned {code : Byte} (h : code ∉ assignedCodes) :
    requestArgumentCount code = none := by
  have hne := toNat_unassigned h
  simp only [assignedCodes, List.map_cons, List.map_nil, BitVec.reduceToNat, List.mem_cons, List.not_mem_nil, or_false,
    not_or] at hne
  simp [requestArgumentCount, hne]

theorem requestArgumentCount_none_iff (code : Byte) : requestArgumentCount code = none ↔ code ∉ assignedCodes := by
  refine ⟨fun h hc => ?_, requestArgumentCount_unassigned⟩
  have hcounts : ∀ c ∈ assignedCodes, requestArgumentCount c ≠ none := by decide
  exact hcounts code hc h

/-! ### Reading and writing (R191) -/

/-- A code that is not assigned is a whole request (R166). -/
theorem requestOfBytes_unassigned {code : Byte} (h : requestArgumentCount code = none) :
    requestOfBytes [code] = some (.unknownRequest code) := by
  have hne := toNat_unassigned ((requestArgumentCount_none_iff code).1 h)
  simp only [assignedCodes, List.map_cons, List.map_nil, BitVec.reduceToNat, List.mem_cons, List.not_mem_nil, or_false,
    not_or] at hne
  simp [requestOfBytes, h, hne]

/-- What a well-formed request is written as is read as that request. -/
theorem requestOfBytes_bytesOfRequest {i : Instr} {bytes : List Byte} (hi : i.wellFormed = true)
    (h : bytesOfRequest i = some bytes) : requestOfBytes bytes = some i := by
  cases i with
  | configureWatch m =>
    cases h
    exact congrArg (fun m => some (Instr.configureWatch m)) (maskOfBytes_back m)
  | unknownRequest code =>
    cases h
    exact requestOfBytes_unassigned (of_decide_eq_true hi)
  | _ => cases h <;> rfl

/-- The bytes of a watch mask are those it was read from. -/
theorem bytesOfRequest_configureWatch (b7 b6 b5 b4 b3 b2 b1 b0 : Byte) :
    bytesOfRequest (.configureWatch (maskOfBytes b7 b6 b5 b4 b3 b2 b1 b0)) =
      some [0x11, b7, b6, b5, b4, b3, b2, b1, b0] := by
  have hbyte := maskOfBytes_extract b7 b6 b5 b4 b3 b2 b1 b0
  simp only [bytesOfRequest, Option.some.injEq, List.cons.injEq, and_true, true_and]
  exact ⟨hbyte 7, hbyte 6, hbyte 5, hbyte 4, hbyte 3, hbyte 2, hbyte 1, hbyte 0⟩

theorem code_of_toNat {code : Byte} {n : Nat} (h : code.toNat = n) : code = BitVec.ofNat 8 n := by
  rw [← h, BitVec.ofNat_toNat, BitVec.setWidth_eq]

/-- What bytes are read as is well-formed, and is written as those bytes. -/
theorem bytesOfRequest_requestOfBytes {i : Instr} {bytes : List Byte} (h : requestOfBytes bytes = some i) :
    i.wellFormed = true ∧ bytesOfRequest i = some bytes := by
  unfold requestOfBytes at h
  split at h
  · cases h
  · rename_i code args
    split at h
    case h_3 b7 b6 b5 b4 b3 b2 b1 b0 hcode =>
      cases h
      rw [code_of_toNat hcode]
      exact ⟨rfl, bytesOfRequest_configureWatch b7 b6 b5 b4 b3 b2 b1 b0⟩
    case h_15 =>
      split at h
      · rename_i hcode
        cases h
        exact ⟨decide_eq_true hcode, rfl⟩
      · cases h
    case h_16 => cases h
    all_goals
      rename_i hcode
      cases h
      rw [code_of_toNat hcode]
      exact ⟨rfl, rfl⟩

/-- Bytes are read as a request exactly where it is well-formed and written as they are (R191). -/
theorem requestOfBytes_eq_some (i : Instr) (bytes : List Byte) :
    requestOfBytes bytes = some i ↔ i.wellFormed = true ∧ bytesOfRequest i = some bytes :=
  ⟨bytesOfRequest_requestOfBytes, fun ⟨hi, h⟩ => requestOfBytes_bytesOfRequest hi h⟩

end Sys2Proof

namespace Sys2Proof.Machine

/-- Settles O53, by the table of the codes, the bytes of a watch mask, and reading against writing. -/
theorem requestBytesSpellTheRequest : Obligations.RequestBytesSpellTheRequest := by
  refine ⟨rfl, fun _ _ _ _ => rfl, fun b7 b6 b5 b4 b3 b2 b1 b0 => ⟨_, rfl, fun i hi => ?_⟩, fun _ => rfl, rfl,
    fun _ _ _ _ => rfl, fun _ _ => rfl, fun _ _ => rfl, fun _ => rfl, rfl, rfl, rfl, rfl, rfl,
    fun code hc => requestOfBytes_unassigned (requestArgumentCount_unassigned hc), requestOfBytes_eq_some⟩
  have hbit := fun k => maskOfBytes_bit b7 b6 b5 b4 b3 b2 b1 b0 k hi
  have hlast := hbit 0
  rw [Nat.mul_zero, Nat.zero_add] at hlast
  exact ⟨hbit 7, hbit 6, hbit 5, hbit 4, hbit 3, hbit 2, hbit 1, hlast⟩

/-- Settles O15: a code without argument bytes is read as it stands, and its act refuses. -/
theorem unknownRequestHasNoEffect : Obligations.UnknownRequestHasNoEffect := fun _ _ hcode h =>
  ⟨requestOfBytes_unassigned hcode, portRequest_answers h rfl⟩

end Sys2Proof.Machine
end

section
/-! PROOFS. The configuration requests, START and REJOIN at the local port (R131, R133, R169 to R172, R180). -/

namespace Sys2Proof.Machine

/-! ### The configuration (R131, R169 to R171) -/

theorem configurationOpen_iff (s : State) :
    configurationOpen s = true ↔ s.localState = .standby ∧ s.config.locked = false := by
  simp [configurationOpen]

/-- Outside STANDBY, or with the lock set, the configuration is not written. -/
theorem configurationOpen_false {s : State} (h : s.localState ≠ .standby ∨ s.config.locked = true) :
    configurationOpen s = false := by
  rw [Bool.eq_false_iff, Ne, configurationOpen_iff]
  rintro ⟨hstandby, hclear⟩
  rcases h with h | h
  · exact h hstandby
  · rw [hclear] at h
    cases h

theorem bindingOfBytes_line {lease term : Byte} {l : Lease} (hl : leaseOfByte lease = some l) (ht : term ≠ 0) :
    bindingOfBytes 0x01 lease term = some (.line l .exclusive term.toNat) ∧
      bindingOfBytes 0x02 lease term = some (.line l .shared term.toNat) := by
  have hline : ∀ m : Mode, (if term = 0 then none else some (Binding.line l m term.toNat)) =
      some (.line l m term.toNat) := fun m => if_neg ht
  refine ⟨?_, ?_⟩
  all_goals
    rw [bindingOfBytes, hl]
    exact hline _

/-- A binding code of 3 or more names no binding, nor does a LINE code with a lease or a term out of range (R192). -/
theorem bindingOfBytes_none {binding lease term : Byte}
    (h : 3 ≤ binding.toNat ∨ (binding = 1 ∨ binding = 2) ∧ (64 ≤ lease.toNat ∨ term = 0)) :
    bindingOfBytes binding lease term = none := by
  rcases h with h | ⟨hline, hout⟩
  · have hne : ∀ b : Byte, b.toNat < 3 → binding ≠ b := fun b hb heq => by
      rw [heq] at h
      omega
    rw [bindingOfBytes, if_neg (hne 0x00 (by decide)), if_neg (not_or.2 ⟨hne 0x01 (by decide), hne 0x02 (by decide)⟩)]
  · have hport : binding ≠ 0x00 := by
      rcases hline with rfl | rfl <;> decide
    rw [bindingOfBytes, if_neg hport, if_pos hline]
    rcases hout with hlease | hterm
    · rw [leaseOfByte_none lease hlease]
    · cases leaseOfByte lease with
      | none => rfl
      | some l => exact if_pos hterm

section
variable {s : State} {client binding lease term : Byte}

theorem takeConfigureClient_closed (h : configurationOpen s = false) :
    takeConfigureClient client binding lease term s = ([0x80], s) := by
  rw [takeConfigureClient, h]
  rfl

theorem takeConfigureClient_binds {c : Client} {b : Binding} (h : configurationOpen s = true)
    (hc : clientOfByte client = some c) (hb : bindingOfBytes binding lease term = some b) :
    takeConfigureClient client binding lease term s =
      ([0x00], { s with config := { s.config with bindings := s.config.bindings.set c b } }) := by
  rw [takeConfigureClient, h, hc, hb]
  rfl

theorem takeConfigureClient_outOfRange (h : configurationOpen s = true)
    (hout : clientOfByte client = none ∨ bindingOfBytes binding lease term = none) :
    takeConfigureClient client binding lease term s = ([0x81], s) := by
  rw [takeConfigureClient, h]
  rcases hout with hc | hb
  · rw [hc]
    rfl
  · rw [hb]
    cases clientOfByte client <;> rfl

theorem takeConfigureWatch_closed {mask : BitVec 64} (h : configurationOpen s = false) :
    takeConfigureWatch mask s = ([0x80], s) := by
  rw [takeConfigureWatch, h]
  rfl

theorem takeConfigureWatch_open {mask : BitVec 64} (h : configurationOpen s = true) :
    takeConfigureWatch mask s = ([0x00], { s with config := { s.config with watch := mask } }) := by
  rw [takeConfigureWatch, h]
  rfl

theorem takeConfigureOptions_closed {a : Byte} (h : configurationOpen s = false) :
    takeConfigureOptions a s = ([0x80], s) := by
  rw [takeConfigureOptions, h]
  rfl

theorem takeConfigureOptions_open (h : configurationOpen s = true) :
    takeConfigureOptions 0x00 s = ([0x00], { s with config := { s.config with autoRejoin := false } }) ∧
      takeConfigureOptions 0x01 s = ([0x00], { s with config := { s.config with autoRejoin := true } }) := by
  simp only [takeConfigureOptions, h]
  exact ⟨rfl, rfl⟩

theorem takeConfigureOptions_outOfRange {a : Byte} (h : configurationOpen s = true) (ha : 2 ≤ a.toNat) :
    takeConfigureOptions a s = ([0x81], s) := by
  have hne : ∀ b : Byte, b.toNat < 2 → a ≠ b := fun b hb heq => by
    rw [heq] at ha
    omega
  rw [takeConfigureOptions, h, if_neg (hne 0x00 (by decide)), if_neg (hne 0x01 (by decide))]
  rfl

end

/-- Settles O10, by whether the configuration may be written and the arguments are in range. -/
theorem configurationRequests : Obligations.ConfigurationRequests := by
  have hopen : ∀ {s : State}, s.localState = .standby → s.config.locked = false →
      configurationOpen { s with exchange := none } = true := fun hs hl => (configurationOpen_iff _).2 ⟨hs, hl⟩
  have hclosed : ∀ {s : State}, s.localState ≠ .standby ∨ s.config.locked = true →
      configurationOpen { s with exchange := none } = false := fun h => configurationOpen_false h
  refine ⟨fun s h => ⟨fun hs hl => ⟨fun c l t => ?_, fun c l t ht => ?_, fun c b l t hout => ?_⟩, fun hc c b l t => ?_⟩,
    fun s mask h => ⟨fun hs hl => ?_, fun hc => ?_⟩,
    fun s h => ⟨fun hs hl => ⟨?_, ?_, fun a ha => ?_⟩, fun hc a => ?_⟩⟩
  · exact portRequest_answers h (takeConfigureClient_binds (hopen hs hl) (clientOfByte_ofNat c) rfl)
  · obtain ⟨hexclusive, hshared⟩ := bindingOfBytes_line (leaseOfByte_ofNat l) ht
    exact ⟨portRequest_answers h (takeConfigureClient_binds (hopen hs hl) (clientOfByte_ofNat c) hexclusive),
      portRequest_answers h (takeConfigureClient_binds (hopen hs hl) (clientOfByte_ofNat c) hshared)⟩
  · exact portRequest_answers h (takeConfigureClient_outOfRange (hopen hs hl)
      (hout.imp (clientOfByte_none c) bindingOfBytes_none))
  · exact portRequest_answers h (takeConfigureClient_closed (hclosed hc))
  · exact portRequest_answers h (takeConfigureWatch_open (hopen hs hl))
  · exact portRequest_answers h (takeConfigureWatch_closed (hclosed hc))
  · exact portRequest_answers h (takeConfigureOptions_open (hopen hs hl)).1
  · exact portRequest_answers h (takeConfigureOptions_open (hopen hs hl)).2
  · exact portRequest_answers h (takeConfigureOptions_outOfRange (hopen hs hl) ha)
  · exact portRequest_answers h (takeConfigureOptions_closed (hclosed hc))

/-! ### START and REJOIN (R133, R172, R180) -/

theorem takeStart_standby {s : State} (h : s.localState = .standby) :
    takeStart s = ([0x00], enterSeeking { s with config := { s.config with locked := true } }) := if_pos h

theorem takeStart_refused {s : State} (h : s.localState ≠ .standby) : takeStart s = ([0x80], s) := if_neg h

theorem takeRejoin_detached {s : State} (h : s.localState = .detached) :
    takeRejoin s = ([0x00], enterSeeking s) := if_pos h

theorem takeRejoin_refused {s : State} (h : s.localState ≠ .detached) : takeRejoin s = ([0x80], s) := if_neg h

/-- Settles O11, by the local state: both enter SEEKING alike, START with the lock set. -/
theorem startAndRejoinSeek : Obligations.StartAndRejoinSeek := by
  refine ⟨fun s h => ⟨fun hs => ?_, fun hs => ?_⟩, fun s h => ⟨fun hs => ?_, fun hs => ?_⟩⟩
  · exact portRequest_answers h (takeStart_standby hs)
  · exact portRequest_answers h (takeStart_refused hs)
  · exact portRequest_answers h (takeRejoin_detached hs)
  · exact portRequest_answers h (takeRejoin_refused hs)

end Sys2Proof.Machine
end

section
/-! PROOFS. The end of an exchange, and the edges on the wires of the port (R162 to R165, R181; log entries 3, 8,
34). -/

namespace Sys2Proof.Machine

/-! ### The end of an exchange (R165, R181; log entry 8) -/

theorem takeReset_resetLow (s : State) : (takeReset s).resetLow = s.resetLow := by
  rw [takeReset]
  split <;> rfl

theorem takeReset_exchange (s : State) : (takeReset s).exchange = none := by
  rw [takeReset]
  split <;> rfl

theorem endExchange_none {s : State} (h : s.exchange = none) : endExchange s = s := by
  rw [endExchange, h]

theorem endExchange_reset {s : State} {x : Exchange} (h : s.exchange = some x) (hx : x.code = 0x4F) :
    endExchange s = takeReset s := by
  rw [endExchange, h]
  exact if_pos hx

section
variable {s t : State}

/-- A request sees of the state only what the end of the exchange before it leaves. -/
theorem portRequest_of_endExchange (hs : s.resetLow = false) (ht : t.resetLow = false)
    (h : endExchange s = endExchange t) (code : Byte) (act : State → List Byte × State) :
    (Host.Outcome.next (portRequest code act s) : Host.Outcome State Fault Refusal) =
      .next (portRequest code act t) := by
  have htake : takeRequest code act s = takeRequest code act t := by rw [takeRequest, h, takeRequest]
  exact (guarded_high (takeRequest code act) hs).trans
    ((congrArg (fun u => Host.Outcome.next (driveOutputs u)) htake).trans (guarded_high (takeRequest code act) ht).symm)

theorem discardExchange_of_endExchange (h : endExchange s = endExchange t) : discardExchange s = discardExchange t := by
  rw [discardExchange, h, discardExchange]

theorem exec_of_endExchange {c : Instr} (hs : s.resetLow = false) (ht : t.resetLow = false)
    (h : endExchange s = endExchange t)
    (hc : (∃ bytes, bytesOfRequest c = some bytes) ∨ ∃ bytes, c = .exchangeDiscarded bytes) :
    exec c s = exec c t := by
  rcases hc with ⟨bytes, hbytes⟩ | ⟨clocked, rfl⟩
  · cases c with
    | status | configureClient | configureWatch | configureOptions | start | acquire | release | renew | readLease
    | readRoster | takeNotice | leave | rejoin | reset | unknownRequest =>
      exact portRequest_of_endExchange hs ht h _ _
    | _ => cases hbytes
  · exact (guarded_high discardExchange hs).trans
      ((congrArg (fun u => Host.Outcome.next (driveOutputs u)) (discardExchange_of_endExchange h)).trans
        (guarded_high discardExchange ht).symm)

end

/-- Settles O13: a request and a discarded exchange begin with the end of the exchange before them. -/
theorem exchangeEnds : Obligations.ExchangeEnds := by
  refine ⟨fun s h => portRequest_answers h rfl, fun c s x hr hx hcode hc => ?_, fun clocked s h => ?_⟩
  · obtain ⟨hsoft, -⟩ := exec_softReset_high hr
    have hend : endExchange s = endExchange (takeReset s) := by
      rw [endExchange_reset hx hcode, endExchange_none (takeReset_exchange s)]
    exact ⟨hsoft, exec_of_endExchange hr ((takeReset_resetLow s).trans hr) hend hc⟩
  · refine (guarded_high discardExchange h.1).trans ?_
    rw [discardExchange, endExchange_ready s h]
    rfl

/-! ### Edges at a step (R162, R163; log entries 3, 34) -/

section
variable {s : State} {e : PortInput}

/-- The step at an edge that completes a command. -/
theorem step_portCommand {c : Instr} (hp : s.pending = []) (hr : s.resetLow = false) (hdue : dueEvent s = none)
    (hnext : s.portInput.head? = some e) (he : e ≠ .pause) (hc : portCommand e s = some c) :
    step s = exec c (dropInput s) := by
  obtain ⟨rest, hrest⟩ := List.head?_eq_some_iff.1 hnext
  have hstep := (step_empty hp).trans (idleStep_edge s e hdue hr (nextEdge_cons s e rest hr hrest he))
  simp only [hc] at hstep
  exact hstep

/-- The step at an edge that completes none. -/
theorem step_portEdge (hp : s.pending = []) (hr : s.resetLow = false) (hdue : dueEvent s = none)
    (hnext : s.portInput.head? = some e) (he : e ≠ .pause) (hc : portCommand e s = none) :
    step s = .next (portEdge e (dropInput s)) := by
  obtain ⟨rest, hrest⟩ := List.head?_eq_some_iff.1 hnext
  have hstep := (step_empty hp).trans (idleStep_edge s e hdue hr (nextEdge_cons s e rest hr hrest he))
  simp only [hc] at hstep
  exact hstep

theorem portCommand_taken_rise {x : Exchange} {ldi : Bool} (hs : s.serial.selected = true) (hx : s.exchange = some x) :
    portCommand (.lclkRise ldi) s = none :=
  (portCommand_taken _ hs hx).trans (if_neg fun ⟨hlow, _⟩ => PortInput.noConfusion hlow)

/-- A bit that completes no byte completes no command. -/
theorem portCommand_rise_bit {ldi : Bool} (hs : s.serial.selected = true) (h : s.serial.bits.length < 7) :
    portCommand (.lclkRise ldi) s = none := by
  cases hx : s.exchange with
  | none =>
    rw [portCommand_begun _ hs hx]
    dsimp only
    rw [shiftIn_eq, if_pos h]
    exact if_neg (List.append_ne_nil_of_right_ne_nil _ (List.cons_ne_nil _ _))
  | some x => exact portCommand_taken_rise hs hx

/-- The eighth bit before the take completes a byte, and the bytes are a request or not yet. -/
theorem portCommand_rise_byte {ldi : Bool} (hs : s.serial.selected = true) (hx : s.exchange = none)
    (h : 7 ≤ s.serial.bits.length) :
    portCommand (.lclkRise ldi) s =
      requestOfBytes (s.serial.bytes ++ [byteOfBits (s.serial.bits ++ [ldi])]) := by
  rw [portCommand_begun _ hs hx]
  dsimp only
  rw [shiftIn_eq, if_neg (Nat.not_lt.2 h)]
  rfl

/-- A rise of LSEL while it is high, and a fall of LCLK, complete no command. -/
theorem portCommand_quiet (hs : s.serial.selected = true) (he : e = .lselHigh ∨ e = .lclkFall) :
    portCommand e s = none := by
  cases hx : s.exchange with
  | none =>
    rw [portCommand_begun e hs hx]
    rcases he with rfl | rfl <;> rfl
  | some x =>
    rw [portCommand_taken e hs hx, if_neg]
    rintro ⟨hlow, -⟩
    rcases he with rfl | rfl <;> cases hlow

end

theorem byteOfBits_bits (b : Byte) :
    byteOfBits [b.getLsbD 7, b.getLsbD 6, b.getLsbD 5, b.getLsbD 4, b.getLsbD 3, b.getLsbD 2, b.getLsbD 1,
      b.getLsbD 0] = b := by
  revert b
  decide

section
variable {s : State}

/-- Before the take the phase counts the argument bytes still to come (R163). -/
theorem portPhase_arguments {code : Byte} {args : List Byte} (hs : s.serial.selected = true) (hx : s.exchange = none)
    (hb : s.serial.bytes = code :: args) :
    portPhase s = .arguments ((requestArgumentCount code).getD 0 - args.length) := by
  rw [portPhase, hs, hx, hb]
  exact congrArg PortPhase.arguments (Nat.add_sub_add_left _ _ _)

theorem portPhase_code (hs : s.serial.selected = true) (hx : s.exchange = none) (hb : s.serial.bytes = []) :
    portPhase s = .code := by
  rw [portPhase, hs, hx, hb]

/-- After the take the phase follows from the bytes shifted out (R163). -/
theorem portPhase_after {x : Exchange} (hs : s.serial.selected = true) (hx : s.exchange = some x) :
    portPhase s =
      if s.serial.shifted = 0 then .taken else if s.serial.shifted < x.response.length then .response else .filler := by
  rw [portPhase, hs, hx]

end

/-! ### What an edge does to the port (R162, R163) -/

section
variable {s : State}

/-- The wires beside an exchange that is left as it is. -/
theorem exchange_kept {x : Option Exchange} (hx : s.exchange = x) (q : SerialPort) :
    { s with serial := q } = { s with exchange := x, serial := q } := by
  rw [← hx]

theorem nextLdo_before (hx : s.exchange = none) : nextLdo s = true := by
  rw [nextLdo, hx]

theorem nextLdo_after {x : Exchange} (hx : s.exchange = some x) :
    nextLdo s = (x.response.getD s.serial.shifted 0xFF).getLsbD (7 - s.serial.bits.length) := by
  rw [nextLdo, hx]
  rfl

theorem portEdge_fall (hs : s.serial.selected = true) {x : Option Exchange} (hx : s.exchange = x) {level : Bool}
    (hl : nextLdo s = level) :
    portEdge .lclkFall s = { s with exchange := x, serial := { s.serial with ldo := some level } } := by
  rw [portEdge_selected _ hs, ← hl]
  exact exchange_kept hx _

theorem portEdge_rise (hs : s.serial.selected = true) {x : Option Exchange} (hx : s.exchange = x) {ldi : Bool}
    {q : SerialPort} (hq : shiftIn ldi s.serial x.isSome = q) :
    portEdge (.lclkRise ldi) s = { s with exchange := x, serial := q } := by
  rw [portEdge_selected _ hs, ← hq, ← hx]

theorem shiftIn_bit {ldi : Bool} {p : SerialPort} (taken : Bool) (h : p.bits.length < 7) :
    shiftIn ldi p taken = { p with bits := p.bits ++ [ldi] } :=
  (shiftIn_eq ldi p taken).trans (if_pos h)

/-- The eighth bit completes a byte of the request. -/
theorem shiftIn_requestByte {ldi : Bool} {p : SerialPort} (h : 7 ≤ p.bits.length) :
    shiftIn ldi p false = { p with bits := [], bytes := p.bytes ++ [byteOfBits (p.bits ++ [ldi])] } :=
  (shiftIn_eq ldi p false).trans (if_neg (Nat.not_lt.2 h))

/-- After the take the eighth bit ends a byte of the response. -/
theorem shiftIn_responseByte {ldi : Bool} {p : SerialPort} (h : 7 ≤ p.bits.length) :
    shiftIn ldi p true = { p with bits := [], shifted := p.shifted + 1 } :=
  (shiftIn_eq ldi p true).trans (if_neg (Nat.not_lt.2 h))

end

/-- Settles O14, edge by edge, and before the take or after it. -/
theorem portEdges : Obligations.PortEdges := by
  refine ⟨fun s hp hr hdue => ?_, byteOfBits_bits, fun s => ⟨fun hs => portPhase_free hs, fun hs =>
    ⟨fun hx => ⟨fun hb => portPhase_code hs hx hb, fun code args hb => portPhase_arguments hs hx hb⟩, fun x hx => ?_⟩⟩⟩
  · intro p next after port
    have hcommand : ∀ {e c}, next e → e ≠ .pause → portCommand e s = some c → step s = exec c after :=
      fun hn he hc => step_portCommand hp hr hdue hn he hc
    have hmoves : ∀ {e x q}, next e → e ≠ .pause → portCommand e s = none →
        portEdge e after = { after with exchange := x, serial := q } → port x q :=
      fun hn he hc hq => (step_portEdge hp hr hdue hn he hc).trans (congrArg _ hq)
    refine ⟨fun hs => ⟨fun hn => ?_, fun e hn he hpause => ?_⟩,
      fun hs => ⟨fun hn => ?_, fun hn => ⟨fun hx => ?_, fun x hx => ⟨fun hcode => ?_, fun hcode => ?_⟩⟩,
        fun hn => ⟨fun hx => ?_, fun x hx => ?_⟩, fun ldi hn => ?_⟩⟩
    · exact hmoves hn nofun (portCommand_free _ hs) (portEdge_free (s := after) _ hs)
    · exact hmoves hn hpause (portCommand_free e hs) ((portEdge_free (s := after) e hs).trans (if_neg he))
    · exact hmoves hn nofun (portCommand_quiet hs (.inl rfl)) (portEdge_selected (s := after) _ hs)
    · exact hcommand hn nofun (portCommand_begun _ hs hx)
    · exact hcommand hn nofun ((portCommand_taken _ hs hx).trans (if_pos ⟨rfl, hcode⟩))
    · exact hmoves hn nofun ((portCommand_taken _ hs hx).trans (if_neg fun ⟨_, h⟩ => hcode h))
        (portEdge_selected (s := after) _ hs)
    · exact hmoves hn nofun (portCommand_quiet hs (.inr rfl)) (portEdge_fall (s := after) hs hx (nextLdo_before hx))
    · exact hmoves hn nofun (portCommand_quiet hs (.inr rfl)) (portEdge_fall (s := after) hs hx (nextLdo_after hx))
    · intro bytes
      refine ⟨fun hbits => ?_, fun hbits => ⟨fun x hx => ?_, fun hx => ⟨fun c hc => ?_, fun hc => ?_⟩⟩⟩
      · exact hmoves hn nofun (portCommand_rise_bit hs hbits) (portEdge_rise (s := after) hs rfl (shiftIn_bit _ hbits))
      · exact hmoves hn nofun (portCommand_taken_rise hs hx)
          (portEdge_rise (s := after) hs hx (shiftIn_responseByte hbits))
      · exact hcommand hn nofun ((portCommand_rise_byte hs hx hbits).trans hc)
      · exact hmoves hn nofun ((portCommand_rise_byte hs hx hbits).trans hc)
          (portEdge_rise (s := after) hs hx (shiftIn_requestByte hbits))
  · rw [portPhase_after hs hx]
    refine ⟨fun h0 => if_pos h0, fun h0 h1 => ?_, fun h0 h1 => ?_⟩
    · rw [if_neg h0.ne', if_pos h1]
    · rw [if_neg h0.ne', if_neg (Nat.not_lt.2 h1)]

end Sys2Proof.Machine
end

section
/-! PROOFS. The lease requests at the local port: ACQUIRE, RELEASE, RENEW (R120 to R125, R173 to R175). -/

namespace Sys2Proof.Machine

/-! ### What the checks read (R116, R173, R175) -/

/-- No holder and no waiter of the entry is of the tag. -/
theorem not_tagIn {s : State} {l : Lease} {t : Tag}
    (h : ∀ e, s.leases[l] = some e → (∀ g ∈ e.holders, g.tag ≠ t) ∧ ∀ w ∈ e.waiters, w.tag ≠ t) : ¬ TagIn s l t := by
  rintro ⟨e, he, htag⟩
  obtain ⟨hholders, hwaiters⟩ := h e he
  rcases htag with ⟨g, hg, hgt⟩ | ⟨w, hw, hwt⟩
  · exact hholders g hg hgt
  · exact hwaiters w hw hwt

theorem isPortClient_port {s : State} {c : Client} (h : s.config.bindings[c] = .port) : isPortClient s c = true :=
  decide_eq_true h

theorem isPortClient_line {s : State} {c : Client} (h : s.config.bindings[c] ≠ .port) : isPortClient s c = false :=
  decide_eq_false h

theorem memberRefusal_other {x : LocalState} (hm : x ≠ .member) (hl : x ≠ .leaving) :
    memberRefusal x = some 0x80 := by
  cases x with
  | member => exact absurd rfl hm
  | leaving => exact absurd rfl hl
  | _ => rfl

/-! ### ACQUIRE (R120, R124, R173) -/

theorem placeAcquire_duplicate {q : OutboundQueue} {l : Lease} {c : Client} (m : Mode) (t p : Nat)
    (h : ¬ PairAbsent q l c) : placeAcquire l c m t p q = (.duplicate, q) := by
  refine if_pos ?_
  cases ha : acquireSlot l c q with
  | some k => rfl
  | none =>
    cases hr : releaseSlot l c q with
    | some k => rfl
    | none => exact absurd ((pairAbsent_iff q l c).2 ⟨ha, hr⟩) h

section
variable {s : State} {lease cm term patience : Byte}

theorem takeAcquire_refused {code : Byte} (h : memberRefusal s.localState = some code) :
    takeAcquire lease cm term patience s = ([code], s) := by
  rw [takeAcquire, h]

theorem takeAcquire_badArgument (hm : s.localState = .member) (h : 64 ≤ lease.toNat ∨ term = 0) :
    takeAcquire lease cm term patience s = ([0x81], s) := by
  rw [takeAcquire, hm]
  rcases h with h | h
  · rw [leaseOfByte_none lease h]
    rfl
  · cases leaseOfByte lease with
    | none => rfl
    | some l => exact if_pos h

variable {l : Lease} (hm : s.localState = .member) (hl : leaseOfByte lease = some l) (ht : term ≠ 0)
include hm hl ht

theorem takeAcquire_checked :
    takeAcquire lease cm term patience s =
      placeAcquireRequest l (clientOfLowBits cm) (modeOfBit (cm.getLsbD 7)) term.toNat patience.toNat s := by
  rw [takeAcquire, hm, hl]
  exact if_neg ht

theorem takeAcquire_lineClient (hb : s.config.bindings[clientOfLowBits cm] ≠ .port) :
    takeAcquire lease cm term patience s = ([0x82], s) := by
  rw [takeAcquire_checked hm hl ht, placeAcquireRequest, isPortClient_line hb]
  rfl

variable (hb : s.config.bindings[clientOfLowBits cm] = .port)
include hb

theorem takeAcquire_present (hp : TagIn s l (ownTag s (clientOfLowBits cm))) :
    takeAcquire lease cm term patience s = ([0x83], s) := by
  rw [takeAcquire_checked hm hl ht, placeAcquireRequest, isPortClient_port hb, (tagPresent_iff _ _ _).2 hp]
  rfl

/-- A request whose tag is not in the replica is answered as the outbound queue answers it. -/
theorem takeAcquire_queue {a : QueueAnswer} {response : List Byte} {q : OutboundQueue}
    (hp : ¬ TagIn s l (ownTag s (clientOfLowBits cm)))
    (hq : placeAcquire l (clientOfLowBits cm) (modeOfBit (cm.getLsbD 7)) term.toNat patience.toNat s.queue = (a, q))
    (hr : queueResponse a = response) :
    takeAcquire lease cm term patience s = (response, { s with queue := q }) := by
  rw [takeAcquire_checked hm hl ht, placeAcquireRequest, isPortClient_port hb,
    Bool.eq_false_iff.2 (mt (tagPresent_iff _ _ _).1 hp), hq, ← hr]
  rfl

theorem exec_acquire_queue (h : PortReady s) {a : QueueAnswer} {response : List Byte} {q : OutboundQueue}
    (hp : ¬ TagIn s l (ownTag s (clientOfLowBits cm)))
    (hq : placeAcquire l (clientOfLowBits cm) (modeOfBit (cm.getLsbD 7)) term.toNat patience.toNat s.queue = (a, q))
    (hr : queueResponse a = response) :
    exec (.acquire lease cm term patience) s = .next (answered 0x20 response { s with queue := q }) :=
  portRequest_answers h (takeAcquire_queue (s := { s with exchange := none }) hm hl ht hb hp hq hr)

end

/-- Settles O16, by the checks in their order, and then by what the outbound queue holds. -/
theorem acquireRequests : Obligations.AcquireRequests := by
  refine ⟨fun s l cm term patience k h hm ht hb hno hp hk => ?_, fun s lb cm term patience h => ?_⟩
  · exact exec_acquire_queue hm (leaseOfByte_ofNat l) ht hb h (not_tagIn hno)
      (placeAcquire_placed _ _ _ _ _ _ _ hp hk) rfl
  · intro client answers
    refine ⟨fun hs => ?_, fun hs hs' => ?_, fun hm hout => ?_, fun l hl hm ht => ?_⟩
    · exact portRequest_answers h (takeAcquire_refused (congrArg memberRefusal hs))
    · exact portRequest_answers h (takeAcquire_refused (memberRefusal_other hs hs'))
    · exact portRequest_answers h (takeAcquire_badArgument hm hout)
    · have hlease : leaseOfByte lb = some l := hl ▸ leaseOfByte_ofNat l
      refine ⟨fun hb => ?_, fun hb => ⟨fun e he htag => ?_, fun hno => ⟨fun hp => ?_, fun hp hf => ?_⟩⟩⟩
      · exact portRequest_answers h (takeAcquire_lineClient hm hlease ht hb)
      · exact portRequest_answers h (takeAcquire_present hm hlease ht hb ⟨e, he, htag⟩)
      · exact exec_acquire_queue hm hlease ht hb h (not_tagIn hno) (placeAcquire_duplicate _ _ _ hp) rfl
      · exact exec_acquire_queue hm hlease ht hb h (not_tagIn hno) (placeAcquire_full _ _ _ _ _ _ hp hf) rfl

/-! ### RELEASE (R122, R124, R125, R174) -/

/-- The lowest ACQUIRE slot of the pair. -/
theorem acquireSlot_first {q : OutboundQueue} {l : Lease} {c : Client} {k : Fin 8} {x : Slot} (hk : k.val < 6)
    (hx : q.slots[k] = some x) (ha : x.content.isAcquireFor l c = true)
    (hlow : ∀ (j : Fin 8) (y : Slot), j.val < k.val → q.slots[j] = some y → y.content.isAcquireFor l c = false) :
    acquireSlot l c q = some k :=
  generalSlotsWith_head_some _ q k x hk hx ha hlow

/-- A RELEASE slot of the pair is there already (R122). -/
theorem requestRelease_duplicate {s : State} {l : Lease} {c : Client} {k : Fin 8} {x : Slot} (hk : k.val < 6)
    (hx : s.queue.slots[k] = some x) (hr : x.content.isReleaseFor l c = true) :
    requestRelease l c s = (.duplicate, s) := by
  have hfound : (releaseSlot l c s.queue).isSome = true := by
    rw [Option.isSome_iff_ne_none]
    intro hnone
    rw [(releaseSlot_none l c s.queue).1 hnone k x hk hx] at hr
    cases hr
  have hplace : ∀ p, placeRelease l c p s.queue = (.duplicate, s.queue) := fun p => if_pos hfound
  simp only [requestRelease, hplace]
  rfl

/-- A RELEASE leaves the exchange at the port as it is. -/
theorem requestRelease_beside_exchange {s t : State} {l : Lease} {c : Client} {a : QueueAnswer}
    (hq : requestRelease l c s = (a, t)) (x : Option Exchange) :
    requestRelease l c { s with exchange := x } = (a, { t with exchange := x }) := by
  have hstate := requestRelease_exchange l c s x
  dsimp only at hstate
  rw [hq] at hstate
  have hanswer : (requestRelease l c { s with exchange := x }).1 = (a, t).1 := hq ▸ rfl
  exact Prod.ext hanswer hstate

section
variable {s : State} {lease client : Byte}

theorem takeRelease_wrongState (hm : s.localState ≠ .member) (hl : s.localState ≠ .leaving) :
    takeRelease lease client s = ([0x80], s) := by
  have hclosed : admitsRelease s.localState = false := by simp [admitsRelease, hm, hl]
  rw [takeRelease, hclosed]
  rfl

theorem admitsRelease_of {x : LocalState} (h : x = .member ∨ x = .leaving) : admitsRelease x = true := by
  rcases h with rfl | rfl <;> rfl

variable (hs : s.localState = .member ∨ s.localState = .leaving)
include hs

theorem takeRelease_badArgument (h : 64 ≤ lease.toNat ∨ 8 ≤ client.toNat) :
    takeRelease lease client s = ([0x81], s) := by
  rw [takeRelease, admitsRelease_of hs]
  rcases h with h | h
  · rw [leaseOfByte_none lease h]
    rfl
  · rw [clientOfByte_none client h]
    cases leaseOfByte lease <;> rfl

variable {l : Lease} {c : Client} (hl : leaseOfByte lease = some l) (hc : clientOfByte client = some c)
include hl hc

theorem takeRelease_checked : takeRelease lease client s = placeReleaseRequest l c s := by
  rw [takeRelease, admitsRelease_of hs, hl, hc]
  rfl

theorem takeRelease_lineClient (hb : s.config.bindings[c] ≠ .port) : takeRelease lease client s = ([0x82], s) := by
  rw [takeRelease_checked hs hl hc, placeReleaseRequest, isPortClient_line hb]
  rfl

variable (hb : s.config.bindings[c] = .port)
include hb

/-- A request that cancels nothing is answered as the outbound queue answers it. -/
theorem takeRelease_queue {a : QueueAnswer} {response : List Byte} {t : State} (hq : requestRelease l c s = (a, t))
    (ha : a ≠ .cancelled) (hr : queueResponse a = response) : takeRelease lease client s = (response, t) := by
  rw [takeRelease_checked hs hl hc, placeReleaseRequest, isPortClient_port hb, hq, ← hr]
  exact congrArg (Prod.mk _) (if_neg ha)

/-- A cancellation frees a general slot (R122, R125). -/
theorem takeRelease_cancelled {t : State} (hq : requestRelease l c s = (.cancelled, t)) :
    takeRelease lease client s = ([0x02], slotFreed t) := by
  rw [takeRelease_checked hs hl hc, placeReleaseRequest, isPortClient_port hb, hq]
  exact congrArg (Prod.mk _) (if_pos rfl)

theorem exec_release_queue (h : PortReady s) {a : QueueAnswer} {response : List Byte} {t : State}
    (hq : requestRelease l c s = (a, t)) (ha : a ≠ .cancelled) (hr : queueResponse a = response) :
    exec (.release lease client) s = .next (answered 0x21 response t) :=
  portRequest_answers h (takeRelease_queue (s := { s with exchange := none }) hs hl hc hb
    (requestRelease_beside_exchange hq none) ha hr)

theorem exec_release_cancelled (h : PortReady s) {t : State} (hq : requestRelease l c s = (.cancelled, t)) :
    exec (.release lease client) s = .next (answered 0x21 [0x02] (slotFreed t)) := by
  have htake := takeRelease_cancelled (s := { s with exchange := none }) hs hl hc hb
    (requestRelease_beside_exchange hq none)
  rw [slotFreed_exchange t none] at htake
  exact portRequest_answers h htake

end

/-- Settles O17, by the checks in their order, and then by the slots of the pair in the outbound queue. -/
theorem releaseRequests : Obligations.ReleaseRequests := by
  refine ⟨?_, ⟨?_, ?_⟩, fun s lb cb h => ?_⟩
  · intro s l c k h hs hb hk hrelease hplace
    have hqueued := fun hq => exec_release_queue hs (leaseOfByte_ofNat l) (clientOfByte_ofNat c) hb h
      (t := { s with queue := placeSlot k (.release l c) s.queue }) (a := .queued k) hq nofun rfl
    rcases hplace with ⟨hp, ht⟩ | ⟨j, x, hj, hx, ha, hi, hlow⟩
    · exact hqueued (requestRelease_placed s l c k hp ht hk)
    · exact hqueued (requestRelease_beside s l c k j x hk hj hx ha hi fun i y hi6 hy =>
        ⟨hrelease i y hi6 hy, fun hlt => hlow i y hlt hy⟩)
  · intro s l c k x h hm hb hrelease hk hx ha hi hlow hneeds hclients
    have hcancel := requestRelease_cancelled (acquireSlot_first hk hx ha hlow)
      ((releaseSlot_none l c s.queue).2 hrelease) ((slotInAttempt_some hx).trans hi)
    have hquiet := slotFreed_nothing_waits
      (s := notify (.withdrawn l c .localRequest) { s with queue := removeSlot k s.queue }) hm ⟨hneeds, hclients⟩
    rw [exec_release_cancelled (.inl hm) (leaseOfByte_ofNat l) (clientOfByte_ofNat c) hb h hcancel, hquiet]
    rfl
  · intro s l c k x h hs hb hrelease hk hx ha hi hlow
    have hcancel := requestRelease_cancelled (acquireSlot_first hk hx ha hlow)
      ((releaseSlot_none l c s.queue).2 hrelease) ((slotInAttempt_some hx).trans hi)
    exact exec_release_cancelled hs (leaseOfByte_ofNat l) (clientOfByte_ofNat c) hb h hcancel
  · intro answers
    refine ⟨fun hm hl => ?_, fun hs => ⟨fun hout => ?_, fun l c hl hc => ?_⟩⟩
    · exact portRequest_answers h (takeRelease_wrongState hm hl)
    · exact portRequest_answers h (takeRelease_badArgument hs hout)
    have hlease : leaseOfByte lb = some l := hl ▸ leaseOfByte_ofNat l
    have hclient : clientOfByte cb = some c := hc ▸ clientOfByte_ofNat c
    refine ⟨fun hb => ?_, fun hb => ⟨fun ⟨k, x, hk, hx, hr⟩ => ?_,
      fun hp => ⟨fun hno => ?_, fun e he htag hf => ?_⟩, fun k x hk hx ha hi hother hf => ?_⟩⟩
    · exact portRequest_answers h (takeRelease_lineClient hs hlease hclient hb)
    · exact exec_release_queue hs hlease hclient hb h (requestRelease_duplicate hk hx hr) nofun rfl
    · exact exec_release_queue hs hlease hclient hb h (requestRelease_gone s l c hp (not_tagIn hno)) nofun rfl
    · exact exec_release_queue hs hlease hclient hb h (requestRelease_full s l c hp ⟨e, he, htag⟩ hf) nofun rfl
    · have hfound := acquireSlot_first hk hx ha fun j y hj hy => (hother j y (hj.trans hk) hy).2 hj
      have hnone := (releaseSlot_none l c s.queue).2 fun j y hj hy => (hother j y hj hy).1
      exact exec_release_queue hs hlease hclient hb h
        (requestRelease_beside_full hfound hnone ((slotInAttempt_some hx).trans hi) hf) nofun rfl

/-! ### RENEW (R121, R124, R175) -/

/-- An entry that the opened RENEW slot holds is absorbed (R121). -/
theorem placeRenew_absorbed {q : OutboundQueue} {l : Lease} {c : Client} {k : Fin 8} {entries : List (Lease × Client)}
    (ho : openedRenew q = some (k, entries)) (hmem : (l, c) ∈ entries) : placeRenew l c q = (.queued k, q) := by
  rw [placeRenew, ho]
  exact if_pos (List.contains_iff_mem.2 hmem)

section
variable {s : State} {lease client : Byte}

theorem takeRenew_refused {code : Byte} (h : memberRefusal s.localState = some code) :
    takeRenew lease client s = ([code], s) := by
  rw [takeRenew, h]

theorem takeRenew_badArgument (hm : s.localState = .member) (h : 64 ≤ lease.toNat ∨ 8 ≤ client.toNat) :
    takeRenew lease client s = ([0x81], s) := by
  rw [takeRenew, hm]
  rcases h with h | h
  · rw [leaseOfByte_none lease h]
    rfl
  · rw [clientOfByte_none client h]
    cases leaseOfByte lease <;> rfl

variable {l : Lease} {c : Client} (hm : s.localState = .member) (hl : leaseOfByte lease = some l)
  (hc : clientOfByte client = some c)
include hm hl hc

theorem takeRenew_checked : takeRenew lease client s = placeRenewRequest l c s := by
  rw [takeRenew, hm, hl, hc]
  rfl

theorem takeRenew_lineClient (hb : s.config.bindings[c] ≠ .port) : takeRenew lease client s = ([0x82], s) := by
  rw [takeRenew_checked hm hl hc, placeRenewRequest, isPortClient_line hb]
  rfl

variable (hb : s.config.bindings[c] = .port)
include hb

theorem takeRenew_notPresent (hh : liveHolderOf s l (ownTag s c) = none) :
    takeRenew lease client s = ([0x85], s) := by
  rw [takeRenew_checked hm hl hc, placeRenewRequest, isPortClient_port hb, hh]
  rfl

/-- The renewal of a LIVE hold is answered as the outbound queue answers it. -/
theorem takeRenew_queue {a : QueueAnswer} {response : List Byte} {q : OutboundQueue} {e : LeaseEntry}
    (he : s.leases[l] = some e) (hlive : ∃ h ∈ e.holders, h.tag = ownTag s c ∧ h.status = .live)
    (hq : placeRenew l c s.queue = (a, q)) (hr : queueResponse a = response) :
    takeRenew lease client s = (response, { s with queue := q }) := by
  obtain ⟨h, hmem, htag, hstatus⟩ := hlive
  obtain ⟨g, hg⟩ := Option.isSome_iff_exists.1
    ((liveHolderOf_isSome_iff s l (ownTag s c)).2 ⟨e, h, he, hmem, htag, hstatus⟩)
  rw [takeRenew_checked hm hl hc, placeRenewRequest, isPortClient_port hb, hg, hq, ← hr]
  rfl

theorem exec_renew_queue (h : PortReady s) {a : QueueAnswer} {response : List Byte} {q : OutboundQueue} {e : LeaseEntry}
    (he : s.leases[l] = some e) (hlive : ∃ h ∈ e.holders, h.tag = ownTag s c ∧ h.status = .live)
    (hq : placeRenew l c s.queue = (a, q)) (hr : queueResponse a = response) :
    exec (.renew lease client) s = .next (answered 0x22 response { s with queue := q }) :=
  portRequest_answers h (takeRenew_queue (s := { s with exchange := none }) hm hl hc hb he hlive hq hr)

end

/-- Settles O18, by the checks in their order, and then by the opened RENEW slot. -/
theorem renewRequests : Obligations.RenewRequests := by
  refine ⟨fun s l c k e h hm hb he hlive => ?_, fun s lb cb h => ?_⟩
  · intro answers
    have hanswers : ∀ {q}, placeRenew l c s.queue = (.queued k, q) → answers q := fun hq =>
      exec_renew_queue hm (leaseOfByte_ofNat l) (clientOfByte_ofNat c) hb h he hlive hq rfl
    refine ⟨fun hnone hk => hanswers (placeRenew_placed hnone hk), fun x entries hk hx hcontent hopened hfirst => ?_⟩
    have hslot : openedRenew s.queue = some (k, entries) :=
      openedRenew_first s.queue k x entries hk hx hcontent hopened hfirst
    exact ⟨fun hmem => hanswers (placeRenew_absorbed hslot hmem),
      fun hnew hroom => hanswers (placeRenew_appended hslot hx hnew hroom)⟩
  · intro answers
    refine ⟨fun hs => ?_, fun hs hs' => ?_, fun hm => ⟨fun hout => ?_, fun l c hl hc => ?_⟩⟩
    · exact portRequest_answers h (takeRenew_refused (congrArg memberRefusal hs))
    · exact portRequest_answers h (takeRenew_refused (memberRefusal_other hs hs'))
    · exact portRequest_answers h (takeRenew_badArgument hm hout)
    have hlease : leaseOfByte lb = some l := hl ▸ leaseOfByte_ofNat l
    have hclient : clientOfByte cb = some c := hc ▸ clientOfByte_ofNat c
    refine ⟨fun hb => ?_, fun hb => ⟨fun hfenced => ?_, fun e he hlive => ⟨fun hnone hf => ?_, ?_⟩⟩⟩
    · exact portRequest_answers h (takeRenew_lineClient hm hlease hclient hb)
    · exact portRequest_answers h (takeRenew_notPresent hm hlease hclient hb (liveHolderOf_none hfenced))
    · exact exec_renew_queue hm hlease hclient hb h he hlive (placeRenew_slotsFull hnone hf) rfl
    · intro k x entries hk hx hcontent hopened hfirst hnew hfull
      exact exec_renew_queue hm hlease hclient hb h he hlive
        (placeRenew_renewFull (openedRenew_first s.queue k x entries hk hx hcontent hopened hfirst) hnew hfull) rfl

end Sys2Proof.Machine
end

section
/-! PROOFS. The notification queue: how a notice arrives, and what every step keeps of the queue (R184, R187). -/

namespace Sys2Proof.Machine

/-! ### The arrival of a notice (R187) -/

/-- A queue with room for the notice and for an OVERFLOW record after it takes the notice at its tail. -/
theorem arrive_tail {n : Notice} {q : List Notice} (hnone : ∀ m ∈ q, m.isOverflow = false) (hroom : q.length < 31) :
    arrive n q = q ++ [n] := by
  have hlimit : q.length + 1 < Config.noticeLimit := Nat.succ_lt_succ hroom
  rw [arrive_no_overflow n q hnone, if_pos hlimit]

/-- The last place is kept for the OVERFLOW record, which has the stamp of the notice it stands for. -/
theorem arrive_opens_overflow {n : Notice} {q : List Notice} (hnone : ∀ m ∈ q, m.isOverflow = false)
    (hfull : q.length = 31) : arrive n q = q ++ [{ stamp := n.stamp, body := .overflow 1 }] := by
  have hlimit : ¬ q.length + 1 < Config.noticeLimit := by rw [hfull]; decide
  rw [arrive_no_overflow n q hnone, if_neg hlimit]

/-- One more notice counted: up to 255, and the stamp stays. -/
theorem countOne_overflow (stamp : BitVec 16) (count : Nat) :
    Notice.countOne { stamp := stamp, body := .overflow count } =
      { stamp := stamp, body := .overflow (if count + 1 < 255 then count + 1 else 255) } := by
  have hmin : min (count + 1) Config.overflowLimit = if count + 1 < 255 then count + 1 else 255 := by
    rw [Config.overflowLimit]
    split
    · next hbelow => exact min_eq_left hbelow.le
    · next hreached => exact min_eq_right (not_lt.1 hreached)
  rw [← hmin]
  rfl

/-- A legal queue holds at most 32 records: 31 and the OVERFLOW record (R187). -/
theorem NoticesLegal.length_le {q : List Notice} (h : NoticesLegal q) : q.length ≤ 32 := by
  obtain ⟨front, n, rfl, -, hfront, -⟩ | ⟨hlength, -⟩ := h
  · rw [List.length_append, List.length_singleton]
    exact Nat.succ_le_succ hfront
  · exact hlength.trans (by decide)

/-- Settles O56, row by row of the table of R187. -/
theorem noticeArrives : Obligations.NoticeArrives := by
  intro n q
  refine ⟨arrive_tail, arrive_opens_overflow, fun hq hn => ?_, fun front stamp count hfront => ?_⟩
  · have hlegal : NoticesLegal (arrive n q) := arrive_legal n q hn hq
    exact ⟨hlegal, hlegal.length_le⟩
  · rw [arrive_overflow n _ front rfl hfront, countOne_overflow]

/-! ### What every step keeps -/

/-- The wires of the port are no part of the notification queue. -/
theorem WiresOnly.noticesLegal {s t : State} (h : WiresOnly s t) (hs : NoticesLegal s.notices) :
    NoticesLegal t.notices := by
  rw [h]
  exact hs

/-- Settles O55, by what every command and every cycle of the clock keeps. -/
theorem stepKeepsTheNoticeQueue : Obligations.StepKeepsTheNoticeQueue := by
  intro s t hs h
  exact step_keeps (fun u => NoticesLegal u.notices) (fun _ _ hu => hu) (fun c u v hu hx => exec_notices c u v hx hu)
    (fun u => (clockCycle_command u).notices) (fun _ _ hw => hw.noticesLegal) s t hs h

end Sys2Proof.Machine
end

section
/-! PROOFS. The bytes of the notice records (R193). -/

namespace Sys2Proof.Machine

/-! ### The layout of a record, with a grant number and without one -/

section
variable (kind : Byte) (stamp : BitVec 16) (lease station client reason : Byte) (grant : BitVec 16) (last : Byte)

/-- Every record lays its fields out in this order, each word with its high byte first. -/
theorem recordOf_grant : recordOf kind stamp lease station client reason grant last =
    [kind, stamp.extractLsb' 8 8, stamp.extractLsb' 0 8, lease, station, client, reason,
      grant.extractLsb' 8 8, grant.extractLsb' 0 8, last] := rfl

/-- An absent grant number reads as two zero bytes. -/
theorem recordOf_noGrant : recordOf kind stamp lease station client reason 0 last =
    [kind, stamp.extractLsb' 8 8, stamp.extractLsb' 0 8, lease, station, client, reason, 0, 0, last] := by
  have hhigh : (0 : BitVec 16).extractLsb' 8 8 = 0 := by decide
  have hlow : (0 : BitVec 16).extractLsb' 0 8 = 0 := by decide
  rw [recordOf_grant, hhigh, hlow]

end

/-- Settles O9, kind by kind, by whether the kind carries a grant number. -/
theorem noticeRecordBytes : Obligations.NoticeRecordBytes := by
  intro stamp g l c i p
  refine ⟨?granted, ?queued, ?busy, ?queueFull, ?duplicate, ?timedOut, ?released, ?localRequest, ?committed,
    ?notPresent, ?expired, ?isolated, ?removed, ?diverged, ?tailError, ?foreign, ?leaving, ?sendFailedAcquire,
    ?sendFailedRelease, ?sendFailedRenew, ?sendFailedJoin, ?sendFailedLeave, ?watchAdded, ?watchDropped,
    ?rosterJoined, ?rosterMember, ?rosterLeft, ?rosterRemoved, ?rosterDeniedFull, ?stateSeeking, ?stateJoining,
    ?stateMember, ?stateLeaving, ?stateDetached, ?overflow⟩
  case granted | released | expired => exact recordOf_grant ..
  case isolated | removed | diverged | tailError | foreign | leaving => exact recordOf_grant ..
  case watchAdded | watchDropped => exact recordOf_grant ..
  case queued | timedOut | overflow => exact recordOf_noGrant ..
  case busy | queueFull | duplicate => exact recordOf_noGrant ..
  case localRequest | committed | notPresent => exact recordOf_noGrant ..
  case sendFailedAcquire | sendFailedRelease | sendFailedRenew | sendFailedJoin | sendFailedLeave =>
    exact recordOf_noGrant ..
  case rosterJoined | rosterMember | rosterLeft | rosterRemoved | rosterDeniedFull => exact recordOf_noGrant ..
  case stateSeeking | stateJoining | stateMember | stateLeaving | stateDetached => exact recordOf_noGrant ..

end Sys2Proof.Machine
end

section
/-! PROOFS. The step on a queue that holds a command (log entry 22). -/

namespace Sys2Proof.Machine

/-- Settles O1, by the branch of the step for a queue with a command at its front. -/
theorem stepRunsTheFrontCommand : Obligations.StepRunsTheFrontCommand := by
  intro c rest s hfront
  unfold step
  rw [hfront]

end Sys2Proof.Machine
end
